-- ==== Sys2Proof/Word.lean ====
section
/-! DEFINITION. The words of the part: a byte of a control port, an audio sample, a kind set. -/

namespace Sys2Proof

/-- A byte on a control port (R177). -/
abbrev Byte := BitVec 8

/-- A 24-bit two's-complement audio sample (Conventions; R25, R104). -/
abbrev Sample := BitVec 24

/-- A kind set as the ports carry it: the bit of value `2^k` stands for kind code `k`
(section 10.6). -/
abbrev KindSet := BitVec 16

end Sys2Proof
end

