-- ==== Sys2Proof/Config.lean ====
section
/-! DEFINITION. What one implementation fixes: the constants the rules give, the unit of real time
the model counts in, and the free values (constants with no body, which nothing can evaluate). -/

namespace Sys2Proof.Config

/-! ## Constants the rules state -/

/-- House frames in a block (Conventions; R32). -/
def framesPerBlock : Nat := 4800

/-- Cells of the delay memory: 16,384 pages of 1,024 cells (R104). -/
def memoryCells : Nat := 16777216

/-- Cells in a page (R104). -/
def cellsPerPage : Nat := 1024

/-- Frames a converter FIFO holds at most (R41). -/
def fifoFrames : Nat := 256

/-- The lower bound of the accepted range of R, `0.625 × 2^28` (R41). -/
def ratioLow : Nat := 167772160

/-- The upper bound of the accepted range of R, `floor(2.05 × 2^28)` (R41). -/
def ratioHigh : Nat := 550292684

/-- Entries the alarm log holds at most (R160). -/
def logCapacity : Nat := 128

/-- The high-water mark of the alarm log (R173). -/
def highWater : Nat := 96

/-- Entries a gain schedule holds at most (R88). -/
def scheduleCapacity : Nat := 32

/-- House frames of an output fade, a loss or lock fade and a closing fade (R46, R96, R98). -/
def fadeFrames : Nat := 480

/-- Frames kept as a guard below a lane's capacity (R109). -/
def guardFrames : Nat := 128

/-! ## Real time

The rules measure timers in real time and hold the reference period "in units of the internal
oscillator" (R33) without giving that unit. The model counts time in units of `1 / 48,000,000,000` s,
so that the nominal period, 10 µs, 100 µs, a second and 20 ppm of the nominal period are all whole
numbers of units (assumption 1, DESIGN CHOICE). -/

/-- The nominal house frame period, 1/48,000 s (R37). -/
def nominalPeriod : Nat := 1000000

/-- The 100 µs limit of the absence timers (R28, R34). -/
def absenceLimit : Nat := 4800000

/-- The 10 µs below which a REF pulse is ignored (R33). -/
def refDeadTime : Nat := 480000

/-- One second, for the attendance timers (R163). -/
def second : Nat := 48000000000

/-- The most an attendance timer counts to: 255 seconds (R163). -/
def attendanceMost : Nat := 255 * second

/-! ## Free values -/

/-- The FREE CHOICE made where a rule says that either of two things may be taken first, and where an
exact tie has no stated outcome. The argument is a plain counter of State, so every choice is a fresh
one (assumption 3). Nothing constrains it. -/
opaque choice : Nat → Nat

/-- The FREE numerator of the interpolation kernel's coefficient of one of the sixteen places at a
non-zero fraction (R46 gives the coefficients at fraction 0 only; assumption 4). Place number `i`
stands for place `k = i − 7`. -/
opaque kernelNumerator : BitVec 28 → Fin 16 → Int

/-- One less than the FREE common denominator of the kernel's coefficients (assumption 4). -/
opaque kernelScale : Nat

end Sys2Proof.Config
end

