-- ==== Sys2Proof/Syntax.lean ====
section
/-! DEFINITION. The commands of the part: one constructor of `Instr` for each row of
spec/opcode_table.json, with the operands its rule gives it. -/

namespace Sys2Proof

/-- The two control ports (Conventions, Numbering and naming). -/
inductive Port where
  | a
  | b
  deriving DecidableEq, Repr

/-- A command: one step of the part, whole and indivisible (95_what_each_step_holds.md).

A row that ends a transaction stands for the release of the port's select. It carries the bits the
controller clocked into SDI during the transaction: the rows NULL, UNKNOWN, LENGTH and
PENDING_TRANSACTION_END carry them raw (`sdi`), the request rows carry the fields of their body and
the `surplus` bits clocked after the frame (R177, R179). -/
inductive Instr where
  /-- POWER_ON_RESET (R23). -/
  | powerOnReset
  /-- WARM_RESET_ASSERT (R24): RESETn is asserted. -/
  | warmResetAssert
  /-- WARM_RESET_RELEASE (R31): RESETn is released. -/
  | warmResetRelease
  /-- FRAME_ARRIVAL (R27): the 256th data bit after a frame-sync mark. The frame's first bit is the
  most significant bit of `frame` (R25). -/
  | frameArrival (link : Fin 8) (frame : BitVec 256)
  /-- RECEIVER_ABSENCE_EXPIRY (R28): the absence timer of a receiver passes 100 µs. -/
  | receiverAbsenceExpiry (link : Fin 8)
  /-- REF_PULSE (R33). -/
  | refPulse
  /-- REF_ABSENCE_EXPIRY (R34). -/
  | refAbsenceExpiry
  /-- HOUSE_FRAME (R32): a house frame instant. -/
  | houseFrame
  /-- BLOCK_END (R32): the block end at the house frame instant just taken. -/
  | blockEnd
  /-- SELECT_ASSERT (R178). -/
  | selectAssert (port : Port)
  /-- NULL (R179): a release after no whole byte, or after a first byte of 0. -/
  | null (port : Port) (sdi : List Bool)
  /-- UNKNOWN (R179): a release after a first byte that is no request code. -/
  | unknown (port : Port) (sdi : List Bool)
  /-- LENGTH (R179): a release after a known request code in a frame of the wrong length. -/
  | length (port : Port) (sdi : List Bool)
  /-- PENDING_TRANSACTION_END (R181): the release of a pending transaction. -/
  | pendingTransactionEnd (port : Port) (sdi : List Bool)
  /-- IDENTIFY (R184). -/
  | identify (port : Port) (surplus : List Bool)
  /-- READ_PROGRAM p (R185). -/
  | readProgram (port : Port) (program : Byte) (surplus : List Bool)
  /-- WRITE_PROGRAM p, rev, record (R186); the record as its bytes on the wire. -/
  | writeProgram (port : Port) (program : Byte) (revision : BitVec 16) (record : List Byte)
      (surplus : List Bool)
  /-- SET_DELAY p, frames (R187). -/
  | setDelay (port : Port) (program : Byte) (frames : BitVec 32) (surplus : List Bool)
  /-- SET_TARGET p, tenths (R187). -/
  | setTarget (port : Port) (program : Byte) (tenths : BitVec 16) (surplus : List Bool)
  /-- READ_METER p (R188). -/
  | readMeter (port : Port) (program : Byte) (surplus : List Bool)
  /-- RESET_METER p (R189). -/
  | resetMeter (port : Port) (program : Byte) (surplus : List Bool)
  /-- READ_LINK l (R185). -/
  | readLink (port : Port) (link : Byte) (surplus : List Bool)
  /-- WRITE_LINK l, rev, record (R186). -/
  | writeLink (port : Port) (link : Byte) (revision : BitVec 16) (enable slots bandwidth : Byte)
      (kinds : KindSet) (surplus : List Bool)
  /-- READ_POLICY (R185). -/
  | readPolicy (port : Port) (surplus : List Bool)
  /-- WRITE_POLICY rev, record (R186); the record as its bytes on the wire. -/
  | writePolicy (port : Port) (revision : BitVec 16) (record : List Byte) (surplus : List Bool)
  /-- READ_CONDITIONS (R190). -/
  | readConditions (port : Port) (surplus : List Bool)
  /-- FETCH_ALARMS n (R168, R191). -/
  | fetchAlarms (port : Port) (n : Byte) (surplus : List Bool)
  /-- SET_ATTENTION mask, threshold (R192). -/
  | setAttention (port : Port) (mask : KindSet) (threshold : Byte) (surplus : List Bool)
  /-- PORT_RESET (R193). -/
  | portReset (port : Port) (surplus : List Bool)
  /-- ATTENDANCE_EXPIRY (R164). -/
  | attendanceExpiry (port : Port)
  /-- FRAME_SYNC_MARK (R26). -/
  | frameSyncMark (link : Fin 8)
  /-- SELECT_SEEN_RELEASED (R195). -/
  | selectSeenReleased (port : Port)
  deriving DecidableEq, Repr

end Sys2Proof
end

