-- ==== Sys2Proof/Decode.lean ====
section
/-! DEFINITION. What the bits on a control port spell: bytes from bits (R177), the classes of R179,
the lengths of section 10.6 (R194), the bits each transaction-ending command stands for, and
`decodeTableWord` (no row of spec/opcode_table.json gives bits). -/

namespace Sys2Proof

/-! ## Bits and bytes (R177) -/

/-- The eight bits of a byte, most significant first (R177). -/
def bitsOfByte (x : Byte) : List Bool :=
  [x.getLsbD 7, x.getLsbD 6, x.getLsbD 5, x.getLsbD 4,
   x.getLsbD 3, x.getLsbD 2, x.getLsbD 1, x.getLsbD 0]

/-- The byte that eight bits make, most significant first (R177). -/
def byteOfBits (b7 b6 b5 b4 b3 b2 b1 b0 : Bool) : Byte :=
  BitVec.ofNat 8 (128 * b7.toNat + 64 * b6.toNat + 32 * b5.toNat + 16 * b4.toNat
    + 8 * b3.toNat + 4 * b2.toNat + 2 * b1.toNat + b0.toNat)

/-- The whole bytes of a run of bits; a partial byte at the end is dropped (R177). -/
def bytesOfBits : List Bool → List Byte
  | b7 :: b6 :: b5 :: b4 :: b3 :: b2 :: b1 :: b0 :: rest =>
      byteOfBits b7 b6 b5 b4 b3 b2 b1 b0 :: bytesOfBits rest
  | _ => []

/-- The bits of a run of bytes, in the order they are clocked (R177). -/
def bitsOfBytes (bytes : List Byte) : List Bool := bytes.flatMap bitsOfByte

/-- A 16-bit field, most significant byte first (R177). -/
def bytes16 (x : BitVec 16) : List Byte := [x.extractLsb' 8 8, x.extractLsb' 0 8]

/-- A 32-bit field, most significant byte first (R177). -/
def bytes32 (x : BitVec 32) : List Byte :=
  [x.extractLsb' 24 8, x.extractLsb' 16 8, x.extractLsb' 8 8, x.extractLsb' 0 8]

/-- A 48-bit field, most significant byte first (R177, R188). -/
def bytes48 (x : BitVec 48) : List Byte :=
  [x.extractLsb' 40 8, x.extractLsb' 32 8, x.extractLsb' 24 8,
   x.extractLsb' 16 8, x.extractLsb' 8 8, x.extractLsb' 0 8]

/-- The 16-bit value of two bytes (R177). -/
def word16 (hi lo : Byte) : BitVec 16 := hi ++ lo

/-- The 32-bit value of four bytes (R177). -/
def word32 (b3 b2 b1 b0 : Byte) : BitVec 32 := b3 ++ b2 ++ b1 ++ b0

/-! ## Request codes and body lengths (section 10.6, R194) -/

/-- The fifteen requests that are taken by a block (section 10.6). NULL is no request code (R184). -/
inductive RequestCode where
  | identify
  | readProgram
  | writeProgram
  | setDelay
  | setTarget
  | readMeter
  | resetMeter
  | readLink
  | writeLink
  | readPolicy
  | writePolicy
  | readConditions
  | fetchAlarms
  | setAttention
  | portReset
  deriving DecidableEq, Repr

/-- The byte of each request code (section 10.6). -/
def RequestCode.byte : RequestCode → Byte
  | .identify => 0x01#8
  | .readProgram => 0x10#8
  | .writeProgram => 0x11#8
  | .setDelay => 0x12#8
  | .setTarget => 0x13#8
  | .readMeter => 0x14#8
  | .resetMeter => 0x15#8
  | .readLink => 0x20#8
  | .writeLink => 0x21#8
  | .readPolicy => 0x30#8
  | .writePolicy => 0x31#8
  | .readConditions => 0x40#8
  | .fetchAlarms => 0x41#8
  | .setAttention => 0x42#8
  | .portReset => 0x7F#8

/-- The request a first byte names, if it names one (section 10.6). -/
def RequestCode.ofByte (x : Byte) : Option RequestCode :=
  if x = 0x01#8 then some .identify
  else if x = 0x10#8 then some .readProgram
  else if x = 0x11#8 then some .writeProgram
  else if x = 0x12#8 then some .setDelay
  else if x = 0x13#8 then some .setTarget
  else if x = 0x14#8 then some .readMeter
  else if x = 0x15#8 then some .resetMeter
  else if x = 0x20#8 then some .readLink
  else if x = 0x21#8 then some .writeLink
  else if x = 0x30#8 then some .readPolicy
  else if x = 0x31#8 then some .writePolicy
  else if x = 0x40#8 then some .readConditions
  else if x = 0x41#8 then some .fetchAlarms
  else if x = 0x42#8 then some .setAttention
  else if x = 0x7F#8 then some .portReset
  else none

/-- The length of a program record with `count` channels and the low three bits of `flags`:
`4 + 3n + 9 + 11 + 4`, counting each present section (section 10.6). -/
def programRecordLength (count flags : Byte) : Nat :=
  4 + 3 * count.toNat + (if flags.getLsbD 0 then 9 else 0) + (if flags.getLsbD 1 then 11 else 0)
    + (if flags.getLsbD 2 then 4 else 0)

/-- The body length a request requires, given its declared body; none where a WRITE PROGRAM body is
too short to hold the channel count and flag bytes (R179, R186). -/
def requiredLength (code : RequestCode) (body : List Byte) : Option Nat :=
  match code with
  | .identify => some 0
  | .readProgram => some 1
  | .writeProgram =>
    match body with
    | _ :: _ :: _ :: _ :: _ :: count :: flags :: _ => some (3 + programRecordLength count flags)
    | _ => none
  | .setDelay => some 5
  | .setTarget => some 3
  | .readMeter => some 1
  | .resetMeter => some 1
  | .readLink => some 1
  | .writeLink => some 8
  | .readPolicy => some 0
  | .writePolicy => some 76
  | .readConditions => some 0
  | .fetchAlarms => some 1
  | .setAttention => some 3
  | .portReset => some 0

/-! ## The classes of R179 -/

/-- How a release at the end of a normal transaction takes its input (the table of R179). -/
inductive InputClass where
  | null
  | unknown
  | length
  | request (code : RequestCode) (body : List Byte)
  deriving DecidableEq, Repr

/-- The class of the whole input bytes of a normal transaction (R179). -/
def classify : List Byte → InputClass
  | [] => .null
  | first :: rest =>
    if first = 0#8 then .null
    else
      match RequestCode.ofByte first with
      | none => .unknown
      | some code =>
        match rest with
        | hi :: lo :: after =>
          let declared := (word16 hi lo).toNat
          if after.length < declared then .length
          else if requiredLength code (after.take declared) = some declared then
            .request code (after.take declared)
          else .length
        | _ => .length

/-- An input frame: request code, declared body length, body (section 10.6). -/
def requestFrame (code : RequestCode) (body : List Byte) : List Byte :=
  code.byte :: bytes16 (BitVec.ofNat 16 body.length) ++ body

/-- The body a request row carries, in the order R184 to R193 send its fields. -/
def Instr.body : Instr → List Byte
  | .powerOnReset => []
  | .warmResetAssert => []
  | .warmResetRelease => []
  | .frameArrival _ _ => []
  | .receiverAbsenceExpiry _ => []
  | .refPulse => []
  | .refAbsenceExpiry => []
  | .houseFrame => []
  | .blockEnd => []
  | .selectAssert _ => []
  | .null _ _ => []
  | .unknown _ _ => []
  | .length _ _ => []
  | .pendingTransactionEnd _ _ => []
  | .identify _ _ => []
  | .readProgram _ program _ => [program]
  | .writeProgram _ program revision record _ => program :: bytes16 revision ++ record
  | .setDelay _ program frames _ => program :: bytes32 frames
  | .setTarget _ program tenths _ => program :: bytes16 tenths
  | .readMeter _ program _ => [program]
  | .resetMeter _ program _ => [program]
  | .readLink _ link _ => [link]
  | .writeLink _ link revision enable slots bandwidth kinds _ =>
      link :: bytes16 revision ++ [enable, slots, bandwidth] ++ bytes16 kinds
  | .readPolicy _ _ => []
  | .writePolicy _ revision record _ => bytes16 revision ++ record
  | .readConditions _ _ => []
  | .fetchAlarms _ n _ => [n]
  | .setAttention _ mask threshold _ => bytes16 mask ++ [threshold]
  | .portReset _ _ => []
  | .attendanceExpiry _ => []
  | .frameSyncMark _ => []
  | .selectSeenReleased _ => []

/-- The bits of a request: its frame, then the bits clocked after it (R179: "Bytes after the declared
body are ignored"). -/
def requestBits (code : RequestCode) (body : List Byte) (surplus : List Bool) : List Bool :=
  bitsOfBytes (requestFrame code body) ++ surplus

/-- The bits clocked into SDI during the transaction that a command ends; none for a command that
ends no transaction. -/
def Instr.sdi (i : Instr) : List Bool :=
  match i with
  | .powerOnReset => []
  | .warmResetAssert => []
  | .warmResetRelease => []
  | .frameArrival _ _ => []
  | .receiverAbsenceExpiry _ => []
  | .refPulse => []
  | .refAbsenceExpiry => []
  | .houseFrame => []
  | .blockEnd => []
  | .selectAssert _ => []
  | .null _ sdi => sdi
  | .unknown _ sdi => sdi
  | .length _ sdi => sdi
  | .pendingTransactionEnd _ sdi => sdi
  | .identify _ surplus => requestBits .identify i.body surplus
  | .readProgram _ _ surplus => requestBits .readProgram i.body surplus
  | .writeProgram _ _ _ _ surplus => requestBits .writeProgram i.body surplus
  | .setDelay _ _ _ surplus => requestBits .setDelay i.body surplus
  | .setTarget _ _ _ surplus => requestBits .setTarget i.body surplus
  | .readMeter _ _ surplus => requestBits .readMeter i.body surplus
  | .resetMeter _ _ surplus => requestBits .resetMeter i.body surplus
  | .readLink _ _ surplus => requestBits .readLink i.body surplus
  | .writeLink _ _ _ _ _ _ _ surplus => requestBits .writeLink i.body surplus
  | .readPolicy _ surplus => requestBits .readPolicy i.body surplus
  | .writePolicy _ _ _ surplus => requestBits .writePolicy i.body surplus
  | .readConditions _ surplus => requestBits .readConditions i.body surplus
  | .fetchAlarms _ _ surplus => requestBits .fetchAlarms i.body surplus
  | .setAttention _ _ _ surplus => requestBits .setAttention i.body surplus
  | .portReset _ surplus => requestBits .portReset i.body surplus
  | .attendanceExpiry _ => []
  | .frameSyncMark _ => []
  | .selectSeenReleased _ => []

/-- The class the row of a transaction-ending command stands for (R179); none for a command that ends
no transaction and for PENDING_TRANSACTION_END, whose input R181 does not classify. -/
def Instr.outcome (i : Instr) : Option InputClass :=
  match i with
  | .powerOnReset => none
  | .warmResetAssert => none
  | .warmResetRelease => none
  | .frameArrival _ _ => none
  | .receiverAbsenceExpiry _ => none
  | .refPulse => none
  | .refAbsenceExpiry => none
  | .houseFrame => none
  | .blockEnd => none
  | .selectAssert _ => none
  | .null _ _ => some .null
  | .unknown _ _ => some .unknown
  | .length _ _ => some .length
  | .pendingTransactionEnd _ _ => none
  | .identify _ _ => some (.request .identify i.body)
  | .readProgram _ _ _ => some (.request .readProgram i.body)
  | .writeProgram _ _ _ _ _ => some (.request .writeProgram i.body)
  | .setDelay _ _ _ _ => some (.request .setDelay i.body)
  | .setTarget _ _ _ _ => some (.request .setTarget i.body)
  | .readMeter _ _ _ => some (.request .readMeter i.body)
  | .resetMeter _ _ _ => some (.request .resetMeter i.body)
  | .readLink _ _ _ => some (.request .readLink i.body)
  | .writeLink _ _ _ _ _ _ _ _ => some (.request .writeLink i.body)
  | .readPolicy _ _ => some (.request .readPolicy i.body)
  | .writePolicy _ _ _ _ => some (.request .writePolicy i.body)
  | .readConditions _ _ => some (.request .readConditions i.body)
  | .fetchAlarms _ _ _ => some (.request .fetchAlarms i.body)
  | .setAttention _ _ _ _ => some (.request .setAttention i.body)
  | .portReset _ _ => some (.request .portReset i.body)
  | .attendanceExpiry _ => none
  | .frameSyncMark _ => none
  | .selectSeenReleased _ => none

/-! ## The table's words -/

/-- The command that a word spells by the bits of spec/opcode_table.json: none, since no row of the
table gives bits. -/
def decodeTableWord (_nbits _w : Nat) : Option Instr := none

end Sys2Proof
end

