-- ==== Sys2Proof/Machine/State.lean ====
section
/-! DEFINITION. The state of the part, as plain data: every field the rules name, the queue of waiting
commands, and State.reset, the machine after power-on reset. -/

namespace Sys2Proof.Machine

/-! ## Faults and refusals -/

/-- The faults of a step. There is none: no rule lets an event stop the part. -/
inductive Fault : Type
  deriving DecidableEq, Repr

/-- The refusals of a step. -/
inductive Refusal where
  /-- Raised by exec's arm of a command that has no meaning yet; no arm raises it. Safe. -/
  | notModelled (mnemonic : String)
  deriving DecidableEq, Repr

/-- One of a thing for each control port. -/
structure Pair (α : Type) where
  a : α
  b : α
  deriving DecidableEq, Repr

/-! ## Configuration records (chapter 1) -/

/-- The twelve kinds, in kind-code order from 1 (section 10.6). -/
inductive Kind where
  | linkLost
  | linkUnlocked
  | linkSlip
  | refLost
  | silence
  | overload
  | loudHigh
  | loudLow
  | gainAtLimit
  | delayClamped
  | syncLost
  | programChanged
  deriving DecidableEq, Repr

/-- The three severities, NOTE below MINOR below MAJOR (R5, R170). -/
inductive Severity where
  | note
  | minor
  | major
  deriving DecidableEq, Repr

/-- The log-edges settings: NONE, RAISE, CLEAR, BOTH and, for event kinds, LOG (R5). -/
inductive LogEdges where
  | never
  | raise
  | clear
  | both
  | log
  deriving DecidableEq, Repr

/-- What a program outputs (R2). -/
inductive Source where
  | program
  | lineup
  | mute
  deriving DecidableEq, Repr

/-- A slot Lx.y of the input or the output links (Numbering and naming). -/
structure Slot where
  link : Fin 8
  slot : Fin 8
  deriving DecidableEq, Repr

/-- A channel's weight: EXCLUDED, or `j` half-decibel steps (R2). -/
inductive Weight where
  | excluded
  | steps (j : Int)
  deriving DecidableEq, Repr

/-- An entry of a channel list; a slot is absent where the record says NONE (R2). -/
structure Channel where
  input : Option Slot
  output : Option Slot
  weight : Weight
  deriving DecidableEq, Repr

/-- The level the gain law steers by (R2). -/
inductive LoudnessMode where
  | integrated
  | shortTerm
  | measureOnly
  deriving DecidableEq, Repr

/-- A loudness section (R2). -/
structure Loudness where
  mode : LoudnessMode
  target : Int
  maxBoost : Nat
  maxCut : Nat
  slew : Nat
  gate : Int
  range : Nat
  deriving DecidableEq, Repr

/-- How a change of delay is carried out (R2). -/
inductive ChangeMode where
  | slew
  | jump
  deriving DecidableEq, Repr

/-- A delay section (R2). -/
structure DelaySection where
  base : Nat
  limit : Nat
  target : Nat
  mode : ChangeMode
  rate : Nat
  deriving DecidableEq, Repr

/-- An alarm section (R2). -/
structure AlarmSection where
  kinds : KindSet
  silence : Int
  deriving DecidableEq, Repr

/-- The content of a program record (R2); `active` is state ACTIVE. -/
structure ProgramRecord where
  active : Bool
  source : Source
  channels : List Channel
  loudness : Option Loudness
  delay : Option DelaySection
  alarm : Option AlarmSection
  deriving DecidableEq, Repr

/-- The tracking bandwidths (R4). -/
inductive Bandwidth where
  | wide
  | medium
  | narrow
  deriving DecidableEq, Repr

/-- The content of a link record (R4). -/
structure LinkRecord where
  enable : Bool
  slots : Nat
  bandwidth : Bandwidth
  kinds : KindSet
  deriving DecidableEq, Repr

/-- One kind's entry of the policy record (R5). -/
structure KindPolicy where
  severity : Severity
  holdRaise : Nat
  holdClear : Nat
  edges : LogEdges
  deriving DecidableEq, Repr

/-- The content of the policy record: one entry for each kind in kind-code order, and the two
device-wide fields (R5). -/
structure PolicyRecord where
  kinds : Vector KindPolicy 12
  refLostMonitored : Bool
  timeout : Nat
  deriving DecidableEq, Repr

/-- A staged copy: its content and its origin port (R1). -/
structure Staged (α : Type) where
  content : α
  origin : Port
  deriving DecidableEq, Repr

/-- An entry of a waiting list: a port and the revision its acceptance produced (R1). -/
structure Waiting where
  port : Port
  revision : BitVec 16
  deriving DecidableEq, Repr

/-- The state of one configuration record (R1). -/
structure Record (α : Type) where
  applied : α
  revision : BitVec 16
  staged : Option (Staged α)
  waiting : List Waiting
  deriving DecidableEq, Repr

/-- The configuration tables (R1). -/
structure Tables where
  programs : Vector (Record ProgramRecord) 16
  links : Vector (Record LinkRecord) 8
  policy : Record PolicyRecord
  deriving DecidableEq, Repr

/-! ## The house timebase and the reference monitor (section 2.3) -/

/-- The house timebase (R32): F, B, and the instants of the house frame last taken and of the one that
is due. Times are in units of Config (assumption 1). -/
structure Timebase where
  now : Nat
  lastFrame : Nat
  nextFrame : Nat
  frames : Nat
  blocks : BitVec 32
  deriving DecidableEq, Repr

/-- The states of the house reference monitor (section 2.3). -/
inductive RefState where
  | tracking
  | holdover
  deriving DecidableEq, Repr

/-- The house reference monitor (section 2.3). `lastPulse` is the instant of the previous accepted
pulse, which R33 measures from. -/
structure RefMonitor where
  state : RefState
  period : Nat
  intervals : List Nat
  timer : Nat
  run : Nat
  offset : Int
  lastPulse : Option Nat
  deriving DecidableEq, Repr

/-! ## Input link receivers (section 2.2) -/

/-- The states of a receiver (section 2.2). -/
inductive ReceiverState where
  | off
  | present
  | lost
  deriving DecidableEq, Repr

/-- An input link receiver (section 2.2). `timer` is none where it is stopped; `inFrame` says that a
frame-sync mark has come and the frame after it has not arrived yet (R26). -/
structure Receiver where
  state : ReceiverState
  timer : Option Nat
  run : Nat
  inFrame : Bool
  deriving DecidableEq, Repr

/-! ## Rate converters (R41) -/

/-- The tracker states (R41). -/
inductive ConverterState where
  | idle
  | acquire
  | locked
  | freewheel
  | relock
  | lost
  deriving DecidableEq, Repr

/-- The directions of a fade level (R41). -/
inductive FadeDirection where
  | steady
  | rising
  | falling
  deriving DecidableEq, Repr

/-- A frame held by a converter (R41). -/
structure Frame where
  index : Nat
  samples : Vector Sample 8
  deriving DecidableEq, Repr

/-- A rate converter (R41). `position` is π in units of 2^-28 frame. `arrivals`, `counting` and
`nextIndex` are the implied state of R47 and of the frame indices. `slipWaits` says that a REPEAT slip which
the house frame of a block end calls for comes after that block end (R57, R196; assumption 36). -/
structure Converter where
  state : ConverterState
  fifo : List Frame
  history : List Frame
  position : Nat
  ratio : Nat
  used : Nat
  counts : List Nat
  measured : Nat
  measures : List Nat
  counter : Nat
  fade : Nat
  direction : FadeDirection
  deletes : Nat
  repeats : Nat
  arrivals : Nat
  counting : Bool
  nextIndex : Nat
  slipWaits : Bool
  deriving DecidableEq, Repr

/-! ## Meters (R63) -/

/-- One section of the weighting cascade: two previous inputs and two previous outputs (R63). -/
structure FilterSection where
  x1 : Sample
  x2 : Sample
  y1 : Sample
  y2 : Sample
  deriving DecidableEq, Repr

/-- The meter state of one channel (R63). -/
structure ChannelMeter where
  shelf : FilterSection
  highpass : FilterSection
  energy : Nat
  deriving DecidableEq, Repr

/-- A level in tenths with its measured mark (R63). -/
structure Level where
  tenths : Int
  measured : Bool
  deriving DecidableEq, Repr

/-- A histogram bin (R63). -/
structure Bin where
  count : Nat
  energy : Nat
  deriving DecidableEq, Repr

/-- A program meter (R63). -/
structure Meter where
  channels : List ChannelMeter
  ring : List Nat
  momentary : Level
  shortTerm : Level
  integrated : Level
  histogram : Vector Bin 170
  clearPending : Bool
  deriving DecidableEq, Repr

/-! ## Gain stages (R82) -/

/-- A change of factor in progress (R82). -/
structure Ramp where
  start : Nat
  stop : Nat
  step : Nat
  deriving DecidableEq, Repr

/-- An entry of a gain schedule (R82). -/
structure GainEntry where
  stamp : Nat
  gain : Int
  deriving DecidableEq, Repr

/-- A gain stage (R82). `closingContent` is the last ACTIVE content of a program in its closing fade,
under which its audio path keeps running (R15). -/
structure GainStage where
  applied : Int
  factor : Nat
  ramp : Option Ramp
  queue : List GainEntry
  limitTest : Bool
  overloads : Nat
  overloadTest : Bool
  selected : Source
  pendingSource : Option Source
  fade : Nat
  closing : Nat
  closingContent : Option ProgramRecord
  deriving DecidableEq, Repr

/-! ## The delay engine (R105, R121) -/

/-- The delay states (R105). -/
inductive DelayState where
  | bypass
  | filling
  | steady
  | slewing
  | fadeOut
  | fadeIn
  deriving DecidableEq, Repr

/-- The lanes laid out at the last layout (R105). -/
structure Layout where
  base : Nat
  pages : Nat
  lanes : Nat
  deriving DecidableEq, Repr

/-- A lane: its valid depth and its slip correction (R105). -/
structure Lane where
  valid : Nat
  correction : Int
  deriving DecidableEq, Repr

/-- A step of D_c over a block: signed amount, start value D_s, and the house frames of it that have
run (R121, R127). -/
structure DelayStep where
  amount : Int
  start : Nat
  frames : Nat
  deriving DecidableEq, Repr

/-- The delay engine's state of one program (R105, R121). `current` is D_c in units of 2^-16 frame. -/
structure DelayEngine where
  state : DelayState
  layout : Option Layout
  capacity : Nat
  usable : Nat
  target : Nat
  current : Nat
  step : Option DelayStep
  lanes : List Lane
  clamped : Bool
  syncLost : Bool
  deriving DecidableEq, Repr

/-! ## Conditions (R141) -/

/-- A condition record of R140's table, without the monitored flag, which is read from the applied
records (R141, R154). -/
structure Condition where
  test : Bool
  raised : Bool
  counter : Nat
  deriving DecidableEq, Repr

/-! ## The alarm log (R160 to R163) -/

/-- The direction of a slip (R57). -/
inductive SlipDirection where
  | delete
  | repeat
  deriving DecidableEq, Repr

/-- What a condition refers to (R161). -/
inductive Subject where
  | device
  | link (l : Fin 8)
  | program (p : Fin 16)
  deriving DecidableEq, Repr

/-- The edge of a log entry (R161). -/
inductive Edge where
  | raised
  | cleared
  | event
  deriving DecidableEq, Repr

/-- The cause of a condition entry (R152). -/
inductive Cause where
  | sampled
  | withdrawn
  | admitted
  deriving DecidableEq, Repr

/-- The detail of a log entry (R161). -/
inductive Detail where
  | cause (c : Cause)
  | slip (direction : SlipDirection) (equivalent : Nat)
  | changed (program : Fin 16) (revision : BitVec 16) (origin : Port)
  deriving DecidableEq, Repr

/-- What a maker hands to the log (R152, R161). -/
structure Entry where
  kind : Kind
  subject : Subject
  edge : Edge
  severity : Severity
  stamp : BitVec 32
  detail : Detail
  deriving DecidableEq, Repr

/-- An entry in the log, with its sequence number (R160). -/
structure LogEntry where
  number : Nat
  entry : Entry
  deriving DecidableEq, Repr

/-- A port's place in the log (R163) and its attention settings (R171). The attendance timer runs while
the port is attending; it is stopped while the port is ABSENT (R164). -/
structure LogPort where
  cursor : Nat
  missed : Nat
  attending : Bool
  timer : Nat
  mask : KindSet
  threshold : Severity
  deriving DecidableEq, Repr

/-- The alarm log (R160). -/
structure AlarmLog where
  entries : List LogEntry
  next : Nat
  ports : Pair LogPort
  deriving DecidableEq, Repr

/-! ## Control ports (R176) -/

/-- The nine statuses (R183). -/
inductive Status where
  | none
  | done
  | pending
  | superseded
  | stale
  | range
  | conflict
  | unknown
  | length
  deriving DecidableEq, Repr

/-- A held response: status, body, and how many bytes of its frame have been clocked out (R176). -/
structure Response where
  status : Status
  body : List Byte
  clocked : Nat
  deriving DecidableEq, Repr

/-- One of the twenty-five configuration records. -/
inductive RecordName where
  | program (p : Fin 16)
  | link (l : Fin 8)
  | policy
  deriving DecidableEq, Repr

/-- An accepted change that awaits its apply (R176). -/
structure Executing where
  record : RecordName
  revision : BitVec 16
  deriving DecidableEq, Repr

/-- How a port treats the exchange (R176, R178); `waiting` is a port that waits for select to be seen
released after a warm reset (R195). -/
inductive Transaction where
  | idle
  | normal
  | pending
  | waiting
  deriving DecidableEq, Repr

/-- A control port (R176). `select` is the level of the port's select; `output` is the output fixed at
the assertion, up to the zeros that follow it (R178); `sdo` is the whole bytes that left on SDO in the
transaction that ended last (assumption 6). -/
structure ControlPort where
  held : Option Response
  executing : Option Executing
  transaction : Transaction
  input : List Byte
  position : Nat
  output : List Byte
  select : Bool
  sdo : List Byte
  deriving DecidableEq, Repr

/-! ## Outputs -/

/-- The two summary lines (R158). -/
structure Summary where
  major : Bool
  minor : Bool
  deriving DecidableEq, Repr

/-- The alarm and attention outputs: the summary lines now, the values they took after the latest
sampling (R158), and ATN of each port (R170). -/
structure Pins where
  alarms : Summary
  sampled : Summary
  atn : Pair Bool
  deriving DecidableEq, Repr

/-! ## The whole state -/

/-- The state of the part. -/
structure State where
  pending : List Instr
  choices : Nat
  resetAsserted : Bool
  clock : Timebase
  ref : RefMonitor
  tables : Tables
  receivers : Vector Receiver 8
  converters : Vector Converter 8
  meters : Vector Meter 16
  gains : Vector GainStage 16
  tonePhase : Nat
  delays : Vector DelayEngine 16
  memory : List (Nat × Sample)
  conditions : Vector Condition 129
  log : AlarmLog
  ports : Pair ControlPort
  pins : Pins
  out : Vector (BitVec 256) 8
  deriving DecidableEq, Repr

/-! ## Reset values -/

/-- A program record after power-on reset (R23). -/
def ProgramRecord.unused : ProgramRecord :=
  { active := false, source := .mute, channels := [], loudness := none, delay := none, alarm := none }

/-- A link record after power-on reset: LINK_LOST and LINK_UNLOCKED monitored (R23). -/
def LinkRecord.initial : LinkRecord :=
  { enable := false, slots := 8, bandwidth := .medium, kinds := 0x0006#16 }

/-- The default policy of each kind, in kind-code order (R151). -/
def KindPolicy.defaults : Vector KindPolicy 12 :=
  #v[{ severity := .major, holdRaise := 0, holdClear := 10, edges := .both },
     { severity := .minor, holdRaise := 10, holdClear := 50, edges := .both },
     { severity := .note, holdRaise := 0, holdClear := 0, edges := .log },
     { severity := .major, holdRaise := 0, holdClear := 10, edges := .both },
     { severity := .major, holdRaise := 100, holdClear := 5, edges := .both },
     { severity := .minor, holdRaise := 0, holdClear := 50, edges := .raise },
     { severity := .minor, holdRaise := 300, holdClear := 50, edges := .both },
     { severity := .minor, holdRaise := 300, holdClear := 50, edges := .both },
     { severity := .note, holdRaise := 50, holdClear := 50, edges := .both },
     { severity := .minor, holdRaise := 0, holdClear := 0, edges := .both },
     { severity := .major, holdRaise := 0, holdClear := 0, edges := .both },
     { severity := .note, holdRaise := 0, holdClear := 0, edges := .log }]

/-- The policy record after power-on reset (R151). -/
def PolicyRecord.initial : PolicyRecord :=
  { kinds := KindPolicy.defaults, refLostMonitored := true, timeout := 10 }

/-- A record that holds `applied`, revision 0, nothing staged and nobody waiting (R23). -/
def Record.initial {α : Type} (applied : α) : Record α :=
  { applied := applied, revision := 0#16, staged := none, waiting := [] }

/-- The configuration tables after power-on reset (R23). -/
def Tables.initial : Tables :=
  { programs := Vector.replicate 16 (Record.initial ProgramRecord.unused)
    links := Vector.replicate 8 (Record.initial LinkRecord.initial)
    policy := Record.initial PolicyRecord.initial }

/-- The house reference monitor after power-on reset (R37). -/
def RefMonitor.initial : RefMonitor :=
  { state := .holdover, period := Config.nominalPeriod, intervals := [], timer := 0, run := 0,
    offset := 0, lastPulse := none }

/-- A receiver after power-on reset (R31). -/
def Receiver.initial : Receiver :=
  { state := .off, timer := none, run := 0, inFrame := false }

/-- A converter after power-on reset (R62). The rule gives the fade level 0 and no direction for it; the
model's choice is that no fade runs (assumption 34). -/
def Converter.initial : Converter :=
  { state := .idle, fifo := [], history := [], position := 0, ratio := 0, used := 0, counts := [],
    measured := 0, measures := [], counter := 0, fade := 0, direction := .steady, deletes := 0,
    repeats := 0, arrivals := 0, counting := false, nextIndex := 0,
    slipWaits := false }

/-- A level that is not measured (R63, R71). -/
def Level.unmeasured : Level := { tenths := -1000, measured := false }

/-- A meter after power-on reset (R81). -/
def Meter.initial : Meter :=
  { channels := [], ring := [], momentary := Level.unmeasured, shortTerm := Level.unmeasured,
    integrated := Level.unmeasured, histogram := Vector.replicate 170 { count := 0, energy := 0 },
    clearPending := false }

/-- A gain stage after power-on reset (R103). -/
def GainStage.initial : GainStage :=
  { applied := 0, factor := 1048576, ramp := none, queue := [], limitTest := false, overloads := 0,
    overloadTest := false, selected := .mute, pendingSource := none, fade := 0, closing := 0,
    closingContent := none }

/-- A program's delay engine after power-on reset (R120, R139). -/
def DelayEngine.initial : DelayEngine :=
  { state := .bypass, layout := none, capacity := 0, usable := 0, target := 0, current := 0,
    step := none, lanes := [], clamped := false, syncLost := false }

/-- A condition after power-on reset (R141). -/
def Condition.initial : Condition := { test := false, raised := false, counter := 0 }

/-- A port's place in the log after power-on reset (R175). -/
def LogPort.initial : LogPort :=
  { cursor := 0, missed := 0, attending := false, timer := 0, mask := 0#16, threshold := .note }

/-- The alarm log after power-on reset (R175). -/
def AlarmLog.initial : AlarmLog :=
  { entries := [], next := 0, ports := { a := LogPort.initial, b := LogPort.initial } }

/-- A control port after power-on reset (R195). -/
def ControlPort.initial : ControlPort :=
  { held := none, executing := none, transaction := .idle, input := [], position := 0, output := [],
    select := false, sdo := [] }

/-- Both summary lines released. -/
def Summary.released : Summary := { major := false, minor := false }

/-- The outputs after power-on reset (R141, R175). -/
def Pins.initial : Pins :=
  { alarms := Summary.released, sampled := Summary.released, atn := { a := false, b := false } }

/-- The machine right after power-on reset (R23, R31, R37, R62, R81, R103, R120, R139, R141, R151, R175,
R195). No rule gives the level of RESETn at power-on, and the model takes it as released (assumption
35). -/
def State.reset : State :=
  { pending := []
    choices := 0
    resetAsserted := false
    clock := { now := 0, lastFrame := 0, nextFrame := Config.nominalPeriod, frames := 0, blocks := 0#32 }
    ref := RefMonitor.initial
    tables := Tables.initial
    receivers := Vector.replicate 8 Receiver.initial
    converters := Vector.replicate 8 Converter.initial
    meters := Vector.replicate 16 Meter.initial
    gains := Vector.replicate 16 GainStage.initial
    tonePhase := 0
    delays := Vector.replicate 16 DelayEngine.initial
    memory := []
    conditions := Vector.replicate 129 Condition.initial
    log := AlarmLog.initial
    ports := { a := ControlPort.initial, b := ControlPort.initial }
    pins := Pins.initial
    out := Vector.replicate 8 0#256 }

end Sys2Proof.Machine
end

