-- ==== Sys2Proof/Machine/Ops.lean ====
section
/-! DEFINITION. The shared operations: rounding and saturation, the accessors of State, the delay
memory, and the free orders that stand for "either may be taken first". -/

namespace Sys2Proof.Machine

/-! ## Arithmetic (Conventions) -/

/-- Saturation to the sample range (Conventions, Samples and arithmetic). -/
def saturate (x : Int) : Sample := BitVec.ofInt 24 (max (-8388608) (min 8388607 x))

/-- A result lies outside the sample range (R94). -/
def overflows (x : Int) : Bool := x < -8388608 || 8388607 < x

/-- `a / b` rounded to nearest, halves away from zero, for positive `b` (Conventions). -/
def roundDiv (a b : Int) : Int :=
  if 0 ≤ a then (2 * a + b) / (2 * b) else -((2 * (-a) + b) / (2 * b))

/-- The last `n` items of a list, in order. -/
def lastN {α : Type} (n : Nat) (xs : List α) : List α := xs.drop (xs.length - n)

/-- The greatest number below `acc + 2^k` that `p` admits, for a `p` that admits `acc` and is downward
closed above it: the way the exact logarithms and powers of R68, R71 and R91 are found. -/
def greatest (p : Nat → Bool) : Nat → Nat → Nat
  | 0, acc => acc
  | k + 1, acc => if p (acc + 2 ^ k) then greatest p k (acc + 2 ^ k) else greatest p k acc

/-! ## Interpolation (R46, R114) -/

/-- The interpolated sample at fraction `phase`, in units of 2^-28, from the samples of the sixteen
places `k = i − 7`. At fraction 0 it is the sample of place 0 unchanged; elsewhere the kernel's
coefficients are free (R46; assumption 4). -/
def interpolate (phase : BitVec 28) (place : Fin 16 → Int) : Sample :=
  if phase = 0#28 then saturate (place 7)
  else
    saturate (roundDiv
      ((List.finRange 16).foldl (fun sum i => sum + Config.kernelNumerator phase i * place i) 0)
      (Config.kernelScale + 1))

/-! ## Accessors -/

/-- The one of a pair that belongs to a port. -/
def Pair.get {α : Type} (x : Pair α) : Port → α
  | .a => x.a
  | .b => x.b

/-- A pair with the one of a port replaced. -/
def Pair.set {α : Type} (x : Pair α) (q : Port) (v : α) : Pair α :=
  match q with
  | .a => { x with a := v }
  | .b => { x with b := v }

/-- The other control port. -/
def Port.other : Port → Port
  | .a => .b
  | .b => .a

/-- The control port `q`. -/
def State.port (s : State) (q : Port) : ControlPort := s.ports.get q

/-- The state with control port `q` replaced. -/
def State.setPort (s : State) (q : Port) (v : ControlPort) : State := { s with ports := s.ports.set q v }

/-- The place of port `q` in the log. -/
def State.place (s : State) (q : Port) : LogPort := s.log.ports.get q

/-- The state with the place of port `q` in the log replaced. -/
def State.setPlace (s : State) (q : Port) (v : LogPort) : State :=
  { s with log := { s.log with ports := s.log.ports.set q v } }

/-- The applied content of a program record. -/
def State.program (s : State) (p : Fin 16) : ProgramRecord := s.tables.programs[p].applied

/-- The applied content of a link record. -/
def State.link (s : State) (l : Fin 8) : LinkRecord := s.tables.links[l].applied

/-- The applied content of the policy record. -/
def State.policy (s : State) : PolicyRecord := s.tables.policy.applied

/-- The state with a program record replaced. -/
def State.setProgram (s : State) (p : Fin 16) (r : Record ProgramRecord) : State :=
  { s with tables := { s.tables with programs := s.tables.programs.set p r } }

/-- The state with a link record replaced. -/
def State.setLink (s : State) (l : Fin 8) (r : Record LinkRecord) : State :=
  { s with tables := { s.tables with links := s.tables.links.set l r } }

/-- The state with the policy record replaced. -/
def State.setPolicy (s : State) (r : Record PolicyRecord) : State :=
  { s with tables := { s.tables with policy := r } }

/-- The state with a receiver replaced. -/
def State.setReceiver (s : State) (l : Fin 8) (r : Receiver) : State :=
  { s with receivers := s.receivers.set l r }

/-- The state with a converter replaced. -/
def State.setConverter (s : State) (l : Fin 8) (c : Converter) : State :=
  { s with converters := s.converters.set l c }

/-- The state with a meter replaced. -/
def State.setMeter (s : State) (p : Fin 16) (m : Meter) : State :=
  { s with meters := s.meters.set p m }

/-- The state with a gain stage replaced. -/
def State.setGain (s : State) (p : Fin 16) (g : GainStage) : State :=
  { s with gains := s.gains.set p g }

/-- The state with a program's delay engine replaced. -/
def State.setDelay (s : State) (p : Fin 16) (d : DelayEngine) : State :=
  { s with delays := s.delays.set p d }

/-- Item `p` of a byte-numbered table, where the byte names one (a program or link number, R185). -/
def indexOf (n : Nat) (x : Byte) : Option (Fin n) :=
  if h : x.toNat < n then some ⟨x.toNat, h⟩ else none

/-! ## The delay memory (R104)

A list of (cell address, sample) pairs in one canonical form: addresses strictly rising, every address
below the number of cells, and no pair that holds what an unlisted cell reads as. -/

/-- The delay memory's data. -/
abbrev Memory := List (Nat × Sample)

/-- What a cell reads as that no lane has written since power-on: 0, a DESIGN CHOICE (assumption 5).
R104 keeps it from every program's output. -/
def Memory.blank : Sample := 0#24

/-- The sample of a cell. -/
def Memory.read : Memory → Nat → Sample
  | [], _ => Memory.blank
  | (a, x) :: rest, address => if a = address then x else Memory.read rest address

/-- The pair to put in for a cell, if its sample is listed at all. -/
def Memory.pair (address : Nat) (x : Sample) : Memory :=
  if x = Memory.blank then [] else [(address, x)]

/-- The memory with one cell written (R104), in canonical form. -/
def Memory.write : Memory → Nat → Sample → Memory
  | [], address, x => Memory.pair address x
  | (a, y) :: rest, address, x =>
    if a < address then (a, y) :: Memory.write rest address x
    else if a = address then Memory.pair address x ++ rest
    else Memory.pair address x ++ (a, y) :: rest

/-- The canonical form of the delay memory. -/
def Memory.wf (m : Memory) : Bool :=
  decide (m.Pairwise fun x y => x.1 < y.1) &&
    m.all fun x => decide (x.1 < Config.memoryCells) && decide (x.2 ≠ Memory.blank)

/-- The cell address of position `i` of lane `l` of a layout (R107, R108): page
`base + l × P + floor(i ÷ 1,024)`, cell `i mod 1,024`, taken within the memory (assumption 20). -/
def Layout.cell (layout : Layout) (l i : Nat) : Nat :=
  ((layout.base + l * layout.pages) * Config.cellsPerPage + i) % Config.memoryCells

/-! ## Free orders (assumption 3) -/

/-- A free choice between two, and the state with the counter advanced. -/
def State.draw (s : State) : Bool × State :=
  (Config.choice s.choices % 2 == 0, { s with choices := s.choices + 1 })

/-- A list with an item put in at a place (at its end, where the place is beyond it). -/
def insertAt {α : Type} (x : α) : Nat → List α → List α
  | 0, ys => x :: ys
  | _ + 1, [] => [x]
  | n + 1, y :: ys => y :: insertAt x n ys

/-- The items of a list in a free order. -/
def freeOrder {α : Type} (c : Nat) : List α → List α
  | [] => []
  | [x] => [x]
  | x :: y :: rest =>
    insertAt x (Config.choice c % (rest.length + 2)) (freeOrder (c + 1) (y :: rest))

/-- Two lists interleaved freely, each in its own order; `fuel` is the number of their items. -/
def freeMergeWith {α : Type} : Nat → Nat → List α → List α → List α
  | 0, _, xs, ys => xs ++ ys
  | _ + 1, _, [], ys => ys
  | _ + 1, _, xs, [] => xs
  | fuel + 1, c, x :: xs, y :: ys =>
    if Config.choice c % 2 = 0 then x :: freeMergeWith fuel (c + 1) xs (y :: ys)
    else y :: freeMergeWith fuel (c + 1) (x :: xs) ys

/-- Two lists interleaved freely, each in its own order. -/
def freeMerge {α : Type} (c : Nat) (xs ys : List α) : List α :=
  freeMergeWith (xs.length + ys.length) c xs ys

/-- The state with `n` free choices used up. -/
def State.spend (s : State) (n : Nat) : State := { s with choices := s.choices + n }

end Sys2Proof.Machine
end

