-- ==== Sys2Proof/Machine/Operands.lean ====
section
/-! DEFINITION. The byte layouts of section 10.6 and of R184 to R192: records from bytes and to bytes
with their range checks (R2, R4, R5, R7, R8), log items, statuses and output frames. -/

namespace Sys2Proof.Machine

/-! ## Kinds, severities, sets -/

/-- A kind's code (section 10.6). -/
def Kind.code : Kind → Nat
  | .linkLost => 1
  | .linkUnlocked => 2
  | .linkSlip => 3
  | .refLost => 4
  | .silence => 5
  | .overload => 6
  | .loudHigh => 7
  | .loudLow => 8
  | .gainAtLimit => 9
  | .delayClamped => 10
  | .syncLost => 11
  | .programChanged => 12

/-- A kind's place in the policy record, in kind-code order (R185). -/
def Kind.place : Kind → Fin 12
  | .linkLost => 0
  | .linkUnlocked => 1
  | .linkSlip => 2
  | .refLost => 3
  | .silence => 4
  | .overload => 5
  | .loudHigh => 6
  | .loudLow => 7
  | .gainAtLimit => 8
  | .delayClamped => 9
  | .syncLost => 10
  | .programChanged => 11

/-- A kind is in a kind set (section 10.6). -/
def Kind.within (k : Kind) (set : KindSet) : Bool := set.getLsbD k.code

/-- The bits that stand for the twelve kinds (section 10.6). -/
def allKinds : KindSet := 0x1FFE#16

/-- The bits of the seven program condition kinds (R2, R7). -/
def programKinds : KindSet := 0x0FE0#16

/-- The bits of LINK_LOST and LINK_UNLOCKED (R4, R8). -/
def linkKinds : KindSet := 0x0006#16

/-- A kind set names kinds of `allowed` only. -/
def subset (set allowed : KindSet) : Bool := set &&& ~~~allowed == 0#16

/-- The entry of a policy record for a kind (R5). -/
def PolicyRecord.kind (r : PolicyRecord) (k : Kind) : KindPolicy := r.kinds[k.place]

/-- The code of a severity (section 10.6). -/
def Severity.code : Severity → Byte
  | .note => 0#8
  | .minor => 1#8
  | .major => 2#8

/-- The severity a byte encodes (section 10.6). -/
def severityOf (x : Byte) : Option Severity :=
  if x = 0#8 then some .note
  else if x = 1#8 then some .minor
  else if x = 2#8 then some .major
  else none

/-- The order NOTE, MINOR, MAJOR (R170). -/
def Severity.rank : Severity → Nat
  | .note => 0
  | .minor => 1
  | .major => 2

/-- The code of a log-edges setting (section 10.6). -/
def LogEdges.code : LogEdges → Byte
  | .never => 0#8
  | .raise => 1#8
  | .clear => 2#8
  | .both => 3#8
  | .log => 4#8

/-- The log-edges setting a byte encodes (section 10.6). -/
def logEdgesOf (x : Byte) : Option LogEdges :=
  if x = 0#8 then some .never
  else if x = 1#8 then some .raise
  else if x = 2#8 then some .clear
  else if x = 3#8 then some .both
  else if x = 4#8 then some .log
  else none

/-! ## The program record (R2, R7, section 10.6) -/

/-- A slot byte: link × 8 + slot, or 255 for NONE; other bytes encode nothing (R186). -/
def slotOf (x : Byte) : Option (Option Slot) :=
  if x = 0xFF#8 then some none
  else if x.toNat < 64 then
    some (some { link := ⟨x.toNat / 8 % 8, by omega⟩, slot := ⟨x.toNat % 8, by omega⟩ })
  else none

/-- The byte of a slot or NONE. -/
def slotByte : Option Slot → Byte
  | none => 0xFF#8
  | some x => BitVec.ofNat 8 (8 * x.link.val + x.slot.val)

/-- A weight byte: signed `j` from −12 to +12, or 0x80 for EXCLUDED (R186). -/
def weightOf (x : Byte) : Option Weight :=
  if x = 0x80#8 then some .excluded
  else if -12 ≤ x.toInt ∧ x.toInt ≤ 12 then some (.steps x.toInt)
  else none

/-- The byte of a weight. -/
def weightByte : Weight → Byte
  | .excluded => 0x80#8
  | .steps j => BitVec.ofInt 8 j

/-- The source a byte encodes. -/
def sourceOf (x : Byte) : Option Source :=
  if x = 0#8 then some .program
  else if x = 1#8 then some .lineup
  else if x = 2#8 then some .mute
  else none

/-- The byte of a source. -/
def sourceByte : Source → Byte
  | .program => 0#8
  | .lineup => 1#8
  | .mute => 2#8

/-- The loudness mode a byte encodes. -/
def loudnessModeOf (x : Byte) : Option LoudnessMode :=
  if x = 0#8 then some .integrated
  else if x = 1#8 then some .shortTerm
  else if x = 2#8 then some .measureOnly
  else none

/-- The byte of a loudness mode. -/
def loudnessModeByte : LoudnessMode → Byte
  | .integrated => 0#8
  | .shortTerm => 1#8
  | .measureOnly => 2#8

/-- The change mode a byte encodes. -/
def changeModeOf (x : Byte) : Option ChangeMode :=
  if x = 0#8 then some .slew else if x = 1#8 then some .jump else none

/-- The byte of a change mode. -/
def changeModeByte : ChangeMode → Byte
  | .slew => 0#8
  | .jump => 1#8

/-- A flag byte: 0 or 1 (R185, section 10.6). -/
def flagOf (x : Byte) : Option Bool :=
  if x = 0#8 then some false else if x = 1#8 then some true else none

/-- The byte of a flag. -/
def flagByte (x : Bool) : Byte := if x then 1#8 else 0#8

/-- `count` channels, three bytes each, and the bytes after them. -/
def channelsOf : Nat → List Byte → Option (List Channel × List Byte)
  | 0, rest => some ([], rest)
  | n + 1, i :: o :: w :: rest =>
    match slotOf i, slotOf o, weightOf w, channelsOf n rest with
    | some input, some output, some weight, some (others, after) =>
      some ({ input := input, output := output, weight := weight } :: others, after)
    | _, _, _, _ => none
  | _ + 1, _ => none

/-- The bytes of a channel. -/
def channelBytes (c : Channel) : List Byte := [slotByte c.input, slotByte c.output, weightByte c.weight]

/-- A loudness section, if `present`, and the bytes after it (section 10.6). -/
def loudnessOf (present : Bool) : List Byte → Option (Option Loudness × List Byte)
  | bytes =>
    if present then
      match bytes with
      | m :: t1 :: t0 :: boost :: cut :: slew :: g1 :: g0 :: range :: rest =>
        match loudnessModeOf m with
        | some mode =>
          some (some
            { mode := mode
              target := (word16 t1 t0).toInt
              maxBoost := boost.toNat
              maxCut := cut.toNat
              slew := slew.toNat
              gate := (word16 g1 g0).toInt
              range := range.toNat }, rest)
        | none => none
      | _ => none
    else some (none, bytes)

/-- The bytes of a loudness section. -/
def loudnessBytes (x : Loudness) : List Byte :=
  [loudnessModeByte x.mode] ++ bytes16 (BitVec.ofInt 16 x.target) ++
    [BitVec.ofNat 8 x.maxBoost, BitVec.ofNat 8 x.maxCut, BitVec.ofNat 8 x.slew] ++
    bytes16 (BitVec.ofInt 16 x.gate) ++ [BitVec.ofNat 8 x.range]

/-- A delay section, if `present`, and the bytes after it (section 10.6). -/
def delaySectionOf (present : Bool) : List Byte → Option (Option DelaySection × List Byte)
  | bytes =>
    if present then
      match bytes with
      | b1 :: b0 :: l1 :: l0 :: t3 :: t2 :: t1 :: t0 :: m :: r1 :: r0 :: rest =>
        match changeModeOf m with
        | some mode =>
          some (some
            { base := (word16 b1 b0).toNat
              limit := (word16 l1 l0).toNat
              target := (word32 t3 t2 t1 t0).toNat
              mode := mode
              rate := (word16 r1 r0).toNat }, rest)
        | none => none
      | _ => none
    else some (none, bytes)

/-- The bytes of a delay section. -/
def delaySectionBytes (x : DelaySection) : List Byte :=
  bytes16 (BitVec.ofNat 16 x.base) ++ bytes16 (BitVec.ofNat 16 x.limit) ++
    bytes32 (BitVec.ofNat 32 x.target) ++ [changeModeByte x.mode] ++ bytes16 (BitVec.ofNat 16 x.rate)

/-- An alarm section, if `present`, and the bytes after it (section 10.6). -/
def alarmSectionOf (present : Bool) : List Byte → Option (Option AlarmSection × List Byte)
  | bytes =>
    if present then
      match bytes with
      | k1 :: k0 :: s1 :: s0 :: rest =>
        some (some { kinds := word16 k1 k0, silence := (word16 s1 s0).toInt }, rest)
      | _ => none
    else some (none, bytes)

/-- The bytes of an alarm section. -/
def alarmSectionBytes (x : AlarmSection) : List Byte :=
  bytes16 x.kinds ++ bytes16 (BitVec.ofInt 16 x.silence)

/-- A program record from its bytes, where every byte encodes a value of its field (R186, section
10.6). The ranges of the fields are `ProgramRecord.inRange`. -/
def programOfBytes : List Byte → Option ProgramRecord
  | st :: so :: count :: flags :: rest =>
    if flags.toNat < 8 then
      match flagOf st, sourceOf so, channelsOf count.toNat rest with
      | some active, some source, some (channels, rest1) =>
        match loudnessOf (flags.getLsbD 0) rest1 with
        | some (loudness, rest2) =>
          match delaySectionOf (flags.getLsbD 1) rest2 with
          | some (delay, rest3) =>
            match alarmSectionOf (flags.getLsbD 2) rest3 with
            | some (alarm, []) =>
              some
                { active := active
                  source := source
                  channels := channels
                  loudness := loudness
                  delay := delay
                  alarm := alarm }
            | _ => none
          | none => none
        | none => none
      | _, _, _ => none
    else none
  | _ => none

/-- The section flag byte of a program record. -/
def sectionFlags (r : ProgramRecord) : Byte :=
  BitVec.ofNat 8 (r.loudness.isSome.toNat + 2 * r.delay.isSome.toNat + 4 * r.alarm.isSome.toNat)

/-- The bytes of a program record (section 10.6). -/
def programBytes (r : ProgramRecord) : List Byte :=
  [flagByte r.active, sourceByte r.source, BitVec.ofNat 8 r.channels.length, sectionFlags r] ++
    r.channels.flatMap channelBytes ++
    (match r.loudness with | none => [] | some x => loudnessBytes x) ++
    (match r.delay with | none => [] | some x => delaySectionBytes x) ++
    (match r.alarm with | none => [] | some x => alarmSectionBytes x)

/-- A weight lies in the range R2 gives it. -/
def Weight.inRange : Weight → Bool
  | .excluded => true
  | .steps j => -12 ≤ j && j ≤ 12

/-- A loudness section lies in the ranges R2 gives it. -/
def Loudness.inRange (x : Loudness) : Bool :=
  -400 ≤ x.target && x.target ≤ -50 && x.maxBoost ≤ 200 && x.maxCut ≤ 200 &&
    1 ≤ x.slew && x.slew ≤ 100 && -700 ≤ x.gate && x.gate ≤ -200 && 10 ≤ x.range && x.range ≤ 100

/-- A delay section lies in the ranges R2 gives it. -/
def DelaySection.inRange (x : DelaySection) : Bool :=
  x.base ≤ 16383 && x.limit ≤ 16383 && x.target ≤ 240000 && 100 ≤ x.rate && x.rate ≤ 20000

/-- An alarm section lies in the ranges R2 gives it. -/
def AlarmSection.inRange (x : AlarmSection) : Bool :=
  subset x.kinds programKinds && -900 ≤ x.silence && x.silence ≤ -400

/-- The output slots a program's channels claim (R10). -/
def ProgramRecord.outputs (r : ProgramRecord) : List Slot := r.channels.filterMap (·.output)

/-- The range check of a whole program record (R2, R7). -/
def ProgramRecord.inRange (r : ProgramRecord) : Bool :=
  (if r.active then 1 ≤ r.channels.length && r.channels.length ≤ 8 && r.alarm.isSome
   else r.channels.isEmpty && r.loudness.isNone && r.delay.isNone && r.alarm.isNone) &&
    r.channels.all (fun c => c.weight.inRange) &&
    r.loudness.all Loudness.inRange && r.delay.all DelaySection.inRange &&
    r.alarm.all AlarmSection.inRange && decide r.outputs.Nodup

/-! ## The link record (R4, R8, R185) -/

/-- The bandwidth a byte encodes (R185). -/
def bandwidthOf (x : Byte) : Option Bandwidth :=
  if x = 0#8 then some .wide
  else if x = 1#8 then some .medium
  else if x = 2#8 then some .narrow
  else none

/-- The byte of a bandwidth (R185). -/
def bandwidthByte : Bandwidth → Byte
  | .wide => 0#8
  | .medium => 1#8
  | .narrow => 2#8

/-- A link record from its five bytes, where every byte encodes a value of its field (R185, R186). -/
def linkOfBytes : List Byte → Option LinkRecord
  | [e, n, b, k1, k0] =>
    match flagOf e, bandwidthOf b with
    | some enable, some bandwidth =>
      some { enable := enable, slots := n.toNat, bandwidth := bandwidth, kinds := word16 k1 k0 }
    | _, _ => none
  | _ => none

/-- The five bytes of a link record (R185). -/
def linkBytes (r : LinkRecord) : List Byte :=
  [flagByte r.enable, BitVec.ofNat 8 r.slots, bandwidthByte r.bandwidth] ++ bytes16 r.kinds

/-- The range check of a link record (R4, R8). -/
def LinkRecord.inRange (r : LinkRecord) : Bool := 2 ≤ r.slots && r.slots ≤ 8 && subset r.kinds linkKinds

/-! ## The policy record (R5, R8, R185) -/

/-- One kind's six bytes of a policy record (R185). -/
def kindPolicyOf : List Byte → Option KindPolicy
  | s :: r1 :: r0 :: c1 :: c0 :: e :: _ =>
    match severityOf s, logEdgesOf e with
    | some severity, some edges =>
      some
        { severity := severity
          holdRaise := (word16 r1 r0).toNat
          holdClear := (word16 c1 c0).toNat
          edges := edges }
    | _, _ => none
  | _ => none

/-- The bytes of one kind's entry. -/
def kindPolicyBytes (x : KindPolicy) : List Byte :=
  [x.severity.code] ++ bytes16 (BitVec.ofNat 16 x.holdRaise) ++ bytes16 (BitVec.ofNat 16 x.holdClear) ++
    [x.edges.code]

/-- A policy record from its 74 bytes, where every byte encodes a value of its field (R185, R186). -/
def policyOfBytes (bytes : List Byte) : Option PolicyRecord :=
  if (List.finRange 12).all fun k => (kindPolicyOf (bytes.drop (6 * k.val))).isSome then
    match bytes.drop 72 with
    | [m, t] =>
      match flagOf m with
      | some monitored =>
        some
          { kinds := Vector.ofFn fun k : Fin 12 =>
              (kindPolicyOf (bytes.drop (6 * k.val))).getD KindPolicy.defaults[k]
            refLostMonitored := monitored
            timeout := t.toNat }
      | none => none
    | _ => none
  else none

/-- The 74 bytes of a policy record (R185). -/
def policyBytes (r : PolicyRecord) : List Byte :=
  ((List.finRange 12).flatMap fun k => kindPolicyBytes r.kinds[k]) ++
    [flagByte r.refLostMonitored, BitVec.ofNat 8 r.timeout]

/-- The place of an event kind in the policy record: LINK_SLIP or PROGRAM_CHANGED (R5). -/
def isEventPlace (k : Fin 12) : Bool := k == Kind.linkSlip.place || k == Kind.programChanged.place

/-- The range check of one kind's entry: holds to 3,000, holds of 0 and LOG or NONE for an event kind,
no LOG for a condition kind (R5, R8). -/
def KindPolicy.inRange (k : Fin 12) (x : KindPolicy) : Bool :=
  if isEventPlace k then
    x.holdRaise == 0 && x.holdClear == 0 && (x.edges == .log || x.edges == .never)
  else x.holdRaise ≤ 3000 && x.holdClear ≤ 3000 && x.edges != .log

/-- The range check of a policy record (R5, R8). -/
def PolicyRecord.inRange (r : PolicyRecord) : Bool :=
  ((List.finRange 12).all fun k => r.kinds[k].inRange k) && r.timeout ≤ 255

/-! ## Log items (section 10.6) -/

/-- The byte of a subject, as the kind's subject gives (section 10.6). -/
def Subject.byte : Subject → Byte
  | .device => 0#8
  | .link l => BitVec.ofNat 8 l.val
  | .program p => BitVec.ofNat 8 p.val

/-- The code of an edge (section 10.6). -/
def Edge.code : Edge → Byte
  | .raised => 0#8
  | .cleared => 1#8
  | .event => 2#8

/-- The byte of a port: 0 A, 1 B (section 10.6). -/
def portByte : Port → Byte
  | .a => 0#8
  | .b => 1#8

/-- The four bytes of a detail (section 10.6). -/
def Detail.bytes : Detail → List Byte
  | .cause .sampled => [0#8, 0#8, 0#8, 0#8]
  | .cause .withdrawn => [0#8, 0#8, 0#8, 1#8]
  | .cause .admitted => [0#8, 0#8, 0#8, 2#8]
  | .slip .delete c => [0#8, 0#8] ++ bytes16 (BitVec.ofNat 16 c)
  | .slip .repeat c => [1#8, 0#8] ++ bytes16 (BitVec.ofNat 16 c)
  | .changed p revision origin => [BitVec.ofNat 8 p.val] ++ bytes16 revision ++ [portByte origin]

/-- The thirteen bytes of an entry as a log item (section 10.6). -/
def Entry.bytes (e : Entry) : List Byte :=
  [0#8, BitVec.ofNat 8 e.kind.code, e.subject.byte, e.edge.code, e.severity.code] ++ bytes32 e.stamp ++
    e.detail.bytes

/-- The thirteen bytes of an OVERRUN item (R169, section 10.6). -/
def overrunBytes (count : Nat) : List Byte :=
  [1#8, 0#8, 0#8, 0#8, 0#8, 0#8, 0#8, 0#8, 0#8] ++ bytes32 (BitVec.ofNat 32 count)

/-! ## Output frames (section 10.6) -/

/-- The code of a status (section 10.6). -/
def Status.code : Status → Byte
  | .none => 0x00#8
  | .done => 0x01#8
  | .pending => 0x02#8
  | .superseded => 0x03#8
  | .stale => 0x10#8
  | .range => 0x11#8
  | .conflict => 0x12#8
  | .unknown => 0x13#8
  | .length => 0x14#8

/-- An output frame: status, body length, body (section 10.6). -/
def outputFrame (status : Status) (body : List Byte) : List Byte :=
  status.code :: bytes16 (BitVec.ofNat 16 body.length) ++ body

/-- A response just made: none of its frame has been clocked out. -/
def respond (status : Status) (body : List Byte) : Response :=
  { status := status, body := body, clocked := 0 }

/-- The frame of a held response (R178). -/
def Response.frame (r : Response) : List Byte := outputFrame r.status r.body

/-! ## Audio frames (R25, R38) -/

/-- The sample of slot `y` of an input frame: the first 24 of the slot's 32 bits (R25). -/
def slotSample (frame : BitVec 256) (y : Fin 8) : Sample := frame.extractLsb' (232 - 32 * y.val) 24

/-- An output frame of eight slots, each a sample in its first 24 bits with its last 8 bits zero
(R38). -/
def audioFrame (x : Vector Sample 8) : BitVec 256 :=
  (x[0] ++ 0#8) ++ (x[1] ++ 0#8) ++ (x[2] ++ 0#8) ++ (x[3] ++ 0#8) ++
    (x[4] ++ 0#8) ++ (x[5] ++ 0#8) ++ (x[6] ++ 0#8) ++ (x[7] ++ 0#8)

end Sys2Proof.Machine
end

