-- ==== Sys2Proof/Machine/Log.lean ====
section
/-! DEFINITION. The alarm log (chapter 9): joining, leaving, fetching, attendance and attention. -/

namespace Sys2Proof.Machine

/-- The number of entries a port has not read: the next sequence number minus its cursor (R163). -/
def AlarmLog.unread (log : AlarmLog) (q : Port) : Nat := log.next - (log.ports.get q).cursor

/-- A log-edges setting includes an edge (R150). -/
def LogEdges.includes : LogEdges → Edge → Bool
  | .never, _ => false
  | .raise, edge => edge == .raised
  | .clear, edge => edge == .cleared
  | .both, edge => edge == .raised || edge == .cleared
  | .log, edge => edge == .event

/-- A port's place after the entry of a number has left the log: an entry it had not read counts as
missed and its cursor moves on (R167). -/
def LogPort.depart (place : LogPort) (number : Nat) : LogPort :=
  if place.cursor ≤ number then { place with cursor := number + 1, missed := place.missed + 1 }
  else place

/-- Both ports' places after the entry of a number has left the log (R167). -/
def departed (places : Pair LogPort) (number : Nat) : Pair LogPort :=
  { a := places.a.depart number, b := places.b.depart number }

/-- The log after its oldest entry has been dropped (R166). -/
def AlarmLog.drop (log : AlarmLog) : AlarmLog :=
  match log.entries with
  | [] => log
  | oldest :: rest => { log with entries := rest, ports := departed log.ports oldest.number }

/-- The log after an entry has joined it: a full log drops its oldest entry first (R162, R166). -/
def AlarmLog.hand (log : AlarmLog) (e : Entry) : AlarmLog :=
  let room := if Config.logCapacity ≤ log.entries.length then log.drop else log
  { room with
    entries := room.entries ++ [{ number := room.next, entry := e }]
    next := room.next + 1 }

/-- Every attending port has read the entry of a number, and at least one port attends (R165). -/
def retirable (places : Pair LogPort) (number : Nat) : Bool :=
  (places.a.attending || places.b.attending) &&
    (!places.a.attending || decide (number < places.a.cursor)) &&
    (!places.b.attending || decide (number < places.b.cursor))

/-- The run of oldest entries that retire, removed one after another (R165). -/
def retireFrom : List LogEntry → Pair LogPort → List LogEntry × Pair LogPort
  | [], places => ([], places)
  | oldest :: rest, places =>
    if retirable places oldest.number then retireFrom rest (departed places oldest.number)
    else (oldest :: rest, places)

/-- The log after the test for retirement (R165). -/
def AlarmLog.retire (log : AlarmLog) : AlarmLog :=
  { log with
    entries := (retireFrom log.entries log.ports).1
    ports := (retireFrom log.entries log.ports).2 }

/-- The log after a port has become attending and its timer has restarted from 0 (R164). -/
def AlarmLog.attend (log : AlarmLog) (q : Port) : AlarmLog :=
  { log with ports := log.ports.set q { log.ports.get q with attending := true, timer := 0 } }

/-- The log after a port has become ABSENT: its timer stops, and retirement is tested (R164, R165). -/
def AlarmLog.leave (log : AlarmLog) (q : Port) : AlarmLog :=
  AlarmLog.retire
    { log with ports := log.ports.set q { log.ports.get q with attending := false } }

/-- The most an OVERRUN item reports (R169). -/
def overrunMost : Nat := 4294967295

/-- The count of the OVERRUN item a fetch begins with; 0 where it begins with none (R168, R169). -/
def AlarmLog.overrun (log : AlarmLog) (q : Port) : Nat := min (log.ports.get q).missed overrunMost

/-- The entries that a fetch of `n` items delivers to a port: from its cursor onward, oldest first, in
the places an OVERRUN item leaves (R168). -/
def AlarmLog.delivered (log : AlarmLog) (q : Port) (n : Nat) : List LogEntry :=
  (log.entries.filter fun e => (log.ports.get q).cursor ≤ e.number).take
    (if 0 < (log.ports.get q).missed then n - 1 else n)

/-- The log after a fetch of `n` items by a port, before retirement is tested (R168 steps 1 and 2,
R169). -/
def AlarmLog.advance (log : AlarmLog) (q : Port) (n : Nat) : AlarmLog :=
  { log with
    ports := log.ports.set q
      { log.ports.get q with
        cursor := (log.ports.get q).cursor + (log.delivered q n).length
        missed := (log.ports.get q).missed - log.overrun q } }

/-- The body of the DONE response of a fetch of `n` items (R191). -/
def AlarmLog.fetchBody (log : AlarmLog) (q : Port) (n : Nat) : List Byte :=
  let overruns : List (List Byte) :=
    if 0 < (log.ports.get q).missed then [overrunBytes (log.overrun q)] else []
  let items := overruns ++ (log.delivered q n).map fun e => e.entry.bytes
  BitVec.ofNat 8 items.length :: BitVec.ofNat 8 ((log.advance q n).unread q) :: items.flatten

/-- ATN of a port is due: an unread entry not masked and at or above the threshold, a missed count, or
the high-water mark (R170, R172, R173). -/
def AlarmLog.attention (log : AlarmLog) (q : Port) : Bool :=
  (log.entries.any fun e =>
    decide ((log.ports.get q).cursor ≤ e.number) &&
      !(e.entry.kind.within (log.ports.get q).mask) &&
      decide ((log.ports.get q).threshold.rank ≤ e.entry.severity.rank)) ||
    decide (0 < (log.ports.get q).missed) || decide (Config.highWater ≤ log.entries.length)

/-- The state after an entry has been handed to the log. -/
def State.hand (s : State) (e : Entry) : State := { s with log := s.log.hand e }

/-- The state after an event of an event kind has been handed over, where the applied policy's log
setting is LOG (R153). Its stamp is B as it stands: at a house frame that is a block end, B before BLOCK_END
counts it (assumption 38). -/
def State.handEvent (s : State) (k : Kind) (subject : Subject) (detail : Detail) : State :=
  if (s.policy.kind k).edges.includes .event then
    s.hand
      { kind := k
        subject := subject
        edge := .event
        severity := (s.policy.kind k).severity
        stamp := s.clock.blocks
        detail := detail }
  else s

end Sys2Proof.Machine
end

