-- ==== Sys2Proof/Machine/Flags.lean ====
section
/-! DEFINITION. The condition table's order (R140), the monitored flags (R154), presence (R142), the
debounce (R149), and the outputs that follow them: the summary lines (R158) and ATN (R170). -/

namespace Sys2Proof.Machine

/-- The subject of a place of the condition table, counted from 0 (R140). -/
def conditionSubject (i : Fin 129) : Subject :=
  if i.val = 0 then .device
  else if i.val < 17 then .link ⟨(i.val - 1) / 2 % 8, by omega⟩
  else .program ⟨(i.val - 17) / 7 % 16, by omega⟩

/-- The kind of a place of the condition table, counted from 0 (R140). -/
def conditionKind (i : Fin 129) : Kind :=
  if i.val = 0 then .refLost
  else if i.val < 17 then (if (i.val - 1) % 2 = 0 then .linkLost else .linkUnlocked)
  else
    match (i.val - 17) % 7 with
    | 0 => .silence
    | 1 => .overload
    | 2 => .loudHigh
    | 3 => .loudLow
    | 4 => .gainAtLimit
    | 5 => .delayClamped
    | _ => .syncLost

/-- The monitored flag of a place, read from the applied records (R154). -/
def Tables.monitored (t : Tables) (i : Fin 129) : Bool :=
  match conditionSubject i with
  | .device => t.policy.applied.refLostMonitored
  | .link l => (conditionKind i).within t.links[l].applied.kinds
  | .program p =>
    match t.programs[p].applied.alarm with
    | some section_ => (conditionKind i).within section_.kinds
    | none => false

/-- The subject of a place is present under the applied records (R142). -/
def Tables.present (t : Tables) (i : Fin 129) : Bool :=
  match conditionSubject i with
  | .device => true
  | .link l => t.links[l].applied.enable
  | .program p => t.programs[p].applied.active

/-- The severity of a place: its kind's severity in the applied policy (R158). -/
def Tables.severity (t : Tables) (i : Fin 129) : Severity :=
  (t.policy.applied.kind (conditionKind i)).severity

/-- One debounce of a condition against a sampled test, under its kind's holds (R149). -/
def Condition.debounce (c : Condition) (policy : KindPolicy) (test : Bool) : Condition :=
  if test = c.raised then { c with test := test, counter := 0 }
  else if c.counter < (if c.raised then policy.holdClear else policy.holdRaise) then
    { c with test := test, counter := c.counter + 1 }
  else { test := test, raised := !c.raised, counter := 0 }

/-- Some monitored RAISED condition has a severity (R158). -/
def Tables.alarming (t : Tables) (conditions : Vector Condition 129) (severity : Severity) : Bool :=
  (List.finRange 129).any fun i =>
    conditions[i].raised && t.monitored i && t.severity i == severity

/-- The summary lines (R158). -/
def Tables.summary (t : Tables) (conditions : Vector Condition 129) : Summary :=
  { major := t.alarming conditions .major, minor := t.alarming conditions .minor }

/-- The state with ATN of each port (R170) and the summary lines (R158) following their inputs, which
they do at the moment of each change. Every command that changes an input ends with it. -/
def State.settle (s : State) : State :=
  { s with
    pins :=
      { alarms := s.tables.summary s.conditions
        sampled := s.pins.sampled
        atn := { a := s.log.attention .a, b := s.log.attention .b } } }

end Sys2Proof.Machine
end

