-- ==== Sys2Proof/Machine/Converters.lean ====
section
/-! DEFINITION. The rate converters (chapter 3): arrivals, the house frame's reading, block-end tracking,
slips, loss, return, enable and disable. -/

namespace Sys2Proof.Machine

/-- A slip notice (R57). -/
structure SlipNotice where
  link : Fin 8
  direction : SlipDirection
  equivalent : Nat
  deriving DecidableEq, Repr

/-- A converter that reads its FIFO and takes frames: LOCKED, FREEWHEEL or RELOCK (R42, R43). -/
def Converter.running (c : Converter) : Bool :=
  c.state == .locked || c.state == .freewheel || c.state == .relock

/-- A ratio clamped to the range of R_used (R52). -/
def clampRatio (x : Int) : Nat := (max (Config.ratioLow : Int) (min (Config.ratioHigh : Int) x)).toNat

/-- A ratio in range (R41, R48). -/
def inRatioRange (x : Nat) : Bool := Config.ratioLow ≤ x && x ≤ Config.ratioHigh

/-- The integer part n of a read position (section 3.2). -/
def wholeOf (position : Nat) : Nat := position / 2 ^ 28

/-- The fraction φ of a read position (section 3.2). -/
def phaseOf (position : Nat) : BitVec 28 := BitVec.ofNat 28 position

/-- The number of frames ahead of a read position: those with index above n (section 3.2). -/
def Converter.ahead (c : Converter) (position : Nat) : Nat :=
  c.fifo.countP fun f => wholeOf position < f.index

/-- The fill: the number of frames in the FIFO (R41). -/
def Converter.fill (c : Converter) : Nat := c.fifo.length

/-! ## Reading at a house frame (R42, R44, R46) -/

/-- The stored sample of a slot in the frame of an index, 0 where the FIFO holds no such frame, which
R44 keeps from happening (assumption 20). -/
def Converter.stored (c : Converter) (y : Fin 8) (index : Int) : Int :=
  match c.fifo.find? (fun f => (f.index : Int) == index) with
  | some f => f.samples[y].toInt
  | none => 0

/-- The interpolated sample of a slot at the read position (R46). -/
def Converter.interpolated (c : Converter) (y : Fin 8) : Sample :=
  interpolate (phaseOf c.position) fun i =>
    c.stored y ((wholeOf c.position : Int) + (i.val : Int) - 7)

/-- A sample scaled by a fade level: `round(v × a ÷ 480)` (R46, R96). -/
def scaled (v : Sample) (level : Nat) : Sample :=
  saturate (roundDiv (v.toInt * level) Config.fadeFrames)

/-- The samples of all eight slots, scaled by the fade level (R42, R46). -/
def Converter.samples (c : Converter) : Vector Sample 8 :=
  Vector.ofFn fun y => scaled (c.interpolated y) c.fade

/-- Eight zero samples (R42). -/
def silentSlots : Vector Sample 8 := Vector.replicate 8 0#24

/-- The move of the fade level at a house frame (R46). -/
def Converter.moveFade (c : Converter) : Converter :=
  match c.direction with
  | .steady => c
  | .rising =>
    { c with
      fade := min Config.fadeFrames (c.fade + 1)
      direction := if Config.fadeFrames ≤ c.fade + 1 then .steady else .rising }
  | .falling =>
    { c with fade := c.fade - 1, direction := if c.fade - 1 = 0 then .steady else .falling }

/-- The frames that the read position has passed leave the old end of the FIFO for the history, which
keeps the last 64 (R44 step 3). -/
def Converter.release (c : Converter) : Converter :=
  let passed (f : Frame) : Bool := f.index + 7 < wholeOf c.position
  { c with
    fifo := c.fifo.dropWhile passed
    history := lastN 64 (c.history ++ c.fifo.takeWhile passed) }

/-- A converter with its FIFO and history emptied. -/
def Converter.emptied (c : Converter) : Converter := { c with fifo := [], history := [] }

/-- A total of slips with one added; it stands at its greatest value (R57). -/
def countSlip (total : Nat) : Nat := min 4294967295 (total + 1)

/-- Entry to FREEWHEEL: R is kept, R_used is R clamped to range, the run count is 0 (R52, R53). -/
def Converter.enterFreewheel (c : Converter) : Converter :=
  { c with state := .freewheel, used := clampRatio c.ratio, counter := 0 }

/-- A slip moves a LOCKED converter to FREEWHEEL and leaves another state as it is (R57). -/
def Converter.slipped (c : Converter) : Converter :=
  if c.state = .locked then c.enterFreewheel else c

/-- The equivalent of a slip of k frames, `floor(k × 2^28 ÷ R_used + 1/2)` (R57). -/
def slipEquivalent (k used : Nat) : Nat := (2 * k * 2 ^ 28 + used) / (2 * used)

/-- A DELETE slip: the 64 frames at the old end become the history and the read position moves past
them (R55, R57). -/
def Converter.delete (c : Converter) (link : Fin 8) : Converter × SlipNotice :=
  let moved :=
    { c with
      history := c.fifo.take 64
      fifo := c.fifo.drop 64
      position := c.position + 64 * 2 ^ 28
      deletes := countSlip c.deletes }
  (moved.slipped,
    { link := link, direction := .delete, equivalent := slipEquivalent 64 moved.slipped.used })

/-- A REPEAT slip: the frames of the history rejoin the FIFO and the read position moves back (R56,
R57). -/
def Converter.repeatSlip (c : Converter) (link : Fin 8) : Converter × SlipNotice :=
  let moved :=
    { c with
      history := []
      fifo := c.history ++ c.fifo
      position := c.position - c.history.length * 2 ^ 28
      repeats := countSlip c.repeats }
  (moved.slipped,
    { link := link, direction := .repeat,
      equivalent := slipEquivalent c.history.length moved.slipped.used })

/-- The reading of a running converter after its sample is formed: advance, release, and a REPEAT when
fewer than 8 frames lie ahead; an empty history holds the position instead (R44, R56). Where `waits` says
so, the slip is left to `makeWaiting`, after the block end of the same instant (R57, R196; assumption
36). -/
def Converter.read (c : Converter) (link : Fin 8) (waits : Bool) : Converter × Option SlipNotice :=
  let next := { c with position := c.position + c.used }.release
  if 8 ≤ next.ahead next.position then (next, none)
  else if next.history.isEmpty then ({ next with position := c.position }, none)
  else if waits then ({ next with slipWaits := true }, none)
  else ((next.repeatSlip link).1, some (next.repeatSlip link).2)

/-- The slip that waits is made (R57, R196): step 4 of the house frame's work (R44) in the state that the
converter has now, so no slip where a block end has made it IDLE, where frames that have arrived in between
lie ahead (R43), or in LOST. -/
def Converter.makeWaiting (c : Converter) (link : Fin 8) : Converter × Option SlipNotice :=
  let ready := { c with slipWaits := false }
  if !c.slipWaits then (c, none)
  else if c.running && decide (c.ahead c.position < 8) && !c.history.isEmpty then
    ((ready.repeatSlip link).1, some (ready.repeatSlip link).2)
  else (ready, none)

/-- The reading of a LOST converter whose fade runs: it advances only where 8 frames would lie ahead,
and makes no slip (R44). -/
def Converter.readLost (c : Converter) : Converter :=
  if 8 ≤ c.ahead (c.position + c.used) then
    { c with position := c.position + c.used }.release
  else c

/-- A converter's work at a house frame: the samples it delivers, the converter after it, and the notice
of a slip it made (R42, R44, R46); `waits` says whether a slip comes after the block end. -/
def Converter.houseFrame (c : Converter) (link : Fin 8) (waits : Bool) :
    Vector Sample 8 × Converter × Option SlipNotice :=
  match c.state with
  | .idle => (silentSlots, c, none)
  | .acquire => (silentSlots, c, none)
  | .locked => (c.moveFade.samples, c.moveFade.read link waits)
  | .freewheel => (c.moveFade.samples, c.moveFade.read link waits)
  | .relock => (c.moveFade.samples, c.moveFade.read link waits)
  | .lost =>
    if c.moveFade.fade = 0 then (silentSlots, c.moveFade.emptied, none)
    else (c.moveFade.samples, c.moveFade.readLost, none)

/-! ## Arrivals (R43, R47) -/

/-- A frame joins the new end of the FIFO with the next index and adds to the block's arrivals (R41,
R43). -/
def Converter.join (c : Converter) (samples : Vector Sample 8) : Converter :=
  { c with
    fifo := c.fifo ++ [{ index := c.nextIndex, samples := samples }]
    nextIndex := c.nextIndex + 1
    arrivals := c.arrivals + 1 }

/-- A frame that collects in ACQUIRE: a full FIFO discards its oldest frame first (R43). -/
def Converter.collect (c : Converter) (samples : Vector Sample 8) : Converter :=
  { c with fifo := if Config.fifoFrames ≤ c.fill then c.fifo.drop 1 else c.fifo }.join samples

/-- An arrival at a running converter: a full FIFO makes a DELETE slip first (R43, R55). -/
def Converter.take (c : Converter) (link : Fin 8) (samples : Vector Sample 8) :
    Converter × Option SlipNotice :=
  if c.fill < Config.fifoFrames then (c.join samples, none)
  else ((c.delete link).1.join samples, some (c.delete link).2)

/-- An arrival at a converter (R43). -/
def Converter.arrive (c : Converter) (link : Fin 8) (samples : Vector Sample 8) :
    Converter × Option SlipNotice :=
  match c.state with
  | .idle => (c, none)
  | .lost => (c, none)
  | .acquire => (c.collect samples, none)
  | .locked => c.take link samples
  | .freewheel => c.take link samples
  | .relock => c.take link samples

/-! ## Block-end tracking (R47 to R54) -/

/-- The count of the ending block joins the count list, or counting starts (R47). -/
def Converter.count (c : Converter) : Converter :=
  if c.counting then { c with counts := lastN 8 (c.counts ++ [c.arrivals]), arrivals := 0 }
  else { c with counting := true, arrivals := 0 }

/-- R_meas from the count list, `floor(N × 2^28 ÷ (4,800 × m))` (R48). -/
def measureOf (counts : List Nat) : Nat :=
  counts.sum * 2 ^ 28 / (Config.framesPerBlock * counts.length)

/-- R_meas is formed and joins the R_meas list, where the count list is not empty (R48). -/
def Converter.measure (c : Converter) : Converter :=
  if c.counts.isEmpty then c
  else
    { c with
      measured := measureOf c.counts
      measures := lastN 8 (c.measures ++ [measureOf c.counts]) }

/-- The lock test: eight values, each in range, within 2^-12 of each other (R49). -/
def lockTest (measures : List Nat) : Bool :=
  measures.length == 8 && measures.all inRatioRange &&
    measures.all fun x => measures.all fun y => x ≤ y + 65536

/-- R_used with the centring term, clamped to range (R52). -/
def Converter.centre (c : Converter) : Converter :=
  { c with used := clampRatio ((c.ratio : Int) + ((c.fill : Int) - 128) * 4096) }

/-- One smoothing step of R toward R_meas, `R + floor((R_meas − R) ÷ 2^s)` (R51). -/
def Converter.smooth (c : Converter) (s : Nat) : Converter :=
  { c with ratio := ((c.ratio : Int) + ((c.measured : Int) - c.ratio) / (2 ^ s : Nat)).toNat }

/-- The smoothing shift of a bandwidth (R51). -/
def Bandwidth.shift : Bandwidth → Nat
  | .wide => 2
  | .medium => 4
  | .narrow => 6

/-- Entry to LOCKED from ACQUIRE (R50). -/
def Converter.lock (c : Converter) : Converter :=
  let kept := lastN 128 c.fifo
  { c with
    state := .locked
    ratio := c.measured
    history := lastN 64 (c.fifo.take (c.fifo.length - 128))
    fifo := kept
    position := (match kept[7]? with | some f => f.index | none => 0) * 2 ^ 28
    counter := 0
    fade := 0
    direction := .rising }.centre

/-- The distance of two ratios. -/
def ratioGap (x y : Nat) : Nat := ((x : Int) - y).natAbs

/-- The tracker's work at a block end in ACQUIRE (R49). -/
def Converter.trackAcquire (c : Converter) : Converter :=
  if c.counts.isEmpty then c
  else if lockTest c.measures then { c with ratio := c.measured }.lock
  else { c with ratio := c.measured }

/-- The tracker's work at a block end in LOCKED (R51, R52). -/
def Converter.trackLocked (c : Converter) (bandwidth : Bandwidth) : Converter :=
  if !inRatioRange c.measured then c.enterFreewheel
  else if 524288 < ratioGap c.measured c.ratio then
    if 4 ≤ c.counter + 1 then c.enterFreewheel
    else ({ c with counter := c.counter + 1 }.smooth bandwidth.shift).centre
  else ({ c with counter := 0 }.smooth bandwidth.shift).centre

/-- The tracker's work at a block end in FREEWHEEL, where `previous` is the R_meas of the block end
before (R53, R54). -/
def Converter.trackFreewheel (c : Converter) (previous : Nat) : Converter :=
  let run :=
    if !inRatioRange c.measured then 0
    else if c.counter = 0 then 1
    else if ratioGap c.measured previous ≤ 65536 then c.counter + 1
    else 1
  if 8 ≤ run then { c with state := .relock, ratio := c.measured, counter := 0 }.centre
  else { c with counter := run }

/-- The tracker's work at a block end in RELOCK (R54). -/
def Converter.trackRelock (c : Converter) (bandwidth : Bandwidth) : Converter :=
  if !inRatioRange c.measured then c.enterFreewheel
  else if ratioGap c.measured c.ratio ≤ 65536 then
    if 8 ≤ c.counter + 1 then
      ({ c with state := .locked, counter := 0 }.smooth bandwidth.shift).centre
    else ({ c with counter := c.counter + 1 }.smooth 2).centre
  else ({ c with counter := 0 }.smooth 2).centre

/-- A converter's work at a block end, under the bandwidth in force during the ending block (R47 to
R54). -/
def Converter.blockEnd (c : Converter) (bandwidth : Bandwidth) : Converter :=
  match c.state with
  | .idle => c
  | .lost => c
  | .acquire => c.count.measure.trackAcquire
  | .locked => c.count.measure.trackLocked bandwidth
  | .freewheel => c.count.measure.trackFreewheel c.measured
  | .relock => c.count.measure.trackRelock bandwidth

/-- A converter in ACQUIRE with a measured R_meas out of range, as exposed to the condition monitor
(R48). -/
def Converter.outOfRange (c : Converter) : Bool :=
  c.state == .acquire && c.measured != 0 && !inRatioRange c.measured

/-! ## Loss, return, enable and disable (R58 to R60, R62) -/

/-- A loss notice (R58). From a reading state a falling fade starts at the present level; a level of 0
has already ended it (assumption 19). From ACQUIRE the FIFO is emptied. -/
def Converter.lose (c : Converter) : Converter :=
  match c.state with
  | .idle => c
  | .lost => c
  | .acquire => { c with state := .lost, fade := 0, direction := .steady }.emptied
  | .locked | .freewheel | .relock =>
    if c.fade = 0 then { c with state := .lost, direction := .steady }.emptied
    else { c with state := .lost, direction := .falling }

/-- Entry to ACQUIRE: empty FIFO, history and lists, indices counted afresh (R41, R47, R48). Counting
starts at once where `counting` says so, else at the next block end. -/
def Converter.acquire (c : Converter) (counting : Bool) : Converter :=
  { c with
    state := .acquire
    fifo := []
    history := []
    counts := []
    measured := 0
    measures := []
    counter := 0
    fade := 0
    direction := .steady
    arrivals := 0
    counting := counting
    nextIndex := 0
    slipWaits := false }

/-- A return notice (R59): R keeps its value, and counting starts at the next block end. -/
def Converter.regain (c : Converter) : Converter :=
  if c.state = .lost then c.acquire false else c

/-- The converter after its link is enabled: R and both slip totals start from 0 (R60, R62). -/
def Converter.enable (c : Converter) : Converter :=
  { c.acquire true with ratio := 0, deletes := 0, repeats := 0 }

/-- The converter after its link is disabled: IDLE with everything but the slip totals at its power-on
value (R60). -/
def Converter.disable (c : Converter) : Converter :=
  { Converter.initial with deletes := c.deletes, repeats := c.repeats }

end Sys2Proof.Machine
end

