-- ==== Sys2Proof/Machine/Levels.lean ====
section
/-! DEFINITION. The exact logarithms and powers of the rules, by comparison of whole numbers: the level
of a power (R71), the power factor of a weight (R68), the factor of a gain (R91), and the line-up tone
(R99). -/

namespace Sys2Proof.Machine

/-- `100 × log10(P ÷ 2^40) + 0.5` is at least `level`: the two hundredth power of `P ÷ 2^40` against
ten to `2 × level − 1` (R71, "taken on the exact logarithm"). -/
def reachesLevel (power : Nat) (level : Int) : Bool :=
  let e : Int := 2 * level - 1
  if 0 ≤ e then decide (10 ^ e.toNat * (2 ^ 200) ^ 40 ≤ power ^ 200)
  else decide ((2 ^ 200) ^ 40 ≤ power ^ 200 * 10 ^ (-e).toNat)

/-- The level of a power with 40 fractional bits, in tenths of a dBFW:
`floor(100 × log10(P ÷ 2^40) + 0.5)`, −1000 for a power of 0 and for whatever lies below (R71). -/
def levelOf (power : Nat) : Int :=
  (greatest (fun n => reachesLevel power ((n : Int) - 1000)) 11 0 : Int) - 1000

/-- The power factor of a weight of `j` half-decibel steps, `round(10^(j/20) × 2^16)` (R68): the
greatest `G` with `2 G − 1` at most `10^(j/20) × 2^17`. -/
def powerFactor (j : Int) : Nat :=
  greatest (fun n => decide ((2 * n - 1) ^ 20 * 10 ^ (-j).toNat ≤ (2 ^ 17) ^ 20 * 10 ^ j.toNat)) 32 0

/-- The factor of a gain of `g` hundredths of a dB, `round(10^(g/2000) × 2^20)` (R91): the greatest
`K` with `2 K − 1` at most `10^(g/2000) × 2^21`. -/
def gainFactor (g : Int) : Nat :=
  greatest
    (fun n => decide ((2 * n - 1) ^ 2000 * 10 ^ (-g).toNat ≤ (2 ^ 21) ^ 2000 * 10 ^ g.toNat)) 32 0

/-- `round(1,056,064 × sin(2πn ÷ 48))` for `n` from 0 to 12, a quarter of the period (R99). -/
def toneQuarter : List Int :=
  [0, 137844, 273329, 404138, 528032, 642891, 746750, 837832, 914578, 975676, 1020079, 1047029, 1056064]

/-- The tone sample at phase `n`, from 0 to 47 (R99): the sine rises over a quarter of the period,
falls over the next, and repeats with its sign changed. -/
def tone (n : Nat) : Int :=
  let half (m : Nat) : Int := if m ≤ 12 then toneQuarter.getD m 0 else toneQuarter.getD (24 - m) 0
  if n < 24 then half n else -(half (n - 24))

end Sys2Proof.Machine
end

