-- ==== Sys2Proof/Machine/Meters.lean ====
section
/-! DEFINITION. The program meters (chapter 4): the weighting cascade, block powers, window levels, the
histogram and the integrated level. -/

namespace Sys2Proof.Machine

/-! ## The weighted sample (R64 to R67) -/

/-- Saturation to −8,388,607 to +8,388,607 (R65). -/
def saturateWeighted (x : Int) : Sample := BitVec.ofInt 24 (max (-8388607) (min 8388607 x))

/-- A section's memory after a house frame: inputs and outputs move on by one (R65). -/
def FilterSection.shift (f : FilterSection) (x y : Sample) : FilterSection :=
  { x1 := x, x2 := f.x1, y1 := y, y2 := f.y1 }

/-- The shelf's output for an input (R65). -/
def shelfOutput (f : FilterSection) (x : Sample) : Sample :=
  saturateWeighted (roundDiv
    (150 * x.toInt - 265 * f.x1.toInt + 117 * f.x2.toInt + 168 * f.y1.toInt - 70 * f.y2.toInt) 100)

/-- The high-pass's output for an input (R66). -/
def highpassOutput (f : FilterSection) (x : Sample) : Sample :=
  saturateWeighted (roundDiv
    (10000 * x.toInt - 20000 * f.x1.toInt + 10000 * f.x2.toInt + 19925 * f.y1.toInt
      - 9926 * f.y2.toInt) 10000)

/-- A channel's meter after a house frame's sample: both sections run, and the square of the weighted
sample joins the energy accumulator (R65 to R67). -/
def ChannelMeter.take (m : ChannelMeter) (x : Sample) : ChannelMeter :=
  let y := shelfOutput m.shelf x
  let w := highpassOutput m.highpass y
  { shelf := m.shelf.shift x y
    highpass := m.highpass.shift y w
    energy := m.energy + w.toInt.natAbs ^ 2 }

/-- A filter section of zeros. -/
def FilterSection.zero : FilterSection := { x1 := 0#24, x2 := 0#24, y1 := 0#24, y2 := 0#24 }

/-- A channel's meter that starts clear (R66, R79). -/
def ChannelMeter.zero : ChannelMeter :=
  { shelf := FilterSection.zero, highpass := FilterSection.zero, energy := 0 }

/-- The meter of an ACTIVE program after a house frame, with the write-side sample of each channel
(R64). -/
def Meter.houseFrame (m : Meter) (samples : List Sample) : Meter :=
  { m with channels := List.zipWith ChannelMeter.take m.channels samples }

/-- The meter of a program of `n` channels that starts with power-on values (R79). -/
def Meter.fresh (n : Nat) : Meter :=
  { Meter.initial with channels := List.replicate n ChannelMeter.zero }

/-! ## Block power and window levels (R67 to R71) -/

/-- The mean square of an energy with 40 fractional bits (R67). -/
def meanSquare (energy : Nat) : Nat := energy / 307200

/-- A channel's term of the block power (R69); an EXCLUDED channel adds nothing (R68). -/
def weightedTerm (weight : Weight) (energy : Nat) : Nat :=
  match weight with
  | .excluded => 0
  | .steps j => powerFactor j * meanSquare energy / 2 ^ 16

/-- The block power of the ending block (R69). -/
def Meter.blockPower (m : Meter) (channels : List Channel) : Nat :=
  (List.zipWith (fun c x => weightedTerm c.weight x.energy) channels m.channels).sum

/-- The floored mean of the newest `n` powers of a ring, or of all it holds (R70). -/
def windowPower (ring : List Nat) (n : Nat) : Nat := (lastN n ring).sum / (lastN n ring).length

/-- A measured level (R71). -/
def measuredLevel (power : Nat) : Level := { tenths := levelOf power, measured := true }

/-! ## The histogram and the integrated level (R72 to R75) -/

/-- The bin of a momentary level of at least −700 (R72). -/
def binOf (level : Int) : Fin 170 :=
  ⟨min 169 ((level + 700) / 5).toNat, by omega⟩

/-- One bin halved; a bin whose count becomes 0 has its energy set to 0 (R73). -/
def Bin.halve (b : Bin) : Bin :=
  if b.count / 2 = 0 then { count := 0, energy := 0 }
  else { count := b.count / 2, energy := b.energy / 2 }

/-- A block's momentary power recorded in the histogram: below −700 nothing is recorded; a bin at 65,535
halves the whole histogram first (R72, R73). -/
def recordPower (h : Vector Bin 170) (level : Int) (power : Nat) : Vector Bin 170 :=
  if level < -700 then h
  else
    let i := binOf level
    let room : Vector Bin 170 :=
      if h[i].count = 65535 then Vector.ofFn fun k : Fin 170 => h[k].halve else h
    room.set i { count := room[i].count + 1, energy := room[i].energy + power }

/-- An empty histogram. -/
def emptyHistogram : Vector Bin 170 := Vector.replicate 170 { count := 0, energy := 0 }

/-- The total count of the bins from `first` on (R72). -/
def countFrom (h : Vector Bin 170) (first : Nat) : Nat := ((h.toList.drop first).map Bin.count).sum

/-- The total energy of the bins from `first` on. -/
def energyFrom (h : Vector Bin 170) (first : Nat) : Nat := ((h.toList.drop first).map Bin.energy).sum

/-- The ungated level L_A (R74). -/
def ungatedLevel (h : Vector Bin 170) : Int := levelOf (energyFrom h 0 / countFrom h 0)

/-- The relative gate: L_A − 100 floored to a multiple of 5 and raised to −700 (R74). -/
def relativeGate (ungated : Int) : Int := max (-700) ((ungated - 100) / 5 * 5)

/-- The first included bin: the one whose lower edge is the relative gate (R75). -/
def firstIncluded (h : Vector Bin 170) : Nat := ((relativeGate (ungatedLevel h) + 700) / 5).toNat

/-- The integrated level: not measured where nothing is recorded (R74), else the level of the mean power
of the included bins (R75). -/
def integratedLevel (h : Vector Bin 170) : Level :=
  if countFrom h 0 = 0 then Level.unmeasured
  else measuredLevel (energyFrom h (firstIncluded h) / countFrom h (firstIncluded h))

/-! ## Block-end work and applies (R76 to R79) -/

/-- The meter's work at a block end of a program that is ACTIVE with these channels during the ending
block (R76). -/
def Meter.blockEnd (m : Meter) (channels : List Channel) : Meter :=
  let ring := lastN 30 (m.ring ++ [m.blockPower channels])
  let momentary := windowPower ring 4
  let histogram :=
    recordPower (if m.clearPending then emptyHistogram else m.histogram) (levelOf momentary) momentary
  { channels := m.channels.map fun c => { c with energy := 0 }
    ring := ring
    momentary := measuredLevel momentary
    shortTerm := measuredLevel (windowPower ring 30)
    integrated := integratedLevel histogram
    histogram := histogram
    clearPending := false }

/-- The channel meters after a channel list changes: filter state is kept for a channel whose input slot
is unchanged and starts at zero for the others (R16). -/
def rechannel : List Channel → List Channel → List ChannelMeter → List ChannelMeter
  | _, [], _ => []
  | old :: olds, new :: news, m :: ms =>
    (if old.input = new.input then { m with energy := 0 } else ChannelMeter.zero)
      :: rechannel olds news ms
  | _, _ :: news, _ => ChannelMeter.zero :: rechannel [] news []

/-- The meter emptied by an apply that changes channel count, input slots or weights (R16, R78). -/
def Meter.emptied (m : Meter) (old new : List Channel) : Meter :=
  { Meter.initial with channels := rechannel old new m.channels }

/-- A change that empties the meter: channel count, an input slot or a weight (R16). -/
def remetered (old new : List Channel) : Bool :=
  old.map (fun c => (c.input, c.weight)) != new.map (fun c => (c.input, c.weight))

/-- The meter's part of a program apply (R15, R16, R78, R79). -/
def Meter.apply (m : Meter) (old new : ProgramRecord) : Meter :=
  match old.active, new.active with
  | false, true => Meter.fresh new.channels.length
  | true, true => if remetered old.channels new.channels then m.emptied old.channels new.channels else m
  | true, false => m
  | false, false => m

/-- The meter with a clear marked as pending (R77). -/
def Meter.markClear (m : Meter) : Meter := { m with clearPending := true }

/-- A clear pending on a program that is UNUSED at the block end is dropped (R77). -/
def Meter.dropClear (m : Meter) : Meter := { m with clearPending := false }

end Sys2Proof.Machine
end

