-- ==== Sys2Proof/Machine/Gains.lean ====
section
/-! DEFINITION. The gain law, the gain schedule, ramps, the output fade and source selection (chapter
5). -/

namespace Sys2Proof.Machine

/-! ## The gain law (R83 to R88) -/

/-- A gain clamped to −10 × max cut and +10 × max boost hundredths (R18, R85). -/
def Loudness.clamp (x : Loudness) (gain : Int) : Int :=
  max (-10 * (x.maxCut : Int)) (min (10 * (x.maxBoost : Int)) gain)

/-- The level the gain law reads: L_S or L_I by its mode; none in MEASURE_ONLY (R83). -/
def Loudness.level (x : Loudness) (m : Meter) : Option Level :=
  match x.mode with
  | .integrated => some m.integrated
  | .shortTerm => some m.shortTerm
  | .measureOnly => none

/-- The desired gain before the clamp (R85). -/
def Loudness.desired (x : Loudness) (level : Int) : Int := (x.target - level) * 10

/-- The last scheduled gain: that of the newest entry, or the applied gain (R86). -/
def GainStage.lastScheduled (g : GainStage) : Int :=
  match g.queue.getLast? with
  | some e => e.gain
  | none => g.applied

/-- A gain moved toward another by at most `slew` hundredths (R86). -/
def towards (last desired : Int) (slew : Nat) : Int :=
  if (desired - last).natAbs ≤ slew then desired
  else if last < desired then last + slew else last - slew

/-- A ramp to K of a gain, from the present factor (R89, R92). -/
def GainStage.rampTo (g : GainStage) (gain : Int) : GainStage :=
  { g with applied := gain, ramp := some { start := g.factor, stop := gainFactor gain, step := 0 } }

/-- An entry joins the schedule, or falls due at once, or merges into the newest entry (R88). `read` is
the read reference Q. -/
def GainStage.join (g : GainStage) (read : Int) (e : GainEntry) : GainStage :=
  if (e.stamp : Int) ≤ read then g.rampTo e.gain
  else if g.queue.length < Config.scheduleCapacity then { g with queue := g.queue ++ [e] }
  else { g with queue := g.queue.dropLast ++ [e] }

/-- The gain law's decision where it does not hold, from a measured level (R85, R86). -/
def GainStage.steer (g : GainStage) (x : Loudness) (level : Int) (read : Int) (frames : Nat) :
    GainStage :=
  let desired := x.clamp (x.desired level)
  let gain := towards g.lastScheduled desired x.slew
  let tested := { g with limitTest := desired != x.desired level }
  if gain = g.lastScheduled then tested else tested.join read { stamp := frames, gain := gain }

/-- The gain law at a block end of a program that was ACTIVE during the ending block, with its loudness
section in force, on the levels the meter leaves (R83, R84). -/
def GainStage.law (g : GainStage) (loudness : Option Loudness) (m : Meter) (read : Int) (frames : Nat) :
    GainStage :=
  match loudness with
  | none => { g with limitTest := false }
  | some x =>
    match x.level m with
    | none => { g with limitTest := false }
    | some level =>
      if !level.measured || decide (level.tenths < x.gate) then { g with limitTest := false }
      else g.steer x level.tenths read frames

/-- The overload test of the ending block, and a new count from 0 (R95). -/
def GainStage.testOverload (g : GainStage) : GainStage :=
  { g with overloadTest := decide (1 ≤ g.overloads), overloads := 0 }

/-! ## Due entries, ramps and jumps (R89, R90, R92) -/

/-- The entries at or behind the read reference (R89). -/
def GainStage.due (g : GainStage) (read : Int) : List GainEntry :=
  g.queue.filter fun e => (e.stamp : Int) ≤ read

/-- The schedule without the entries at or behind the read reference. -/
def GainStage.dequeue (g : GainStage) (read : Int) : GainStage :=
  { g with queue := g.queue.filter fun e => !decide ((e.stamp : Int) ≤ read) }

/-- Due entries are removed at a house frame; the newest starts a ramp (R89). -/
def GainStage.takeDue (g : GainStage) (read : Int) : GainStage :=
  match (g.due read).getLast? with
  | some e => (g.dequeue read).rampTo e.gain
  | none => g

/-- The schedule at a jump: the entries the new read reference has reached are removed, and the factor
becomes K of the applied gain at once; with none removed a running ramp ends at its end value (R90). -/
def GainStage.jump (g : GainStage) (read : Int) : GainStage :=
  match (g.due read).getLast? with
  | some e =>
    { g.dequeue read with applied := e.gain, factor := gainFactor e.gain, ramp := none }
  | none =>
    match g.ramp with
    | some r => { g with factor := r.stop, ramp := none }
    | none => g

/-- The factor of a ramp at a step, `K_start + floor((K_end − K_start) × i ÷ 4,800)` (R92). -/
def Ramp.factor (r : Ramp) (i : Nat) : Nat :=
  ((r.start : Int) + ((r.stop : Int) - r.start) * i / Config.framesPerBlock).toNat

/-- The ramp moves one step and gives the frame's factor; after step 4,800 it is absent (R92). -/
def GainStage.moveRamp (g : GainStage) : GainStage :=
  match g.ramp with
  | none => g
  | some r =>
    { g with
      factor := r.factor (r.step + 1)
      ramp := if Config.framesPerBlock ≤ r.step + 1 then none else some { r with step := r.step + 1 } }

/-! ## The output of a program (R93 to R100) -/

/-- The output fade level's move at a house frame (R96). -/
def GainStage.moveFade (g : GainStage) (delay : DelayState) : GainStage :=
  if delay = .filling ∨ g.selected = .mute then { g with fade := 0 }
  else if delay = .fadeOut ∨ g.pendingSource.isSome ∨ 0 < g.closing then { g with fade := g.fade - 1 }
  else { g with fade := min Config.fadeFrames (g.fade + 1) }

/-- A gain product before saturation, `round(s × K ÷ 2^20)` (R94). -/
def gainProduct (s : Sample) (factor : Nat) : Int := roundDiv (s.toInt * factor) (2 ^ 20)

/-- The saturated gain products of a house frame, counted (R94). -/
def overloadsOf (factor : Nat) (samples : List Sample) : Nat :=
  samples.countP fun s => overflows (gainProduct s factor)

/-- A program channel's output from its read-side sample at fade level `f` (R96). -/
def programOutput (s : Sample) (factor f : Nat) : Sample :=
  if f = Config.fadeFrames then saturate (gainProduct s factor)
  else saturate (roundDiv (s.toInt * factor * f) (2 ^ 20 * Config.fadeFrames))

/-- The tone sample of channel `k`, counted from 0, at house frame F: zero in the channel's gap (R99,
R100). -/
def lineupSample (frames phase k : Nat) : Int :=
  if frames / Config.framesPerBlock % 20 = k then 0 else tone phase

/-- A LINEUP channel's output at fade level `f` (R96). -/
def lineupOutput (frames phase k f : Nat) : Sample :=
  saturate (roundDiv (lineupSample frames phase k * f) Config.fadeFrames)

/-- A channel's output for a source (R96). -/
def channelOutput (source : Source) (frames phase factor f k : Nat) (s : Sample) : Sample :=
  match source with
  | .program => programOutput s factor f
  | .lineup => lineupOutput frames phase k f
  | .mute => 0#24

/-- The outputs of all channels of a program. -/
def channelOutputs (source : Source) (frames phase factor f : Nat) (samples : List Sample) :
    List Sample :=
  samples.mapIdx fun k s => channelOutput source frames phase factor f k s

/-- A pending source is selected at a frame whose fade level is 0 (R93 step 5, R97). -/
def GainStage.selectPending (g : GainStage) : GainStage :=
  match g.pendingSource with
  | some source => if g.fade = 0 then { g with selected := source, pendingSource := none } else g
  | none => g

/-- The closing count falls by 1; at 0 the stage holds its power-on values (R93 step 6, R98). -/
def GainStage.moveClosing (g : GainStage) : GainStage :=
  if g.closing = 0 then g
  else if g.closing = 1 then GainStage.initial
  else { g with closing := g.closing - 1 }

/-- Steps 1 to 3 of a gain stage's work at a house frame: the due entries, the fade level and the ramp
(R93). -/
def GainStage.prepare (g : GainStage) (delay : DelayState) (read : Int) : GainStage :=
  ((g.takeDue read).moveFade delay).moveRamp

/-- A gain stage's outputs at a house frame, after steps 1 to 3 (R93 step 4). -/
def GainStage.outputs (g : GainStage) (frames phase : Nat) (samples : List Sample) : List Sample :=
  channelOutputs g.selected frames phase g.factor g.fade samples

/-- Steps 4 to 6 of a gain stage's work at a house frame (R93). -/
def GainStage.finish (g : GainStage) (samples : List Sample) : GainStage :=
  ({ g with overloads := g.overloads + overloadsOf g.factor samples }.selectPending).moveClosing

/-! ## Applies (R18, R97, R98, R101) -/

/-- A gain stage that starts with a program made ACTIVE (R98, R103). -/
def GainStage.start (source : Source) : GainStage := { GainStage.initial with selected := source }

/-- The start of the closing fade of a program made UNUSED (R98). -/
def GainStage.close (g : GainStage) (old : ProgramRecord) : GainStage :=
  { g with
    queue := []
    applied := 0
    ramp := none
    closing := Config.fadeFrames
    closingContent := some old }

/-- A change of source with the program staying ACTIVE (R97). -/
def GainStage.changeSource (g : GainStage) (old new : Source) : GainStage :=
  if old = new then g
  else if new = .mute then { g with selected := .mute, pendingSource := none }
  else if old = .mute then { g with selected := new, pendingSource := none }
  else { g with pendingSource := some new }

/-- The applied gain and every queued gain clamped into new limits; a changed applied gain starts a ramp
(R18, R101). -/
def GainStage.clampTo (g : GainStage) (x : Loudness) : GainStage :=
  let queued :=
    { g with queue := g.queue.map fun e => { e with gain := x.clamp e.gain } }
  if x.clamp g.applied = g.applied then queued else queued.rampTo (x.clamp g.applied)

/-- The loudness section of a program that stays ACTIVE changes (R18, R101). -/
def GainStage.changeLoudness (g : GainStage) (old new : Option Loudness) : GainStage :=
  match old, new with
  | none, _ => g
  | some _, none => { g with queue := [] }.rampTo 0
  | some x, some y => if x.maxBoost = y.maxBoost ∧ x.maxCut = y.maxCut then g else g.clampTo y

/-- The gain stage's own part of a program apply (R15, R18, R19, R97, R98). -/
def GainStage.apply (g : GainStage) (old new : ProgramRecord) : GainStage :=
  match old.active, new.active with
  | false, true => GainStage.start new.source
  | true, false => g.close old
  | true, true => (g.changeSource old.source new.source).changeLoudness old.loudness new.loudness
  | false, false => g

end Sys2Proof.Machine
end

