-- ==== Sys2Proof/Machine/Delays.lean ====
section
/-! DEFINITION. The delay engine: windows, layout, lanes, FILLING (chapter 6), delay changes, jumps and
slip corrections (chapter 7), on one program's state; and the writing and reading of lanes in the
delay memory. -/

namespace Sys2Proof.Machine

/-! ## Windows and layout (R106, R107, R109, R110, R117) -/

/-- The pages of a window, W; 0 where its limit lies below its base (R106). -/
def DelaySection.pages (x : DelaySection) : Nat := x.limit + 1 - x.base

/-- A window that is not empty (R106). -/
def DelaySection.claims (x : DelaySection) : Bool := x.base ≤ x.limit

/-- The delay section of a content whose window is usable: the fourth case of R106. -/
def ProgramRecord.usable (r : ProgramRecord) : Option DelaySection :=
  match r.delay with
  | some x => if x.claims && r.channels.length ≤ x.pages then some x else none
  | none => none

/-- Frames as a delay in units of 2^-16 frame. -/
def inUnits (frames : Nat) : Nat := frames * 65536

/-- The lanes laid out for `n` channels in a usable window (R107, R109, R110, R117). -/
def layOut (n : Nat) (x : DelaySection) : DelayEngine :=
  let capacity := x.pages / n * Config.cellsPerPage
  let usable := capacity - Config.guardFrames
  let target := min x.target usable
  { state := .filling
    layout := some { base := x.base, pages := x.pages / n, lanes := n }
    capacity := capacity
    usable := usable
    target := target
    current := inUnits target
    step := none
    lanes := List.replicate n { valid := 0, correction := 0 }
    clamped := decide (usable < x.target)
    syncLost := false }

/-- The delay engine of a program that becomes ACTIVE, at an apply or at the release of a warm reset:
laid out, or in BYPASS (R15, R117, R120). -/
def startDelay (r : ProgramRecord) : DelayEngine :=
  match r.usable with
  | some x => layOut r.channels.length x
  | none => DelayEngine.initial

/-! ## Effective delays (R136) -/

/-- A lane's effective delay before its clamp (R136). -/
def DelayEngine.unclamped (d : DelayEngine) (lane : Lane) : Int :=
  (d.current : Int) + lane.correction * 65536

/-- A lane's effective delay E_l, in units of 2^-16 frame (R136). -/
def DelayEngine.effective (d : DelayEngine) (lane : Lane) : Nat :=
  (max 0 (min (inUnits d.usable : Int) (d.unclamped lane))).toNat

/-- A lane's clamp is active (R136). -/
def DelayEngine.laneClamped (d : DelayEngine) (lane : Lane) : Bool :=
  decide (d.unclamped lane < 0) || decide ((inUnits d.usable : Int) < d.unclamped lane)

/-- The sync flag formed from the present D_c and corrections (R136). -/
def DelayEngine.formSync (d : DelayEngine) : DelayEngine :=
  { d with syncLost := d.lanes.any d.laneClamped }

/-- The read reference Q of the gain schedule (R87). -/
def DelayEngine.readReference (d : DelayEngine) (frames : Nat) : Int :=
  (frames : Int) - (d.current / 65536 : Nat)

/-! ## One house frame (R111 to R116, R122, R127) -/

/-- D_c at the next house frame of a step: `D_s + floor(step × i ÷ 4,800)` (R127). -/
def DelayEngine.glide (d : DelayEngine) : DelayEngine :=
  match d.step with
  | some x =>
    if x.frames < Config.framesPerBlock then
      { d with
        current := ((x.start : Int) + x.amount * ((x.frames + 1 : Nat) : Int)
          / Config.framesPerBlock).toNat
        step := some { x with frames := x.frames + 1 } }
    else d
  | none => d

/-- Each lane's valid depth counts the frame written (R112). -/
def DelayEngine.fill (d : DelayEngine) : DelayEngine :=
  { d with lanes := d.lanes.map fun x => { x with valid := min d.capacity (x.valid + 1) } }

/-- The cell that the frame of a number occupies in a lane (R108). -/
def DelayEngine.cell (d : DelayEngine) (layout : Layout) (l frame : Nat) : Nat :=
  layout.cell l (frame % d.capacity)

/-- The write-side samples written into the lanes from lane `l` on, at house frame `frame` (R108,
R111). -/
def DelayEngine.writeLanes (d : DelayEngine) (layout : Layout) (frame : Nat) :
    Nat → List Sample → Memory → Memory
  | _, [], m => m
  | l, x :: rest, m => d.writeLanes layout frame (l + 1) rest (m.write (d.cell layout l frame) x)

/-- The sample of one place of a read, at house frame `frame` (R114): a frame newer than `frame` takes
the sample of `frame`, one the lane no longer or not yet holds takes zero. -/
def DelayEngine.placeSample (d : DelayEngine) (layout : Layout) (m : Memory) (frame l : Nat)
    (lane : Lane) (place : Int) : Int :=
  if (frame : Int) < place then (m.read (d.cell layout l frame)).toInt
  else if place < (frame : Int) - lane.valid + 1 then 0
  else (m.read (d.cell layout l place.toNat)).toInt

/-- A lane's read-side sample at house frame `frame` (R114). -/
def DelayEngine.readLane (d : DelayEngine) (layout : Layout) (m : Memory) (frame l : Nat)
    (lane : Lane) : Sample :=
  let r : Int := (inUnits frame : Int) - d.effective lane
  interpolate (BitVec.ofInt 28 (r % 65536 * 4096)) fun i =>
    d.placeSample layout m frame l lane (r / 65536 + (i.val : Int) - 7)

/-- The read-side samples of a program at house frame `frame`, after its writes, from its write-side
samples (R114 to R116). -/
def DelayEngine.readSide (d : DelayEngine) (m : Memory) (frame : Nat) (samples : List Sample) :
    List Sample :=
  match d.layout with
  | none => samples
  | some layout =>
    if d.state = .filling then samples.map fun _ => 0#24
    else d.lanes.mapIdx fun l lane => d.readLane layout m frame l lane

/-- The delay memory after a program's writes at house frame `frame` (R111). -/
def DelayEngine.writeSide (d : DelayEngine) (m : Memory) (frame : Nat) (samples : List Sample) :
    Memory :=
  match d.layout with
  | none => m
  | some layout => d.writeLanes layout frame 0 samples m

/-- A lane is valid for its own effective delay (R116). -/
def DelayEngine.laneValid (d : DelayEngine) (lane : Lane) : Bool :=
  d.effective lane + inUnits 16 ≤ inUnits lane.valid

/-- The engine right after a jump to a target (R125, R129): D_c is the target with a zero fraction and
every correction is 0. -/
def DelayEngine.setCurrent (d : DelayEngine) : DelayEngine :=
  DelayEngine.formSync
    { d with
      current := inUnits d.target
      lanes := d.lanes.map fun x => { x with correction := 0 } }

/-- The jump at the end of FADE_OUT (R129). -/
def DelayEngine.jump (d : DelayEngine) : DelayEngine :=
  { d.setCurrent with
    state := if d.setCurrent.lanes.all d.setCurrent.laneValid then .fadeIn else .filling }

/-- The state at the end of a FADE_IN (R130). -/
def DelayEngine.endFadeIn (d : DelayEngine) : DelayEngine :=
  { d with state := if d.step.isSome then .slewing else .steady }

/-- The engine and the gain stage at the end of a house frame's work of an ACTIVE program, on the fade
level the frame used (R116, R128 to R131). -/
def DelayEngine.leaveStates (d : DelayEngine) (level : Nat) (selected : Source) (g : GainStage)
    (frames : Nat) : DelayEngine × GainStage :=
  match d.state with
  | .bypass => (d, g)
  | .steady => (d, g)
  | .slewing => (d, g)
  | .filling => (if d.lanes.all d.laneValid then { d with state := .fadeIn } else d, g)
  | .fadeOut => if level = 0 then (d.jump, g.jump (d.jump.readReference frames)) else (d, g)
  | .fadeIn =>
    (if level = Config.fadeFrames ∨ selected = .mute then d.endFadeIn else d, g)

/-! ## Slip notices (R132, R133) -/

/-- A correction kept within a signed 32-bit count (R132). -/
def boundCorrection (x : Int) : Int := max (-2147483648) (min 2147483647 x)

/-- A lane corrected by a slip notice (R132). -/
def Lane.correct (x : Lane) (notice : SlipNotice) : Lane :=
  match notice.direction with
  | .delete => { x with correction := boundCorrection (x.correction + notice.equivalent) }
  | .repeat => { x with correction := boundCorrection (x.correction - notice.equivalent) }

/-- A channel takes its input from a link (R133). -/
def Channel.feedsFrom (c : Channel) (l : Fin 8) : Bool :=
  match c.input with
  | some slot => slot.link == l
  | none => false

/-- The engine of a program after a slip notice, under its applied content (R132, R133, R136). -/
def DelayEngine.correct (d : DelayEngine) (r : ProgramRecord) (notice : SlipNotice) : DelayEngine :=
  if r.active && d.layout.isSome then
    DelayEngine.formSync
      { d with
        lanes := d.lanes.mapIdx fun l lane =>
          match r.channels[l]? with
          | some c => if c.feedsFrom notice.link then Lane.correct lane notice else lane
          | none => lane }
  else d

/-! ## Applies and step decisions (R17, R110, R117, R118, R123 to R126) -/

/-- Entry to FADE_OUT (R124, R126). -/
def DelayEngine.enterFadeOut (d : DelayEngine) : DelayEngine :=
  { d with state := .fadeOut, step := none }

/-- A new D_t under JUMP, with the target already replaced (R124). -/
def DelayEngine.takeJumpTarget (d : DelayEngine) : DelayEngine :=
  match d.state with
  | .steady | .slewing =>
    if d.current = inUnits d.target then { d with state := .steady, step := none }
    else d.enterFadeOut
  | .fadeIn => if d.current = inUnits d.target then d else d.enterFadeOut
  | .fadeOut | .filling | .bypass => d

/-- A new D_t taken with the lanes left in place, and whether D_c was set anew (R123 to R125). -/
def DelayEngine.takeTarget (d : DelayEngine) (x : DelaySection) : DelayEngine × Bool :=
  let target := min x.target d.usable
  let clamped := decide (d.usable < x.target)
  if target = d.target then ({ d with clamped := clamped }, false)
  else
    let moved := { d with target := target, clamped := clamped }
    if d.state = .filling then (moved.setCurrent, true)
    else
      match x.mode with
      | .slew => (moved, false)
      | .jump => (moved.takeJumpTarget, false)

/-- What a program apply does to the read reference and the output of its gain stage. -/
inductive DelayChange where
  /-- D_c is not set anew. -/
  | kept
  /-- D_c is set anew: the schedule meets the new Q (R90). -/
  | setAnew
  /-- The program enters BYPASS from a running delay: its output restarts (R98). -/
  | released
  deriving DecidableEq, Repr

/-- An apply leaves the lanes where they are: a usable window before and after, of the same channel
count, base and limit (R117). -/
def sameLayout (old new : ProgramRecord) : Bool :=
  match old.usable, new.usable with
  | some x, some y =>
    old.channels.length == new.channels.length && x.base == y.base && x.limit == y.limit
  | _, _ => false

/-- The delay engine's part of a program apply (R15, R17, R117, R118). -/
def DelayEngine.apply (d : DelayEngine) (old new : ProgramRecord) : DelayEngine × DelayChange :=
  match old.active, new.active with
  | false, false => (d, .kept)
  | false, true => (startDelay new, .kept)
  | true, false => ({ d with step := none }, .kept)
  | true, true =>
    match new.usable with
    | none => if d.state = .bypass then (d, .kept) else (DelayEngine.initial, .released)
    | some x =>
      if sameLayout old new then
        ((d.takeTarget x).1, if (d.takeTarget x).2 then .setAnew else .kept)
      else (layOut new.channels.length x, .setAnew)

/-- The gain stage's part of what the delay engine did at an apply (R90, R98). -/
def GainStage.followDelay (g : GainStage) (d : DelayEngine) (frames : Nat) : DelayChange → GainStage
  | .kept => g
  | .setAnew => g.jump (d.readReference frames)
  | .released => { g.jump (d.readReference frames) with fade := 0 }

/-- The largest step of a slew rate in ppm, S (R126). -/
def largestStep (rate : Nat) : Nat := rate * Config.framesPerBlock * 65536 / 1000000

/-- The step decision of a program's delay, under the delay section applied at the block end (R126). -/
def DelayEngine.decideStep (d : DelayEngine) (x : DelaySection) : DelayEngine :=
  if d.state = .steady ∨ d.state = .slewing ∨ d.state = .fadeIn then
    if d.current = inUnits d.target then
      { d with step := none, state := if d.state = .slewing then .steady else d.state }
    else
      match x.mode with
      | .jump => d.enterFadeOut
      | .slew =>
        let distance : Int := (inUnits d.target : Int) - d.current
        let most : Int := largestStep x.rate
        { d with
          step := some
            { amount := max (-most) (min most distance)
              start := d.current
              frames := 0 }
          state := if d.state = .steady then .slewing else d.state }
  else d

/-- The step decision of a program under its applied content; none is made for a program that is not
ACTIVE (R118, R126). -/
def DelayEngine.openBlock (d : DelayEngine) (r : ProgramRecord) : DelayEngine :=
  match r.active, r.usable with
  | true, some x => d.decideStep x
  | _, _ => d

end Sys2Proof.Machine
end

