-- ==== Sys2Proof/Machine/Conditions.lean ====
section
/-! DEFINITION. The condition monitor at a block end (chapter 8): the tests, sampling and debounce, and
what an apply does to conditions and their entries. -/

namespace Sys2Proof.Machine

/-! ## The tests (R144 to R148) -/

/-- The two link tests (R144). -/
def linkTest (c : Converter) : Kind → Bool
  | .linkLost => c.state == .lost
  | .linkUnlocked => c.state == .freewheel || c.state == .relock || c.outOfRange
  | _ => false

/-- The SILENCE test (R146). -/
def silenceTest (r : ProgramRecord) (m : Meter) : Bool :=
  match r.alarm with
  | some x => decide (m.momentary.tenths < x.silence)
  | none => false

/-- The corrected level of a short-term level at an applied gain (R147). -/
def correctedLevel (level applied : Int) : Int := level + roundDiv applied 10

/-- The LOUD_HIGH test (R147). -/
def loudHighTest (r : ProgramRecord) (m : Meter) (applied : Int) : Bool :=
  match r.loudness with
  | some x =>
    m.shortTerm.measured && decide (x.target + x.range < correctedLevel m.shortTerm.tenths applied)
  | none => false

/-- The LOUD_LOW test (R147). -/
def loudLowTest (r : ProgramRecord) (m : Meter) (applied : Int) : Bool :=
  match r.loudness with
  | some x =>
    m.shortTerm.measured && decide (correctedLevel m.shortTerm.tenths applied < x.target - x.range) &&
      decide (x.gate ≤ m.shortTerm.tenths)
  | none => false

/-- The seven program tests, with the applied gain of the block end's house frame, before the gain
law's work (R146 to R148; assumption 41). -/
def programTest (r : ProgramRecord) (m : Meter) (g : GainStage) (d : DelayEngine) (applied : Int) :
    Kind → Bool
  | .silence => silenceTest r m
  | .overload => g.overloadTest
  | .loudHigh => loudHighTest r m applied
  | .loudLow => loudLowTest r m applied
  | .gainAtLimit => g.limitTest
  | .delayClamped => d.clamped
  | .syncLost => d.syncLost
  | _ => false

/-- The test of a place of the condition table on a state whose blocks have done their block-end work,
where `applied` gives each program's applied gain at the block end's house frame (R143 to R148). -/
def State.test (s : State) (applied : Vector Int 16) (i : Fin 129) : Bool :=
  match conditionSubject i with
  | .device => s.ref.state == .holdover
  | .link l => linkTest s.converters[l] (conditionKind i)
  | .program p =>
    programTest (s.program p) s.meters[p] s.gains[p] s.delays[p] applied[p] (conditionKind i)

/-! ## Sampling and debounce (R142, R143, R149) -/

/-- The conditions after sampling and debounce: an instance whose subject is absent is not sampled
(R142, R143 steps 1 and 2). -/
def State.sampled (s : State) (applied : Vector Int 16) : Vector Condition 129 :=
  Vector.ofFn fun i : Fin 129 =>
    if s.tables.present i then
      s.conditions[i].debounce (s.policy.kind (conditionKind i)) (s.test applied i)
    else s.conditions[i]

/-- An entry of the condition monitor (R152). -/
def conditionEntry (t : Tables) (blocks : BitVec 32) (i : Fin 129) (edge : Edge) (cause : Cause) :
    Entry :=
  { kind := conditionKind i
    subject := conditionSubject i
    edge := edge
    severity := t.severity i
    stamp := blocks
    detail := .cause cause }

/-- The log edges of a place under a policy include an edge (R150). -/
def Tables.logs (t : Tables) (i : Fin 129) (edge : Edge) : Bool :=
  (t.policy.applied.kind (conditionKind i)).edges.includes edge

/-- The edge between two states of a condition. -/
def edgeTo (raised : Bool) : Edge := if raised then .raised else .cleared

/-- The entry of a place's debounce edge, where it is monitored and its kind's log edges include the
edge (R143 step 3). -/
def sampledEntry (t : Tables) (blocks : BitVec 32) (before after : Vector Condition 129) (i : Fin 129) :
    Option Entry :=
  if before[i].raised != after[i].raised && t.monitored i && t.logs i (edgeTo after[i].raised) then
    some (conditionEntry t blocks i (edgeTo after[i].raised) .sampled)
  else none

/-- The entries of a block end's sampling, in table order (R143 step 3, R152). -/
def sampledEntries (t : Tables) (blocks : BitVec 32) (before after : Vector Condition 129) :
    List Entry :=
  (List.finRange 129).filterMap (sampledEntry t blocks before after)

/-! ## Applies (R155 to R157) -/

/-- A place's subject is removed by an apply: present under the old records, absent under the new
(R157). -/
def removedBy (old new : Tables) (i : Fin 129) : Bool := old.present i && !new.present i

/-- The conditions after an apply: those of a removed subject are forced CLEAR (R157). -/
def appliedConditions (old new : Tables) (conditions : Vector Condition 129) : Vector Condition 129 :=
  Vector.ofFn fun i : Fin 129 => if removedBy old new i then Condition.initial else conditions[i]

/-- The entry an apply makes for a place: WITHDRAWN where a monitored RAISED instance loses its subject
or its monitoring, ADMITTED where a RAISED instance gains monitoring (R155 to R157), under the new
policy's severities and log edges (R21). -/
def appliedEntry (old new : Tables) (blocks : BitVec 32) (conditions : Vector Condition 129)
    (i : Fin 129) : Option Entry :=
  if !conditions[i].raised then none
  else if removedBy old new i || !new.monitored i then
    if old.monitored i && new.logs i .cleared then
      some (conditionEntry new blocks i .cleared .withdrawn)
    else none
  else if old.monitored i then none
  else some (conditionEntry new blocks i .raised .admitted)

/-- The entries of a block end's applies, in table order (R152). -/
def appliedEntries (old new : Tables) (blocks : BitVec 32) (conditions : Vector Condition 129) :
    List Entry :=
  (List.finRange 129).filterMap (appliedEntry old new blocks conditions)

end Sys2Proof.Machine
end

