-- ==== Sys2Proof/Machine/Notices.lean ====
section
/-! DEFINITION. A slip notice at the delay engine and at the alarm log (R57, R132, R133, R153). -/

namespace Sys2Proof.Machine

/-- The state after a slip notice has corrected the lanes fed from its link (R132, R133). -/
def State.correctLanes (s : State) (notice : SlipNotice) : State :=
  { s with
    delays := Vector.ofFn fun p : Fin 16 => s.delays[p].correct (s.program p) notice }

/-- The state after a slip notice: lanes corrected, and a LINK_SLIP event handed to the log (R57,
R132, R153). -/
def State.takeNotice (s : State) (notice : SlipNotice) : State :=
  (s.correctLanes notice).handEvent .linkSlip (.link notice.link)
    (.slip notice.direction notice.equivalent)

/-- The state after a run of slip notices, in order. -/
def State.takeNotices (s : State) : List SlipNotice → State
  | [] => s
  | x :: rest => (s.takeNotice x).takeNotices rest

/-- The state after a converter's work, with the notice of any slip that it made taken (R57). -/
def State.putConverter (s : State) (l : Fin 8) (work : Converter × Option SlipNotice) : State :=
  match work.2 with
  | some notice => (s.setConverter l work.1).takeNotice notice
  | none => s.setConverter l work.1

/-- The state after the slip of a link that waits has been made (R57, R196; assumption 36). -/
def State.makeSlip (s : State) (l : Fin 8) : State :=
  s.putConverter l (s.converters[l].makeWaiting l)

/-- The links whose converters have a slip that waits. -/
def State.waitingLinks (s : State) : List (Fin 8) :=
  (List.finRange 8).filter fun l => s.converters[l].slipWaits

/-- The state after the slips of some links have been made, in order. -/
def State.makeSlips (s : State) : List (Fin 8) → State
  | [] => s
  | l :: rest => (s.makeSlip l).makeSlips rest

end Sys2Proof.Machine
end

