-- ==== Sys2Proof/Machine/Reference.lean ====
section
/-! DEFINITION. The house reference monitor and the house frame period (section 2.3): REF_PULSE and
REF_ABSENCE_EXPIRY. -/

namespace Sys2Proof.Machine

/-! ## Intervals, the period and the offset -/

/-- The mean of a list of intervals, floored (R33; assumption 9); `held` where there is none. -/
def meanInterval (held : Nat) (intervals : List Nat) : Nat :=
  if intervals.isEmpty then held else intervals.sum / intervals.length

/-- The interval that an accepted pulse at `now` gives, where it comes within 100 µs of the previous
accepted pulse (R33). -/
def RefMonitor.interval (r : RefMonitor) (now : Nat) : Option Nat :=
  match r.lastPulse with
  | some t => if now - t ≤ Config.absenceLimit then some (now - t) else none
  | none => none

/-- A pulse at `now` is ignored: it comes less than 10 µs after the previous accepted one (R33). -/
def RefMonitor.ignores (r : RefMonitor) (now : Nat) : Bool :=
  match r.lastPulse with
  | some t => decide (now - t < Config.refDeadTime)
  | none => false

/-- The offset of a pulse at `now`: the time to the nearest house frame instant, positive where that
instant comes after the pulse; at an exact tie `later` chooses (R33, section 2.3; assumption 3). An offset to the
last instant is taken as measured, without the correction that the period in progress already makes
(assumption 37). -/
def pulseOffset (clock : Timebase) (later : Bool) : Int :=
  let behind := clock.now - clock.lastFrame
  let ahead := clock.nextFrame - clock.now
  if ahead < behind ∨ (ahead = behind ∧ later) then (ahead : Int) else -(behind : Int)

/-- The correction a house frame period makes: the offset, at most 20 ppm of the reference period either
way (R36; assumption 9). -/
def RefMonitor.correction (r : RefMonitor) : Int :=
  let most : Int := (r.period * 20 / 1000000 : Nat)
  max (-most) (min most r.offset)

/-- The next house frame period (R34 to R37). -/
def RefMonitor.framePeriod (r : RefMonitor) : Nat :=
  match r.state with
  | .tracking => ((r.period : Int) - r.correction).toNat
  | .holdover => r.period

/-- The monitor after a house frame instant: the offset is less by the correction that the coming
period makes (R36; assumption 10). -/
def RefMonitor.corrected (r : RefMonitor) : RefMonitor :=
  match r.state with
  | .tracking => { r with offset := r.offset - r.correction }
  | .holdover => r

/-! ## Accepted pulses (R33, R35) -/

/-- An accepted pulse in TRACKING (R33). -/
def RefMonitor.track (r : RefMonitor) (now : Nat) (offset : Int) : RefMonitor :=
  let intervals :=
    match r.interval now with
    | some x => lastN 32 (r.intervals ++ [x])
    | none => r.intervals
  { r with
    intervals := intervals
    period := meanInterval r.period intervals
    timer := 0
    offset := offset
    lastPulse := some now }

/-- An accepted pulse in HOLDOVER that carries the run on by an interval (R35). -/
def RefMonitor.countRun (r : RefMonitor) (now x : Nat) (offset : Int) : RefMonitor :=
  if 32 ≤ r.run + 1 then
    { state := .tracking
      period := meanInterval r.period (r.intervals ++ [x])
      intervals := r.intervals ++ [x]
      timer := 0
      run := 0
      offset := offset
      lastPulse := some now }
  else
    { r with
      intervals := r.intervals ++ [x]
      timer := 0
      run := r.run + 1
      lastPulse := some now }

/-- An accepted pulse in HOLDOVER that starts a new run (R35). -/
def RefMonitor.startRun (r : RefMonitor) (now : Nat) : RefMonitor :=
  { r with intervals := [], timer := 0, run := 1, lastPulse := some now }

/-- The monitor after an accepted pulse (R33, R35). -/
def RefMonitor.accept (r : RefMonitor) (now : Nat) (offset : Int) : RefMonitor :=
  match r.state with
  | .tracking => r.track now offset
  | .holdover =>
    match r.interval now with
    | some x => if r.run = 0 then r.startRun now else r.countRun now x offset
    | none => r.startRun now

/-- REF_PULSE (R33, R35): ignored while RESETn is asserted (R37) and within 10 µs of the previous
accepted pulse. -/
def execRefPulse (s : State) : Host.Outcome State Fault Refusal :=
  if s.resetAsserted then .next s
  else if s.ref.ignores s.clock.now then .next s
  else
    .next
      { s.draw.2 with ref := s.ref.accept s.clock.now (pulseOffset s.clock s.draw.1) }

/-! ## Absence (R34, R35) -/

/-- The REF absence timer has passed its limit (R34). -/
def RefMonitor.expired (r : RefMonitor) : Bool := Config.absenceLimit ≤ r.timer

/-- The monitor after its absence timer has passed 100 µs (R34, R35). -/
def RefMonitor.expire (r : RefMonitor) : RefMonitor :=
  match r.state with
  | .tracking =>
    { r with state := .holdover, intervals := [], timer := 0, run := 0, offset := 0 }
  | .holdover => { r with intervals := [], timer := 0, run := 0 }

/-- The house frame instant that was due, after an entry to HOLDOVER: it follows the last one by the
held period (R34). -/
def Timebase.holdOver (clock : Timebase) (r : RefMonitor) : Timebase :=
  match r.state with
  | .tracking => { clock with nextFrame := clock.lastFrame + r.period }
  | .holdover => clock

/-- REF_ABSENCE_EXPIRY (R34, R35); no effect where the timer does not stand at its limit (assumption
7). A HOUSE_FRAME that stands behind it in the queue is still taken at this instant (assumption 32). -/
def execRefAbsenceExpiry (s : State) : Host.Outcome State Fault Refusal :=
  if s.resetAsserted then .next s
  else if s.ref.expired then
    .next { s with ref := s.ref.expire, clock := s.clock.holdOver s.ref }
  else .next s

end Sys2Proof.Machine
end

