-- ==== Sys2Proof/Machine/HouseFrame.lean ====
section
/-! DEFINITION. HOUSE_FRAME: a house frame instant (R32): the converters' samples, the input crosspoint
(R3), meters, delay and gain of every program, the output crosspoint (R39) and the output links
(R38). -/

namespace Sys2Proof.Machine

/-! ## The input crosspoint -/

/-- The write-side sample of a channel (R3). -/
def State.writeSample (s : State) (delivered : Vector (Vector Sample 8) 8) (c : Channel) : Sample :=
  match c.input with
  | none => 0#24
  | some x =>
    if (s.link x.link).enable && x.slot.val < (s.link x.link).slots then delivered[x.link][x.slot]
    else 0#24

/-- The content a program's audio path runs under: the applied one while ACTIVE, the last ACTIVE one
through its closing fade, else none (R15, R93). -/
def State.content (s : State) (p : Fin 16) : Option ProgramRecord :=
  if (s.program p).active then some (s.program p)
  else if 0 < s.gains[p].closing then s.gains[p].closingContent
  else none

/-! ## One program's work at a house frame -/

/-- A channel's final sample, its output slot, and whether its program is ACTIVE (R39). -/
structure Driven where
  active : Bool
  slot : Slot
  sample : Sample
  deriving DecidableEq, Repr

/-- The slots a program drives with its output samples. -/
def driven (active : Bool) (channels : List Channel) (samples : List Sample) : List Driven :=
  (channels.zip samples).filterMap fun x =>
    x.1.output.map fun slot => { active := active, slot := slot, sample := x.2 }

/-- An ACTIVE program's work at a house frame: meter, delay engine and gain stage (R64, R93, R111 to
R116, R122, R127 to R130). -/
def State.runActive (s : State) (delivered : Vector (Vector Sample 8) 8) (p : Fin 16)
    (r : ProgramRecord) : State × List Driven :=
  let frames := s.clock.frames
  let written := r.channels.map (s.writeSample delivered)
  let d := s.delays[p].glide.fill.formSync
  let memory := d.writeSide s.memory frames written
  let read := d.readSide memory frames written
  let g := s.gains[p].prepare d.state (d.readReference frames)
  let left := d.leaveStates g.fade g.selected (g.finish read) frames
  ((({ s with memory := memory }.setMeter p (s.meters[p].houseFrame written)).setDelay p
      left.1).setGain p left.2,
    driven true r.channels (g.outputs frames s.tonePhase read))

/-- The work at a house frame of a program in its closing fade (R79, R98, R118): the lanes run on with
the delay state held but for the valid depths, which count the frames written (assumption 40), and at the end
meter, gain and delay take their power-on values. -/
def State.runClosing (s : State) (delivered : Vector (Vector Sample 8) 8) (p : Fin 16)
    (r : ProgramRecord) : State × List Driven :=
  let frames := s.clock.frames
  let written := r.channels.map (s.writeSample delivered)
  let d := s.delays[p].fill
  let memory := d.writeSide s.memory frames written
  let read := d.readSide memory frames written
  let g := s.gains[p].prepare d.state (d.readReference frames)
  let after := ({ s with memory := memory }.setDelay p d).setGain p (g.finish read)
  (if (g.finish read).closing = 0 then
      (after.setMeter p Meter.initial).setDelay p DelayEngine.initial
    else after,
    driven false r.channels (g.outputs frames s.tonePhase read))

/-- One program's work at a house frame (R93). -/
def State.runProgram (s : State) (delivered : Vector (Vector Sample 8) 8) (p : Fin 16) :
    State × List Driven :=
  match s.content p with
  | none => (s, [])
  | some r => if (s.program p).active then s.runActive delivered p r else s.runClosing delivered p r

/-- The work of a list of programs, in order, and the slots they drive. -/
def State.runPrograms (s : State) (delivered : Vector (Vector Sample 8) 8) :
    List (Fin 16) → State × List Driven
  | [] => (s, [])
  | p :: rest =>
    let first := s.runProgram delivered p
    let others := first.1.runPrograms delivered rest
    (others.1, first.2 ++ others.2)

/-! ## The output crosspoint and the output links -/

/-- The sample of an output slot: its ACTIVE program's channel, else that of a program in its closing
fade, else zero (R39). -/
def slotOutput (channels : List Driven) (slot : Slot) : Sample :=
  match channels.find? (fun x => x.active && x.slot == slot) with
  | some x => x.sample
  | none =>
    match channels.find? (fun x => x.slot == slot) with
    | some x => x.sample
    | none => 0#24

/-- The frames the eight output links start (R38, R39). -/
def outputFrames (channels : List Driven) : Vector (BitVec 256) 8 :=
  Vector.ofFn fun x : Fin 8 =>
    audioFrame (Vector.ofFn fun y : Fin 8 => slotOutput channels { link := x, slot := y })

/-- Output frames of zeros (R39). -/
def silentFrames : Vector (BitVec 256) 8 := Vector.replicate 8 0#256

/-! ## The converters at a house frame -/

/-- The notices of the slips made at a house frame, in link order (R56, R57). -/
def slipsOf (work : Vector (Vector Sample 8 × Converter × Option SlipNotice) 8) : List SlipNotice :=
  (List.finRange 8).filterMap fun l => work[l].2.2

/-- The notices of a list that are taken before the house frame's reads, and those taken after them, by
a free choice for each (R134; assumption 21). -/
def splitNotices (c : Nat) : List SlipNotice → List SlipNotice × List SlipNotice
  | [] => ([], [])
  | x :: rest =>
    let others := splitNotices (c + 1) rest
    if Config.choice c % 2 = 0 then (x :: others.1, others.2) else (others.1, x :: others.2)

/-! ## The house frame instant -/

/-- The clock at a house frame instant: F counts, except while RESETn is asserted, and the next instant
falls one period later (R32, R37). -/
def Timebase.advance (clock : Timebase) (period : Nat) (counting : Bool) : Timebase :=
  { clock with
    lastFrame := clock.now
    nextFrame := clock.now + period
    frames := if counting then clock.frames + 1 else clock.frames }

/-- A block end falls at a value of F (R32): a multiple of 4,800 that B does not yet count. -/
def Timebase.blockDue (clock : Timebase) : Bool :=
  clock.frames % Config.framesPerBlock == 0 &&
    clock.blocks != BitVec.ofNat 32 (clock.frames / Config.framesPerBlock)

/-- A REPEAT slip that the coming house frame calls for in a converter waits until after the block end at
its instant: a free choice where the house frame is a block end (R57, R137, R196; assumption 36). -/
def State.slipLater (s : State) (l : Fin 8) : Bool :=
  (s.clock.advance s.ref.framePeriod true).blockDue && Config.choice (s.choices + 16 + l.val) % 2 == 0

/-- Every converter's work at a house frame (R42, R44, R46). -/
def State.readConverters (s : State) :
    Vector (Vector Sample 8 × Converter × Option SlipNotice) 8 :=
  Vector.ofFn fun l : Fin 8 => s.converters[l].houseFrame l (s.slipLater l)

/-- A house frame instant while RESETn is asserted: the timebase runs, F and B are held, and every
output slot carries zero (R37, R38, R39). -/
def State.resetFrame (s : State) : State :=
  { s with
    clock := s.clock.advance s.ref.framePeriod false
    ref := s.ref.corrected
    out := silentFrames }

/-- The samples that the converters deliver at a house frame (R42). -/
def State.delivered (s : State) : Vector (Vector Sample 8) 8 :=
  Vector.ofFn fun l : Fin 8 => s.readConverters[l].1

/-- The slip notices of a house frame, in a free order: those taken before the reads, and those taken
after them (R134; assumptions 3 and 21). -/
def State.frameNotices (s : State) : List SlipNotice × List SlipNotice :=
  splitNotices (s.choices + 8) (freeOrder s.choices (slipsOf s.readConverters))

/-- The state at a house frame whose clock, tone, reference monitor and converters have moved on; it uses
twenty-four free choices (R32, R36, R44, R99). -/
def State.frameStarted (s : State) : State :=
  { s.spend 24 with
    clock := s.clock.advance s.ref.framePeriod true
    ref := s.ref.corrected
    tonePhase := (s.tonePhase + 1) % 48
    converters := Vector.ofFn fun l : Fin 8 => s.readConverters[l].2.1 }

/-- The state and the driven slots after every program's work at a house frame (R93). -/
def State.frameRun (s : State) : State × List Driven :=
  (s.frameStarted.takeNotices s.frameNotices.1).runPrograms s.delivered (List.finRange 16)

/-- A house frame instant in operation (R32). The notices of the REPEAT slips that it makes are taken before
or after its reads (assumption 21); a slip that waits for the block end is not made here (assumption 36). -/
def State.houseFrame (s : State) : State :=
  (State.takeNotices { s.frameRun.1 with out := outputFrames s.frameRun.2 } s.frameNotices.2).settle

/-- HOUSE_FRAME (R32). One that stands before a block end that is due is no house frame instant, since
the block end belongs to the instant before it (assumption 7). One that stands in the queue is taken at
its place there, also where a REF expiry of the same instant, taken first, has moved the due instant
(R34 names no order; assumption 32). -/
def execHouseFrame (s : State) : Host.Outcome State Fault Refusal :=
  if s.resetAsserted then .next s.resetFrame
  else if s.clock.blockDue then .next s
  else .next s.houseFrame

end Sys2Proof.Machine
end

