-- ==== Sys2Proof/Machine/Links.lean ====
section
/-! DEFINITION. The input link receivers (sections 2.1 and 2.2): FRAME_SYNC_MARK, FRAME_ARRIVAL and
RECEIVER_ABSENCE_EXPIRY. -/

namespace Sys2Proof.Machine

/-- A receiver that starts taking frames, and one that has taken a frame in PRESENT or declared return:
PRESENT with its timer started from 0 (R27, R29 to R31). -/
def Receiver.start : Receiver := { state := .present, timer := some 0, run := 0, inFrame := false }

/-- FRAME_SYNC_MARK (R26): the bits after the mark form the next frame, and a frame in progress is
discarded. A receiver in OFF takes no frames (R27). -/
def execFrameSyncMark (l : Fin 8) (s : State) : Host.Outcome State Fault Refusal :=
  if s.receivers[l].state = .off then .next s
  else .next (s.setReceiver l { s.receivers[l] with inFrame := true })

/-- The eight samples of a frame (R25). -/
def frameSamples (frame : BitVec 256) : Vector Sample 8 := Vector.ofFn fun y => slotSample frame y

/-- The state after a frame has been handed to a converter, with any slip it makes (R27, R43, R55,
R57). -/
def State.handFrame (s : State) (l : Fin 8) (frame : BitVec 256) : State :=
  s.putConverter l (s.converters[l].arrive l (frameSamples frame))

/-- The receiver after an arrival in LOST that does not complete a return run (R29). -/
def Receiver.counted (r : Receiver) : Receiver :=
  { state := .lost, timer := some 0, run := r.run + 1, inFrame := false }

/-- FRAME_ARRIVAL (R25 to R27, R29): the 256th bit after a frame-sync mark. Bits that follow no mark, or
come after the 256th, are no arrival (R26). -/
def execFrameArrival (l : Fin 8) (frame : BitVec 256) (s : State) : Host.Outcome State Fault Refusal :=
  let r := s.receivers[l]
  if !r.inFrame then .next s
  else
    match r.state with
    | .off => .next s
    | .present => .next ((s.setReceiver l Receiver.start).handFrame l frame).settle
    | .lost =>
      if r.run + 1 < 32 then .next (s.setReceiver l r.counted)
      else
        .next (((s.setReceiver l Receiver.start).setConverter l s.converters[l].regain).handFrame
          l frame).settle

/-- A receiver's absence timer has passed its limit (R28). -/
def Receiver.expired (r : Receiver) : Bool :=
  match r.timer with
  | some t => decide (Config.absenceLimit ≤ t)
  | none => false

/-- The receiver after its absence timer has passed 100 µs (R28, R29). -/
def Receiver.expire (r : Receiver) : Receiver :=
  { r with state := .lost, timer := some 0, run := 0 }

/-- The state in which a slip of the link that waited has been made, where one waits: a loss that comes
between a house frame and its block end follows all of that house frame's work (assumption 36). -/
def State.slipFirst (s : State) (l : Fin 8) : State :=
  if s.converters[l].slipWaits then (s.makeSlip l).settle else s

/-- A loss notice of a link's receiver (R28, R58). -/
def State.loseLink (s : State) (l : Fin 8) : State :=
  (s.setReceiver l s.receivers[l].expire).setConverter l s.converters[l].lose

/-- RECEIVER_ABSENCE_EXPIRY (R28, R29, R58); no effect where the timer does not stand at its limit
(assumption 7). -/
def execReceiverAbsenceExpiry (l : Fin 8) (s : State) : Host.Outcome State Fault Refusal :=
  if s.receivers[l].expired then
    match s.receivers[l].state with
    | .off => .next s
    | .present => .next ((s.slipFirst l).loseLink l)
    | .lost => .next (s.setReceiver l s.receivers[l].expire)
  else .next s

end Sys2Proof.Machine
end

