-- ==== Sys2Proof/Machine/BlockEnd.lean ====
section
/-! DEFINITION. BLOCK_END: the block-end work under the content of the ending block, the applies (R14 to
R21), the entries of the log, and the step decisions (R126). -/

namespace Sys2Proof.Machine

/-! ## Block-end work (R47 to R54, R76, R83 to R88, R95) -/

/-- The meter of a program at a block end: measured while ACTIVE; a pending clear is dropped while
UNUSED (R76, R77). -/
def State.blockMeter (s : State) (p : Fin 16) : Meter :=
  if (s.program p).active then s.meters[p].blockEnd (s.program p).channels
  else s.meters[p].dropClear

/-- The gain stage of a program at a block end, on the levels its meter leaves (R83 to R88, R95). -/
def State.blockGain (s : State) (m : Meter) (p : Fin 16) : GainStage :=
  if (s.program p).active then
    (s.gains[p].testOverload).law (s.program p).loudness m
      (s.delays[p].readReference s.clock.frames) s.clock.frames
  else s.gains[p]

/-- The state after the block-end work of converters, meters and gain stages, under the content in
force during the ending block, with B counted (R32). -/
def State.closeBlock (s : State) : State :=
  let meters : Vector Meter 16 := Vector.ofFn fun p : Fin 16 => s.blockMeter p
  { s with
    clock := { s.clock with blocks := s.clock.blocks + 1#32 }
    converters := Vector.ofFn fun l : Fin 8 => s.converters[l].blockEnd (s.link l).bandwidth
    meters := meters
    gains := Vector.ofFn fun p : Fin 16 => s.blockGain meters[p] p }

/-- The applied gain of every program as the gain stage's work at the latest house frame has left it. For the
corrected level (R147) it is taken before the gain law of the block end, so an entry that the law makes there
and that falls due at once (R88 case 1) is not in it (assumption 41). -/
def State.appliedGains (s : State) : Vector Int 16 := Vector.ofFn fun p : Fin 16 => s.gains[p].applied

/-! ## Taking staged copies into use (R14) -/

/-- A record after a block end: a staged copy becomes the applied content and the waiting list is
emptied (R14 steps 1 and 2). -/
def Record.take {α : Type} (r : Record α) : Record α :=
  match r.staged with
  | some x => { applied := x.content, revision := r.revision, staged := none, waiting := [] }
  | none => r

/-- The tables after a block end's applies (R14). -/
def Tables.take (t : Tables) : Tables :=
  { programs := Vector.ofFn fun p : Fin 16 => t.programs[p].take
    links := Vector.ofFn fun l : Fin 8 => t.links[l].take
    policy := t.policy.take }

/-- A port whose change completes: it ceases to be pending and its completion is placed in its buffer
(R14 step 2, R182). -/
def ControlPort.complete (port : ControlPort) (current own : BitVec 16) : ControlPort :=
  { port with
    executing := none
    held := some (respond (if own = current then .done else .superseded) (bytes16 own)) }

/-- The ports after a waiting list has completed, under the record's current revision (R14 step 2). -/
def completeList (current : BitVec 16) : List Waiting → Pair ControlPort → Pair ControlPort
  | [], ports => ports
  | w :: rest, ports =>
    completeList current rest (ports.set w.port ((ports.get w.port).complete current w.revision))

/-- The ports after the apply of one record (R14 step 2). -/
def Record.completePorts {α : Type} (r : Record α) (ports : Pair ControlPort) : Pair ControlPort :=
  match r.staged with
  | some _ => completeList r.revision r.waiting ports
  | none => ports

/-- The ports after every apply of a block end (R14 step 2). -/
def Tables.completePorts (t : Tables) (ports : Pair ControlPort) : Pair ControlPort :=
  let afterPrograms := (List.finRange 16).foldl (fun ps p => t.programs[p].completePorts ps) ports
  let afterLinks := (List.finRange 8).foldl (fun ps l => t.links[l].completePorts ps) afterPrograms
  t.policy.completePorts afterLinks

/-- The PROGRAM_CHANGED event of a program's apply, under the new policy (R14 step 3, R21, R153). -/
def changedEntry (old new : Tables) (blocks : BitVec 32) (p : Fin 16) : Option Entry :=
  match old.programs[p].staged with
  | none => none
  | some x =>
    if (new.policy.applied.kind .programChanged).edges.includes .event then
      some
        { kind := .programChanged
          subject := .program p
          edge := .event
          severity := (new.policy.applied.kind .programChanged).severity
          stamp := blocks
          detail := .changed p old.programs[p].revision x.origin }
    else none

/-- The PROGRAM_CHANGED events of a block end, in program order. -/
def changedEntries (old new : Tables) (blocks : BitVec 32) : List Entry :=
  (List.finRange 16).filterMap (changedEntry old new blocks)

/-! ## Effects of the applies on the blocks (R15 to R20, R30) -/

/-- A receiver after a link apply (R30). -/
def Receiver.apply (r : Receiver) (old new : LinkRecord) : Receiver :=
  match old.enable, new.enable with
  | false, true => Receiver.start
  | true, false => Receiver.initial
  | _, _ => r

/-- A converter after a link apply (R20, R60). -/
def Converter.apply (c : Converter) (old new : LinkRecord) : Converter :=
  match old.enable, new.enable with
  | false, true => c.enable
  | true, false => c.disable
  | _, _ => c

/-- A gain stage after a program apply; `loudnessFirst` says whether the gain stage's own effects are
taken before the change of D_c or after it (R18, R90, R98; assumption 16). -/
def GainStage.takeApply (g : GainStage) (loudnessFirst : Bool) (old new : ProgramRecord)
    (d : DelayEngine) (change : DelayChange) (frames : Nat) : GainStage :=
  if loudnessFirst then (g.apply old new).followDelay d frames change
  else (g.followDelay d frames change).apply old new

/-- The state after the blocks have taken the new content of every record, whose tables it already
holds; `old` are the tables of the ending block (R14 step 4). Sixteen free choices are used. -/
def State.takeContent (s : State) (old : Tables) : State :=
  { s.spend 16 with
    receivers := Vector.ofFn fun l : Fin 8 => s.receivers[l].apply old.links[l].applied (s.link l)
    converters := Vector.ofFn fun l : Fin 8 => s.converters[l].apply old.links[l].applied (s.link l)
    meters := Vector.ofFn fun p : Fin 16 => s.meters[p].apply old.programs[p].applied (s.program p)
    gains := Vector.ofFn fun p : Fin 16 =>
      let delay := s.delays[p].apply old.programs[p].applied (s.program p)
      s.gains[p].takeApply (Config.choice (s.choices + p.val) % 2 == 0) old.programs[p].applied
        (s.program p) delay.1 delay.2 s.clock.frames
    delays := Vector.ofFn fun p : Fin 16 =>
      (s.delays[p].apply old.programs[p].applied (s.program p)).1 }

/-- The step decisions that open the coming block (R126), with the sync flag formed anew (R136,
R196). -/
def State.openBlock (s : State) : State :=
  { s with
    delays := Vector.ofFn fun p : Fin 16 => (s.delays[p].openBlock (s.program p)).formSync }

/-! ## Attendance under a new policy (R21, R164) -/

/-- A port's timer equals or exceeds the timeout, which is not 0 (R164). -/
def LogPort.timedOut (place : LogPort) (timeout : Nat) : Bool :=
  place.attending && timeout != 0 && decide (timeout * Config.second ≤ place.timer)

/-- The log after a port whose time is up has become ABSENT (R164). -/
def AlarmLog.leaveIfOut (log : AlarmLog) (timeout : Nat) (q : Port) : AlarmLog :=
  if (log.ports.get q).timedOut timeout then log.leave q else log

/-- The timeout that a policy apply brings into force; 0, which no port's time reaches, where no policy
is applied (R21, R164). -/
def Tables.newTimeout (t : Tables) : Nat :=
  match t.policy.staged with
  | some x => x.content.timeout
  | none => 0

/-- The log after a policy apply: ports whose time is up become ABSENT, in the order `first`, then the
other (R21, R164). -/
def AlarmLog.takeTimeout (log : AlarmLog) (timeout : Nat) (first : Port) : AlarmLog :=
  (log.leaveIfOut timeout first).leaveIfOut timeout (Port.other first)

/-- The log after a run of entries has been handed over, in order (R162). -/
def AlarmLog.handAll (log : AlarmLog) : List Entry → AlarmLog
  | [] => log
  | e :: rest => (log.hand e).handAll rest

/-- The log after a block end's entries and a new timeout, in either order (R21; assumption 15). -/
def AlarmLog.takeBlock (log : AlarmLog) (entries : List Entry) (timeout : Nat) (first : Port)
    (entriesFirst : Bool) : AlarmLog :=
  if entriesFirst then (log.handAll entries).takeTimeout timeout first
  else (log.takeTimeout timeout first).handAll entries

/-! ## The block end -/

/-- The entries of a block end as they are handed to the log: sampling and applies in table order, with
the PROGRAM_CHANGED events before, among or after them in a free order (R14, R152; assumption 15). -/
def blockEntries (c : Nat) (conditions changed : List Entry) : List Entry :=
  freeMerge (c + 16) conditions (freeOrder c changed)

/-- The port that a free choice names. -/
def chosenPort (c : Nat) : Port := if Config.choice c % 2 = 0 then .a else .b

/-- The free choices that one block end uses: sixteen for the applies, sixteen for the order of the
PROGRAM_CHANGED events, as many as entries can be merged, two for the attendance timers, and from 416 on
the order of the slips that waited. -/
def blockChoices : Nat := 512

/-- The state after a block end (R14, R32, R143): the block-end work and the sampling close the ending
block under the old records, the applies bring the new ones into use, and the step decisions open the
coming block (assumption 15). The summary lines take the value after the sampling and then the one after the
applies, so that a line stays asserted through a raise by the sampling and a withdrawal of the same severity
(R158; assumption 39). -/
def State.blockEnd (s : State) : State :=
  let closed := s.closeBlock
  let after := closed.sampled s.appliedGains
  let old := s.tables
  let new := s.tables.take
  let blocks := closed.clock.blocks
  let entries :=
    blockEntries (s.choices + 16)
      (sampledEntries old blocks s.conditions after ++ appliedEntries old new blocks after)
      (changedEntries old new blocks)
  let taken :=
    { closed with
      tables := new
      conditions := appliedConditions old new after
      ports := old.completePorts s.ports
      log := s.log.takeBlock entries old.newTimeout (chosenPort (s.choices + 400))
        (Config.choice (s.choices + 401) % 2 == 0)
      pins := { s.pins with sampled := old.summary after } }.takeContent old
  (taken.openBlock.spend blockChoices).settle

/-- The state after a block end and then the slips that waited for it, in a free order (R57, R137, R196;
assumptions 3 and 36). -/
def State.blockEndThenSlips (s : State) : State :=
  (s.blockEnd.makeSlips (freeOrder (s.choices + 416) s.blockEnd.waitingLinks)).settle

/-- BLOCK_END (R32); no effect where no block end falls at the house frame instant just taken
(assumption 7), nor while RESETn is asserted (R141). -/
def execBlockEnd (s : State) : Host.Outcome State Fault Refusal :=
  if s.resetAsserted then .next s
  else if s.clock.blockDue then .next s.blockEndThenSlips
  else .next s

end Sys2Proof.Machine
end

