-- ==== Sys2Proof/Machine/Tables.lean ====
section
/-! DEFINITION. The configuration tables at a request: base content, conflicts, acceptance, and a port
leaving a waiting list (sections 1.5 and 1.7). -/

namespace Sys2Proof.Machine

/-- The newest accepted content of a record: the staged copy if present, else the applied content; the
base content of a SET (R8, R13). -/
def Record.newest {α : Type} (r : Record α) : α :=
  match r.staged with
  | some x => x.content
  | none => r.applied

/-- A record after an acceptance at a port (R11). -/
def Record.accept {α : Type} (r : Record α) (q : Port) (content : α) : Record α :=
  { applied := r.applied
    revision := r.revision + 1#16
    staged := some { content := content, origin := q }
    waiting := r.waiting ++ [{ port := q, revision := r.revision + 1#16 }] }

/-- A record after a port has left its waiting list (R22). -/
def Record.leave {α : Type} (r : Record α) (q : Port) : Record α :=
  { r with waiting := r.waiting.filter fun w => w.port != q }

/-! ## Conflicts (R10) -/

/-- The contents of a record that claim slots and pages: applied and staged (R10). -/
def Record.contents {α : Type} (r : Record α) : List α :=
  r.applied :: (match r.staged with | some x => [x.content] | none => [])

/-- Two contents claim a common output slot (R10). -/
def slotsMeet (x y : ProgramRecord) : Bool := x.outputs.any fun slot => y.outputs.contains slot

/-- Two windows share a page (R10). -/
def DelaySection.meets (x y : DelaySection) : Bool :=
  x.claims && y.claims && decide (x.base ≤ y.limit) && decide (y.base ≤ x.limit)

/-- Two contents claim a common window page (R10). -/
def pagesMeet (x y : ProgramRecord) : Bool :=
  match x.delay, y.delay with
  | some a, some b => a.meets b
  | _, _ => false

/-- What a CONFLICT response names (R10, R183). -/
inductive ConflictKind where
  | slot
  | pages
  deriving DecidableEq, Repr

/-- The byte of a conflict kind (R183). -/
def ConflictKind.byte : ConflictKind → Byte
  | .slot => 0#8
  | .pages => 1#8

/-- How a new content conflicts with one record: on an output slot before window pages (R10, R183). -/
def Record.conflict (r : Record ProgramRecord) (new : ProgramRecord) : Option ConflictKind :=
  if r.contents.any (slotsMeet new) then some .slot
  else if r.contents.any (pagesMeet new) then some .pages
  else none

/-- The conflict of a new content of program `p`: the lowest-numbered other program that conflicts, and
how (R10, R183). -/
def Tables.conflict (t : Tables) (p : Fin 16) (new : ProgramRecord) : Option (Fin 16 × ConflictKind) :=
  (List.finRange 16).findSome? fun q =>
    if q = p then none else (t.programs[q].conflict new).map fun k => (q, k)

/-! ## The records by name -/

/-- The state after a port has left the waiting list of a record (R22). -/
def State.leaveList (s : State) (q : Port) : RecordName → State
  | .program p => s.setProgram p (s.tables.programs[p].leave q)
  | .link l => s.setLink l (s.tables.links[l].leave q)
  | .policy => s.setPolicy (s.tables.policy.leave q)

end Sys2Proof.Machine
end

