-- ==== Sys2Proof/Machine/Requests.lean ====
section
/-! DEFINITION. What each request does when it is taken (section 10.4): one definition per request, from
the port, the fields of its body and the state in which the held response has been discarded (R179). -/

namespace Sys2Proof.Machine

/-! ## Answers (R180, R183) -/

/-- A request completes at its taking: its response is held for the port (R180). -/
def State.answer (s : State) (q : Port) (status : Status) (body : List Byte) : State :=
  s.setPort q { s.port q with held := some (respond status body) }

/-- A change request is accepted: the port becomes pending with no held response (R11, R180). -/
def State.makePending (s : State) (q : Port) (name : RecordName) (revision : BitVec 16) : State :=
  s.setPort q
    { s.port q with held := none, executing := some { record := name, revision := revision } }

/-- A record's revision and staged flag, the first three bytes of a record read (R185). -/
def readHead {α : Type} (r : Record α) : List Byte := bytes16 r.revision ++ [flagByte r.staged.isSome]

/-! ## Acceptance (R11) -/

/-- A program content is accepted at a port (R11). -/
def State.acceptProgram (s : State) (q : Port) (p : Fin 16) (content : ProgramRecord) : State :=
  let record := s.tables.programs[p].accept q content
  (s.setProgram p record).makePending q (.program p) record.revision

/-- A link content is accepted at a port (R11). -/
def State.acceptLink (s : State) (q : Port) (l : Fin 8) (content : LinkRecord) : State :=
  let record := s.tables.links[l].accept q content
  (s.setLink l record).makePending q (.link l) record.revision

/-- A policy content is accepted at a port (R11). -/
def State.acceptPolicy (s : State) (q : Port) (content : PolicyRecord) : State :=
  let record := s.tables.policy.accept q content
  (s.setPolicy record).makePending q .policy record.revision

/-! ## Identification and record reads (R184, R185) -/

/-- The eight bytes of IDENTIFY (R184). -/
def identity : List Byte := bytes16 0x5A43#16 ++ bytes16 6416#16 ++ [1#8, 16#8, 8#8, 128#8]

/-- IDENTIFY (R184). -/
def takeIdentify (q : Port) (s : State) : State := s.answer q .done identity

/-- READ PROGRAM (R13, R185). -/
def takeReadProgram (q : Port) (program : Byte) (s : State) : State :=
  match indexOf 16 program with
  | none => s.answer q .range []
  | some p =>
    s.answer q .done (readHead s.tables.programs[p] ++ programBytes s.tables.programs[p].newest)

/-- The code of a converter state (R185). -/
def ConverterState.code : ConverterState → Byte
  | .idle => 0#8
  | .acquire => 1#8
  | .locked => 2#8
  | .freewheel => 3#8
  | .relock => 4#8
  | .lost => 5#8

/-- The nineteen bytes of a link's status part (R61, R185). R and R_meas have four bytes each and no rule
bounds them; of a value of 2^32 or more the low 32 bits are shown (assumption 33). -/
def statusBytes (c : Converter) : List Byte :=
  [c.state.code] ++ bytes32 (BitVec.ofNat 32 c.ratio) ++ bytes32 (BitVec.ofNat 32 c.measured) ++
    bytes16 (BitVec.ofNat 16 c.fill) ++ bytes32 (BitVec.ofNat 32 c.deletes) ++
    bytes32 (BitVec.ofNat 32 c.repeats)

/-- READ LINK (R13, R61, R185). -/
def takeReadLink (q : Port) (link : Byte) (s : State) : State :=
  match indexOf 8 link with
  | none => s.answer q .range []
  | some l =>
    s.answer q .done
      (readHead s.tables.links[l] ++ linkBytes s.tables.links[l].newest ++ statusBytes s.converters[l])

/-- READ POLICY (R13, R185). -/
def takeReadPolicy (q : Port) (s : State) : State :=
  s.answer q .done (readHead s.tables.policy ++ policyBytes s.tables.policy.newest)

/-! ## Change requests (R6 to R11, R186, R187) -/

/-- WRITE PROGRAM after its range check: revision, then conflicts (R6, R9, R10). -/
def writeProgramChecked (q : Port) (p : Fin 16) (revision : BitVec 16) (content : ProgramRecord)
    (s : State) : State :=
  if revision ≠ s.tables.programs[p].revision then
    s.answer q .stale (bytes16 s.tables.programs[p].revision)
  else
    match s.tables.conflict p content with
    | some (other, kind) => s.answer q .conflict [BitVec.ofNat 8 other.val, kind.byte]
    | none => s.acceptProgram q p content

/-- WRITE PROGRAM (R6, R7, R186). -/
def takeWriteProgram (q : Port) (program : Byte) (revision : BitVec 16) (record : List Byte)
    (s : State) : State :=
  match indexOf 16 program, programOfBytes record with
  | some p, some content =>
    if content.inRange then writeProgramChecked q p revision content s else s.answer q .range []
  | _, _ => s.answer q .range []

/-- WRITE LINK (R6, R8, R9, R186). -/
def takeWriteLink (q : Port) (link : Byte) (revision : BitVec 16) (record : List Byte) (s : State) :
    State :=
  match indexOf 8 link, linkOfBytes record with
  | some l, some content =>
    if !content.inRange then s.answer q .range []
    else if revision ≠ s.tables.links[l].revision then
      s.answer q .stale (bytes16 s.tables.links[l].revision)
    else s.acceptLink q l content
  | _, _ => s.answer q .range []

/-- WRITE POLICY (R6, R8, R9, R186). -/
def takeWritePolicy (q : Port) (revision : BitVec 16) (record : List Byte) (s : State) : State :=
  match policyOfBytes record with
  | some content =>
    if !content.inRange then s.answer q .range []
    else if revision ≠ s.tables.policy.revision then
      s.answer q .stale (bytes16 s.tables.policy.revision)
    else s.acceptPolicy q content
  | none => s.answer q .range []

/-- A program content with its requested delay replaced (R187); none where it has no delay section. -/
def ProgramRecord.withDelay (r : ProgramRecord) (frames : Nat) : Option ProgramRecord :=
  r.delay.map fun x => { r with delay := some { x with target := frames } }

/-- A program content with its target level replaced (R187); none where it has no loudness section. -/
def ProgramRecord.withTarget (r : ProgramRecord) (tenths : Int) : Option ProgramRecord :=
  r.loudness.map fun x => { r with loudness := some { x with target := tenths } }

/-- SET DELAY (R8, R187). -/
def takeSetDelay (q : Port) (program : Byte) (frames : BitVec 32) (s : State) : State :=
  match indexOf 16 program with
  | none => s.answer q .range []
  | some p =>
    if 240000 < frames.toNat then s.answer q .range []
    else
      match s.tables.programs[p].newest.withDelay frames.toNat with
      | some content => s.acceptProgram q p content
      | none => s.answer q .range []

/-- SET TARGET (R8, R187). -/
def takeSetTarget (q : Port) (program : Byte) (tenths : BitVec 16) (s : State) : State :=
  match indexOf 16 program with
  | none => s.answer q .range []
  | some p =>
    if tenths.toInt < -400 ∨ -50 < tenths.toInt then s.answer q .range []
    else
      match s.tables.programs[p].newest.withTarget tenths.toInt with
      | some content => s.acceptProgram q p content
      | none => s.answer q .range []

/-! ## Meters (R188, R189) -/

/-- The code of a delay state (R188). -/
def DelayState.code : DelayState → Byte
  | .bypass => 0#8
  | .filling => 1#8
  | .steady => 2#8
  | .slewing => 3#8
  | .fadeOut => 4#8
  | .fadeIn => 5#8

/-- The body of READ METER: meter, gain and delay fields, then every lane's correction, then every
lane's valid depth (R80, R102, R119, R138, R188; assumption 31), as they stand, also through a closing fade
(assumption 40). -/
def meterBytes (m : Meter) (g : GainStage) (d : DelayEngine) : List Byte :=
  bytes16 (BitVec.ofInt 16 m.momentary.tenths) ++ bytes16 (BitVec.ofInt 16 m.shortTerm.tenths) ++
    bytes16 (BitVec.ofInt 16 m.integrated.tenths) ++
    bytes32 (BitVec.ofNat 32 (countFrom m.histogram 0)) ++ bytes16 (BitVec.ofInt 16 g.applied) ++
    [BitVec.ofNat 8 g.queue.length, d.state.code] ++ bytes48 (BitVec.ofNat 48 d.current) ++
    bytes32 (BitVec.ofNat 32 d.target) ++ bytes32 (BitVec.ofNat 32 d.usable) ++
    [BitVec.ofNat 8 d.lanes.length] ++
    d.lanes.flatMap (fun x => bytes32 (BitVec.ofInt 32 x.correction)) ++
    d.lanes.flatMap fun x => bytes32 (BitVec.ofNat 32 x.valid)

/-- READ METER (R188). -/
def takeReadMeter (q : Port) (program : Byte) (s : State) : State :=
  match indexOf 16 program with
  | none => s.answer q .range []
  | some p => s.answer q .done (meterBytes s.meters[p] s.gains[p] s.delays[p])

/-- The state with a clear marked as pending on every meter (R77). -/
def State.markAll (s : State) : State :=
  { s with meters := Vector.ofFn fun p : Fin 16 => s.meters[p].markClear }

/-- RESET METER (R77, R189). -/
def takeResetMeter (q : Port) (program : Byte) (s : State) : State :=
  if program = 255#8 then s.markAll.answer q .done []
  else
    match indexOf 16 program with
    | none => s.answer q .range []
    | some p => (s.setMeter p s.meters[p].markClear).answer q .done []

/-! ## Conditions (R159, R190) -/

/-- The twenty-five subject groups, in order (R159). -/
def subjectGroups : List Subject :=
  .device :: (List.finRange 8).map .link ++ (List.finRange 16).map .program

/-- The places of a subject group (R140, R159). -/
def groupPlaces (subject : Subject) : List (Fin 129) :=
  (List.finRange 129).filter fun i => conditionSubject i == subject

/-- A condition counts toward its group's highest severity: RAISED and monitored (R159). -/
def State.counts (s : State) (i : Fin 129) (severity : Severity) : Bool :=
  s.conditions[i].raised && s.tables.monitored i && s.tables.severity i == severity

/-- The highest severity byte of a group, 255 for NONE (R159, R190). -/
def State.highestByte (s : State) (places : List (Fin 129)) : Byte :=
  if places.any (s.counts · .major) then Severity.major.code
  else if places.any (s.counts · .minor) then Severity.minor.code
  else if places.any (s.counts · .note) then Severity.note.code
  else 255#8

/-- The two bytes of a group's summary (R159, R190). -/
def State.groupBytes (s : State) (subject : Subject) : List Byte :=
  [BitVec.ofNat 8 ((groupPlaces subject).countP fun i => s.conditions[i].raised),
    s.highestByte (groupPlaces subject)]

/-- The byte of one instance: test, state, monitored flag (R190). -/
def State.conditionByte (s : State) (i : Fin 129) : Byte :=
  BitVec.ofNat 8 (s.conditions[i].test.toNat + 2 * s.conditions[i].raised.toNat
    + 4 * (s.tables.monitored i).toNat)

/-- The 179 bytes of READ CONDITIONS (R159, R190). -/
def State.conditionBytes (s : State) : List Byte :=
  subjectGroups.flatMap s.groupBytes ++ (List.finRange 129).map s.conditionByte

/-- READ CONDITIONS (R190). -/
def takeReadConditions (q : Port) (s : State) : State := s.answer q .done s.conditionBytes

/-! ## The log and attention (R168, R191 to R193) -/

/-- FETCH ALARMS (R168, R191). Retirement is tested at the end of the release (R164, R165). -/
def takeFetchAlarms (q : Port) (n : Byte) (s : State) : State :=
  if 1 ≤ n.toNat ∧ n.toNat ≤ 8 then
    { s with log := s.log.advance q n.toNat }.answer q .done (s.log.fetchBody q n.toNat)
  else s.answer q .range []

/-- SET ATTENTION (R171, R192). -/
def takeSetAttention (q : Port) (mask : KindSet) (threshold : Byte) (s : State) : State :=
  match subset mask allKinds, severityOf threshold with
  | true, some x =>
    (s.setPlace q { s.place q with mask := mask, threshold := x }).answer q .done []
  | _, _ => s.answer q .range []

/-- The port's change request leaves its record's waiting list, and the port ceases to be pending (R22,
R193 step 1). -/
def State.dropExecuting (s : State) (q : Port) : State :=
  match (s.port q).executing with
  | none => s
  | some x => (s.leaveList q x.record).setPort q { s.port q with executing := none }

/-- PORT RESET (R174, R193). -/
def takePortReset (q : Port) (s : State) : State :=
  let dropped := s.dropExecuting q
  (dropped.setPlace q { dropped.place q with mask := 0#16, threshold := .note }).answer q .done []

/-! ## The taking of a well-formed request -/

/-- A well-formed request is taken, by its code and body (R180). A body of another shape than the code
requires, which R179 has refused before, changes nothing (assumption 20). -/
def takeRequest (q : Port) (code : RequestCode) (body : List Byte) (s : State) : State :=
  match code, body with
  | .identify, _ => takeIdentify q s
  | .readProgram, [p] => takeReadProgram q p s
  | .writeProgram, p :: r1 :: r0 :: record => takeWriteProgram q p (word16 r1 r0) record s
  | .setDelay, [p, f3, f2, f1, f0] => takeSetDelay q p (word32 f3 f2 f1 f0) s
  | .setTarget, [p, t1, t0] => takeSetTarget q p (word16 t1 t0) s
  | .readMeter, [p] => takeReadMeter q p s
  | .resetMeter, [p] => takeResetMeter q p s
  | .readLink, [l] => takeReadLink q l s
  | .writeLink, l :: r1 :: r0 :: record => takeWriteLink q l (word16 r1 r0) record s
  | .readPolicy, _ => takeReadPolicy q s
  | .writePolicy, r1 :: r0 :: record => takeWritePolicy q (word16 r1 r0) record s
  | .readConditions, _ => takeReadConditions q s
  | .fetchAlarms, [n] => takeFetchAlarms q n s
  | .setAttention, [m1, m0, t] => takeSetAttention q (word16 m1 m0) t s
  | .portReset, _ => takePortReset q s
  | _, _ => s

end Sys2Proof.Machine
end

