-- ==== Sys2Proof/Machine/Ports.lean ====
section
/-! DEFINITION. The control ports (sections 10.2 and 10.5): SELECT_ASSERT, the release that ends a
transaction with the twenty rows that stand for it, SELECT_SEEN_RELEASED and ATTENDANCE_EXPIRY. -/

namespace Sys2Proof.Machine

/-! ## The assertion of select (R178) -/

/-- The output that an assertion fixes, up to the zeros that follow it (R178). -/
def ControlPort.fixedOutput (port : ControlPort) : List Byte :=
  match port.executing, port.held with
  | some _, _ => outputFrame .pending []
  | none, some r => r.frame
  | none, none => outputFrame .none []

/-- A port at the assertion of select (R178): the transaction's kind and output are fixed, and the held
response is given from its first byte. -/
def ControlPort.begin (port : ControlPort) : ControlPort :=
  { port with
    held := port.held.map fun r => { r with clocked := 0 }
    transaction := if port.executing.isSome then .pending else .normal
    input := []
    position := 0
    output := port.fixedOutput
    select := true }

/-- SELECT_ASSERT (R178). While RESETn is asserted, and while the port waits for select to be seen
released, it starts no transaction (R195); a select that is asserted already is not asserted again
(assumption 7). -/
def execSelectAssert (q : Port) (s : State) : Host.Outcome State Fault Refusal :=
  if s.resetAsserted then .next (s.setPort q { s.port q with select := true })
  else
    match (s.port q).transaction with
    | .idle => .next (s.setPort q (s.port q).begin)
    | .normal => .next s
    | .pending => .next s
    | .waiting => .next s

/-! ## The release of select (R177, R179, R181) -/

/-- The bytes that left on SDO in `n` whole bytes of clocking: the fixed output, then zeros (R178). -/
def ControlPort.sent (port : ControlPort) (n : Nat) : List Byte :=
  port.output.take n ++ List.replicate (n - port.output.length) 0#8

/-- A port after the release that ends a transaction of `n` whole bytes: idle, with what it sent
(R177; assumption 6). -/
def ControlPort.release (port : ControlPort) (n : Nat) : ControlPort :=
  { port with
    transaction := .idle
    input := []
    position := 0
    output := []
    select := false
    sdo := port.sent n }

/-- A held response with the bytes of its frame that `n` whole bytes of clocking have clocked out (R178);
the count stops at the frame's length. -/
def Response.clockOut (r : Response) (n : Nat) : Response := { r with clocked := min n r.frame.length }

/-- The held response after a NULL of `n` whole bytes: discarded if its whole frame was clocked out,
else kept (R179). -/
def heldAfterNull (held : Option Response) (n : Nat) : Option Response :=
  match held with
  | none => none
  | some r => if r.frame.length ≤ n then none else some (r.clockOut n)

/-- The state after the outcome of a normal transaction of `n` whole bytes (R179, R180). -/
def takeClass (q : Port) (n : Nat) (c : InputClass) (s : State) : State :=
  match c with
  | .null => s.setPort q { s.port q with held := heldAfterNull (s.port q).held n }
  | .unknown => s.answer q .unknown []
  | .length => s.answer q .length []
  | .request code body => takeRequest q code body (s.setPort q { s.port q with held := none })

/-- The whole bytes of a pending transaction carry a complete PORT RESET (R181). -/
def completesPortReset : List Byte → Bool
  | code :: hi :: lo :: _ => code == RequestCode.portReset.byte && word16 hi lo == 0#16
  | _ => false

/-- The state after the input of a pending transaction (R181). -/
def takePending (q : Port) (bytes : List Byte) (s : State) : State :=
  if completesPortReset bytes then takePortReset q s else s

/-- The state after the release of select on a port whose transaction took these whole bytes: the port
is idle, it attends, its input is taken, and retirement and ATN follow (R164, R165, R179, R181). -/
def State.finishTransaction (s : State) (q : Port) (bytes : List Byte) (take : State → State) : State :=
  let released := s.setPort q ((s.port q).release bytes.length)
  let after := take { released with log := released.log.attend q }
  { after with log := after.log.retire }.settle

/-- A select seen released that ends no transaction: RESETn is asserted, or the port waited for it
(R195). -/
def State.releaseSelect (s : State) (q : Port) : State :=
  s.setPort q { s.port q with transaction := .idle, select := false }

/-- The release of a port's select after the bits `sdi` (R177, R179, R181, R195). On an idle port there
is no transaction to end (assumption 7). -/
def endTransaction (q : Port) (sdi : List Bool) (s : State) : State :=
  if s.resetAsserted then s.releaseSelect q
  else
    match (s.port q).transaction with
    | .idle => s
    | .waiting => s.releaseSelect q
    | .normal =>
      s.finishTransaction q (bytesOfBits sdi)
        (takeClass q (bytesOfBits sdi).length (classify (bytesOfBits sdi)))
    | .pending => s.finishTransaction q (bytesOfBits sdi) (takePending q (bytesOfBits sdi))

/-! ## The rows that end a transaction

Each row is the release of select after the bits it spells. The outcome follows from those bits and
from the port: in a pending transaction R181 governs, whatever the row (assumption 8). -/

/-- NULL (R179, R184). -/
def execNull (q : Port) (sdi : List Bool) (s : State) : Host.Outcome State Fault Refusal :=
  .next (endTransaction q (Instr.null q sdi).sdi s)

/-- UNKNOWN (R179). -/
def execUnknown (q : Port) (sdi : List Bool) (s : State) : Host.Outcome State Fault Refusal :=
  .next (endTransaction q (Instr.unknown q sdi).sdi s)

/-- LENGTH (R179). -/
def execLength (q : Port) (sdi : List Bool) (s : State) : Host.Outcome State Fault Refusal :=
  .next (endTransaction q (Instr.length q sdi).sdi s)

/-- PENDING_TRANSACTION_END (R181). -/
def execPendingTransactionEnd (q : Port) (sdi : List Bool) (s : State) :
    Host.Outcome State Fault Refusal :=
  .next (endTransaction q (Instr.pendingTransactionEnd q sdi).sdi s)

/-- IDENTIFY (R184). -/
def execIdentify (q : Port) (surplus : List Bool) (s : State) : Host.Outcome State Fault Refusal :=
  .next (endTransaction q (Instr.identify q surplus).sdi s)

/-- READ_PROGRAM (R185). -/
def execReadProgram (q : Port) (program : Byte) (surplus : List Bool) (s : State) :
    Host.Outcome State Fault Refusal :=
  .next (endTransaction q (Instr.readProgram q program surplus).sdi s)

/-- WRITE_PROGRAM (R186). -/
def execWriteProgram (q : Port) (program : Byte) (revision : BitVec 16) (record : List Byte)
    (surplus : List Bool) (s : State) : Host.Outcome State Fault Refusal :=
  .next (endTransaction q (Instr.writeProgram q program revision record surplus).sdi s)

/-- SET_DELAY (R187). -/
def execSetDelay (q : Port) (program : Byte) (frames : BitVec 32) (surplus : List Bool) (s : State) :
    Host.Outcome State Fault Refusal :=
  .next (endTransaction q (Instr.setDelay q program frames surplus).sdi s)

/-- SET_TARGET (R187). -/
def execSetTarget (q : Port) (program : Byte) (tenths : BitVec 16) (surplus : List Bool) (s : State) :
    Host.Outcome State Fault Refusal :=
  .next (endTransaction q (Instr.setTarget q program tenths surplus).sdi s)

/-- READ_METER (R188). -/
def execReadMeter (q : Port) (program : Byte) (surplus : List Bool) (s : State) :
    Host.Outcome State Fault Refusal :=
  .next (endTransaction q (Instr.readMeter q program surplus).sdi s)

/-- RESET_METER (R189). -/
def execResetMeter (q : Port) (program : Byte) (surplus : List Bool) (s : State) :
    Host.Outcome State Fault Refusal :=
  .next (endTransaction q (Instr.resetMeter q program surplus).sdi s)

/-- READ_LINK (R185). -/
def execReadLink (q : Port) (link : Byte) (surplus : List Bool) (s : State) :
    Host.Outcome State Fault Refusal :=
  .next (endTransaction q (Instr.readLink q link surplus).sdi s)

/-- WRITE_LINK (R186). -/
def execWriteLink (q : Port) (link : Byte) (revision : BitVec 16) (enable slots bandwidth : Byte)
    (kinds : KindSet) (surplus : List Bool) (s : State) : Host.Outcome State Fault Refusal :=
  .next
    (endTransaction q (Instr.writeLink q link revision enable slots bandwidth kinds surplus).sdi s)

/-- READ_POLICY (R185). -/
def execReadPolicy (q : Port) (surplus : List Bool) (s : State) : Host.Outcome State Fault Refusal :=
  .next (endTransaction q (Instr.readPolicy q surplus).sdi s)

/-- WRITE_POLICY (R186). -/
def execWritePolicy (q : Port) (revision : BitVec 16) (record : List Byte) (surplus : List Bool)
    (s : State) : Host.Outcome State Fault Refusal :=
  .next (endTransaction q (Instr.writePolicy q revision record surplus).sdi s)

/-- READ_CONDITIONS (R190). -/
def execReadConditions (q : Port) (surplus : List Bool) (s : State) :
    Host.Outcome State Fault Refusal :=
  .next (endTransaction q (Instr.readConditions q surplus).sdi s)

/-- FETCH_ALARMS (R168, R191). -/
def execFetchAlarms (q : Port) (n : Byte) (surplus : List Bool) (s : State) :
    Host.Outcome State Fault Refusal :=
  .next (endTransaction q (Instr.fetchAlarms q n surplus).sdi s)

/-- SET_ATTENTION (R192). -/
def execSetAttention (q : Port) (mask : KindSet) (threshold : Byte) (surplus : List Bool) (s : State) :
    Host.Outcome State Fault Refusal :=
  .next (endTransaction q (Instr.setAttention q mask threshold surplus).sdi s)

/-- PORT_RESET (R193). -/
def execPortReset (q : Port) (surplus : List Bool) (s : State) : Host.Outcome State Fault Refusal :=
  .next (endTransaction q (Instr.portReset q surplus).sdi s)

/-! ## Attendance and the wait after a warm reset -/

/-- ATTENDANCE_EXPIRY (R164, R165); no effect where the port's timer does not stand at the timeout
(assumption 7). -/
def execAttendanceExpiry (q : Port) (s : State) : Host.Outcome State Fault Refusal :=
  if (s.place q).timedOut s.policy.timeout then .next { s with log := s.log.leave q }.settle
  else .next s

/-- SELECT_SEEN_RELEASED (R195): the release that a port waited for after a warm reset, which ends no
transaction. It is also a release while RESETn is asserted; on another port it has no effect
(assumption 7). -/
def execSelectSeenReleased (q : Port) (s : State) : Host.Outcome State Fault Refusal :=
  if s.resetAsserted then .next (s.releaseSelect q)
  else
    match (s.port q).transaction with
    | .waiting => .next (s.releaseSelect q)
    | .idle => .next s
    | .normal => .next s
    | .pending => .next s

end Sys2Proof.Machine
end

