-- ==== Sys2Proof/Machine/Resets.lean ====
section
/-! DEFINITION. The resets: POWER_ON_RESET (R23), WARM_RESET_ASSERT (R24) and WARM_RESET_RELEASE
(R31). -/

namespace Sys2Proof.Machine

/-- POWER_ON_RESET (R23, R31, R37, R62, R81, R103, R120, R139, R141, R151, R175, R195): every piece of
state takes its initial value. The queue and the count of free choices, which are the model's own, go
on (assumption 26). RESETn is taken as released, whatever its level was (assumption 35). -/
def execPowerOnReset (s : State) : Host.Outcome State Fault Refusal :=
  .next { State.reset with pending := s.pending, choices := s.choices }

/-- The ports at the assertion of RESETn: power-on values, with the level of select as it stands
(R195). -/
def ControlPort.abandoned (port : ControlPort) : ControlPort :=
  { ControlPort.initial with select := port.select }

/-- The clock at the assertion of RESETn: F and B are 0, and the house frame instant that was due stays
due (R37; assumption 11). -/
def Timebase.warm (clock : Timebase) : Timebase := { clock with frames := 0, blocks := 0#32 }

/-- The state while RESETn is asserted, from the state at its assertion (R24, R31, R37, R39, R62, R81,
R103, R120, R139, R141, R175, R195). The applied records take in the staged copies, revisions are kept,
and the cells of the delay memory keep what they hold. -/
def State.warmReset (s : State) : State :=
  { State.reset with
    pending := s.pending
    choices := s.choices
    resetAsserted := true
    clock := s.clock.warm
    tables := s.tables.take
    memory := s.memory
    ports := { a := s.ports.a.abandoned, b := s.ports.b.abandoned } }

/-- WARM_RESET_ASSERT (R24); no effect while RESETn is asserted already (assumption 7). -/
def execWarmResetAssert (s : State) : Host.Outcome State Fault Refusal :=
  if s.resetAsserted then .next s else .next s.warmReset

/-- A port at the release of RESETn: it waits where its select is asserted (R195). -/
def ControlPort.resume (port : ControlPort) : ControlPort :=
  if port.select then { port with transaction := .waiting } else port

/-- The state after the release of RESETn: enabled links start, and ACTIVE programs start clear (R31,
R62, R81, R103, R120, R139). -/
def State.warmStart (s : State) : State :=
  { s with
    resetAsserted := false
    receivers := Vector.ofFn fun l : Fin 8 =>
      if (s.link l).enable then Receiver.start else s.receivers[l]
    converters := Vector.ofFn fun l : Fin 8 =>
      if (s.link l).enable then s.converters[l].enable else s.converters[l]
    meters := Vector.ofFn fun p : Fin 16 =>
      if (s.program p).active then Meter.fresh (s.program p).channels.length else s.meters[p]
    gains := Vector.ofFn fun p : Fin 16 =>
      if (s.program p).active then GainStage.start (s.program p).source else s.gains[p]
    delays := Vector.ofFn fun p : Fin 16 =>
      if (s.program p).active then startDelay (s.program p) else s.delays[p]
    ports := { a := s.ports.a.resume, b := s.ports.b.resume } }

/-- WARM_RESET_RELEASE (R31); no effect where RESETn is not asserted (assumption 7). -/
def execWarmResetRelease (s : State) : Host.Outcome State Fault Refusal :=
  if s.resetAsserted then .next s.warmStart else .next s

end Sys2Proof.Machine
end

