-- ==== Sys2Proof/Machine/Dispatch.lean ====
section
/-! DEFINITION. What each command does: one direct call of its meaning per row of the table. -/

namespace Sys2Proof.Machine

/-- The effect of a command on everything but the queue. -/
def exec (i : Instr) (s : State) : Host.Outcome State Fault Refusal :=
  match i with
  -- resets
  | .powerOnReset => Sys2Proof.Machine.execPowerOnReset s
  | .warmResetAssert => Sys2Proof.Machine.execWarmResetAssert s
  | .warmResetRelease => Sys2Proof.Machine.execWarmResetRelease s
  -- links and the reference
  | .frameArrival link frame => Sys2Proof.Machine.execFrameArrival link frame s
  | .receiverAbsenceExpiry link => Sys2Proof.Machine.execReceiverAbsenceExpiry link s
  | .refPulse => Sys2Proof.Machine.execRefPulse s
  | .refAbsenceExpiry => Sys2Proof.Machine.execRefAbsenceExpiry s
  -- house time
  | .houseFrame => Sys2Proof.Machine.execHouseFrame s
  | .blockEnd => Sys2Proof.Machine.execBlockEnd s
  -- transactions
  | .selectAssert q => Sys2Proof.Machine.execSelectAssert q s
  | .null q sdi => Sys2Proof.Machine.execNull q sdi s
  | .unknown q sdi => Sys2Proof.Machine.execUnknown q sdi s
  | .length q sdi => Sys2Proof.Machine.execLength q sdi s
  | .pendingTransactionEnd q sdi => Sys2Proof.Machine.execPendingTransactionEnd q sdi s
  -- requests
  | .identify q surplus => Sys2Proof.Machine.execIdentify q surplus s
  | .readProgram q p surplus => Sys2Proof.Machine.execReadProgram q p surplus s
  | .writeProgram q p rev record surplus => Sys2Proof.Machine.execWriteProgram q p rev record surplus s
  | .setDelay q p frames surplus => Sys2Proof.Machine.execSetDelay q p frames surplus s
  | .setTarget q p tenths surplus => Sys2Proof.Machine.execSetTarget q p tenths surplus s
  | .readMeter q p surplus => Sys2Proof.Machine.execReadMeter q p surplus s
  | .resetMeter q p surplus => Sys2Proof.Machine.execResetMeter q p surplus s
  | .readLink q l surplus => Sys2Proof.Machine.execReadLink q l surplus s
  | .writeLink q l rev e n b k surplus => Sys2Proof.Machine.execWriteLink q l rev e n b k surplus s
  | .readPolicy q surplus => Sys2Proof.Machine.execReadPolicy q surplus s
  | .writePolicy q rev record surplus => Sys2Proof.Machine.execWritePolicy q rev record surplus s
  | .readConditions q surplus => Sys2Proof.Machine.execReadConditions q surplus s
  | .fetchAlarms q n surplus => Sys2Proof.Machine.execFetchAlarms q n surplus s
  | .setAttention q mask threshold surplus => Sys2Proof.Machine.execSetAttention q mask threshold surplus s
  | .portReset q surplus => Sys2Proof.Machine.execPortReset q surplus s
  -- attendance, frame sync, and the wait after a warm reset
  | .attendanceExpiry q => Sys2Proof.Machine.execAttendanceExpiry q s
  | .frameSyncMark link => Sys2Proof.Machine.execFrameSyncMark link s
  | .selectSeenReleased q => Sys2Proof.Machine.execSelectSeenReleased q s

end Sys2Proof.Machine
end

