-- ==== Sys2Proof/Machine/Ticks.lean ====
section
/-! DEFINITION. One unit of real time with nothing waiting: the timers run, and the part's own events
that have fallen due join the queue (assumption 2). -/

namespace Sys2Proof.Machine

/-- A receiver after one unit of time: a running absence timer counts up to its limit (section 2.2). -/
def Receiver.tick (r : Receiver) : Receiver :=
  { r with timer := r.timer.map fun t => min Config.absenceLimit (t + 1) }

/-- The reference monitor after one unit of time (section 2.3). -/
def RefMonitor.tick (r : RefMonitor) : RefMonitor :=
  { r with timer := min Config.absenceLimit (r.timer + 1) }

/-- A port's place in the log after one unit of time: an attending port's timer counts to at most 255
seconds (R163, R164; assumption 28). -/
def LogPort.tick (place : LogPort) : LogPort :=
  if place.attending then { place with timer := min Config.attendanceMost (place.timer + 1) }
  else place

/-- The state after one unit of time, with nothing queued. While RESETn is asserted the reference monitor
stays at its power-on values (R37). -/
def State.pass (s : State) : State :=
  { s with
    clock := { s.clock with now := s.clock.now + 1 }
    ref := if s.resetAsserted then s.ref else s.ref.tick
    receivers := Vector.ofFn fun l : Fin 8 => s.receivers[l].tick
    log :=
      { s.log with ports := { a := s.log.ports.a.tick, b := s.log.ports.b.tick } } }

/-- The expiries of receivers that are due (R28). -/
def State.dueReceivers (s : State) : List Instr :=
  (List.finRange 8).filterMap fun l =>
    if s.receivers[l].expired then some (.receiverAbsenceExpiry l) else none

/-- The expiry of the REF timer, if due (R34). -/
def State.dueRef (s : State) : List Instr :=
  if !s.resetAsserted && s.ref.expired then [.refAbsenceExpiry] else []

/-- The attendance expiries that are due (R164). -/
def State.dueAttendance (s : State) : List Instr :=
  [Port.a, Port.b].filterMap fun q =>
    if (s.place q).timedOut s.policy.timeout then some (.attendanceExpiry q) else none

/-- The house frame instant, if due, with the block end that falls at it (R32). -/
def State.dueFrame (s : State) : List Instr :=
  if s.clock.now < s.clock.nextFrame then []
  else if !s.resetAsserted && (s.clock.frames + 1) % Config.framesPerBlock == 0 then
    [.houseFrame, .blockEnd]
  else [.houseFrame]

/-- The events that are due at one instant, in a free order that keeps a block end behind its house
frame (R28, R34, R164, R197; assumptions 2 and 3). Eleven expiries and one house frame instant at most
are merged. -/
def State.due (s : State) : List Instr :=
  freeMerge (s.choices + 16)
    (freeOrder s.choices (s.dueReceivers ++ s.dueRef ++ s.dueAttendance)) s.dueFrame

/-- The state after one unit of time, with the events that have fallen due in the queue. -/
def State.tick (s : State) : State := { s.pass.spend 32 with pending := s.pass.due }

end Sys2Proof.Machine
end

