-- ==== Sys2Proof/Machine/Step.lean ====
section
/-! DEFINITION. One step of the part: the command at the front of the queue, or one unit of time where
nothing waits. -/

namespace Sys2Proof.Machine

/-- One step. The command at the front of the queue is taken on the state with the queue's rest; on an
empty queue one unit of real time passes (assumption 2). -/
def step (s : State) : Host.Outcome State Fault Refusal :=
  match s.pending with
  | c :: rest => exec c { s with pending := rest }
  | [] => .next s.tick

/-- The state with the command that a word of the table spells at the front of its queue; no row of the
table gives bits, so no word spells one. -/
def State.withFetchWord (s : State) (nbits w : Nat) : State :=
  match decodeTableWord nbits w with
  | some c => { s with pending := c :: s.pending }
  | none => s

end Sys2Proof.Machine
end

