-- ==== Sys2Proof/Safety.lean ====
section
/-! DEFINITION. The invariants of the part: what every state that a run reaches satisfies. Each is a
property of one state; that every step keeps it is stated in Certificates/Slice0/Obligations.lean. Beside
them the relations by which the statements say what one event makes of one piece of state. -/

namespace Sys2Proof.Machine

/-! ## The alarm log (R160, R163) -/

/-- The log holds at most 128 entries with consecutive numbers up to the next one, and each cursor lies
between the oldest entry held and the next number (R160, R163). -/
def AlarmLog.WellFormed (log : AlarmLog) : Prop :=
  log.entries.length ≤ Config.logCapacity ∧ log.entries.length ≤ log.next ∧
    log.entries.map LogEntry.number =
      List.range' (log.next - log.entries.length) log.entries.length ∧
    ∀ q : Port,
      log.next - log.entries.length ≤ (log.ports.get q).cursor ∧ (log.ports.get q).cursor ≤ log.next

/-- The entries the log has accounted for at a port other than as unread or as missed and not yet
reported: the cursor less the missed count. By R167 it is the number delivered plus the number reported
missed. -/
def AlarmLog.accounted (log : AlarmLog) (q : Port) : Int :=
  ((log.ports.get q).cursor : Int) - (log.ports.get q).missed

/-! ## The configuration tables (R1, R10, R11) -/

/-- No output slot and no window page is claimed by two programs, taking applied and staged records
together, and no record names an output slot twice (R10). -/
def Tables.ClaimsDisjoint (t : Tables) : Prop :=
  (∀ p q : Fin 16, p ≠ q → ∀ x ∈ t.programs[p].contents, ∀ y ∈ t.programs[q].contents,
      slotsMeet x y = false ∧ pagesMeet x y = false) ∧
    ∀ p : Fin 16, ∀ x ∈ t.programs[p].contents, x.outputs.Nodup

/-- Every program content, applied and staged, lies in the ranges that R2 gives its fields (R2, R7). -/
def Tables.ProgramsInRange (t : Tables) : Prop :=
  ∀ p : Fin 16, ∀ x ∈ t.programs[p].contents, x.inRange = true

/-- The waiting list of a record by name. -/
def Tables.waitingOn (t : Tables) : RecordName → List Waiting
  | .program p => t.programs[p].waiting
  | .link l => t.links[l].waiting
  | .policy => t.policy.waiting

/-- A record by name holds a staged copy. -/
def Tables.stagedOn (t : Tables) : RecordName → Bool
  | .program p => t.programs[p].staged.isSome
  | .link l => t.links[l].staged.isSome
  | .policy => t.policy.staged.isSome

/-- The revision of a record by name. -/
def Tables.revisionOn (t : Tables) : RecordName → BitVec 16
  | .program p => t.programs[p].revision
  | .link l => t.links[l].revision
  | .policy => t.policy.revision

/-- A port waits on a record exactly while its executing request names it, with the revision that its
acceptance produced; a record on which a port waits holds a staged copy; and a pending port holds no
response and is in no normal transaction (R1, R176, R182). -/
def State.ChangesConsistent (s : State) : Prop :=
  (∀ (name : RecordName) (q : Port) (revision : BitVec 16),
      { port := q, revision := revision } ∈ s.tables.waitingOn name ↔
        (s.port q).executing = some { record := name, revision := revision }) ∧
    (∀ name : RecordName, s.tables.waitingOn name ≠ [] → s.tables.stagedOn name = true) ∧
    ∀ q : Port, (s.port q).executing.isSome = true →
      (s.port q).held = none ∧ (s.port q).transaction ≠ .normal

/-! ## The delay memory (R104) -/

/-- The delay memory is in its canonical form. -/
def State.MemoryCanonical (s : State) : Prop := Memory.wf s.memory = true

/-! ## The outputs (R158, R170) -/

/-- An instance of the condition table is monitored under the applied records (R154): REF_LOST by the
policy's field, the two kinds of a link by bits 1 and 2 of its record's set, and the seven kinds of a program
by bits 5 to 11 of its alarm section's. -/
def Tables.MonitorsByRecord (t : Tables) (i : Fin 129) : Prop :=
  (i.val = 0 ∧ t.policy.applied.refLostMonitored = true) ∨
    (∃ (l : Fin 8) (k : Nat), k < 2 ∧ i.val = 1 + 2 * l.val + k ∧
      t.links[l].applied.kinds.getLsbD (1 + k) = true) ∨
    ∃ (p : Fin 16) (k : Nat) (x : AlarmSection), k < 7 ∧ i.val = 17 + 7 * p.val + k ∧
      t.programs[p].applied.alarm = some x ∧ x.kinds.getLsbD (5 + k) = true

/-- Some monitored RAISED condition has a severity in the applied policy (R158). -/
def Tables.AlarmsAt (t : Tables) (conditions : Vector Condition 129) (severity : Severity) : Prop :=
  ∃ i : Fin 129, conditions[i].raised = true ∧ t.MonitorsByRecord i ∧
    (t.policy.applied.kind (conditionKind i)).severity = severity

/-- ATN of a port is due (R170, R172, R173): an entry that the port has not read, whose kind is not in the
port's mask and whose severity is at or above the port's threshold; or a missed count above 0; or 96 entries
or more. -/
def AlarmLog.CallsPort (log : AlarmLog) (q : Port) : Prop :=
  (∃ e ∈ log.entries, (log.ports.get q).cursor ≤ e.number ∧
      (log.ports.get q).mask.getLsbD e.entry.kind.code = false ∧
      ((log.ports.get q).threshold = .note ∨ e.entry.severity = .major ∨
        e.entry.severity = (log.ports.get q).threshold)) ∨
    0 < (log.ports.get q).missed ∨ 96 ≤ log.entries.length

/-- The summary lines and ATN of each port stand exactly as R158 and R170 say. -/
def State.OutputsExact (s : State) : Prop :=
  (s.pins.alarms.major = true ↔ s.tables.AlarmsAt s.conditions .major) ∧
    (s.pins.alarms.minor = true ↔ s.tables.AlarmsAt s.conditions .minor) ∧
    ∀ q : Port, s.pins.atn.get q = true ↔ s.log.CallsPort q

/-! ## House time (R32, R99) -/

/-- B is the number of blocks that F counts, modulo 2^32, but for a block end that is due; and the
line-up phase is F modulo 48 (R32, R99). -/
def State.HouseCounted (s : State) : Prop :=
  (s.clock.blocks = BitVec.ofNat 32 (s.clock.frames / Config.framesPerBlock) ∨
      s.clock.frames % Config.framesPerBlock = 0 ∧
        s.clock.blocks + 1#32 = BitVec.ofNat 32 (s.clock.frames / Config.framesPerBlock)) ∧
    s.tonePhase = s.clock.frames % 48

/-! ## The gain schedules (R88) -/

/-- A schedule holds at most 32 entries, with strictly increasing stamps none of which lies ahead of F;
a block end that is due finds every stamp behind F (R88). -/
def State.SchedulesOrdered (s : State) : Prop :=
  ∀ p : Fin 16,
    s.gains[p].queue.length ≤ Config.scheduleCapacity ∧
      (s.gains[p].queue.map GainEntry.stamp).Pairwise (· < ·) ∧
      ∀ e ∈ s.gains[p].queue,
        e.stamp ≤ s.clock.frames ∧ (s.clock.blockDue = true → e.stamp < s.clock.frames)

/-- Every applied gain and every gain in a schedule lies within the limits of the program's applied loudness
section and is 0 where it has none; and every stamp in a schedule is greater than the read reference
(R85, R88). A program that is not ACTIVE has an empty schedule and gain 0 (R98). -/
def State.GainsBounded (s : State) : Prop :=
  ∀ p : Fin 16,
    ((s.program p).active = false → s.gains[p].queue = [] ∧ s.gains[p].applied = 0) ∧
      ((s.program p).active = true →
        (∀ e ∈ s.gains[p].queue, s.delays[p].readReference s.clock.frames < (e.stamp : Int)) ∧
          ((s.program p).loudness = none → s.gains[p].queue = [] ∧ s.gains[p].applied = 0) ∧
          ∀ x, (s.program p).loudness = some x →
            ∀ gain ∈ s.gains[p].applied :: s.gains[p].queue.map GainEntry.gain,
              -10 * (x.maxCut : Int) ≤ gain ∧ gain ≤ 10 * (x.maxBoost : Int))

/-! ## The delays (R136) -/

/-- D_t, D_c and every lane's effective delay lie within 0 to U, and so do both ends of a step of D_c
(R110, R127, R136). -/
def State.DelaysBounded (s : State) : Prop :=
  ∀ p : Fin 16,
    s.delays[p].target ≤ s.delays[p].usable ∧ s.delays[p].current ≤ s.delays[p].usable * 65536 ∧
      (∀ lane ∈ s.delays[p].lanes, s.delays[p].effective lane ≤ s.delays[p].usable * 65536) ∧
      ∀ x, s.delays[p].step = some x →
        x.frames ≤ 4800 ∧ x.start ≤ s.delays[p].usable * 65536 ∧ 0 ≤ (x.start : Int) + x.amount ∧
          (x.start : Int) + x.amount ≤ (s.delays[p].usable * 65536 : Nat)

/-! ## The lanes (R106 to R109, R117, R118) -/

/-- A program's lanes stand in the window of its content: none in BYPASS, and otherwise one for each channel,
of equal size, from the window's base on (R107, R109, R117). -/
def DelayEngine.LaidFor (d : DelayEngine) (r : ProgramRecord) : Prop :=
  (d.state = .bypass → d.layout = none) ∧
    ∀ layout, d.layout = some layout →
      ∃ x, r.usable = some x ∧
        layout = { base := x.base, pages := (x.limit + 1 - x.base) / r.channels.length,
                   lanes := r.channels.length } ∧
        d.capacity = layout.pages * 1024 ∧ d.lanes.length = r.channels.length

/-- The contents in force, those of closing programs among them, are in range, claim no page twice, and have
their lanes laid out in their windows (R10, R107, R117, R118). A closing count is that of a program that is not
ACTIVE, has a content, and is over within the 480 house frames after the block end that started it, so before
the next one (R98). -/
structure State.LanesLaidOut (s : State) : Prop where
  ranged : ∀ (p : Fin 16) (r : ProgramRecord), s.content p = some r → r.inRange = true
  laid : ∀ (p : Fin 16) (r : ProgramRecord), s.content p = some r → s.delays[p].LaidFor r
  apart : ∀ (p q : Fin 16) (r u : ProgramRecord), p ≠ q → s.content p = some r → s.content q = some u →
    pagesMeet r u = false
  closing : ∀ p : Fin 16, s.gains[p].closing = 0 ∨
    s.gains[p].closing + s.clock.frames % 4800 ≤ 480 ∧ s.gains[p].closingContent.isSome = true ∧
      (s.program p).active = false
  closed : s.clock.blockDue = true → ∀ p : Fin 16, s.gains[p].closing = 0

/-! ## The rate converters' frames (R41, R45, R50, R55, R56) -/

/-- Frames carry the indices from `first` on. -/
def framesFrom (first : Nat) (frames : List Frame) : Prop :=
  frames.map Frame.index = List.range' first frames.length

/-- A converter's FIFO holds at most 256 frames and its history at most 64, and R_used never exceeds the
accepted range. The frames of the history and then those of the FIFO carry consecutive indices, the
newest one below the next index. While the converter reads, the FIFO begins seven frames behind the read
position and holds at least 16 frames, unless a slip waits (log entry 36), and with the history at least 77, so
that a REPEAT restores enough. In ACQUIRE the history is empty and the FIFO holds what has arrived, up to 256 (R41, R43 to R45,
R50, R55, R56). -/
def Converter.FramesOrdered (c : Converter) : Prop :=
  c.fifo.length ≤ Config.fifoFrames ∧ c.history.length ≤ 64 ∧ c.used ≤ Config.ratioHigh ∧
    c.history.length + c.fifo.length ≤ c.nextIndex ∧
    framesFrom (c.nextIndex - (c.history.length + c.fifo.length)) (c.history ++ c.fifo) ∧
    (c.running = true →
      (c.slipWaits = true ∨ 16 ≤ c.fifo.length) ∧ 77 ≤ c.history.length + c.fifo.length ∧
        wholeOf c.position + c.fifo.length = c.nextIndex + 7) ∧
    (c.state = .acquire →
      c.history = [] ∧ ∀ n ∈ c.arrivals :: c.counts, min Config.fifoFrames n ≤ c.fifo.length)

/-- Every converter's frames are in order, and a slip waits only for a block end that is due. -/
def State.ConvertersOrdered (s : State) : Prop :=
  ∀ l : Fin 8, s.converters[l].FramesOrdered ∧
    (s.converters[l].slipWaits = true → s.clock.blockDue = true)

/-! ## What a transaction leaves (R176 to R179, R164, R165, R170) -/

/-- Of the state, only the ports, the log and the output pins differ. -/
def OnlyPortsDiffer (s t : State) : Prop :=
  t = { s with ports := t.ports, log := t.log, pins := t.pins }

/-- Port `q` is idle after the release that ended its transaction, its clocked bytes have left as R178
gives, and the other port is as it was. That the bits are carried by the row that ends the transaction, so
that input and position stand at [] and 0 and the bytes sent are kept in sdo, is the model's choice (log
entry 6). -/
def PortReleased (q : Port) (bytes : Nat) (s t : State) : Prop :=
  (t.port q).transaction = .idle ∧ (t.port q).select = false ∧ (t.port q).input = [] ∧
    (t.port q).position = 0 ∧ (t.port q).sdo = (s.port q).sent bytes ∧
    t.port (Port.other q) = s.port (Port.other q)

/-- The log after a release at port `q` whose request leaves the log alone: the port attends with its
timer at 0, and retirement has been tested (R164, R165). -/
def LogAttended (q : Port) (s t : State) : Prop := t.log = (s.log.attend q).retire

/-- The output pins after a command that changes their inputs: exact, and the value of the latest
sampling kept (R158, R170). -/
def PinsFollow (s t : State) : Prop := t.OutputsExact ∧ t.pins.sampled = s.pins.sampled

/-- A transaction of `bytes` whole bytes has ended at port `q`, and what it carried has left the log
alone. -/
def TransactionEnds (q : Port) (bytes : Nat) (s t : State) : Prop :=
  PortReleased q bytes s t ∧ LogAttended q s t ∧ PinsFollow s t

/-- Port `q` is in a normal transaction, and RESETn is released (R178). -/
def State.InNormal (s : State) (q : Port) : Prop :=
  s.resetAsserted = false ∧ (s.port q).transaction = .normal

/-- The whole bytes that a command clocks. -/
def clockedBytes (i : Instr) : Nat := (bytesOfBits i.sdi).length

/-! ## The effects that the statements of house frames and block ends give

Each relation says, in the rules' own terms, what one event makes of one piece of state. -/

/-! ### Rate converters (R42, R44, R46, R56, R57) -/

/-- The move of a fade level at a house frame (R46). -/
def Converter.FadeMoves (c d : Converter) : Prop :=
  (c.direction = .steady → d.fade = c.fade ∧ d.direction = .steady) ∧
    (c.direction = .rising →
      d.fade = min 480 (c.fade + 1) ∧ d.direction = if 480 ≤ c.fade + 1 then .steady else .rising) ∧
    (c.direction = .falling →
      d.fade = c.fade - 1 ∧ d.direction = if c.fade ≤ 1 then .steady else .falling)

/-- What a slip makes of the tracker: LOCKED enters FREEWHEEL on R clamped to the accepted range with the
counter at 0, and another state is kept (R53, R57). -/
def Converter.SlipTracks (c d : Converter) : Prop :=
  (c.state = .locked →
      d.state = .freewheel ∧ d.used = max 167772160 (min 550292684 c.ratio) ∧ d.counter = 0) ∧
    (c.state ≠ .locked → d.state = c.state ∧ d.used = c.used ∧ d.counter = c.counter)

/-- The frames of the FIFO that a read position leaves behind: those below n − 7 at its old end (R44). -/
def Converter.passedAt (c : Converter) (position : Nat) : List Frame :=
  c.fifo.takeWhile fun f => decide (f.index + 7 < position / 2 ^ 28)

/-- The frames of the FIFO that a read position keeps (R44). -/
def Converter.keptAt (c : Converter) (position : Nat) : List Frame :=
  c.fifo.dropWhile fun f => decide (f.index + 7 < position / 2 ^ 28)

/-- Of some frames, the number that lie ahead of a read position (section 3.2). -/
def framesAhead (frames : List Frame) (position : Nat) : Nat :=
  frames.countP fun f => decide (position / 2 ^ 28 < f.index)

/-- The reading of a LOCKED, FREEWHEEL or RELOCK converter at a house frame (R44, R56, R57): the read
position advances by R_used and the frames it passes join the history; where fewer than 8 frames lie
ahead, the history rejoins the FIFO and the position moves back by it, with a notice, unless that slip waits
for the block end (log entry 36); and where the history is empty the position keeps its value. -/
def Converter.ReadsFrame (c : Converter) (l : Fin 8) (waits : Bool) (d : Converter)
    (notice : Option SlipNotice) : Prop :=
  let position := c.position + c.used
  let kept := c.keptAt position
  let history := lastN 64 (c.history ++ c.passedAt position)
  (8 ≤ framesAhead kept position →
      notice = none ∧
        d = { c with
          position := position, fifo := kept, history := history
          fade := d.fade, direction := d.direction }) ∧
    (framesAhead kept position < 8 → history = [] →
      notice = none ∧
        d = { c with fifo := kept, history := [], fade := d.fade, direction := d.direction }) ∧
    (framesAhead kept position < 8 → history ≠ [] → waits = true →
      notice = none ∧
        d = { c with
          position := position, fifo := kept, history := history, slipWaits := true
          fade := d.fade, direction := d.direction }) ∧
    (framesAhead kept position < 8 → history ≠ [] → waits = false →
      notice = some
          { link := l, direction := .repeat
            equivalent := (2 * history.length * 2 ^ 28 + d.used) / (2 * d.used) } ∧
        c.SlipTracks d ∧
        d = { c with
          state := d.state, used := d.used, counter := d.counter
          position := position - history.length * 2 ^ 28
          fifo := history ++ kept, history := []
          repeats := min 4294967295 (c.repeats + 1)
          fade := d.fade, direction := d.direction })

/-- A slip that waited, after the block end (R44 step 4, R56, R57, R196): where the converter reads and fewer
than 8 frames lie ahead, the history rejoins the FIFO and the read position moves back by it, with a notice;
a converter that the block end has made IDLE makes none. -/
def Converter.MakesWaiting (c : Converter) (l : Fin 8) (d : Converter) (notice : Option SlipNotice) :
    Prop :=
  (c.slipWaits = false → d = c ∧ notice = none) ∧
    (c.slipWaits = true →
      (c.running = false ∨ 8 ≤ framesAhead c.fifo c.position ∨ c.history = [] →
        d = { c with slipWaits := false } ∧ notice = none) ∧
      (c.running = true → framesAhead c.fifo c.position < 8 → c.history ≠ [] →
        notice = some
            { link := l, direction := .repeat
              equivalent := (2 * c.history.length * 2 ^ 28 + d.used) / (2 * d.used) } ∧
          c.SlipTracks d ∧
          d = { c with
            state := d.state, used := d.used, counter := d.counter, slipWaits := false
            position := c.position - c.history.length * 2 ^ 28
            fifo := c.history ++ c.fifo, history := []
            repeats := min 4294967295 (c.repeats + 1) }))

/-- A converter at a house frame (R42, R44, R46): nothing in IDLE and ACQUIRE; the fade level's move and the
reading in LOCKED, FREEWHEEL and RELOCK; and in LOST the fade level's move, an advance only where 8 frames
lie ahead of it, no slip, and at level 0 an empty FIFO and history. -/
def Converter.RunsFrame (c : Converter) (l : Fin 8) (waits : Bool) (d : Converter)
    (notice : Option SlipNotice) : Prop :=
  (c.state = .idle ∨ c.state = .acquire → d = c ∧ notice = none) ∧
    (c.running = true → c.FadeMoves d ∧ c.ReadsFrame l waits d notice) ∧
    (c.state = .lost →
      notice = none ∧ c.FadeMoves d ∧
        (d.fade = 0 → d = { c with fifo := [], history := [], fade := 0, direction := d.direction }) ∧
        (0 < d.fade →
          let position := c.position + c.used
          (8 ≤ framesAhead c.fifo position →
            d = { c with
              position := position, fifo := c.keptAt position
              history := lastN 64 (c.history ++ c.passedAt position)
              fade := d.fade, direction := d.direction }) ∧
          (framesAhead c.fifo position < 8 →
            d = { c with fade := d.fade, direction := d.direction })))

/-- The samples that a converter delivers at a house frame whose fade level is `level` (R42, R46): zero in
IDLE, in ACQUIRE and in LOST at level 0; otherwise the interpolated samples scaled by the level, which at
480 are the interpolated samples themselves, and at a zero fraction the stored ones. -/
def Converter.Delivers (c : Converter) (level : Nat) (samples : Vector Sample 8) : Prop :=
  (c.state = .idle ∨ c.state = .acquire ∨ c.state = .lost ∧ level = 0 →
      ∀ y : Fin 8, samples[y] = 0#24) ∧
    (c.running = true ∨ c.state = .lost ∧ 0 < level →
      ∀ y : Fin 8,
        samples[y] = saturate (roundDiv ((c.interpolated y).toInt * level) 480) ∧
          (level = 480 → samples[y] = c.interpolated y) ∧
          (c.position % 2 ^ 28 = 0 → (c.fifo.map Frame.index).Nodup →
            ∀ f ∈ c.fifo, f.index = c.position / 2 ^ 28 → c.interpolated y = f.samples[y]))

/-! ### Rate converters at a block end (R47 to R54) -/

/-- A measured ratio in range (R48). -/
def RatioInRange (measured : Nat) : Prop := 167772160 ≤ measured ∧ measured ≤ 550292684

/-- The counts and the measured ratio after a block end in ACQUIRE, LOCKED, FREEWHEEL and RELOCK (R47, R48):
counting starts or the block's count joins the newest 8; and from counts the measured ratio is formed and
joins its newest 8. -/
def Converter.CountsBlock (c d : Converter) : Prop :=
  d.counting = true ∧ d.arrivals = 0 ∧
    (c.counting = false → d.counts = c.counts) ∧
    (c.counting = true → d.counts = lastN 8 (c.counts ++ [c.arrivals])) ∧
    (d.counts = [] → d.measured = c.measured ∧ d.measures = c.measures) ∧
    (d.counts ≠ [] →
      d.measured = d.counts.sum * 2 ^ 28 / (4800 * d.counts.length) ∧
        d.measures = lastN 8 (c.measures ++ [d.measured]))

/-- Two converters hold the same frames at the same read position under the same fade. -/
def Converter.SameFrames (c d : Converter) : Prop :=
  d.fifo = c.fifo ∧ d.history = c.history ∧ d.position = c.position ∧ d.fade = c.fade ∧
    d.direction = c.direction

/-- R_used is R with the centring term of the fill, clamped to range (R52). -/
def Converter.Centred (d : Converter) : Prop :=
  (d.used : Int) =
    max 167772160 (min 550292684 ((d.ratio : Int) + ((d.fifo.length : Int) - 128) * 4096))

/-- R after a smoothing step toward the new measured ratio with `2^s = divisor`, and R_used from it (R51,
R52, R54). -/
def Converter.SmoothsBy (c : Converter) (divisor : Int) (d : Converter) : Prop :=
  (d.ratio : Int) = (c.ratio : Int) + ((d.measured : Int) - c.ratio) / divisor ∧ d.Centred

/-- `2^s` of a tracking bandwidth (R51). -/
def Bandwidth.divisor : Bandwidth → Int
  | .wide => 4
  | .medium => 16
  | .narrow => 64

/-- Entry to FREEWHEEL at a block end: R is kept and R_used is R clamped to range (R52, R53). -/
def Converter.FreewheelsFrom (c d : Converter) : Prop :=
  d.state = .freewheel ∧ d.ratio = c.ratio ∧ d.counter = 0 ∧
    (d.used : Int) = max 167772160 (min 550292684 (c.ratio : Int))

/-- The tracking of ACQUIRE (R49, R50): R is seeded with the measured ratio; eight values in range within
65,536 of each other lock the converter on its newest 128 frames, with a history of up to 64, at the eighth
oldest frame, under a rising fade from 0. -/
def Converter.TracksAcquire (c d : Converter) : Prop :=
  let locks : Prop :=
    d.measures.length = 8 ∧ (∀ x ∈ d.measures, RatioInRange x) ∧
      ∀ x ∈ d.measures, ∀ y ∈ d.measures, x ≤ y + 65536
  (d.counts = [] →
      d.state = .acquire ∧ d.ratio = c.ratio ∧ d.used = c.used ∧ d.counter = c.counter ∧
        c.SameFrames d) ∧
    (d.counts ≠ [] → d.ratio = d.measured ∧
      (¬ locks → d.state = .acquire ∧ d.used = c.used ∧ d.counter = c.counter ∧ c.SameFrames d) ∧
      (locks →
        d.state = .locked ∧ d.counter = 0 ∧ d.fade = 0 ∧ d.direction = .rising ∧ d.Centred ∧
          d.fifo = lastN 128 c.fifo ∧
          d.history = lastN 64 (c.fifo.take (c.fifo.length - 128)) ∧
          ∀ f, d.fifo[7]? = some f → d.position = f.index * 2 ^ 28))

/-- The tracking of LOCKED (R51 to R53). -/
def Converter.TracksLocked (c : Converter) (bandwidth : Bandwidth) (d : Converter) : Prop :=
  let far : Prop := 524288 < ((d.measured : Int) - c.ratio).natAbs
  (¬ RatioInRange d.measured ∨ far ∧ 4 ≤ c.counter + 1 → c.FreewheelsFrom d) ∧
    (RatioInRange d.measured → far → c.counter + 1 < 4 →
      d.state = .locked ∧ d.counter = c.counter + 1 ∧ c.SmoothsBy bandwidth.divisor d) ∧
    (RatioInRange d.measured → ¬ far →
      d.state = .locked ∧ d.counter = 0 ∧ c.SmoothsBy bandwidth.divisor d)

/-- The tracking of FREEWHEEL (R53, R54): the run count of measured ratios in range, each within 65,536 of
the one before, and RELOCK at 8. -/
def Converter.TracksFreewheel (c d : Converter) : Prop :=
  let near : Prop := ((d.measured : Int) - c.measured).natAbs ≤ 65536
  ∀ run : Nat,
    (¬ RatioInRange d.measured → run = 0) →
    (RatioInRange d.measured → c.counter = 0 → run = 1) →
    (RatioInRange d.measured → 0 < c.counter → near → run = c.counter + 1) →
    (RatioInRange d.measured → 0 < c.counter → ¬ near → run = 1) →
      (run < 8 → d.state = .freewheel ∧ d.counter = run ∧ d.ratio = c.ratio ∧ d.used = c.used) ∧
        (8 ≤ run → d.state = .relock ∧ d.counter = 0 ∧ d.ratio = d.measured ∧ d.Centred)

/-- The tracking of RELOCK (R54): the agreement count of measured ratios within 65,536 of R, and LOCKED
at 8. -/
def Converter.TracksRelock (c : Converter) (bandwidth : Bandwidth) (d : Converter) : Prop :=
  let near : Prop := ((d.measured : Int) - c.ratio).natAbs ≤ 65536
  (¬ RatioInRange d.measured → c.FreewheelsFrom d) ∧
    (RatioInRange d.measured → near → c.counter + 1 < 8 →
      d.state = .relock ∧ d.counter = c.counter + 1 ∧ c.SmoothsBy 4 d) ∧
    (RatioInRange d.measured → near → 8 ≤ c.counter + 1 →
      d.state = .locked ∧ d.counter = 0 ∧ c.SmoothsBy bandwidth.divisor d) ∧
    (RatioInRange d.measured → ¬ near → d.state = .relock ∧ d.counter = 0 ∧ c.SmoothsBy 4 d)

/-- What a block end makes of a converter under the bandwidth in force during the ending block (R47 to
R54). -/
def Converter.TracksBlock (c : Converter) (bandwidth : Bandwidth) (d : Converter) : Prop :=
  (c.state = .idle ∨ c.state = .lost → d = c) ∧
    (c.state ≠ .idle → c.state ≠ .lost →
      c.CountsBlock d ∧ d.nextIndex = c.nextIndex ∧ d.deletes = c.deletes ∧ d.repeats = c.repeats ∧
        d.slipWaits = c.slipWaits) ∧
    (c.state = .acquire → c.TracksAcquire d) ∧
    (c.running = true → c.SameFrames d) ∧
    (c.state = .locked → c.TracksLocked bandwidth d) ∧
    (c.state = .freewheel → c.TracksFreewheel d) ∧
    (c.state = .relock → c.TracksRelock bandwidth d)

/-! ### The log (R57, R153, R160 to R167) -/

/-- The LINK_SLIP entry of a slip notice under the policy in force (R57, R153). -/
def State.slipEntry (s : State) (n : SlipNotice) : Entry :=
  { kind := .linkSlip, subject := .link n.link, edge := .event
    severity := (s.policy.kind .linkSlip).severity, stamp := s.clock.blocks
    detail := .slip n.direction n.equivalent }

/-- The log after the LINK_SLIP entries of a run of slip notices, which the policy's log edges LOG let
through and NONE drops (R153). -/
def State.slipsLogged (s : State) (notices : List SlipNotice) : AlarmLog :=
  if (s.policy.kind .linkSlip).edges = .log then s.log.handAll (notices.map s.slipEntry) else s.log

/-- The slips that wait at some links are made, in a free order (R57, R137, R196; log entries 3 and 36): each
notice corrects the lanes of the programs as their contents stand, and hands its entry to the log under the
policy and the B that stand. -/
def State.MakesSlips (s : State) (links : List (Fin 8)) (t : State) : Prop :=
  t = { s with converters := t.converters, delays := t.delays, log := t.log, pins := t.pins } ∧
    PinsFollow s t ∧ (∀ l : Fin 8, l ∉ links → t.converters[l] = s.converters[l]) ∧
    ∃ (made : Fin 8 → Option SlipNotice) (notices : List SlipNotice),
      (∀ l ∈ links, s.converters[l].MakesWaiting l t.converters[l] (made l)) ∧
      notices.Perm (links.filterMap made) ∧
      (∀ p : Fin 16, t.delays[p] = notices.foldl (fun d n => d.correct (s.program p) n) s.delays[p]) ∧
      t.log = s.slipsLogged notices

/-- A port's place after an entry has left the log: one that had not read it counts it as missed, with its
cursor on the next number (R167). -/
def LogPort.past (x : LogPort) (e : LogEntry) : LogPort :=
  if x.cursor ≤ e.number then { x with cursor := e.number + 1, missed := x.missed + 1 } else x

/-- A log that an entry joins: a full log drops its oldest entry first, which every port that has not read it
counts as missed, and the entry takes the next number (R160, R162, R166, R167). -/
def AlarmLog.Joins (log : AlarmLog) (e : Entry) (after : AlarmLog) : Prop :=
  after.entries =
      (if 128 ≤ log.entries.length then log.entries.tail else log.entries) ++
        [{ number := log.next, entry := e }] ∧
    after.next = log.next + 1 ∧
    (log.entries.length < 128 → after.ports = log.ports) ∧
    ∀ (oldest : LogEntry) (rest : List LogEntry), log.entries = oldest :: rest →
      128 ≤ log.entries.length → ∀ q : Port, after.ports.get q = (log.ports.get q).past oldest

/-- A log after the test for retirement (R165, R167). While no port attends, nothing retires. Otherwise the
entries that leave are the longest run at the old end that every attending port has read, and each port that
has not read one of them counts it as missed. -/
def AlarmLog.Retires (log after : AlarmLog) : Prop :=
  ((∀ q : Port, (log.ports.get q).attending = false) → after = log) ∧
    ((∃ q : Port, (log.ports.get q).attending = true) →
      ∃ k ≤ log.entries.length,
        (∀ e ∈ log.entries.take k, ∀ q : Port, (log.ports.get q).attending = true →
          e.number < (log.ports.get q).cursor) ∧
        (∀ e, log.entries[k]? = some e → ∃ q : Port, (log.ports.get q).attending = true ∧
          (log.ports.get q).cursor ≤ e.number) ∧
        after.entries = log.entries.drop k ∧ after.next = log.next ∧
        ∀ q : Port, after.ports.get q = (log.entries.take k).foldl LogPort.past (log.ports.get q))

/-! ### The input crosspoint and the meters (R3, R64 to R67) -/

/-- The sample that the input crosspoint gives a channel (R3). -/
def State.GivesChannel (s : State) (delivered : Vector (Vector Sample 8) 8) (c : Channel) (w : Sample) :
    Prop :=
  (c.input = none → w = 0#24) ∧
    ∀ x : Slot, c.input = some x →
      ((s.link x.link).enable = true ∧ x.slot.val < (s.link x.link).slots →
        w = delivered[x.link][x.slot]) ∧
      ((s.link x.link).enable = false ∨ (s.link x.link).slots ≤ x.slot.val → w = 0#24)

/-- A channel's meter takes a sample: the shelf, the high-pass and the energy of the weighted sample (R65 to
R67). -/
def ChannelMeter.Takes (m : ChannelMeter) (x : Sample) (n : ChannelMeter) : Prop :=
  ∃ y w : Sample,
    y = BitVec.ofInt 24 (max (-8388607) (min 8388607 (roundDiv
      (150 * x.toInt - 265 * m.shelf.x1.toInt + 117 * m.shelf.x2.toInt + 168 * m.shelf.y1.toInt
        - 70 * m.shelf.y2.toInt) 100))) ∧
    w = BitVec.ofInt 24 (max (-8388607) (min 8388607 (roundDiv
      (10000 * y.toInt - 20000 * m.highpass.x1.toInt + 10000 * m.highpass.x2.toInt
        + 19925 * m.highpass.y1.toInt - 9926 * m.highpass.y2.toInt) 10000))) ∧
    n =
      { shelf := { x1 := x, x2 := m.shelf.x1, y1 := y, y2 := m.shelf.y1 }
        highpass := { x1 := y, x2 := m.highpass.x1, y1 := w, y2 := m.highpass.y1 }
        energy := m.energy + w.toInt.natAbs ^ 2 }

/-- `a × 10^e` is at most `b`, in whole numbers. -/
def tenPowerBelow (e : Int) (a b : Nat) : Prop := a * 10 ^ e.toNat ≤ b * 10 ^ (-e).toNat

/-- The power factors are `G_j = round(10^(j/20) × 2^16)` (R68): `2 G − 1` and `2 G + 1` enclose
`10^(j/20) × 2^17`, compared by their twentieth powers. -/
def PowerFactorsRounded : Prop :=
  ∀ j : Int, -12 ≤ j → j ≤ 12 →
    tenPowerBelow (-j) ((2 * powerFactor j - 1) ^ 20) ((2 ^ 17) ^ 20) ∧
      ¬ tenPowerBelow (-j) ((2 * powerFactor j + 1) ^ 20) ((2 ^ 17) ^ 20)

/-- The factors of gains are `K(g) = round(10^(g/2000) × 2^20)` (R91): `2 K − 1` and `2 K + 1` enclose
`10^(g/2000) × 2^21`, compared by their two thousandth powers. -/
def GainFactorsRounded : Prop :=
  ∀ g : Int, -2000 ≤ g → g ≤ 2000 →
    tenPowerBelow (-g) ((2 * gainFactor g - 1) ^ 2000) ((2 ^ 21) ^ 2000) ∧
      ¬ tenPowerBelow (-g) ((2 * gainFactor g + 1) ^ 2000) ((2 ^ 21) ^ 2000)

/-- The level L of a power P is `floor(100 × log10(P ÷ 2^40) + 0.5)`, and −1000 where that lies below
−1000 (R71): `10^(2L − 1)` and `10^(2L + 1)` enclose the two hundredth power of `P ÷ 2^40`. -/
def LevelsFloored : Prop :=
  ∀ power : Nat, power < 2 ^ 45 →
    -1000 ≤ levelOf power ∧
      (-1000 < levelOf power → tenPowerBelow (2 * levelOf power - 1) ((2 ^ 40) ^ 200) (power ^ 200)) ∧
      ¬ tenPowerBelow (2 * levelOf power + 1) ((2 ^ 40) ^ 200) (power ^ 200)

/-- The histogram after a momentary power of a level has been recorded in it: nothing below −700, and a bin
at 65,535 halves every bin first (R72, R73). -/
def Recorded (h : Vector Bin 170) (level : Int) (power : Nat) (after : Vector Bin 170) : Prop :=
  (level < -700 → after = h) ∧
    (-700 ≤ level → ∀ i : Fin 170, i.val = min 169 ((level + 700) / 5).toNat →
      (h[i].count ≠ 65535 →
        after = h.set i { count := h[i].count + 1, energy := h[i].energy + power }) ∧
      (h[i].count = 65535 →
        after[i] = { count := 32768, energy := h[i].energy / 2 + power } ∧
          ∀ k : Fin 170, k ≠ i →
            after[k].count = h[k].count / 2 ∧
              after[k].energy = if h[k].count / 2 = 0 then 0 else h[k].energy / 2))

/-- The integrated level of a histogram: not measured where nothing is recorded, and else the level of the
mean power of the bins from the relative gate on (R74, R75). -/
def Integrated (h : Vector Bin 170) (level : Level) : Prop :=
  let counts (first : Nat) : Nat := ((h.toList.drop first).map Bin.count).sum
  let energies (first : Nat) : Nat := ((h.toList.drop first).map Bin.energy).sum
  (counts 0 = 0 → level = { tenths := -1000, measured := false }) ∧
    (0 < counts 0 → ∀ gate : Int,
      gate = max (-700) ((levelOf (energies 0 / counts 0) - 100) / 5 * 5) →
        let first := ((gate + 700) / 5).toNat
        level = { tenths := levelOf (energies first / counts first), measured := true })

/-- What the block-end work of a running meter leaves (R67 to R76): the block power joins the ring of 30,
the momentary and short-term levels are those of the newest 4 and of all powers it holds, a pending clear
empties the histogram before the momentary power is recorded, the integrated level follows, and every
accumulator starts from zero with its filters kept. -/
def Meter.ClosesBlock (m : Meter) (channels : List Channel) (n : Meter) : Prop :=
  let term (c : Channel) (x : ChannelMeter) : Nat :=
    match c.weight with
    | .excluded => 0
    | .steps j => powerFactor j * (x.energy / 307200) / 2 ^ 16
  let ring := lastN 30 (m.ring ++ [(List.zipWith term channels m.channels).sum])
  let momentary := (lastN 4 ring).sum / (lastN 4 ring).length
  n.ring = ring ∧
    n.momentary = { tenths := levelOf momentary, measured := true } ∧
    n.shortTerm = { tenths := levelOf (ring.sum / ring.length), measured := true } ∧
    Recorded (if m.clearPending then Vector.replicate 170 { count := 0, energy := 0 } else m.histogram)
      (levelOf momentary) momentary n.histogram ∧
    Integrated n.histogram n.integrated ∧ n.clearPending = false ∧
    n.channels = m.channels.map fun x => { x with energy := 0 }

/-! ### The gain stage (R16 to R19, R83 to R97) -/

/-- What the gain law at a block end makes of a gain stage: `read` is Q and `frames` is F (R83 to R88), and
the overload test of R95. -/
def GainStage.FollowsLaw (g : GainStage) (loudness : Option Loudness) (m : Meter) (read : Int)
    (frames : Nat) (h : GainStage) : Prop :=
  let tested (limit : Bool) : GainStage :=
    { g with overloadTest := decide (1 ≤ g.overloads), overloads := 0, limitTest := limit }
  (loudness = none → h = tested false) ∧
    ∀ x : Loudness, loudness = some x →
      (x.mode = .measureOnly → h = tested false) ∧
      ∀ level : Level,
        (x.mode = .integrated ∧ level = m.integrated ∨ x.mode = .shortTerm ∧ level = m.shortTerm) →
          (level.measured = false ∨ level.tenths < x.gate → h = tested false) ∧
          (level.measured = true → x.gate ≤ level.tenths → ∀ desired last gain : Int,
            desired = max (-10 * (x.maxCut : Int))
              (min (10 * (x.maxBoost : Int)) ((x.target - level.tenths) * 10)) →
            last = (match g.queue.getLast? with | some e => e.gain | none => g.applied) →
            gain = towards last desired x.slew →
              let limited := tested (decide (desired ≠ (x.target - level.tenths) * 10))
              (gain = last → h = limited) ∧
              (gain ≠ last → (frames : Int) ≤ read →
                h = { limited with
                  applied := gain
                  ramp := some { start := g.factor, stop := gainFactor gain, step := 0 } }) ∧
              (gain ≠ last → read < (frames : Int) → g.queue.length < 32 →
                h = { limited with queue := g.queue ++ [{ stamp := frames, gain := gain }] }) ∧
              (gain ≠ last → read < (frames : Int) → 32 ≤ g.queue.length →
                h = { limited with
                  queue := g.queue.dropLast ++ [{ stamp := frames, gain := gain }] }))

/-- What an apply makes of the gain stage of a program that stays ACTIVE: the source (R19, R97) and the
loudness section (R18). -/
def GainStage.TakesContent (g : GainStage) (old new : ProgramRecord) (h : GainStage) : Prop :=
  h = { g with
    selected := h.selected, pendingSource := h.pendingSource
    applied := h.applied, queue := h.queue, ramp := h.ramp } ∧
  (old.source = new.source → h.selected = g.selected ∧ h.pendingSource = g.pendingSource) ∧
  (old.source ≠ new.source → (old.source = .mute ∨ new.source = .mute) →
    h.selected = new.source ∧ h.pendingSource = none) ∧
  (old.source ≠ new.source → old.source ≠ .mute → new.source ≠ .mute →
    h.selected = g.selected ∧ h.pendingSource = some new.source) ∧
  (old.loudness = none → h.applied = g.applied ∧ h.queue = g.queue ∧ h.ramp = g.ramp) ∧
  ∀ x : Loudness, old.loudness = some x →
    (new.loudness = none →
      h.queue = [] ∧ h.applied = 0 ∧
        h.ramp = some { start := g.factor, stop := gainFactor 0, step := 0 }) ∧
    ∀ y : Loudness, new.loudness = some y →
      (x.maxBoost = y.maxBoost → x.maxCut = y.maxCut →
        h.applied = g.applied ∧ h.queue = g.queue ∧ h.ramp = g.ramp) ∧
      (x.maxBoost ≠ y.maxBoost ∨ x.maxCut ≠ y.maxCut →
        h.applied = y.clamp g.applied ∧
          h.queue = g.queue.map (fun e => { e with gain := y.clamp e.gain }) ∧
          (y.clamp g.applied = g.applied → h.ramp = g.ramp) ∧
          (y.clamp g.applied ≠ g.applied →
            h.ramp = some { start := g.factor, stop := gainFactor (y.clamp g.applied), step := 0 }))

/-- The schedule at a jump of the read reference to `read` (R90): the entries it reaches are removed, the
newest gives the applied gain and at once the factor, and a running ramp ends at its end value. -/
def GainStage.Jumps (g : GainStage) (read : Int) (h : GainStage) : Prop :=
  h = { g with applied := h.applied, factor := h.factor, ramp := none, queue := h.queue } ∧
    h.queue = g.queue.filter (fun e => decide (read < (e.stamp : Int))) ∧
    (∀ e, (g.queue.filter fun e => decide ((e.stamp : Int) ≤ read)).getLast? = some e →
      h.applied = e.gain ∧ h.factor = gainFactor e.gain) ∧
    ((∀ e ∈ g.queue, read < (e.stamp : Int)) →
      h.applied = g.applied ∧
        h.factor = match g.ramp with | some r => r.stop | none => g.factor)

/-- The first three steps of a gain stage's work at a house frame (R89, R92, R93, R96): the entries that Q
has reached are removed and the newest starts a ramp; the fade level moves; and the ramp gives the
factor. -/
def GainStage.Prepares (g : GainStage) (delay : DelayState) (read : Int) (h : GainStage) : Prop :=
  h = { g with
    applied := h.applied, factor := h.factor, ramp := h.ramp, queue := h.queue, fade := h.fade } ∧
  h.queue = g.queue.filter (fun e => decide (read < (e.stamp : Int))) ∧
  (∃ ramp : Option Ramp,
    ((∀ e ∈ g.queue, read < (e.stamp : Int)) → h.applied = g.applied ∧ ramp = g.ramp) ∧
    (∀ e, (g.queue.filter fun e => decide ((e.stamp : Int) ≤ read)).getLast? = some e →
      h.applied = e.gain ∧
        ramp = some { start := g.factor, stop := gainFactor e.gain, step := 0 }) ∧
    (ramp = none → h.factor = g.factor ∧ h.ramp = none) ∧
    ∀ r, ramp = some r →
      h.factor = r.factor (r.step + 1) ∧
        h.ramp = if 4800 ≤ r.step + 1 then none else some { r with step := r.step + 1 }) ∧
  (delay = .filling ∨ g.selected = .mute → h.fade = 0) ∧
  (delay ≠ .filling → g.selected ≠ .mute →
    (delay = .fadeOut ∨ g.pendingSource.isSome = true ∨ 0 < g.closing → h.fade = g.fade - 1) ∧
    (delay ≠ .fadeOut → g.pendingSource = none → g.closing = 0 → h.fade = min 480 (g.fade + 1)))

/-- The end of a program's gain-stage work at a house frame, but for a closing count, on its channels'
read-side samples: in every source and at every fade level the overload count grows by one for each channel
whose gain product lies outside the sample range before saturation; and a pending source is selected at level
0 (R93 to R95, R97). -/
def GainStage.Finishes (g : GainStage) (samples : List Sample) (h : GainStage) : Prop :=
  h = { g with
    overloads := h.overloads, selected := h.selected, pendingSource := h.pendingSource } ∧
  h.overloads = g.overloads +
    (samples.countP fun v =>
      decide (roundDiv (v.toInt * g.factor) (2 ^ 20) < -8388608 ∨
        8388607 < roundDiv (v.toInt * g.factor) (2 ^ 20))) ∧
  (∀ source, g.pendingSource = some source → g.fade = 0 →
    h.selected = source ∧ h.pendingSource = none) ∧
  (g.pendingSource = none ∨ 0 < g.fade →
    h.selected = g.selected ∧ h.pendingSource = g.pendingSource)

/-- The output of channel `k` of a program, from its read-side sample `v`, at house frame `frames` and tone
phase `phase`, at the factor and fade level of a gain stage that has taken its first three steps (R94,
R96, R99, R100). -/
def GainStage.SendsChannel (g : GainStage) (frames phase k : Nat) (v out : Sample) : Prop :=
  (g.selected = .mute → out = 0#24) ∧
    (g.selected = .lineup →
      out = saturate (roundDiv ((if frames / 4800 % 20 = k then 0 else tone phase) * g.fade) 480)) ∧
    (g.selected = .program → g.fade = 480 →
      out = saturate (roundDiv (v.toInt * g.factor) (2 ^ 20))) ∧
    (g.selected = .program → g.fade ≠ 480 →
      out = saturate (roundDiv (v.toInt * g.factor * g.fade) (2 ^ 20 * 480)))

/-! ### The delay engine of a program that stays ACTIVE (R17, R110, R123 to R126) -/

/-- The step decision at a block end (R126), from the engine `d` after the apply: an engine in STEADY,
SLEWING or FADE_IN takes no step at its target, fades out under JUMP, and under SLEW steps toward the
target by at most S. -/
def DelayEngine.Decides (d : DelayEngine) (x : DelaySection) (e : DelayEngine) : Prop :=
  (d.state = .bypass ∨ d.state = .filling ∨ d.state = .fadeOut → e = d) ∧
    (d.state = .steady ∨ d.state = .slewing ∨ d.state = .fadeIn →
      (d.current = d.target * 65536 →
        e = { d with step := none, state := if d.state = .slewing then .steady else d.state }) ∧
      (d.current ≠ d.target * 65536 → x.mode = .jump → e = { d with step := none, state := .fadeOut }) ∧
      (d.current ≠ d.target * 65536 → x.mode = .slew →
        ∀ distance most : Int, distance = (d.target * 65536 : Nat) - (d.current : Int) →
          most = (x.rate * 4800 * 65536 / 1000000 : Nat) →
            e = { d with
              step := some { amount := max (-most) (min most distance), start := d.current, frames := 0 }
              state := if d.state = .steady then .slewing else d.state }))

/-- A delay engine whose lanes an apply leaves in place: the requested delay is taken within U, and in
FILLING a new target is D_c at once, with every correction 0 (R17, R110, R123 to R125). -/
def DelayEngine.Retargets (d : DelayEngine) (x : DelaySection) (e : DelayEngine) : Prop :=
  let target := min x.target d.usable
  let moved := { d with target := target, clamped := decide (d.usable < x.target) }
  (d.state = .filling → target ≠ d.target →
      e = { moved with
        current := target * 65536
        lanes := d.lanes.map (fun lane => { lane with correction := 0 }) }) ∧
    (d.state ≠ .filling ∨ target = d.target → e = moved)

/-- An apply to a program that stays ACTIVE does not set D_c anew: the program stays in BYPASS, or its lanes
stay in place with no new target taken in FILLING (R17, R90, R125). -/
def DelayEngine.StaysPut (d : DelayEngine) (old new : ProgramRecord) : Prop :=
  new.usable = none ∧ d.state = .bypass ∨
    ∃ x, new.usable = some x ∧ sameLayout old new = true ∧
      (d.state ≠ .filling ∨ min x.target d.usable = d.target)

/-! ### The delay engine at a house frame (R112, R114 to R116, R122, R127 to R131, R136) -/

/-- The sync flag says whether some lane's D_c with its correction lies outside 0 to U (R136). -/
def DelayEngine.SyncFormed (d : DelayEngine) : Prop :=
  d.syncLost = true ↔ ∃ lane ∈ d.lanes,
    (d.current : Int) + lane.correction * 65536 < 0 ∨
      (d.usable : Int) * 65536 < (d.current : Int) + lane.correction * 65536

/-- A lane's effective delay is `delay`, in units of 2^-16 frame: D_c with the correction, clamped to 0 to U
(R136). -/
def DelayEngine.DelaysBy (d : DelayEngine) (lane : Lane) (delay : Int) : Prop :=
  delay = max 0 (min ((d.usable : Int) * 65536) ((d.current : Int) + lane.correction * 65536))

/-- Every lane's valid depth is its effective delay and 16 frames at least (R116). -/
def DelayEngine.Filled (d : DelayEngine) : Prop :=
  ∀ lane ∈ d.lanes, ∀ delay, d.DelaysBy lane delay → delay + 16 * 65536 ≤ (lane.valid : Int) * 65536

/-- The delay engine of an ACTIVE program before its reads at a house frame: D_c glides one frame of its step
(R127), every valid depth counts the frame written up to C (R112), and the sync flag is formed (R136). -/
def DelayEngine.MovesFrame (d e : DelayEngine) : Prop :=
  e = { d with
      current := e.current, step := e.step, syncLost := e.syncLost
      lanes := d.lanes.map fun x => { x with valid := min d.capacity (x.valid + 1) } } ∧
    e.SyncFormed ∧
    (d.step = none → e.current = d.current ∧ e.step = none) ∧
    ∀ x, d.step = some x →
      (4800 ≤ x.frames → e.current = d.current ∧ e.step = some x) ∧
        (x.frames < 4800 →
          e.step = some { x with frames := x.frames + 1 } ∧
            e.current = ((x.start : Int) + x.amount * ((x.frames + 1 : Nat) : Int) / 4800).toNat)

/-- The delay engine of an ACTIVE program after its work at a house frame of fade level `level`, from the
engine `d` that its reads used: FILLING becomes FADE_IN where every lane is valid (R116); FADE_OUT jumps at
level 0 (R128, R129); FADE_IN ends at level 480 and under MUTE (R130, R131); and another state is kept. -/
def DelayEngine.LeavesFrame (d : DelayEngine) (level : Nat) (selected : Source) (e : DelayEngine) :
    Prop :=
  (d.state = .bypass ∨ d.state = .steady ∨ d.state = .slewing → e = d) ∧
    (d.state = .filling →
      (d.Filled → e = { d with state := .fadeIn }) ∧ (¬ d.Filled → e = d)) ∧
    (d.state = .fadeOut →
      (0 < level → e = d) ∧
        (level = 0 →
          e = { d with
              state := e.state, current := d.target * 65536, syncLost := e.syncLost
              lanes := d.lanes.map fun x => { x with correction := 0 } } ∧
            e.SyncFormed ∧ (e.Filled → e.state = .fadeIn) ∧ (¬ e.Filled → e.state = .filling))) ∧
    (d.state = .fadeIn →
      (level = 480 ∨ selected = .mute →
        e = { d with state := if d.step = none then .steady else .slewing }) ∧
        (level ≠ 480 → selected ≠ .mute → e = d))

/-- A lane's read-side sample at house frame `frame` (R114): at the read position `frame` less the effective
delay, the interpolation of sixteen places, of which one newer than `frame` takes the sample of `frame`, one
older than the valid depth holds takes zero, and any other takes the sample of its cell. -/
def DelayEngine.ReadsLane (d : DelayEngine) (layout : Layout) (m : Memory) (frame l : Nat) (lane : Lane)
    (v : Sample) : Prop :=
  ∀ delay r : Int, d.DelaysBy lane delay → r = (frame : Int) * 65536 - delay →
    ∃ place : Fin 16 → Int, v = interpolate (BitVec.ofInt 28 (r % 65536 * 4096)) place ∧
      ∀ (i : Fin 16) (n : Int), n = r / 65536 + (i.val : Int) - 7 →
        ((frame : Int) < n → place i = (m.read (d.cell layout l frame)).toInt) ∧
          (n ≤ (frame : Int) → n < (frame : Int) - lane.valid + 1 → place i = 0) ∧
          (n ≤ (frame : Int) → (frame : Int) - lane.valid + 1 ≤ n →
            place i = (m.read (d.cell layout l n.toNat)).toInt)

/-- The read-side samples of a program at house frame `frame`, from its write-side samples (R115, R116, R122):
the write-side samples in BYPASS, zeros in FILLING, and otherwise the reads of the lanes. -/
def DelayEngine.ReadsSide (d : DelayEngine) (m : Memory) (frame : Nat) (written samples : List Sample) :
    Prop :=
  (d.layout = none → samples = written) ∧
    ∀ layout, d.layout = some layout →
      (d.state = .filling → samples = written.map fun _ => 0#24) ∧
        (d.state ≠ .filling → samples.length = d.lanes.length ∧
          ∀ (l : Nat) (lane : Lane) (v : Sample), d.lanes[l]? = some lane → samples[l]? = some v →
            d.ReadsLane layout m frame l lane v)

/-- The work of a program with content in force at a house frame: `r` is the content, `written` its write-side
samples and `samples` its read-side ones, `m` the memory as it finds it, `d` its delay engine as the reads
use it, and `g` its gain stage after its first three steps. `before` are the slip notices of this house frame
that are taken before its reads (log entry 21). -/
structure State.WorksFrame (s : State) (delivered : Vector (Vector Sample 8) 8)
    (before : List SlipNotice) (p : Fin 16) (r : ProgramRecord) (written samples : List Sample)
    (m : Memory) (d : DelayEngine) (g : GainStage) : Prop where
  content : s.content p = some r
  count : written.length = r.channels.length
  given : ∀ (j : Nat) (c : Channel) (w : Sample), r.channels[j]? = some c → written[j]? = some w →
    s.GivesChannel delivered c w
  active : (s.program p).active = true →
    (before.foldl (fun e n => e.correct r n) s.delays[p]).MovesFrame d
  closing : (s.program p).active = false →
    d = { s.delays[p] with
      lanes := s.delays[p].lanes.map fun x =>
        { x with valid := min s.delays[p].capacity (x.valid + 1) } }
  others : ∀ a : Nat,
    (∀ (q : Fin 16) (u : ProgramRecord) (layout : Layout) (l : Nat),
      s.content q = some u → s.delays[q].layout = some layout → l < u.channels.length →
        s.delays[q].cell layout l (s.clock.frames + 1) ≠ a) →
    Memory.read m a = Memory.read s.memory a
  canonical : s.MemoryCanonical → Memory.wf m = true
  reads : d.ReadsSide (d.writeSide m (s.clock.frames + 1) written) (s.clock.frames + 1) written samples
  gain : s.gains[p].Prepares d.state ((s.clock.frames + 1 : Int) - (d.current / 65536 : Nat)) g

/-! ### The output crosspoint (R39) -/

/-- Program `p` drives an output slot under its content in force `r`: the content names the slot once, and
no other program claims it, but for a closing one beside an ACTIVE `p` (R39). -/
def State.Drives (s : State) (p : Fin 16) (r : ProgramRecord) (slot : Slot) : Prop :=
  s.content p = some r ∧ slot ∈ r.outputs ∧ r.outputs.Nodup ∧
    ∀ (q : Fin 16) (u : ProgramRecord), q ≠ p → s.content q = some u → slot ∈ u.outputs →
      (s.program p).active = true ∧ (s.program q).active = false

/-! ### The log at a block end (R14, R21, R152) -/

/-- The log after a block end has taken its entries in order, with the attendance timeout of a policy that
the block end applies acting before or after them (log entry 15). -/
def State.BlockLogged (s t : State) (entries : List Entry) : Prop :=
  ∃ first : Port,
    t.log = (s.log.handAll entries).takeTimeout s.tables.newTimeout first ∨
      t.log = (s.log.takeTimeout s.tables.newTimeout first).handAll entries

end Sys2Proof.Machine
end

