-- ==== Sys2Proof/WellFormed.lean ====
section
/-! DEFINITION. Which commands are well formed: a raw transaction row carries bits of its own class,
and a whole-record request carries a record of the length its layout requires. A command that is not
well formed is still taken by exec, as the release of select with the bits it carries; it is only not
the row it is written as. -/

namespace Sys2Proof

/-- The bits of a command spell the outcome its row stands for (R179). -/
def Instr.spells (i : Instr) : Bool :=
  match i.outcome with
  | none => true
  | some c => classify (bytesOfBits i.sdi) == c

/-- The record of WRITE PROGRAM has the length its channel count and flag bytes give, and fits the
16-bit length field (R179, R186, section 10.6). -/
def programRecordFits (record : List Byte) : Bool :=
  match record with
  | _ :: _ :: count :: flags :: _ => record.length == programRecordLength count flags
  | _ => false

/-- Well-formedness, by constructor (R179, R186). The rows not named carry fields of fixed widths and
are always well formed. -/
def Instr.wellFormed : Instr → Bool
  | .powerOnReset => true
  | .warmResetAssert => true
  | .warmResetRelease => true
  | .frameArrival _ _ => true
  | .receiverAbsenceExpiry _ => true
  | .refPulse => true
  | .refAbsenceExpiry => true
  | .houseFrame => true
  | .blockEnd => true
  | .selectAssert _ => true
  | .null q sdi => (Instr.null q sdi).spells
  | .unknown q sdi => (Instr.unknown q sdi).spells
  | .length q sdi => (Instr.length q sdi).spells
  | .pendingTransactionEnd _ _ => true
  | .identify _ _ => true
  | .readProgram _ _ _ => true
  | .writeProgram _ _ _ record _ => programRecordFits record
  | .setDelay _ _ _ _ => true
  | .setTarget _ _ _ _ => true
  | .readMeter _ _ _ => true
  | .resetMeter _ _ _ => true
  | .readLink _ _ _ => true
  | .writeLink _ _ _ _ _ _ _ _ => true
  | .readPolicy _ _ => true
  | .writePolicy _ _ record _ => record.length == 74
  | .readConditions _ _ => true
  | .fetchAlarms _ _ _ => true
  | .setAttention _ _ _ _ => true
  | .portReset _ _ => true
  | .attendanceExpiry _ => true
  | .frameSyncMark _ => true
  | .selectSeenReleased _ => true

end Sys2Proof
end

