-- ==== Sys2Proof/Certificates/Slice0/Obligations.lean ====
section
/-! DEFINITION. What the provers are asked to prove, from the rules of spec/. A name of a rule in a
docstring says what a statement formalises; OBLIGATIONS.json says which rules it states whole. -/

open Sys2Proof Sys2Proof.Machine

/-! ## Stepping -/

/-- A step takes the command at the front of the queue and runs exec of it on the state with the queue's
rest. -/
def Obligations.StepTakesFront : Prop :=
  ∀ (c : Instr) (rest : List Instr) (s : State),
    step { s with pending := c :: rest } = exec c { s with pending := rest }

/-- On an empty queue one unit of time passes (the model's choice, log entries 1 and 2): the clock moves by
one, each running timer moves by one up to its limit (an attendance timer up to 255 s, log entry 28) and
the others are kept; nothing else changes but the count of free choices and the queue, which takes the
events that are due, each once: an expiry only of a timer at its limit, a house frame only at or after its
instant, and a block end behind the house frame that brings F to a multiple of 4,800. -/
def Obligations.IdleStepPassesTime : Prop :=
  ∀ s : State, s.pending = [] →
    ∃ t, step s = .next t ∧ t.clock = { s.clock with now := s.clock.now + 1 } ∧
      t = { s with
        pending := t.pending
        choices := t.choices
        clock := t.clock
        ref := { s.ref with timer := t.ref.timer }
        receivers := t.receivers
        log := { s.log with ports := t.log.ports } } ∧
      (∀ l : Fin 8,
        t.receivers[l] = { s.receivers[l] with timer := t.receivers[l].timer } ∧
        (s.receivers[l].timer = none → t.receivers[l].timer = none) ∧
        ∀ x, s.receivers[l].timer = some x →
          t.receivers[l].timer = some (min Config.absenceLimit (x + 1))) ∧
      (s.resetAsserted = true → t.ref.timer = s.ref.timer) ∧
      (s.resetAsserted = false → t.ref.timer = min Config.absenceLimit (s.ref.timer + 1)) ∧
      (∀ q : Port,
        t.place q = { s.place q with timer := (t.place q).timer } ∧
        ((s.place q).attending = false → (t.place q).timer = (s.place q).timer) ∧
        ((s.place q).attending = true →
          (t.place q).timer = min Config.attendanceMost ((s.place q).timer + 1))) ∧
      (∀ l : Fin 8, .receiverAbsenceExpiry l ∈ t.pending ↔ t.receivers[l].expired = true) ∧
      (.refAbsenceExpiry ∈ t.pending ↔
        s.resetAsserted = false ∧ Config.absenceLimit ≤ t.ref.timer) ∧
      (.houseFrame ∈ t.pending ↔ t.clock.nextFrame ≤ t.clock.now) ∧
      (∀ q : Port, .attendanceExpiry q ∈ t.pending ↔ (t.place q).timedOut t.policy.timeout = true) ∧
      (.blockEnd ∈ t.pending ↔
        s.resetAsserted = false ∧ t.clock.nextFrame ≤ t.clock.now ∧ (s.clock.frames + 1) % 4800 = 0) ∧
      (∀ before after : List Instr, t.pending = before ++ .blockEnd :: after → .houseFrame ∈ before) ∧
      t.pending.Nodup ∧
      ∀ c ∈ t.pending,
        c = .houseFrame ∨ c = .blockEnd ∨ c = .refAbsenceExpiry ∨
          (∃ l : Fin 8, c = .receiverAbsenceExpiry l) ∨ ∃ q : Port, c = .attendanceExpiry q

/-! ## Resets -/

/-- POWER_ON_RESET gives every piece of the part's state its power-on value; the queue and the count of
free choices, the model's own, go on (log entry 26), and the delay memory lists no cell (log entries 5 and
24). The power-on values: the tables of R23 with the default policy of R151, receivers OFF (R31), the
monitor in HOLDOVER on the nominal period with F = 0 and B = 0 (R37), converters IDLE (R62, with no fade
running by log entry 34), meters clear with an empty histogram (R81), gain stages at unity and MUTE
(R103), BYPASS (R120), conditions CLEAR with the summary lines released (R141), an empty log and idle ports
(R175, R195), and RESETn released (log entry 35). -/
def Obligations.PowerOnResetRestores : Prop :=
  (∀ s : State,
    exec .powerOnReset s = .next { State.reset with pending := s.pending, choices := s.choices }) ∧
  (∀ p : Fin 16, State.reset.tables.programs[p] =
      { applied := { active := false, source := .mute, channels := [], loudness := none, delay := none,
                     alarm := none }
        revision := 0#16
        staged := none
        waiting := [] }) ∧
    (∀ l : Fin 8, State.reset.tables.links[l] =
      { applied := { enable := false, slots := 8, bandwidth := .medium, kinds := 0x0006#16 }
        revision := 0#16
        staged := none
        waiting := [] }) ∧
    State.reset.tables.policy.revision = 0#16 ∧ State.reset.tables.policy.staged = none ∧
    State.reset.tables.policy.waiting = [] ∧ State.reset.policy.refLostMonitored = true ∧
    State.reset.policy.timeout = 10 ∧
    (∀ k : Kind, State.reset.policy.kind k =
      match k with
      | .linkLost => { severity := .major, holdRaise := 0, holdClear := 10, edges := .both }
      | .linkUnlocked => { severity := .minor, holdRaise := 10, holdClear := 50, edges := .both }
      | .linkSlip => { severity := .note, holdRaise := 0, holdClear := 0, edges := .log }
      | .refLost => { severity := .major, holdRaise := 0, holdClear := 10, edges := .both }
      | .silence => { severity := .major, holdRaise := 100, holdClear := 5, edges := .both }
      | .overload => { severity := .minor, holdRaise := 0, holdClear := 50, edges := .raise }
      | .loudHigh => { severity := .minor, holdRaise := 300, holdClear := 50, edges := .both }
      | .loudLow => { severity := .minor, holdRaise := 300, holdClear := 50, edges := .both }
      | .gainAtLimit => { severity := .note, holdRaise := 50, holdClear := 50, edges := .both }
      | .delayClamped => { severity := .minor, holdRaise := 0, holdClear := 0, edges := .both }
      | .syncLost => { severity := .major, holdRaise := 0, holdClear := 0, edges := .both }
      | .programChanged => { severity := .note, holdRaise := 0, holdClear := 0, edges := .log }) ∧
    State.reset.clock.frames = 0 ∧ State.reset.clock.blocks = 0#32 ∧
    State.reset.clock.nextFrame = State.reset.clock.now + Config.nominalPeriod ∧
    State.reset.ref.state = .holdover ∧ State.reset.ref.run = 0 ∧ State.reset.ref.intervals = [] ∧
    State.reset.ref.timer = 0 ∧ State.reset.ref.period = Config.nominalPeriod ∧
    (∀ l : Fin 8, State.reset.receivers[l].state = .off ∧ State.reset.receivers[l].timer = none ∧
      State.reset.receivers[l].run = 0) ∧
    (∀ l : Fin 8, State.reset.converters[l].state = .idle ∧ State.reset.converters[l].fifo = [] ∧
      State.reset.converters[l].history = [] ∧ State.reset.converters[l].ratio = 0 ∧
      State.reset.converters[l].used = 0 ∧ State.reset.converters[l].measured = 0 ∧
      State.reset.converters[l].counts = [] ∧ State.reset.converters[l].measures = [] ∧
      State.reset.converters[l].counter = 0 ∧ State.reset.converters[l].fade = 0 ∧
      State.reset.converters[l].direction = .steady ∧ State.reset.converters[l].slipWaits = false ∧
      State.reset.converters[l].deletes = 0 ∧ State.reset.converters[l].repeats = 0) ∧
    (∀ p : Fin 16, State.reset.meters[p].channels = [] ∧ State.reset.meters[p].ring = [] ∧
      State.reset.meters[p].clearPending = false ∧
      State.reset.meters[p].momentary = { tenths := -1000, measured := false } ∧
      State.reset.meters[p].shortTerm = { tenths := -1000, measured := false } ∧
      State.reset.meters[p].integrated = { tenths := -1000, measured := false } ∧
      State.reset.meters[p].histogram = Vector.replicate 170 { count := 0, energy := 0 }) ∧
    (∀ p : Fin 16, State.reset.gains[p].applied = 0 ∧ State.reset.gains[p].factor = 1048576 ∧
      State.reset.gains[p].ramp = none ∧ State.reset.gains[p].queue = [] ∧
      State.reset.gains[p].limitTest = false ∧ State.reset.gains[p].overloadTest = false ∧
      State.reset.gains[p].overloads = 0 ∧ State.reset.gains[p].selected = .mute ∧
      State.reset.gains[p].pendingSource = none ∧ State.reset.gains[p].fade = 0 ∧
      State.reset.gains[p].closing = 0) ∧
    State.reset.tonePhase = 0 ∧
    (∀ p : Fin 16, State.reset.delays[p].state = .bypass ∧ State.reset.delays[p].layout = none ∧
      State.reset.delays[p].capacity = 0 ∧ State.reset.delays[p].usable = 0 ∧
      State.reset.delays[p].target = 0 ∧ State.reset.delays[p].current = 0 ∧
      State.reset.delays[p].step = none ∧ State.reset.delays[p].lanes = [] ∧
      State.reset.delays[p].clamped = false ∧ State.reset.delays[p].syncLost = false) ∧
    State.reset.memory = [] ∧
    (∀ i : Fin 129, State.reset.conditions[i] = { test := false, raised := false, counter := 0 }) ∧
    State.reset.pins.alarms = { major := false, minor := false } ∧
    State.reset.log.entries = [] ∧ State.reset.log.next = 0 ∧ State.reset.resetAsserted = false ∧
    ∀ q : Port, (State.reset.place q).cursor = 0 ∧ (State.reset.place q).missed = 0 ∧
      (State.reset.place q).attending = false ∧ (State.reset.place q).mask = 0#16 ∧
      (State.reset.place q).threshold = .note ∧ State.reset.pins.atn.get q = false ∧
      (State.reset.port q).held = none ∧ (State.reset.port q).executing = none ∧
      (State.reset.port q).transaction = .idle

/-- WARM_RESET_ASSERT (R24): staged copies become applied with the revisions kept, every waiting list is
empty, F and B are 0, every block, the log and the ports take their power-on values, the lines are released
and the delay memory keeps its cells. That the house frame instant that was due stays due (log entry 11),
that the receivers are OFF while RESETn is asserted (log entry 13) and that the output frames are zero from
the assertion (log entry 22) are the model's own readings and choices. -/
def Obligations.WarmResetAsserts : Prop :=
  ∀ s : State, s.resetAsserted = false →
    ∃ t, exec .warmResetAssert s = .next t ∧ t.resetAsserted = true ∧
      (∀ p : Fin 16, t.tables.programs[p].applied = s.tables.programs[p].newest ∧
        t.tables.programs[p].revision = s.tables.programs[p].revision ∧
        t.tables.programs[p].staged = none) ∧
      (∀ l : Fin 8, t.tables.links[l].applied = s.tables.links[l].newest ∧
        t.tables.links[l].revision = s.tables.links[l].revision ∧ t.tables.links[l].staged = none) ∧
      t.tables.policy.applied = s.tables.policy.newest ∧
      t.tables.policy.revision = s.tables.policy.revision ∧ t.tables.policy.staged = none ∧
      (s.ChangesConsistent → ∀ name : RecordName, t.tables.waitingOn name = []) ∧
      t.clock = { s.clock with frames := 0, blocks := 0#32 } ∧
      t = { State.reset with
        pending := s.pending
        choices := s.choices
        resetAsserted := true
        clock := t.clock
        tables := t.tables
        memory := s.memory
        ports := t.ports } ∧
      ∀ q : Port, (t.port q).held = none ∧ (t.port q).executing = none ∧
        (t.port q).transaction = .idle ∧ (t.port q).output = [] ∧
        (t.port q).select = (s.port q).select

/-- WARM_RESET_RELEASE (R31, R62, R103, R120, R195): every enabled link starts PRESENT with its converter
in ACQUIRE, counting from the release; every ACTIVE program starts clear with its lanes laid out or in
BYPASS; a port whose select is asserted waits for it to be seen released. -/
def Obligations.WarmResetReleases : Prop :=
  ∀ s : State, s.resetAsserted = true →
    ∃ t, exec .warmResetRelease s = .next t ∧
      t = { s with
        resetAsserted := false
        receivers := t.receivers
        converters := t.converters
        meters := t.meters
        gains := t.gains
        delays := t.delays
        ports := t.ports } ∧
      (∀ l : Fin 8, (s.link l).enable = true →
        t.receivers[l] = { state := .present, timer := some 0, run := 0, inFrame := false } ∧
        t.converters[l].state = .acquire ∧ t.converters[l].counting = true ∧
        t.converters[l].fifo = [] ∧ t.converters[l].history = [] ∧ t.converters[l].counts = [] ∧
        t.converters[l].measures = [] ∧ t.converters[l].measured = 0 ∧ t.converters[l].ratio = 0 ∧
        t.converters[l].deletes = 0 ∧ t.converters[l].repeats = 0 ∧
        t.converters[l].slipWaits = false) ∧
      (∀ l : Fin 8, (s.link l).enable = false →
        t.receivers[l] = s.receivers[l] ∧ t.converters[l] = s.converters[l]) ∧
      (∀ p : Fin 16, (s.program p).active = true →
        t.gains[p] = { GainStage.initial with selected := (s.program p).source } ∧
        t.delays[p] = startDelay (s.program p) ∧
        t.meters[p] = Meter.fresh (s.program p).channels.length) ∧
      (∀ p : Fin 16, (s.program p).active = false →
        t.gains[p] = s.gains[p] ∧ t.delays[p] = s.delays[p] ∧ t.meters[p] = s.meters[p]) ∧
      ∀ q : Port,
        t.port q =
          { s.port q with
            transaction := if (s.port q).select then .waiting else (s.port q).transaction }

/-! ## Input links -/

/-- FRAME_SYNC_MARK (R26): at a receiver that is not OFF the bits that follow form the next frame, and
nothing else changes; one that is OFF takes no frames, and nothing changes. -/
def Obligations.SyncMarkStartsFrame : Prop :=
  ∀ (l : Fin 8) (s : State),
    (s.receivers[l].state ≠ .off →
      exec (.frameSyncMark l) s =
        .next (s.setReceiver l { s.receivers[l] with inFrame := true })) ∧
    (s.receivers[l].state = .off → exec (.frameSyncMark l) s = .next s)

/-- FRAME_ARRIVAL (R26, R27, R43). In PRESENT the absence timer restarts from 0 and the frame's eight
samples go to the link's converter; where no slip is made, nothing else changes. With a slip, the LINK_SLIP
entry joins the log where the policy's log edges for it are LOG (R57, R153, R162), and the notice corrects
the lanes of every program (R132, R133). A receiver that is OFF takes no frame, and bits that no frame-sync
mark began are no frame. -/
def Obligations.ArrivalInPresentFeedsConverter : Prop :=
  ∀ (l : Fin 8) (frame : BitVec 256) (s : State),
    (s.receivers[l].state = .off ∨ s.receivers[l].inFrame = false →
      exec (.frameArrival l frame) s = .next s) ∧
    (s.receivers[l].state = .present → s.receivers[l].inFrame = true →
      ∃ t, exec (.frameArrival l frame) s = .next t ∧
        t.receivers = s.receivers.set l
          { state := .present, timer := some 0, run := 0, inFrame := false } ∧
        t.converters = s.converters.set l
          (s.converters[l].arrive l (Vector.ofFn fun y => slotSample frame y)).1 ∧
        t = { s with
          receivers := t.receivers
          converters := t.converters
          delays := t.delays
          log := t.log
          pins := t.pins } ∧
        PinsFollow s t ∧
        ((s.converters[l].arrive l (Vector.ofFn fun y => slotSample frame y)).2 = none →
          t.delays = s.delays ∧ t.log = s.log) ∧
        ∀ n : SlipNotice,
          (s.converters[l].arrive l (Vector.ofFn fun y => slotSample frame y)).2 = some n →
          (∀ p : Fin 16, t.delays[p] = s.delays[p].correct (s.program p) n) ∧
          t.log = s.slipsLogged [n] ∧
          ((s.policy.kind .linkSlip).edges = .log → s.log.Joins (s.slipEntry n) t.log) ∧
          ((s.policy.kind .linkSlip).edges ≠ .log → t.log = s.log))

/-- An arrival at a converter in each of its states (R43, R47, R55, R57). In IDLE and LOST nothing changes,
and no slip is made there nor in ACQUIRE, where the frame joins the new end with the next index and the
block's arrivals, after the oldest of 256 has been discarded. In LOCKED, FREEWHEEL and RELOCK the frame joins
a FIFO of fewer than 256 in the same way; one that finds it full makes a DELETE slip: the 64 oldest frames
become the history, the read position moves on by 64 frames, the total counts the slip, a LOCKED converter
enters FREEWHEEL with R_used at R clamped to the accepted range (R52, R53) and another keeps its state and
R_used, the frame joins, and the notice carries the link and the equivalent under the R_used in force after
the slip. -/
def Obligations.FullFifoDeletes : Prop :=
  ∀ (c : Converter) (l : Fin 8) (samples : Vector Sample 8),
    (c.state = .idle ∨ c.state = .lost → c.arrive l samples = (c, none)) ∧
    (c.state = .acquire →
      c.arrive l samples =
        ({ c with
          fifo := (if 256 ≤ c.fifo.length then c.fifo.tail else c.fifo) ++
            [{ index := c.nextIndex, samples := samples }]
          arrivals := c.arrivals + 1
          nextIndex := c.nextIndex + 1 }, none)) ∧
    (c.running = true → c.fifo.length < 256 →
      c.arrive l samples =
        ({ c with
          fifo := c.fifo ++ [{ index := c.nextIndex, samples := samples }]
          arrivals := c.arrivals + 1
          nextIndex := c.nextIndex + 1 }, none)) ∧
    (c.running = true → 256 ≤ c.fifo.length →
      ∃ (d : Converter) (n : SlipNotice), c.arrive l samples = (d, some n) ∧
        d = { c with
          state := d.state
          used := d.used
          counter := d.counter
          history := c.fifo.take 64
          fifo := c.fifo.drop 64 ++ [{ index := c.nextIndex, samples := samples }]
          position := c.position + 64 * 2 ^ 28
          deletes := min 4294967295 (c.deletes + 1)
          arrivals := c.arrivals + 1
          nextIndex := c.nextIndex + 1 } ∧
        c.SlipTracks d ∧
        n.link = l ∧ n.direction = .delete ∧
        n.equivalent = (2 * 64 * 2 ^ 28 + d.used) / (2 * d.used))

/-- FRAME_ARRIVAL in LOST (R29, R59): below 32 the run counts on and the frame is discarded; the arrival that
brings the run to 32 declares return, and its frame is the first that the converter takes in ACQUIRE, with
nothing else held, counted or measured, the tracker counter at 0, no fade, and R kept. -/
def Obligations.ArrivalInLostCountsReturn : Prop :=
  ∀ (l : Fin 8) (frame : BitVec 256) (s : State),
    s.receivers[l].state = .lost → s.receivers[l].inFrame = true → s.converters[l].state = .lost →
      (s.receivers[l].run < 31 →
        exec (.frameArrival l frame) s =
          .next (s.setReceiver l
            { state := .lost, timer := some 0, run := s.receivers[l].run + 1, inFrame := false })) ∧
      (s.receivers[l].run = 31 →
        ∃ t, exec (.frameArrival l frame) s = .next t ∧
          t.receivers = s.receivers.set l
            { state := .present, timer := some 0, run := 0, inFrame := false } ∧
          t.converters[l].state = .acquire ∧
          t.converters[l].fifo =
            [{ index := 0, samples := Vector.ofFn fun y => slotSample frame y }] ∧
          t.converters[l].history = [] ∧ t.converters[l].counts = [] ∧
          t.converters[l].measures = [] ∧ t.converters[l].measured = 0 ∧
          t.converters[l].counter = 0 ∧ t.converters[l].fade = 0 ∧
          t.converters[l].slipWaits = false ∧
          t.converters[l].ratio = s.converters[l].ratio ∧ t.converters[l].counting = false ∧
          (∀ k : Fin 8, k ≠ l → t.converters[k] = s.converters[k]) ∧
          t = { s with receivers := t.receivers, converters := t.converters, pins := t.pins })

/-- RECEIVER_ABSENCE_EXPIRY of a timer at its limit (R28, R29, R58): in PRESENT loss is declared and the
converter enters LOST with its ratio, counts and totals kept. A converter that reads starts a falling fade
from its present level over the frames it holds, a level of 0 has nothing to fade and its FIFO is empty at
once (log entry 19), and from ACQUIRE the FIFO is emptied at once. In LOST the run count becomes 0. A loss that
finds a slip of the converter waiting for the block end of this instant acts on the state in which that slip
has been made (log entry 36). -/
def Obligations.AbsenceDeclaresLoss : Prop :=
  ∀ (l : Fin 8) (s : State), s.receivers[l].timer = some Config.absenceLimit →
    (s.receivers[l].state = .present → s.converters[l].slipWaits = true →
      ∃ u : State, s.MakesSlips [l] u ∧ u.converters[l].slipWaits = false ∧
        exec (.receiverAbsenceExpiry l) s = exec (.receiverAbsenceExpiry l) u) ∧
    (s.receivers[l].state = .present → s.converters[l].slipWaits = false →
      s.converters[l].state ≠ .idle →
      ∃ t, exec (.receiverAbsenceExpiry l) s = .next t ∧
        t.receivers = s.receivers.set l
          { s.receivers[l] with state := .lost, timer := some 0, run := 0 } ∧
        t.converters[l] = { s.converters[l] with
          state := .lost
          fifo := t.converters[l].fifo
          history := t.converters[l].history
          fade := t.converters[l].fade
          direction := t.converters[l].direction } ∧
        (s.converters[l].running = true → 0 < s.converters[l].fade →
          t.converters[l].fade = s.converters[l].fade ∧ t.converters[l].direction = .falling ∧
            t.converters[l].fifo = s.converters[l].fifo ∧
            t.converters[l].history = s.converters[l].history) ∧
        (s.converters[l].running = true → s.converters[l].fade = 0 →
          t.converters[l].fade = 0 ∧ t.converters[l].direction = .steady ∧
            t.converters[l].fifo = [] ∧ t.converters[l].history = []) ∧
        (s.converters[l].state = .acquire →
          t.converters[l].fade = 0 ∧ t.converters[l].direction = .steady ∧
            t.converters[l].fifo = [] ∧ t.converters[l].history = []) ∧
        (∀ k : Fin 8, k ≠ l → t.converters[k] = s.converters[k]) ∧
        t = { s with receivers := t.receivers, converters := t.converters }) ∧
    (s.receivers[l].state = .lost →
      exec (.receiverAbsenceExpiry l) s =
        .next (s.setReceiver l { s.receivers[l] with timer := some 0, run := 0 }))

/-! ## The house reference -/

/-- REF_PULSE (R33, R35, R37). It is ignored while RESETn is asserted and less than 10 µs after the
previous accepted pulse. Every other pulse restarts the timer. In TRACKING an interval of at most 100 µs
joins the list of at most 32, whose floored mean is the period (log entry 9), and the offset is the time
to the nearest house frame instant, taken as measured (log entry 37). In HOLDOVER such an interval carries a running run on, the 32nd pulse
returns the monitor to TRACKING with its offset measured, and any other pulse starts a run. -/
def Obligations.RefPulseMeasures : Prop :=
  ∀ s : State,
    (s.resetAsserted = true → exec .refPulse s = .next s) ∧
    (∀ previous : Nat, s.ref.lastPulse = some previous →
      s.clock.now - previous < Config.refDeadTime → exec .refPulse s = .next s) ∧
    (s.resetAsserted = false →
      (∀ previous : Nat, s.ref.lastPulse = some previous →
        Config.refDeadTime ≤ s.clock.now - previous) →
      ∃ t, exec .refPulse s = .next t ∧ t = { s with ref := t.ref, choices := t.choices } ∧
        t.ref.timer = 0 ∧ t.ref.lastPulse = some s.clock.now ∧
        (s.ref.state = .tracking → t.ref.state = .tracking ∧ t.ref.run = s.ref.run ∧
          (s.clock.nextFrame - s.clock.now < s.clock.now - s.clock.lastFrame →
            t.ref.offset = (s.clock.nextFrame - s.clock.now : Nat)) ∧
          (s.clock.now - s.clock.lastFrame < s.clock.nextFrame - s.clock.now →
            t.ref.offset = -((s.clock.now - s.clock.lastFrame : Nat) : Int))) ∧
        (∀ previous : Nat, s.ref.lastPulse = some previous →
          s.clock.now - previous ≤ Config.absenceLimit →
            (s.ref.state = .tracking →
              t.ref.intervals = lastN 32 (s.ref.intervals ++ [s.clock.now - previous]) ∧
              t.ref.period = t.ref.intervals.sum / t.ref.intervals.length) ∧
            (s.ref.state = .holdover → 0 < s.ref.run → s.ref.run < 31 →
              t.ref.state = .holdover ∧ t.ref.run = s.ref.run + 1 ∧ t.ref.period = s.ref.period ∧
              t.ref.intervals = s.ref.intervals ++ [s.clock.now - previous]) ∧
            (s.ref.state = .holdover → s.ref.run = 31 →
              t.ref.state = .tracking ∧ t.ref.run = 0 ∧
              t.ref.intervals = s.ref.intervals ++ [s.clock.now - previous] ∧
              t.ref.period = t.ref.intervals.sum / t.ref.intervals.length ∧
              (s.clock.nextFrame - s.clock.now < s.clock.now - s.clock.lastFrame →
                t.ref.offset = (s.clock.nextFrame - s.clock.now : Nat)) ∧
              (s.clock.now - s.clock.lastFrame < s.clock.nextFrame - s.clock.now →
                t.ref.offset = -((s.clock.now - s.clock.lastFrame : Nat) : Int)))) ∧
        ((∀ previous : Nat, s.ref.lastPulse = some previous →
            Config.absenceLimit < s.clock.now - previous) →
          s.ref.state = .tracking → t.ref.intervals = s.ref.intervals) ∧
        (s.ref.state = .holdover →
          (s.ref.run = 0 ∨ ∀ previous : Nat, s.ref.lastPulse = some previous →
            Config.absenceLimit < s.clock.now - previous) →
          t.ref.state = .holdover ∧ t.ref.run = 1 ∧ t.ref.intervals = [] ∧
            t.ref.period = s.ref.period))

/-- REF_ABSENCE_EXPIRY of a timer at its limit, with RESETn released (R34, R35): the monitor holds over on
its period with an empty list and run count 0, and from TRACKING the instant that was due follows the
last one by that period. -/
def Obligations.RefAbsenceHoldsOver : Prop :=
  ∀ s : State, s.resetAsserted = false → s.ref.timer = Config.absenceLimit →
    ∃ t, exec .refAbsenceExpiry s = .next t ∧ t = { s with ref := t.ref, clock := t.clock } ∧
      t.ref.state = .holdover ∧ t.ref.period = s.ref.period ∧ t.ref.intervals = [] ∧
      t.ref.run = 0 ∧ t.ref.timer = 0 ∧ t.ref.lastPulse = s.ref.lastPulse ∧
      (s.ref.state = .tracking →
        t.clock = { s.clock with nextFrame := s.clock.lastFrame + s.ref.period }) ∧
      (s.ref.state = .holdover → t.clock = s.clock)

/-- In TRACKING a house frame period differs from the reference period by at most 20 ppm of it, toward
bringing the offset to zero; in HOLDOVER it is the held period (R34, R36). That 20 ppm of the period is rounded
down to whole units is the model's choice (log entry 9). -/
def Obligations.FramePeriodBounded : Prop :=
  ∀ r : RefMonitor,
    (r.state = .holdover → r.framePeriod = r.period) ∧
    (r.state = .tracking →
      (r.framePeriod : Int) = r.period - r.correction ∧
      r.correction.natAbs = min r.offset.natAbs (r.period * 20 / 1000000) ∧
      (0 < r.offset → 0 ≤ r.correction) ∧ (r.offset < 0 → r.correction ≤ 0))

/-! ## House frames -/

/-- HOUSE_FRAME in operation, where no block end is due (R32, R99): F counts, the next instant follows by
the period, the line-up phase moves on, and tables, conditions, receivers, reference monitor (but for its
offset, log entry 10) and ports are kept. Every converter does its house frame's work, delivering samples,
advancing its read position and making any REPEAT slip (R42, R44, R46, R56), which where the house frame is a
block end may wait until after it (R57, R196; log entry 36). The LINK_SLIP entries of the slips made join the
log in a free order (log entry 3), with B as it stands before the block end counts it (log entry 38). The meter of an ACTIVE program takes the sample that
the input crosspoint gives each channel (R3, R64 to R67). Its delay engine glides, counts the frame in its
valid depths, forms its sync flag, and leaves FILLING, FADE_OUT and FADE_IN as the rules say (R112, R116,
R122, R127 to R131, R136), with the slips' corrections made before its reads or after its work (R132 to R134;
a free order for each, log entry 21). A program that is UNUSED and not closing keeps its meter, gain and
delay; a closing one keeps its meter and its delay but for the valid depths (log entry 40) until its closing
count ends, which gives all three their power-on values (R79, R98, R118). A lane's cell of this frame holds its channel's
sample of the input crosspoint (R108, R111), where the memory is canonical and the lanes are laid out as every
step keeps them; a cell that is no lane's cell of this frame keeps its sample. That a house frame waits for a
due block end is log entry 7. -/
def Obligations.HouseFrameCounts : Prop :=
  ∀ s : State, s.resetAsserted = false → s.clock.blockDue = false →
    ∃ t, exec .houseFrame s = .next t ∧
      t.clock =
        { s.clock with
          lastFrame := s.clock.now
          nextFrame := s.clock.now + s.ref.framePeriod
          frames := s.clock.frames + 1 } ∧
      t.tonePhase = (s.tonePhase + 1) % 48 ∧ t.pending = s.pending ∧ t.resetAsserted = false ∧
      t.ref = { s.ref with offset := t.ref.offset } ∧ t.tables = s.tables ∧
      t.receivers = s.receivers ∧ t.conditions = s.conditions ∧ t.ports = s.ports ∧
      PinsFollow s t ∧
      (∀ l : Fin 8,
        s.converters[l].RunsFrame l (s.slipLater l) t.converters[l]
          (s.converters[l].houseFrame l (s.slipLater l)).2.2 ∧
        (s.slipLater l = true → (s.clock.frames + 1) % 4800 = 0)) ∧
      (∃ (delivered : Vector (Vector Sample 8) 8) (before after : List SlipNotice),
        (∀ l : Fin 8, s.converters[l].Delivers t.converters[l].fade delivered[l]) ∧
        (before ++ after).Perm
          ((List.finRange 8).filterMap fun l => (s.converters[l].houseFrame l (s.slipLater l)).2.2) ∧
        t.log = s.slipsLogged (before ++ after) ∧
        (∀ p : Fin 16, (s.program p).active = true →
          t.meters[p] = { s.meters[p] with channels := t.meters[p].channels } ∧
          t.meters[p].channels.length =
            min s.meters[p].channels.length (s.program p).channels.length ∧
          (∀ (k : Nat) (m : ChannelMeter) (c : Channel) (w : Sample),
            s.meters[p].channels[k]? = some m → (s.program p).channels[k]? = some c →
            s.GivesChannel delivered c w →
              ∃ n, t.meters[p].channels[k]? = some n ∧ m.Takes w n) ∧
          ∃ (written samples : List Sample) (m : Memory) (d e : DelayEngine) (g : GainStage),
            s.WorksFrame delivered before p (s.program p) written samples m d g ∧
              d.LeavesFrame g.fade g.selected e ∧
              t.delays[p] = after.foldl (fun x n => x.correct (s.program p) n) e) ∧
        ∀ (p : Fin 16) (r : ProgramRecord) (layout : Layout) (l : Nat) (c : Channel) (w : Sample),
          s.MemoryCanonical → s.LanesLaidOut → s.content p = some r →
          s.delays[p].layout = some layout → r.channels[l]? = some c → s.GivesChannel delivered c w →
          Memory.read t.memory (s.delays[p].cell layout l (s.clock.frames + 1)) = w) ∧
      (∀ p : Fin 16, s.content p = none →
        t.meters[p] = s.meters[p] ∧ t.gains[p] = s.gains[p] ∧ t.delays[p] = s.delays[p]) ∧
      (∀ (p : Fin 16) (r : ProgramRecord), (s.program p).active = false → s.content p = some r →
        (s.gains[p].closing = 1 →
          t.meters[p] = Meter.initial ∧ t.gains[p] = GainStage.initial ∧
            t.delays[p] = DelayEngine.initial) ∧
        (s.gains[p].closing ≠ 1 →
          t.meters[p] = s.meters[p] ∧ t.gains[p].closing = s.gains[p].closing - 1 ∧
            t.delays[p] = { s.delays[p] with
              lanes := s.delays[p].lanes.map fun x =>
                { x with valid := min s.delays[p].capacity (x.valid + 1) } })) ∧
      ∀ a : Nat,
        (∀ (p : Fin 16) (r : ProgramRecord) (layout : Layout) (l : Nat),
          s.content p = some r → s.delays[p].layout = some layout → l < r.channels.length →
            s.delays[p].cell layout l (s.clock.frames + 1) ≠ a) →
        Memory.read t.memory a = Memory.read s.memory a

/-- The output crosspoint in the frame that a HOUSE_FRAME starts (R38, R39). A slot that no ACTIVE program
and no program in its closing fade claims carries zero (step 3). A slot that a program drives (steps 1 and
2) carries its channel's output: the gain stage takes its first three steps (R93), the read-side sample is
the write-side sample in BYPASS, zero in FILLING and otherwise the lane's sample at its effective delay,
read after this frame's writes (R111 to R116), and the output follows the selected source at the factor
and fade level (R94, R96, R99, R100). The delay engine is the program's own with the corrections of those of
this house frame's slips that are taken before its reads (R132 to R134; which of them, and in what order, is
free, log entry 21), and the memory read holds what it held but for this frame's cells of the lanes. -/
def Obligations.UnclaimedSlotSilent : Prop :=
  ∀ s : State, s.resetAsserted = false → s.clock.blockDue = false →
    ∃ t, exec .houseFrame s = .next t ∧
      (∀ x y : Fin 8,
        (∀ (p : Fin 16) (r : ProgramRecord), s.content p = some r →
          ({ link := x, slot := y } : Slot) ∉ r.outputs) →
        slotSample t.out[x] y = 0#24) ∧
      ∃ (delivered : Vector (Vector Sample 8) 8) (before after : List SlipNotice),
        (∀ l : Fin 8, s.converters[l].Delivers t.converters[l].fade delivered[l]) ∧
        (before ++ after).Perm
          ((List.finRange 8).filterMap fun l => (s.converters[l].houseFrame l (s.slipLater l)).2.2) ∧
        ∀ (p : Fin 16) (r : ProgramRecord) (k : Nat) (c : Channel) (slot : Slot),
          s.LanesLaidOut → s.Drives p r slot → r.channels[k]? = some c → c.output = some slot →
            ∃ (written samples : List Sample) (m : Memory) (d : DelayEngine) (g : GainStage) (v : Sample),
              s.WorksFrame delivered before p r written samples m d g ∧ samples[k]? = some v ∧
              g.SendsChannel (s.clock.frames + 1) ((s.tonePhase + 1) % 48) k v
                (slotSample t.out[slot.link] slot.slot)

/-- HOUSE_FRAME while RESETn is asserted (R37, R39): the timebase runs on at the monitor's period, F and B
are held, and every output slot carries zero. -/
def Obligations.HouseFrameInReset : Prop :=
  ∀ s : State, s.resetAsserted = true →
    ∃ t, exec .houseFrame s = .next t ∧
      t.clock =
        { s.clock with
          lastFrame := s.clock.now
          nextFrame := s.clock.now + s.ref.framePeriod } ∧
      (∀ x : Fin 8, t.out[x] = 0#256) ∧
      t = { s with clock := t.clock, ref := { s.ref with offset := t.ref.offset }, out := t.out }

/-- A lane read at a whole-frame effective delay of k frames that its valid depth covers gives the sample
of the cell that holds the frame of k house frames ago, unchanged (R114). -/
def Obligations.WholeDelayReadsStoredFrame : Prop :=
  ∀ (d : DelayEngine) (layout : Layout) (m : Memory) (frame l k : Nat) (lane : Lane),
    d.effective lane = k * 65536 → k ≤ frame → k < lane.valid →
      d.readLane layout m frame l lane = m.read (d.cell layout l (frame - k))

/-- The write-side samples of a house frame stand each in its own lane's cell (R107, R108, R111), for lanes
that lie within the memory. -/
def Obligations.LanesHoldWhatIsWritten : Prop :=
  ∀ (d : DelayEngine) (layout : Layout) (m : Memory) (frame l : Nat) (samples : List Sample),
    Memory.wf m = true → 0 < layout.pages → d.capacity = layout.pages * 1024 →
    (layout.base + samples.length * layout.pages) * 1024 ≤ Config.memoryCells →
    (hl : l < samples.length) →
      (d.writeLanes layout frame 0 samples m).read (d.cell layout l frame) = samples[l]

/-! ## Block ends -/

/-- BLOCK_END where one is due (R14, R32, R182): B counts; every staged copy becomes the applied content
with its revision kept and its waiting list emptied, and a record that holds none keeps its list; a waiting
port holds DONE or SUPERSEDED with its own revision; each apply of a program record hands a PROGRAM_CHANGED
entry to the log under the new policy, with the new revision and the staged copy's origin, where the log
edges are LOG (R14 step 3, R21, R153), in a free order (log entry 15); and the delay memory, the line-up
phase, the reference monitor and the output frames are kept. The slips that wait for the block end are made
after it (R57, R196; log entry 36): `u` is the state before them. -/
def Obligations.BlockEndApplies : Prop :=
  ∀ s : State, s.resetAsserted = false → s.clock.blockDue = true →
    ∃ u t : State, exec .blockEnd s = .next t ∧ u.MakesSlips (List.finRange 8) t ∧
      t.clock = { s.clock with blocks := s.clock.blocks + 1#32 } ∧
      (∀ p : Fin 16, t.program p = s.tables.programs[p].newest ∧
        t.tables.programs[p].revision = s.tables.programs[p].revision ∧
        t.tables.programs[p].staged = none) ∧
      (∀ l : Fin 8, t.link l = s.tables.links[l].newest ∧
        t.tables.links[l].revision = s.tables.links[l].revision ∧ t.tables.links[l].staged = none) ∧
      t.policy = s.tables.policy.newest ∧
      t.tables.policy.revision = s.tables.policy.revision ∧ t.tables.policy.staged = none ∧
      (∀ name : RecordName,
        (s.tables.stagedOn name = true → t.tables.waitingOn name = []) ∧
        (s.tables.stagedOn name = false → t.tables.waitingOn name = s.tables.waitingOn name)) ∧
      (s.ChangesConsistent → ∀ q : Port,
        match (s.port q).executing with
        | none => t.port q = s.port q
        | some x =>
          t.port q =
            { s.port q with
              executing := none
              held := some (respond
                (if x.revision = s.tables.revisionOn x.record then .done else .superseded)
                (bytes16 x.revision)) }) ∧
      (∃ entries : List Entry, s.BlockLogged u entries ∧
        (entries.filter fun e => e.kind == .programChanged).Perm
          (if (t.policy.kind .programChanged).edges = .log then
            (List.finRange 16).filterMap fun p : Fin 16 =>
              s.tables.programs[p].staged.map fun x =>
                { kind := .programChanged
                  subject := .program p
                  edge := .event
                  severity := (t.policy.kind .programChanged).severity
                  stamp := s.clock.blocks + 1#32
                  detail := .changed p s.tables.programs[p].revision x.origin }
          else [])) ∧
      t.pending = s.pending ∧ t.resetAsserted = false ∧ t.ref = s.ref ∧ t.tonePhase = s.tonePhase ∧
      t.memory = s.memory ∧ t.out = s.out ∧ t.OutputsExact

/-- The debounce of R149. At a BLOCK_END an instance that is sampled, and whose subject the applies do not
remove, has taken a sample of its test: one that agrees with its state sets the counter to 0; one that
disagrees adds 1 to a counter below the hold for the direction of the change, which the policy in force during
the ending block gives; and one that disagrees at or above that hold changes the state and sets the counter to
0. A condition in which h samples in a row have disagreed, from a counter of 0, changes its state at the
(h + 1)th, and with a hold of 0 at the first. No counter exceeds 3,000 under holds of 3,000 at most. -/
def Obligations.DebounceFollowsHolds : Prop :=
  (∀ s : State, s.resetAsserted = false → s.clock.blockDue = true →
    ∃ t, exec .blockEnd s = .next t ∧
      ∀ i : Fin 129, s.tables.present i = true → t.tables.present i = true →
        ∀ (c d : Condition) (hold : Nat), c = s.conditions[i] → d = t.conditions[i] →
          hold = (if c.raised then (s.policy.kind (conditionKind i)).holdClear
            else (s.policy.kind (conditionKind i)).holdRaise) →
          (d.test = c.raised → d.raised = c.raised ∧ d.counter = 0) ∧
          (d.test ≠ c.raised → c.counter < hold →
            d.raised = c.raised ∧ d.counter = c.counter + 1) ∧
          (d.test ≠ c.raised → hold ≤ c.counter → d.raised = !c.raised ∧ d.counter = 0) ∧
          (hold ≤ 3000 → c.counter ≤ 3000 → d.counter ≤ 3000)) ∧
  ∀ (c : Condition) (policy : KindPolicy) (test : Bool) (hold : Nat),
    hold = (if c.raised then policy.holdClear else policy.holdRaise) →
    (test = c.raised → c.debounce policy test = { test := test, raised := c.raised, counter := 0 }) ∧
    (test ≠ c.raised → c.counter < hold →
      c.debounce policy test = { test := test, raised := c.raised, counter := c.counter + 1 }) ∧
    (test ≠ c.raised → hold ≤ c.counter →
      c.debounce policy test = { test := test, raised := !c.raised, counter := 0 }) ∧
    (test ≠ c.raised → c.counter = 0 → ∀ n : Nat, n ≤ hold →
      ((List.replicate n test).foldl (fun x sample => x.debounce policy sample) c).raised = c.raised ∧
        ((List.replicate (hold + 1) test).foldl (fun x sample => x.debounce policy sample) c).raised =
          !c.raised)

/-- At a block end every instance of a subject that is present is debounced against its test under the
policy of the ending block (R142, R143, R149), which gives `sampled`; one of an absent subject is kept. The
device's test is the monitor's HOLDOVER (R145); a link's two tests read its converter after the tracking of
this block end (R144); and a program's seven tests read its meter and gain stage after their block-end work
and its delay engine (R146 to R148), with the corrected level at the applied gain that stood before the gain
law of this block end (log entry 41). A subject that an apply removes has its instances forced CLEAR (R157),
and every other instance stands as sampled. The entries of the block end other than PROGRAM_CHANGED are, in
table order, those of the monitored edges under the ending block's records, and then those of the applies
under the new ones: WITHDRAWN where a monitored RAISED instance loses its subject or its monitoring and
the log edges include CLEAR, ADMITTED where a RAISED one gains monitoring (R152, R155 to R157). That the log
takes them with a new attendance timeout before or after, and the order inside the block end, are the model's
reading (log entry 15). The summary lines take a value after the sampling, which the ending block's records
give, before the one that the applies leave (R158); where a raise by the sampling and a withdrawal
of the same severity meet, both values are asserted (log entry 39). The slips that wait for the block end are
made after it (R137, R196; log entry 36): `u` is the state before them. -/
def Obligations.BlockEndDebounces : Prop :=
  ∀ s : State, s.resetAsserted = false → s.clock.blockDue = true →
    ∃ (u t : State) (sampled : Vector Condition 129), exec .blockEnd s = .next t ∧
      u.MakesSlips (List.finRange 8) t ∧
      (sampled[(0 : Fin 129)] =
        s.conditions[(0 : Fin 129)].debounce (s.policy.kind .refLost) (s.ref.state == .holdover)) ∧
      (∀ (l : Fin 8) (i : Fin 129) (test : Bool), (s.link l).enable = true →
        (i.val = 1 + 2 * l.val →
          (test = true ↔ (s.converters[l].blockEnd (s.link l).bandwidth).state = .lost) →
          sampled[i] = s.conditions[i].debounce (s.policy.kind .linkLost) test) ∧
        (i.val = 2 + 2 * l.val →
          (test = true ↔ ∀ c, c = s.converters[l].blockEnd (s.link l).bandwidth →
            c.state = .freewheel ∨ c.state = .relock ∨
              c.state = .acquire ∧ c.measured ≠ 0 ∧
                (c.measured < 167772160 ∨ 550292684 < c.measured)) →
          sampled[i] = s.conditions[i].debounce (s.policy.kind .linkUnlocked) test)) ∧
      (∀ (l : Fin 8) (i : Fin 129), (s.link l).enable = false →
        (i.val = 1 + 2 * l.val ∨ i.val = 2 + 2 * l.val) → sampled[i] = s.conditions[i]) ∧
      (∀ (p : Fin 16) (i : Fin 129) (test : Bool) (m : Meter), (s.program p).active = true →
        m = s.meters[p].blockEnd (s.program p).channels →
        (i.val = 17 + 7 * p.val →
          (test = true ↔ ∃ x, (s.program p).alarm = some x ∧ m.momentary.tenths < x.silence) →
          sampled[i] = s.conditions[i].debounce (s.policy.kind .silence) test) ∧
        (i.val = 18 + 7 * p.val → (test = true ↔ 1 ≤ s.gains[p].overloads) →
          sampled[i] = s.conditions[i].debounce (s.policy.kind .overload) test) ∧
        (i.val = 19 + 7 * p.val →
          (test = true ↔ ∃ x, (s.program p).loudness = some x ∧ m.shortTerm.measured = true ∧
            x.target + x.range < m.shortTerm.tenths + roundDiv s.gains[p].applied 10) →
          sampled[i] = s.conditions[i].debounce (s.policy.kind .loudHigh) test) ∧
        (i.val = 20 + 7 * p.val →
          (test = true ↔ ∃ x, (s.program p).loudness = some x ∧ m.shortTerm.measured = true ∧
            m.shortTerm.tenths + roundDiv s.gains[p].applied 10 < x.target - x.range ∧
            x.gate ≤ m.shortTerm.tenths) →
          sampled[i] = s.conditions[i].debounce (s.policy.kind .loudLow) test) ∧
        (i.val = 21 + 7 * p.val →
          (test = true ↔ ∃ (x : Loudness) (level : Level), (s.program p).loudness = some x ∧
            (x.mode = .integrated ∧ level = m.integrated ∨ x.mode = .shortTerm ∧ level = m.shortTerm) ∧
            level.measured = true ∧ x.gate ≤ level.tenths ∧
            ((x.target - level.tenths) * 10 < -10 * (x.maxCut : Int) ∨
              10 * (x.maxBoost : Int) < (x.target - level.tenths) * 10)) →
          sampled[i] = s.conditions[i].debounce (s.policy.kind .gainAtLimit) test) ∧
        (i.val = 22 + 7 * p.val → test = s.delays[p].clamped →
          sampled[i] = s.conditions[i].debounce (s.policy.kind .delayClamped) test) ∧
        (i.val = 23 + 7 * p.val → test = s.delays[p].syncLost →
          sampled[i] = s.conditions[i].debounce (s.policy.kind .syncLost) test)) ∧
      (∀ (p : Fin 16) (i : Fin 129), (s.program p).active = false →
        17 + 7 * p.val ≤ i.val → i.val ≤ 23 + 7 * p.val → sampled[i] = s.conditions[i]) ∧
      (∀ i : Fin 129,
        (s.tables.present i = true → t.tables.present i = false →
          t.conditions[i] = { test := false, raised := false, counter := 0 }) ∧
        (s.tables.present i = false ∨ t.tables.present i = true → t.conditions[i] = sampled[i])) ∧
      (t.pins.sampled.major = true ↔ s.tables.AlarmsAt sampled .major) ∧
      (t.pins.sampled.minor = true ↔ s.tables.AlarmsAt sampled .minor) ∧
      ∃ entries : List Entry, s.BlockLogged u entries ∧
        ∀ edged withdrawn admitted : Fin 129 → Bool,
          (∀ i, edged i = true ↔
            s.conditions[i].raised ≠ sampled[i].raised ∧ s.tables.monitored i = true ∧
              (s.policy.kind (conditionKind i)).edges.includes
                (if sampled[i].raised then .raised else .cleared) = true) →
          (∀ i, withdrawn i = true ↔
            sampled[i].raised = true ∧ s.tables.monitored i = true ∧
              (s.tables.present i = true ∧ t.tables.present i = false ∨ t.tables.monitored i = false) ∧
              (t.policy.kind (conditionKind i)).edges.includes .cleared = true) →
          (∀ i, admitted i = true ↔
            sampled[i].raised = true ∧ s.tables.monitored i = false ∧ t.tables.monitored i = true ∧
              (s.tables.present i = false ∨ t.tables.present i = true)) →
          (entries.filter fun e => e.kind != .programChanged) =
            (((List.finRange 129).filter edged).map fun i =>
              { kind := conditionKind i
                subject := conditionSubject i
                edge := if sampled[i].raised then .raised else .cleared
                severity := (s.policy.kind (conditionKind i)).severity
                stamp := s.clock.blocks + 1#32
                detail := .cause .sampled }) ++
            (((List.finRange 129).filter fun i => withdrawn i || admitted i).map fun i =>
              { kind := conditionKind i
                subject := conditionSubject i
                edge := if admitted i then .raised else .cleared
                severity := (t.policy.kind (conditionKind i)).severity
                stamp := s.clock.blocks + 1#32
                detail := .cause (if admitted i then .admitted else .withdrawn) })

/-- A converter's work at a block end: the counts and the measured ratio, the lock test, entry to LOCKED,
smoothing and centring, FREEWHEEL and RELOCK (R47 to R54). And a link apply at a block end (R20, R30, R60):
off to on starts the receiver and puts the converter into ACQUIRE with its totals at 0; on to off stops both,
with the totals kept; otherwise the receiver is kept and the converter is as that work leaves it. `u` is the state before the slips
that waited for the block end are made (R57, R60, R196; log entry 36): they come after that work, and a
converter that the apply has disabled makes none. -/
def Obligations.BlockEndAppliesLinks : Prop :=
  (∀ (c : Converter) (bandwidth : Bandwidth), c.TracksBlock bandwidth (c.blockEnd bandwidth)) ∧
  ∀ s : State, s.resetAsserted = false → s.clock.blockDue = true →
    ∃ u t : State, exec .blockEnd s = .next t ∧ u.MakesSlips (List.finRange 8) t ∧ ∀ l : Fin 8,
      ((s.link l).enable = false → (t.link l).enable = true →
        t.receivers[l] = { state := .present, timer := some 0, run := 0, inFrame := false } ∧
        u.converters[l].state = .acquire ∧ u.converters[l].fifo = [] ∧
        u.converters[l].history = [] ∧ u.converters[l].counts = [] ∧
        u.converters[l].measures = [] ∧ u.converters[l].counter = 0 ∧ u.converters[l].ratio = 0 ∧
        u.converters[l].measured = 0 ∧ u.converters[l].deletes = 0 ∧ u.converters[l].repeats = 0 ∧
        u.converters[l].slipWaits = false) ∧
      ((s.link l).enable = true → (t.link l).enable = false →
        t.receivers[l] = { state := .off, timer := none, run := 0, inFrame := false } ∧
        u.converters[l].state = .idle ∧ u.converters[l].fifo = [] ∧ u.converters[l].history = [] ∧
        u.converters[l].ratio = 0 ∧ u.converters[l].used = 0 ∧ u.converters[l].measured = 0 ∧
        u.converters[l].counts = [] ∧ u.converters[l].measures = [] ∧
        u.converters[l].counter = 0 ∧ u.converters[l].fade = 0 ∧
        u.converters[l].deletes = s.converters[l].deletes ∧
        u.converters[l].repeats = s.converters[l].repeats ∧ u.converters[l].slipWaits = false ∧
        t.converters[l] = u.converters[l]) ∧
      ((s.link l).enable = (t.link l).enable →
        t.receivers[l] = s.receivers[l] ∧
        u.converters[l] = s.converters[l].blockEnd (s.link l).bandwidth)

/-- A program at a block end (R15 to R17, R64 to R79, R98, R110, R117, R118, R123 to R126). UNUSED to ACTIVE
starts meter, gain stage and delay engine clear, with the lanes laid out in FILLING where the window is
usable. ACTIVE to UNUSED empties the schedule, sets the applied gain to 0, holds the factor, starts a
closing fade of 480 frames under the old content, and keeps the meter as its block-end work leaves it. A
program that stays ACTIVE has its meter's block-end work, emptied where channel count, an input slot or a
weight changes with the filters of unchanged inputs kept; and its delay engine stays in BYPASS, enters it,
is laid out anew, or takes the new target on the lanes in place and then decides its step. A program that
stays UNUSED keeps its gain stage, drops a pending clear, and makes no step decision. Every sync flag is
formed anew (R136). What the meter's block-end work leaves, and the levels and the power factors it uses,
are given for every meter. `u` is the state before the slips that waited for the block end are made: their
notices correct the lanes that the applies have left (R133, R196; log entry 36). -/
def Obligations.BlockEndStartsAndClosesPrograms : Prop :=
  PowerFactorsRounded ∧ LevelsFloored ∧
  (∀ (m : Meter) (channels : List Channel), m.ClosesBlock channels (m.blockEnd channels)) ∧
  ∀ s : State, s.resetAsserted = false → s.clock.blockDue = true →
    ∃ u t : State, exec .blockEnd s = .next t ∧ u.MakesSlips (List.finRange 8) t ∧ ∀ p : Fin 16,
      ((s.program p).active = false → (t.program p).active = true →
        t.meters[p] = Meter.fresh (t.program p).channels.length ∧
        t.gains[p] = { GainStage.initial with selected := (t.program p).source } ∧
        ((t.program p).usable = none → u.delays[p] = DelayEngine.initial) ∧
        (∀ x, (t.program p).usable = some x →
          u.delays[p].state = .filling ∧
          u.delays[p].layout = some
            { base := x.base
              pages := (x.limit + 1 - x.base) / (t.program p).channels.length
              lanes := (t.program p).channels.length } ∧
          u.delays[p].target = min x.target u.delays[p].usable ∧
          u.delays[p].current = u.delays[p].target * 65536 ∧
          u.delays[p].lanes =
            List.replicate (t.program p).channels.length { valid := 0, correction := 0 })) ∧
      ((s.program p).active = true → (t.program p).active = false →
        t.gains[p].applied = 0 ∧ t.gains[p].queue = [] ∧ t.gains[p].ramp = none ∧
        t.gains[p].factor = (s.closeBlock.gains[p]).factor ∧ t.gains[p].closing = 480 ∧
        t.gains[p].closingContent = some (s.program p) ∧
        t.gains[p].selected = s.gains[p].selected ∧ t.gains[p].fade = s.gains[p].fade ∧
        t.meters[p] = s.meters[p].blockEnd (s.program p).channels ∧
        u.delays[p].state = s.delays[p].state ∧ u.delays[p].layout = s.delays[p].layout ∧
        u.delays[p].lanes = s.delays[p].lanes ∧ u.delays[p].current = s.delays[p].current) ∧
      ((s.program p).active = true → (t.program p).active = true →
        ∀ m : Meter, m = s.meters[p].blockEnd (s.program p).channels →
        ((s.program p).channels.map (fun c => (c.input, c.weight)) =
            (t.program p).channels.map (fun c => (c.input, c.weight)) → t.meters[p] = m) ∧
        ((s.program p).channels.map (fun c => (c.input, c.weight)) ≠
            (t.program p).channels.map (fun c => (c.input, c.weight)) →
          t.meters[p] =
            { channels := t.meters[p].channels
              ring := []
              momentary := { tenths := -1000, measured := false }
              shortTerm := { tenths := -1000, measured := false }
              integrated := { tenths := -1000, measured := false }
              histogram := Vector.replicate 170 { count := 0, energy := 0 }
              clearPending := false } ∧
          t.meters[p].channels.length = (t.program p).channels.length ∧
          ∀ (k : Nat) (new : Channel), (t.program p).channels[k]? = some new →
            (∀ (old : Channel) (x : ChannelMeter),
              (s.program p).channels[k]? = some old → m.channels[k]? = some x →
              t.meters[p].channels[k]? = some (if old.input = new.input then x else ChannelMeter.zero)) ∧
            ((s.program p).channels[k]? = none →
              t.meters[p].channels[k]? = some ChannelMeter.zero)) ∧
        ((t.program p).usable = none →
          (s.delays[p].state = .bypass →
            u.delays[p] = { s.delays[p] with syncLost := u.delays[p].syncLost }) ∧
          (s.delays[p].state ≠ .bypass → u.delays[p] = DelayEngine.initial)) ∧
        ∀ x, (t.program p).usable = some x →
          (sameLayout (s.program p) (t.program p) = false →
            u.delays[p] = layOut (t.program p).channels.length x) ∧
          (sameLayout (s.program p) (t.program p) = true →
            ∃ d e : DelayEngine, s.delays[p].Retargets x d ∧ d.Decides x e ∧
              u.delays[p] = { e with syncLost := u.delays[p].syncLost })) ∧
      ((s.program p).active = false → (t.program p).active = false →
        t.meters[p] = { s.meters[p] with clearPending := false } ∧ t.gains[p] = s.gains[p] ∧
        u.delays[p] = { s.delays[p] with syncLost := u.delays[p].syncLost }) ∧
      (u.delays[p].syncLost = true ↔ ∃ lane ∈ u.delays[p].lanes,
        (u.delays[p].current : Int) + lane.correction * 65536 < 0 ∨
          (u.delays[p].usable : Int) * 65536 <
            (u.delays[p].current : Int) + lane.correction * 65536)

/-! ## Meters, gain and delay on their own -/

/-- The new scheduled gain (R86): equal to the desired gain where that lies within slew of the last
scheduled gain, and otherwise exactly slew hundredths from it, on the side of the desired gain. With the
clamp of R85 it stays within the limits of the loudness section that the last scheduled gain kept. At a
BLOCK_END the gain stage of a program that is ACTIVE before and after follows the gain law on the levels its
meter leaves (R83 to R88, R95) and then the apply (R18, R19, R97); where D_c is set anew the schedule also
meets the new Q (R17, R90), before or after the apply (log entry 16), entry into BYPASS sets the fade level to
0 (R98), and a program that is in BYPASS before and after does not restart its output (log entry 17). At a
HOUSE_FRAME the stage of a program with content in force takes its due entries, fade, ramp and source steps
and counts the gain products that saturate (R89, R92 to R97); that of an ACTIVE one meets the jump where a
FADE_OUT ends at it (R90, R129), and the closing count of a closing one falls by 1 (R93, R98). At the BLOCK_END
`u` is the state before the slips that waited for it are made, which change no gain stage (log entry 36). -/
def Obligations.GainMovesOneSlewStep : Prop :=
  (∀ (last desired : Int) (slew : Nat),
    ((desired - last).natAbs ≤ slew → towards last desired slew = desired) ∧
    (slew < (desired - last).natAbs →
      (last < desired → towards last desired slew = last + slew) ∧
      (desired < last → towards last desired slew = last - slew)) ∧
    ∀ (x : Loudness) (level : Int),
      -10 * (x.maxCut : Int) ≤ last → last ≤ 10 * (x.maxBoost : Int) →
        -10 * (x.maxCut : Int) ≤ towards last (x.clamp (x.desired level)) slew ∧
          towards last (x.clamp (x.desired level)) slew ≤ 10 * (x.maxBoost : Int)) ∧
  (∀ s : State, s.resetAsserted = false → s.clock.blockDue = true →
    ∃ u t : State, exec .blockEnd s = .next t ∧ u.MakesSlips (List.finRange 8) t ∧ ∀ p : Fin 16,
      (s.program p).active = true → (t.program p).active = true →
        ∃ g : GainStage,
          s.gains[p].FollowsLaw (s.program p).loudness (s.meters[p].blockEnd (s.program p).channels)
            ((s.clock.frames : Int) - (s.delays[p].current / 65536 : Nat)) s.clock.frames g ∧
          (s.delays[p].StaysPut (s.program p) (t.program p) →
            g.TakesContent (s.program p) (t.program p) t.gains[p]) ∧
          (¬ s.delays[p].StaysPut (s.program p) (t.program p) →
            ∃ h k : GainStage,
              (g.TakesContent (s.program p) (t.program p) h ∧
                  h.Jumps ((s.clock.frames : Int) - (u.delays[p].current / 65536 : Nat)) k ∨
                g.Jumps ((s.clock.frames : Int) - (u.delays[p].current / 65536 : Nat)) h ∧
                  h.TakesContent (s.program p) (t.program p) k) ∧
              t.gains[p] = { k with fade := t.gains[p].fade } ∧
              ((t.program p).usable = none → t.gains[p].fade = 0) ∧
              ((t.program p).usable ≠ none → t.gains[p].fade = k.fade))) ∧
  ∀ s : State, s.resetAsserted = false → s.clock.blockDue = false →
    ∃ (t : State) (delivered : Vector (Vector Sample 8) 8) (before after : List SlipNotice),
      exec .houseFrame s = .next t ∧
      (∀ l : Fin 8, s.converters[l].Delivers t.converters[l].fade delivered[l]) ∧
      (before ++ after).Perm
        ((List.finRange 8).filterMap fun l => (s.converters[l].houseFrame l (s.slipLater l)).2.2) ∧
      ∀ (p : Fin 16) (r : ProgramRecord), s.content p = some r →
        ∃ (written samples : List Sample) (m : Memory) (d : DelayEngine) (g h : GainStage),
          s.WorksFrame delivered before p r written samples m d g ∧ g.Finishes samples h ∧
          ((s.program p).active = true → s.gains[p].closing = 0 →
            (d.state ≠ .fadeOut ∨ g.fade ≠ 0 → t.gains[p] = h) ∧
            (d.state = .fadeOut → g.fade = 0 →
              h.Jumps ((s.clock.frames + 1 : Int) - s.delays[p].target) t.gains[p])) ∧
          ((s.program p).active = false → s.gains[p].closing ≠ 1 →
            t.gains[p] = { h with closing := s.gains[p].closing - 1 })

/-- A ramp gives `K_start + floor((K_end − K_start) × i ÷ 4,800)` at step i, between its two ends, and
its end exactly at step 4,800 (R92). The factor of a gain is the rounded power of ten (R91), from 104,858 at
−20.00 dB to 10,485,760 at +20.00 dB; and the line-up tone at phase n is `1,056,064 × sin(2πn ÷ 48)` rounded
to nearest (R99). -/
def Obligations.RampRunsToItsEnd : Prop :=
  GainFactorsRounded ∧ gainFactor (-2000) = 104858 ∧ gainFactor 2000 = 10485760 ∧
  (∀ n : Nat, n < 48 → |(tone n : ℝ) - 1056064 * Real.sin (2 * Real.pi * n / 48)| < 1 / 2) ∧
  ∀ (r : Ramp) (i : Nat), i ≤ 4800 →
    (r.factor i : Int) = (r.start : Int) + ((r.stop : Int) - r.start) * i / 4800 ∧
      min r.start r.stop ≤ r.factor i ∧ r.factor i ≤ max r.start r.stop ∧ r.factor 4800 = r.stop

/-- A layout of n channels in a usable window (R107, R109, R110, R117): P = floor(W ÷ n) pages per lane,
C = P × 1,024, U = C − 128, D_t = min(requested, U), D_c = D_t, every valid depth and correction 0, and
FILLING; the lanes lie within the window, and U is at least 896. -/
def Obligations.LayoutDividesWindow : Prop :=
  ∀ (n : Nat) (x : DelaySection), 0 < n → x.base ≤ x.limit → n ≤ x.limit + 1 - x.base →
    ∃ d, layOut n x = d ∧ d.state = .filling ∧
      d.layout = some { base := x.base, pages := (x.limit + 1 - x.base) / n, lanes := n } ∧
      d.capacity = (x.limit + 1 - x.base) / n * 1024 ∧ d.usable = d.capacity - 128 ∧
      896 ≤ d.usable ∧ d.target = min x.target d.usable ∧ d.current = d.target * 65536 ∧
      d.step = none ∧ d.lanes = List.replicate n { valid := 0, correction := 0 } ∧
      (d.clamped = true ↔ d.usable < x.target) ∧
      x.base + n * ((x.limit + 1 - x.base) / n) ≤ x.limit + 1

/-- D_c glides by `D_s + floor(step × i ÷ 4,800)`, and holds D_s + step exactly at i = 4,800 (R127), for a
step that keeps D_c from falling below zero. -/
def Obligations.DelayGlidesByItsStep : Prop :=
  ∀ (d : DelayEngine) (x : DelayStep), d.step = some x → x.frames < 4800 → 0 ≤ (x.start : Int) + x.amount →
    (d.glide.current : Int) = (x.start : Int) + x.amount * ((x.frames + 1 : Nat) : Int) / 4800 ∧
      d.glide.step = some { x with frames := x.frames + 1 } ∧
      (x.frames = 4799 → (d.glide.current : Int) = (x.start : Int) + x.amount)

/-- A slip notice (R132, R133, R136): in an ACTIVE program with lanes, a lane whose channel takes its input
from the notice's link is corrected by the equivalent, bounded to 32 bits, every other lane and every
other field but the sync flag is kept, and the sync flag says whether a lane's sum lies outside 0 to U. -/
def Obligations.SlipCorrectsLanesOfItsLink : Prop :=
  ∀ (d : DelayEngine) (r : ProgramRecord) (n : SlipNotice),
    r.active = true → d.layout.isSome = true →
      ∃ e, d.correct r n = e ∧ e = { d with lanes := e.lanes, syncLost := e.syncLost } ∧
        e.lanes.length = d.lanes.length ∧
        (∀ (l : Nat) (before after : Lane), d.lanes[l]? = some before → e.lanes[l]? = some after →
          after.valid = before.valid ∧
          ((∃ c, r.channels[l]? = some c ∧ c.feedsFrom n.link = true) →
            after.correction =
              max (-2147483648) (min 2147483647
                (match n.direction with
                 | .delete => before.correction + n.equivalent
                 | .repeat => before.correction - n.equivalent))) ∧
          ((∀ c, r.channels[l]? = some c → c.feedsFrom n.link = false) → after = before)) ∧
        (e.syncLost = true ↔ ∃ x ∈ e.lanes,
          (e.current : Int) + x.correction * 65536 < 0 ∨
            (e.usable : Int) * 65536 < (e.current : Int) + x.correction * 65536)

/-- The jump at the end of a FADE_OUT (R129): D_c becomes D_t, every correction 0, and the program enters
FADE_IN where every valid depth is at least D_t + 16, else FILLING. -/
def Obligations.JumpTakesTarget : Prop :=
  ∀ d : DelayEngine, d.target ≤ d.usable →
    d.jump.current = d.target * 65536 ∧ d.jump.target = d.target ∧
      d.jump.lanes = d.lanes.map (fun x => { valid := x.valid, correction := 0 }) ∧
      ((∀ x ∈ d.lanes, d.target + 16 ≤ x.valid) → d.jump.state = .fadeIn) ∧
      ((∃ x ∈ d.lanes, x.valid < d.target + 16) → d.jump.state = .filling) ∧
      d.jump.syncLost = false

/-! ## Transactions -/

/-- SELECT_ASSERT (R178, R195). On an idle port with RESETn released the whole output is fixed as
PENDING, the held response's frame or NONE, each followed by zeros, and the transaction is pending or
normal; nothing else changes. While RESETn is asserted, and while the port waits for select to be seen
released, no transaction starts. -/
def Obligations.SelectAssertFixesOutput : Prop :=
  ∀ (q : Port) (s : State),
    (s.resetAsserted = true →
      exec (.selectAssert q) s = .next (s.setPort q { s.port q with select := true })) ∧
    (s.resetAsserted = false → (s.port q).transaction = .waiting →
      exec (.selectAssert q) s = .next s) ∧
    (s.resetAsserted = false → (s.port q).transaction = .idle →
      ∃ t, exec (.selectAssert q) s = .next t ∧ t = s.setPort q (t.port q) ∧
        (t.port q).select = true ∧ (t.port q).executing = (s.port q).executing ∧
        (t.port q).sdo = (s.port q).sdo ∧
        ((s.port q).executing.isSome = true →
          (t.port q).transaction = .pending ∧ (t.port q).output = [0x02#8, 0#8, 0#8]) ∧
        ((s.port q).executing = none → (t.port q).transaction = .normal ∧
          ((s.port q).held = none → (t.port q).output = [0#8, 0#8, 0#8]) ∧
          ∀ r, (s.port q).held = some r →
            (t.port q).output =
                r.status.code :: bytes16 (BitVec.ofNat 16 r.body.length) ++ r.body ∧
              (t.port q).held = some { r with clocked := 0 }))

/-- NULL, UNKNOWN and LENGTH at the end of a normal transaction (R179): after NULL the held response is
discarded if its whole frame was clocked out, and otherwise kept with the count of its bytes clocked out;
after UNKNOWN and LENGTH it is replaced by the status with an empty body. No block is reached, and nothing
else changes. That the row carries the whole transaction, so that its bytes clocked out are those clocked
in and stand in sdo and that input and position are [] and 0 after it, is the model's choice (log entry 6),
here and in every statement below that uses PortReleased. -/
def Obligations.FramesWithoutRequestAnswered : Prop :=
  ∀ (q : Port) (sdi : List Bool) (s : State), s.InNormal q →
    ((Instr.null q sdi).wellFormed = true →
      ∃ t, exec (.null q sdi) s = .next t ∧ OnlyPortsDiffer s t ∧
        TransactionEnds q (bytesOfBits sdi).length s t ∧
        (t.port q).executing = (s.port q).executing ∧
        ((s.port q).held = none → (t.port q).held = none) ∧
        ∀ r, (s.port q).held = some r →
          (3 + r.body.length ≤ (bytesOfBits sdi).length → (t.port q).held = none) ∧
          ((bytesOfBits sdi).length < 3 + r.body.length →
            (t.port q).held = some { r with clocked := (bytesOfBits sdi).length })) ∧
    ((Instr.unknown q sdi).wellFormed = true →
      ∃ t, exec (.unknown q sdi) s = .next t ∧ OnlyPortsDiffer s t ∧
        TransactionEnds q (bytesOfBits sdi).length s t ∧
        (t.port q).executing = (s.port q).executing ∧
        (t.port q).held = some { status := .unknown, body := [], clocked := 0 }) ∧
    ((Instr.length q sdi).wellFormed = true →
      ∃ t, exec (.length q sdi) s = .next t ∧ OnlyPortsDiffer s t ∧
        TransactionEnds q (bytesOfBits sdi).length s t ∧
        (t.port q).executing = (s.port q).executing ∧
        (t.port q).held = some { status := .length, body := [], clocked := 0 })

/-- PENDING_TRANSACTION_END (R181): unless its input is a complete PORT RESET, the input is ignored, the
held response and the executing request are kept, and the port attends. -/
def Obligations.PendingTransactionIgnoresInput : Prop :=
  ∀ (q : Port) (sdi : List Bool) (s : State), s.resetAsserted = false →
    (s.port q).transaction = .pending → completesPortReset (bytesOfBits sdi) = false →
      ∃ t, exec (.pendingTransactionEnd q sdi) s = .next t ∧ OnlyPortsDiffer s t ∧
        TransactionEnds q (bytesOfBits sdi).length s t ∧
        (t.port q).held = (s.port q).held ∧ (t.port q).executing = (s.port q).executing

/-- SELECT_SEEN_RELEASED on a port that waits for it (R195): the port is idle, and the release ends no
transaction, so nothing else changes. -/
def Obligations.WaitEndsWithoutTransaction : Prop :=
  ∀ (q : Port) (s : State), s.resetAsserted = false → (s.port q).transaction = .waiting →
    exec (.selectSeenReleased q) s =
      .next (s.setPort q { s.port q with transaction := .idle, select := false })

/-- The test for retirement (R165, R167): while no port attends nothing retires, and otherwise the longest
run of entries at the old end that every attending port has read leaves, each one adding 1 to the missed count
of a port that had not read it and moving its cursor on. And ATTENDANCE_EXPIRY of a timer that has reached a
timeout other than 0 (R164): the port is ABSENT, retirement is tested, and nothing else changes but ATN. -/
def Obligations.AttendanceExpires : Prop :=
  (∀ log : AlarmLog, log.Retires log.retire) ∧
  ∀ (q : Port) (s : State), (s.place q).attending = true → s.policy.timeout ≠ 0 →
    s.policy.timeout * Config.second ≤ (s.place q).timer →
      ∃ t, exec (.attendanceExpiry q) s = .next t ∧ t = { s with log := t.log, pins := t.pins } ∧
        t.log = (s.setPlace q { s.place q with attending := false }).log.retire ∧
        (t.place q).attending = false ∧ PinsFollow s t

/-! ## Requests that read -/

/-- IDENTIFY (R184): DONE with 0x5A43, 6416, 1, 16, 8 and 128. -/
def Obligations.IdentifyAnswers : Prop :=
  ∀ (q : Port) (surplus : List Bool) (s : State), s.InNormal q →
    ∃ t, exec (.identify q surplus) s = .next t ∧ OnlyPortsDiffer s t ∧
      TransactionEnds q (clockedBytes (.identify q surplus)) s t ∧
      (t.port q).executing = (s.port q).executing ∧
      (t.port q).held =
        some { status := .done, body := [0x5A#8, 0x43#8, 0x19#8, 0x10#8, 1#8, 16#8, 8#8, 128#8],
               clocked := 0 }

/-- READ_PROGRAM, READ_LINK and READ_POLICY (R13, R185): DONE with the revision, the staged flag and the
newest accepted content, and for a link its status part (R61); RANGE for a number outside the table. That of
an R or R_meas of 2^32 or more the status part shows the low 32 bits is the model's choice (log entry 33). -/
def Obligations.RecordReadsAnswer : Prop :=
  (∀ (q : Port) (p : Byte) (surplus : List Bool) (s : State), s.InNormal q →
    ∃ t, exec (.readProgram q p surplus) s = .next t ∧ OnlyPortsDiffer s t ∧
      TransactionEnds q (clockedBytes (.readProgram q p surplus)) s t ∧
      (t.port q).executing = (s.port q).executing ∧
      (16 ≤ p.toNat → (t.port q).held = some { status := .range, body := [], clocked := 0 }) ∧
      ∀ k : Fin 16, k.val = p.toNat →
        (t.port q).held = some
          { status := .done
            body := bytes16 s.tables.programs[k].revision ++
              [if s.tables.programs[k].staged.isSome then 1#8 else 0#8] ++
              programBytes s.tables.programs[k].newest
            clocked := 0 }) ∧
  (∀ (q : Port) (l : Byte) (surplus : List Bool) (s : State), s.InNormal q →
    ∃ t, exec (.readLink q l surplus) s = .next t ∧ OnlyPortsDiffer s t ∧
      TransactionEnds q (clockedBytes (.readLink q l surplus)) s t ∧
      (t.port q).executing = (s.port q).executing ∧
      (8 ≤ l.toNat → (t.port q).held = some { status := .range, body := [], clocked := 0 }) ∧
      ∀ k : Fin 8, k.val = l.toNat →
        (t.port q).held = some
          { status := .done
            body := bytes16 s.tables.links[k].revision ++
              [if s.tables.links[k].staged.isSome then 1#8 else 0#8] ++
              linkBytes s.tables.links[k].newest ++ statusBytes s.converters[k]
            clocked := 0 }) ∧
  (∀ (q : Port) (surplus : List Bool) (s : State), s.InNormal q →
    ∃ t, exec (.readPolicy q surplus) s = .next t ∧ OnlyPortsDiffer s t ∧
      TransactionEnds q (clockedBytes (.readPolicy q surplus)) s t ∧
      (t.port q).executing = (s.port q).executing ∧
      (t.port q).held = some
        { status := .done
          body := bytes16 s.tables.policy.revision ++
            [if s.tables.policy.staged.isSome then 1#8 else 0#8] ++ policyBytes s.tables.policy.newest
          clocked := 0 })

/-- READ_METER (R188): DONE with the levels, total count, applied gain, queue length, delay state, D_c,
D_t, U and the lanes of the program, 29 + 8n bytes; RANGE for a program outside 0 to 15. The order of the
lane fields is the model's reading (log entry 31), and that the valid depths shown go on rising through a
closing fade its choice (log entry 40). -/
def Obligations.MeterReadAnswers : Prop :=
  ∀ (q : Port) (p : Byte) (surplus : List Bool) (s : State), s.InNormal q →
    ∃ t, exec (.readMeter q p surplus) s = .next t ∧ OnlyPortsDiffer s t ∧
      TransactionEnds q (clockedBytes (.readMeter q p surplus)) s t ∧
      (t.port q).executing = (s.port q).executing ∧
      (16 ≤ p.toNat → (t.port q).held = some { status := .range, body := [], clocked := 0 }) ∧
      ∀ k : Fin 16, k.val = p.toNat →
        ∃ body, (t.port q).held = some { status := .done, body := body, clocked := 0 } ∧
          body.length = 29 + 8 * s.delays[k].lanes.length ∧
          body.take 28 =
            bytes16 (BitVec.ofInt 16 s.meters[k].momentary.tenths) ++
              bytes16 (BitVec.ofInt 16 s.meters[k].shortTerm.tenths) ++
              bytes16 (BitVec.ofInt 16 s.meters[k].integrated.tenths) ++
              bytes32 (BitVec.ofNat 32 ((s.meters[k].histogram.toList.map Bin.count).sum)) ++
              bytes16 (BitVec.ofInt 16 s.gains[k].applied) ++
              [BitVec.ofNat 8 s.gains[k].queue.length, s.delays[k].state.code] ++
              bytes48 (BitVec.ofNat 48 s.delays[k].current) ++
              bytes32 (BitVec.ofNat 32 s.delays[k].target) ++
              bytes32 (BitVec.ofNat 32 s.delays[k].usable) ∧
          body[28]? = some (BitVec.ofNat 8 s.delays[k].lanes.length) ∧
          body.drop 29 =
            s.delays[k].lanes.flatMap (fun x => bytes32 (BitVec.ofInt 32 x.correction)) ++
              s.delays[k].lanes.flatMap fun x => bytes32 (BitVec.ofNat 32 x.valid)

/-- READ_CONDITIONS (R159, R190): DONE with 179 bytes. The first 50 are two for each of the twenty-five
subject groups in order: how many of its instances are RAISED, and the highest severity among those that
are RAISED and monitored, 255 where there is none. The last 129 give the test, state and monitored flag of
each instance in table order. -/
def Obligations.ConditionReadAnswers : Prop :=
  ∀ (q : Port) (surplus : List Bool) (s : State), s.InNormal q →
    ∃ t, exec (.readConditions q surplus) s = .next t ∧ OnlyPortsDiffer s t ∧
      TransactionEnds q (clockedBytes (.readConditions q surplus)) s t ∧
      (t.port q).executing = (s.port q).executing ∧
      ∃ body, (t.port q).held = some { status := .done, body := body, clocked := 0 } ∧
        body.length = 179 ∧
        (∀ (j : Fin 25) (group : Fin 129 → Bool),
          (∀ i : Fin 129, group i = true ↔
            j.val = if i.val = 0 then 0 else if i.val < 17 then 1 + (i.val - 1) / 2
              else 9 + (i.val - 17) / 7) →
          body[2 * j.val]? = some (BitVec.ofNat 8
            ((List.finRange 129).filter fun i => group i && s.conditions[i].raised).length) ∧
          ∀ raised : Severity → Prop,
            (∀ x, raised x ↔ ∃ i, group i = true ∧ s.conditions[i].raised = true ∧
              s.tables.monitored i = true ∧ (s.policy.kind (conditionKind i)).severity = x) →
            (raised .major → body[2 * j.val + 1]? = some 2#8) ∧
            (¬ raised .major → raised .minor → body[2 * j.val + 1]? = some 1#8) ∧
            (¬ raised .major → ¬ raised .minor → raised .note → body[2 * j.val + 1]? = some 0#8) ∧
            ((∀ x, ¬ raised x) → body[2 * j.val + 1]? = some 255#8)) ∧
        ∀ i : Fin 129, body[50 + i.val]? = some
          (BitVec.ofNat 8 (s.conditions[i].test.toNat + 2 * s.conditions[i].raised.toNat
            + 4 * (s.tables.monitored i).toNat))

/-! ## Requests that change -/

/-- WRITE_PROGRAM that passes range, revision and conflict (R6, R11, R186): the revision rises by 1, the
record becomes the staged copy of this port, the port joins the waiting list and is pending with no held
response; the applied content, every other record and every block are kept. -/
def Obligations.WriteProgramAccepted : Prop :=
  ∀ (q : Port) (p : Byte) (rev : BitVec 16) (record : List Byte) (surplus : List Bool) (s : State)
    (k : Fin 16) (content : ProgramRecord),
    s.InNormal q → (Instr.writeProgram q p rev record surplus).wellFormed = true →
    k.val = p.toNat → programOfBytes record = some content → content.inRange = true →
    rev = s.tables.programs[k].revision → s.tables.conflict k content = none →
      ∃ t, exec (.writeProgram q p rev record surplus) s = .next t ∧
        t = { s with tables := t.tables, ports := t.ports, log := t.log, pins := t.pins } ∧
        TransactionEnds q (clockedBytes (.writeProgram q p rev record surplus)) s t ∧
        t.tables =
          { s.tables with
            programs := s.tables.programs.set k
              { applied := s.tables.programs[k].applied
                revision := rev + 1#16
                staged := some { content := content, origin := q }
                waiting := s.tables.programs[k].waiting ++ [{ port := q, revision := rev + 1#16 }] } } ∧
        (t.port q).held = none ∧
        (t.port q).executing = some { record := .program k, revision := rev + 1#16 }

/-- WRITE_PROGRAM refused (R6, R7, R9, R10, R183): RANGE for a number or a record out of range, STALE with
the current revision for another revision, CONFLICT with the lowest-numbered conflicting program and the
kind of conflict; the tables stay as they were, and the transaction ends as every other does. -/
def Obligations.WriteProgramRefused : Prop :=
  ∀ (q : Port) (p : Byte) (rev : BitVec 16) (record : List Byte) (surplus : List Bool) (s : State),
    s.InNormal q → (Instr.writeProgram q p rev record surplus).wellFormed = true →
    ∃ t, exec (.writeProgram q p rev record surplus) s = .next t ∧
      TransactionEnds q (clockedBytes (.writeProgram q p rev record surplus)) s t ∧
      ((16 ≤ p.toNat ∨ (programOfBytes record).all (fun r => !r.inRange) = true) →
        OnlyPortsDiffer s t ∧ (t.port q).executing = (s.port q).executing ∧
          (t.port q).held = some { status := .range, body := [], clocked := 0 }) ∧
      ∀ (k : Fin 16) (content : ProgramRecord), k.val = p.toNat →
        programOfBytes record = some content → content.inRange = true →
        (rev ≠ s.tables.programs[k].revision →
          OnlyPortsDiffer s t ∧ (t.port q).executing = (s.port q).executing ∧
            (t.port q).held = some
              { status := .stale, body := bytes16 s.tables.programs[k].revision, clocked := 0 }) ∧
        (rev = s.tables.programs[k].revision →
          ∀ other kind, s.tables.conflict k content = some (other, kind) →
            OnlyPortsDiffer s t ∧ (t.port q).executing = (s.port q).executing ∧
              (t.port q).held = some
                { status := .conflict
                  body := [BitVec.ofNat 8 other.val, match kind with | .slot => 0#8 | .pages => 1#8]
                  clocked := 0 })

/-- The conflict check (R10, R183): none exactly where no other program's applied or staged content shares
an output slot or a window page with the new content; else the lowest-numbered other program that does,
on a slot where it shares one, and otherwise on a page that it shares. -/
def Obligations.ConflictCheckExact : Prop :=
  ∀ (t : Tables) (k : Fin 16) (content : ProgramRecord),
    (t.conflict k content = none ↔
      ∀ q : Fin 16, q ≠ k → ∀ y ∈ t.programs[q].contents,
        (∀ slot ∈ content.outputs, slot ∉ y.outputs) ∧
        ∀ a b, content.delay = some a → y.delay = some b → ∀ page,
          ¬ ((a.base ≤ page ∧ page ≤ a.limit) ∧ (b.base ≤ page ∧ page ≤ b.limit))) ∧
    ∀ other kind, t.conflict k content = some (other, kind) →
      other ≠ k ∧
      (∀ q : Fin 16, q ≠ k → q < other → (t.programs[q].conflict content) = none) ∧
      (kind = .slot ↔ ∃ y ∈ t.programs[other].contents, ∃ slot ∈ content.outputs, slot ∈ y.outputs) ∧
      (kind = .pages → ∃ y ∈ t.programs[other].contents, ∃ a b, content.delay = some a ∧
        y.delay = some b ∧ ∃ page,
          (a.base ≤ page ∧ page ≤ a.limit) ∧ b.base ≤ page ∧ page ≤ b.limit)

/-- WRITE_LINK (R6, R8, R9, R11, R186): accepted where link, fields and revision pass, STALE with the
current revision or RANGE where they do not. -/
def Obligations.WriteLinkChecked : Prop :=
  ∀ (q : Port) (l : Byte) (rev : BitVec 16) (e n b : Byte) (kinds : KindSet) (surplus : List Bool)
    (s : State), s.InNormal q →
    ∃ t, exec (.writeLink q l rev e n b kinds surplus) s = .next t ∧
      t = { s with tables := t.tables, ports := t.ports, log := t.log, pins := t.pins } ∧
      TransactionEnds q (clockedBytes (.writeLink q l rev e n b kinds surplus)) s t ∧
      ((8 ≤ l.toNat ∨ 1 < e.toNat ∨ n.toNat < 2 ∨ 8 < n.toNat ∨ 2 < b.toNat ∨
          kinds &&& ~~~0x0006#16 ≠ 0#16) →
        t.tables = s.tables ∧ (t.port q).executing = (s.port q).executing ∧
          (t.port q).held = some { status := .range, body := [], clocked := 0 }) ∧
      ∀ (k : Fin 8) (content : LinkRecord), k.val = l.toNat →
        linkOfBytes ([e, n, b] ++ bytes16 kinds) = some content → content.inRange = true →
        (rev ≠ s.tables.links[k].revision →
          t.tables = s.tables ∧ (t.port q).executing = (s.port q).executing ∧
            (t.port q).held = some
              { status := .stale, body := bytes16 s.tables.links[k].revision, clocked := 0 }) ∧
        (rev = s.tables.links[k].revision →
          t.tables =
            { s.tables with
              links := s.tables.links.set k
                { applied := s.tables.links[k].applied
                  revision := rev + 1#16
                  staged := some { content := content, origin := q }
                  waiting := s.tables.links[k].waiting ++ [{ port := q, revision := rev + 1#16 }] } } ∧
          (t.port q).held = none ∧
          (t.port q).executing = some { record := .link k, revision := rev + 1#16 })

/-- WRITE_POLICY (R6, R8, R9, R11, R186): accepted where the record and the revision pass, STALE with the
current revision or RANGE where they do not. -/
def Obligations.WritePolicyChecked : Prop :=
  ∀ (q : Port) (rev : BitVec 16) (record : List Byte) (surplus : List Bool) (s : State),
    s.InNormal q → (Instr.writePolicy q rev record surplus).wellFormed = true →
    ∃ t, exec (.writePolicy q rev record surplus) s = .next t ∧
      t = { s with tables := t.tables, ports := t.ports, log := t.log, pins := t.pins } ∧
      TransactionEnds q (clockedBytes (.writePolicy q rev record surplus)) s t ∧
      ((policyOfBytes record).all (fun r => !r.inRange) = true →
        t.tables = s.tables ∧ (t.port q).executing = (s.port q).executing ∧
          (t.port q).held = some { status := .range, body := [], clocked := 0 }) ∧
      ∀ content, policyOfBytes record = some content → content.inRange = true →
        (rev ≠ s.tables.policy.revision →
          t.tables = s.tables ∧ (t.port q).executing = (s.port q).executing ∧
            (t.port q).held = some
              { status := .stale, body := bytes16 s.tables.policy.revision, clocked := 0 }) ∧
        (rev = s.tables.policy.revision →
          t.tables =
            { s.tables with
              policy :=
                { applied := s.tables.policy.applied
                  revision := rev + 1#16
                  staged := some { content := content, origin := q }
                  waiting := s.tables.policy.waiting ++ [{ port := q, revision := rev + 1#16 }] } } ∧
          (t.port q).held = none ∧
          (t.port q).executing = some { record := .policy, revision := rev + 1#16 })

/-- SET_DELAY and SET_TARGET (R8, R11, R187): on a base content with the section, and a value in range,
the field is replaced in the staged copy, the fields a SET does not touch are kept, and the port is
pending; otherwise RANGE. -/
def Obligations.SetsLandOnBaseContent : Prop :=
  (∀ (q : Port) (p : Byte) (frames : BitVec 32) (surplus : List Bool) (s : State), s.InNormal q →
    ∃ t, exec (.setDelay q p frames surplus) s = .next t ∧
      t = { s with tables := t.tables, ports := t.ports, log := t.log, pins := t.pins } ∧
      TransactionEnds q (clockedBytes (.setDelay q p frames surplus)) s t ∧
      ((16 ≤ p.toNat ∨ 240000 < frames.toNat ∨
          ∃ k : Fin 16, k.val = p.toNat ∧ s.tables.programs[k].newest.delay = none) →
        t.tables = s.tables ∧ (t.port q).executing = (s.port q).executing ∧
          (t.port q).held = some { status := .range, body := [], clocked := 0 }) ∧
      ∀ (k : Fin 16) (x : DelaySection), k.val = p.toNat → frames.toNat ≤ 240000 →
        s.tables.programs[k].newest.delay = some x →
          t.tables =
            { s.tables with
              programs := s.tables.programs.set k
                (s.tables.programs[k].accept q
                  { s.tables.programs[k].newest with
                    delay := some { x with target := frames.toNat } }) } ∧
          (t.port q).held = none ∧
          (t.port q).executing = some
            { record := .program k, revision := s.tables.programs[k].revision + 1#16 }) ∧
  (∀ (q : Port) (p : Byte) (tenths : BitVec 16) (surplus : List Bool) (s : State), s.InNormal q →
    ∃ t, exec (.setTarget q p tenths surplus) s = .next t ∧
      t = { s with tables := t.tables, ports := t.ports, log := t.log, pins := t.pins } ∧
      TransactionEnds q (clockedBytes (.setTarget q p tenths surplus)) s t ∧
      ((16 ≤ p.toNat ∨ tenths.toInt < -400 ∨ -50 < tenths.toInt ∨
          ∃ k : Fin 16, k.val = p.toNat ∧ s.tables.programs[k].newest.loudness = none) →
        t.tables = s.tables ∧ (t.port q).executing = (s.port q).executing ∧
          (t.port q).held = some { status := .range, body := [], clocked := 0 }) ∧
      ∀ (k : Fin 16) (x : Loudness), k.val = p.toNat → -400 ≤ tenths.toInt → tenths.toInt ≤ -50 →
        s.tables.programs[k].newest.loudness = some x →
          t.tables =
            { s.tables with
              programs := s.tables.programs.set k
                (s.tables.programs[k].accept q
                  { s.tables.programs[k].newest with
                    loudness := some { x with target := tenths.toInt } }) } ∧
          (t.port q).held = none ∧
          (t.port q).executing = some
            { record := .program k, revision := s.tables.programs[k].revision + 1#16 })

/-- RESET_METER (R77, R189): the named meter, or every meter for 255, has its clear pending and is
otherwise as it was, and the request is DONE with an empty body; any other number gives RANGE. The
transaction ends as every other does (R164, R165, R170, R178); that its bits are carried by the row is the
model's choice (log entry 6). -/
def Obligations.ResetMeterMarksClear : Prop :=
  ∀ (q : Port) (p : Byte) (surplus : List Bool) (s : State), s.InNormal q →
    ∃ t, exec (.resetMeter q p surplus) s = .next t ∧
      t = { s with meters := t.meters, ports := t.ports, log := t.log, pins := t.pins } ∧
      TransactionEnds q (clockedBytes (.resetMeter q p surplus)) s t ∧
      (t.port q).executing = (s.port q).executing ∧
      (∀ k : Fin 16, (k.val = p.toNat ∨ p = 255#8) →
        t.meters[k] = { s.meters[k] with clearPending := true }) ∧
      (∀ k : Fin 16, k.val ≠ p.toNat → p ≠ 255#8 → t.meters[k] = s.meters[k]) ∧
      ((p.toNat < 16 ∨ p = 255#8) →
        (t.port q).held = some { status := .done, body := [], clocked := 0 }) ∧
      (16 ≤ p.toNat → p ≠ 255#8 →
        (t.port q).held = some { status := .range, body := [], clocked := 0 })

/-- FETCH_ALARMS n (R168, R169, R191), n from 1 to 8: an OVERRUN item first where the port has missed
entries, then its unread entries oldest first up to n items; the cursor and the missed count move by what
is delivered and reported, retirement is tested, and nothing but the log and the ports changes. Outside 1
to 8 it is RANGE and moves nothing. The port is released and attends as after every transaction (R164, R178);
that its bits are carried by the row is the model's choice (log entry 6). -/
def Obligations.FetchDelivers : Prop :=
  ∀ (q : Port) (n : Byte) (surplus : List Bool) (s : State), s.InNormal q →
    ∃ t, exec (.fetchAlarms q n surplus) s = .next t ∧ OnlyPortsDiffer s t ∧
      PortReleased q (clockedBytes (.fetchAlarms q n surplus)) s t ∧ PinsFollow s t ∧
      (t.port q).executing = (s.port q).executing ∧
      ((n.toNat = 0 ∨ 8 < n.toNat) →
        LogAttended q s t ∧
          (t.port q).held = some { status := .range, body := [], clocked := 0 }) ∧
      (1 ≤ n.toNat → n.toNat ≤ 8 →
        ∃ (items : List LogEntry) (reported : Nat),
          items = s.log.delivered q n.toNat ∧ reported = min (s.place q).missed 4294967295 ∧
          t.log = AlarmLog.retire
            { s.log with
              ports := s.log.ports.set q
                { s.place q with
                  attending := true
                  timer := 0
                  cursor := (s.place q).cursor + items.length
                  missed := (s.place q).missed - reported } } ∧
          (t.port q).held = some
            { status := .done
              body :=
                BitVec.ofNat 8 (items.length + if 0 < (s.place q).missed then 1 else 0) ::
                  BitVec.ofNat 8 (s.log.unread q - items.length) ::
                  ((if 0 < (s.place q).missed then overrunBytes reported else []) ++
                    items.flatMap fun e => e.entry.bytes)
              clocked := 0 })

/-- SET_ATTENTION (R171, R192): the port's mask and threshold are replaced and the request is DONE; a mask
with a bit for no kind, or a threshold above 2, gives RANGE and changes neither. The port is released and
attends, and retirement is tested, as after every transaction (R164, R165, R178); that its bits are carried by
the row is the model's choice (log entry 6). -/
def Obligations.SetAttentionReplaces : Prop :=
  ∀ (q : Port) (mask : KindSet) (threshold : Byte) (surplus : List Bool) (s : State), s.InNormal q →
    ∃ t, exec (.setAttention q mask threshold surplus) s = .next t ∧ OnlyPortsDiffer s t ∧
      PortReleased q (clockedBytes (.setAttention q mask threshold surplus)) s t ∧ PinsFollow s t ∧
      (t.port q).executing = (s.port q).executing ∧
      ((mask &&& ~~~0x1FFE#16 ≠ 0#16 ∨ 2 < threshold.toNat) →
        LogAttended q s t ∧
          (t.port q).held = some { status := .range, body := [], clocked := 0 }) ∧
      (mask &&& ~~~0x1FFE#16 = 0#16 → ∀ x : Severity, x.rank = threshold.toNat →
        (t.port q).held = some { status := .done, body := [], clocked := 0 } ∧
          (t.place q).mask = mask ∧ (t.place q).threshold = x ∧
          t.log = AlarmLog.retire
            { s.log with
              ports := s.log.ports.set q
                { s.place q with attending := true, timer := 0, mask := mask, threshold := x } })

/-- PORT_RESET in a normal or a pending transaction (R22, R174, R181, R193): the port's entry leaves the
waiting list it is on, with the accepted change kept; its mask is empty and its threshold NOTE with
cursor and missed count kept but for retirement; the held response is replaced by DONE with an empty body
and the port is not pending. -/
def Obligations.PortResetTaken : Prop :=
  ∀ (q : Port) (surplus : List Bool) (s : State), s.resetAsserted = false →
    ((s.port q).transaction = .normal ∧ (s.port q).executing = none ∨
      (s.port q).transaction = .pending) →
      ∃ t, exec (.portReset q surplus) s = .next t ∧
        t = { s with tables := t.tables, ports := t.ports, log := t.log, pins := t.pins } ∧
        PortReleased q (clockedBytes (.portReset q surplus)) s t ∧ PinsFollow s t ∧
        (t.port q).executing = none ∧
        (t.port q).held = some { status := .done, body := [], clocked := 0 } ∧
        t.log = AlarmLog.retire
          { s.log with
            ports := s.log.ports.set q
              { s.place q with attending := true, timer := 0, mask := 0#16, threshold := .note } } ∧
        (∀ name : RecordName, t.tables.waitingOn name =
          if (s.port q).executing.any (fun x => x.record == name) = true then
            (s.tables.waitingOn name).filter fun w => w.port != q
          else s.tables.waitingOn name) ∧
        (∀ p : Fin 16, t.tables.programs[p] =
          { s.tables.programs[p] with waiting := t.tables.programs[p].waiting }) ∧
        (∀ l : Fin 8, t.tables.links[l] =
          { s.tables.links[l] with waiting := t.tables.links[l].waiting }) ∧
        t.tables.policy = { s.tables.policy with waiting := t.tables.policy.waiting }

/-! ## Encodings -/

/-- The bits of every well-formed command spell the outcome its row stands for, with every operand in its
place: a request row spells its own request with its own body (R177, R179, R194). -/
def Obligations.WellFormedCommandsSpellTheirRow : Prop :=
  ∀ (i : Instr) (c : InputClass), i.wellFormed = true → i.outcome = some c →
    classify (bytesOfBits i.sdi) = c

/-- A program record, a link record and a policy record in range survive their encodings: reading the
bytes gives the record (R185, R186, section 10.6). -/
def Obligations.RecordsRoundTrip : Prop :=
  (∀ r : ProgramRecord, r.inRange = true → programOfBytes (programBytes r) = some r) ∧
    (∀ r : LinkRecord, r.inRange = true → linkOfBytes (linkBytes r) = some r) ∧
    ∀ r : PolicyRecord, r.inRange = true → policyOfBytes (policyBytes r) = some r

/-! ## Invariants that every step keeps -/

/-- The machine after power-on reset meets every invariant. -/
def Obligations.ResetMeetsInvariants : Prop :=
  State.reset.MemoryCanonical ∧ State.reset.log.WellFormed ∧ State.reset.tables.ClaimsDisjoint ∧
    State.reset.ChangesConsistent ∧ State.reset.OutputsExact ∧ State.reset.HouseCounted ∧
    State.reset.SchedulesOrdered ∧ State.reset.GainsBounded ∧ State.reset.DelaysBounded ∧
    State.reset.ConvertersOrdered ∧ State.reset.tables.ProgramsInRange ∧ State.reset.LanesLaidOut

/-- Every step keeps the delay memory in its canonical form (R104). -/
def Obligations.StepKeepsMemoryCanonical : Prop :=
  ∀ s t : State, s.MemoryCanonical → step s = .next t → t.MemoryCanonical

/-- Every step keeps the log at 128 entries at most, with consecutive numbers and every cursor between the
oldest entry and the next number (R160, R163). -/
def Obligations.StepKeepsLogWellFormed : Prop :=
  ∀ s t : State, s.log.WellFormed → step s = .next t → t.log.WellFormed

/-- R167's accounting: a command that is no fetch and no reset changes for neither port the number of
entries delivered and reported, which is the cursor less the missed count; so every entry that joins is
unread or missed. -/
def Obligations.EntriesAreAccounted : Prop :=
  ∀ (c : Instr) (s t : State), s.log.WellFormed → exec c s = .next t → c ≠ .powerOnReset →
    c ≠ .warmResetAssert →
    (∀ body, classify (bytesOfBits c.sdi) ≠ .request .fetchAlarms body) →
      ∀ q : Port, t.log.accounted q = s.log.accounted q

/-- What a fetch delivers is the unread entries, oldest first, as many as there is room for; and it raises
the count delivered and reported by exactly what it delivers and reports, for its own port alone (R167 to
R169). -/
def Obligations.FetchIsAccounted : Prop :=
  ∀ (q : Port) (n : Byte) (surplus : List Bool) (s t : State), s.log.WellFormed → s.InNormal q →
    1 ≤ n.toNat → n.toNat ≤ 8 → exec (.fetchAlarms q n surplus) s = .next t →
      t.log.accounted q =
          s.log.accounted q + ((s.log.delivered q n.toNat).length : Int) + (s.log.overrun q : Int) ∧
        t.log.accounted (Port.other q) = s.log.accounted (Port.other q) ∧ t.log.next = s.log.next ∧
        (s.log.delivered q n.toNat).map LogEntry.number =
          List.range' (s.place q).cursor (s.log.delivered q n.toNat).length ∧
        (s.log.delivered q n.toNat).length =
          min (if 0 < (s.place q).missed then n.toNat - 1 else n.toNat) (s.log.unread q) ∧
        ∀ e ∈ s.log.delivered q n.toNat, e ∈ s.log.entries

/-- Every step keeps R10's two laws: no output slot and no window page claimed by two programs, taking
applied and staged records together, nor a slot twice within one record. And every step keeps every applied
and staged program content in the ranges of R2 (R7). -/
def Obligations.StepKeepsClaimsDisjoint : Prop :=
  ∀ s t : State, step s = .next t →
    (s.tables.ClaimsDisjoint → t.tables.ClaimsDisjoint) ∧
      (s.tables.ProgramsInRange → t.tables.ProgramsInRange)

/-- Every step keeps waiting lists, executing requests and held responses consistent (R1, R176, R182). -/
def Obligations.StepKeepsChangesConsistent : Prop :=
  ∀ s t : State, s.ChangesConsistent → step s = .next t → t.ChangesConsistent

/-- Every step leaves both ATN outputs exactly as R170 says, asserted where an entry that the port has not
read stands in the log with a kind outside its mask and a severity at or above its threshold, where its missed
count is above 0, or where the log holds 96 entries or more, and released otherwise; and the summary lines as
R158 says, asserted exactly where a monitored RAISED condition has severity MAJOR or MINOR. -/
def Obligations.StepKeepsOutputsExact : Prop :=
  ∀ s t : State, s.OutputsExact → step s = .next t → t.OutputsExact

/-- Every step keeps B counting the blocks of F, the line-up phase at F modulo 48, and every gain schedule
at 32 entries at most with strictly increasing stamps (R32, R88, R99); keeps every stamp greater than Q, and
every applied and scheduled gain within the limits of the applied loudness section, 0 where there is none
(R85, R88); keeps D_c and every effective delay within 0 to U (R136); and keeps the lanes of the contents in
force laid out in windows that share no page, with every closing count over before the next block end (R10, R98,
R107, R117, R118). -/
def Obligations.StepKeepsSchedulesOrdered : Prop :=
  ∀ s t : State, step s = .next t →
    (s.HouseCounted → s.SchedulesOrdered → t.HouseCounted ∧ t.SchedulesOrdered) ∧
      (s.GainsBounded → t.GainsBounded) ∧ (s.DelaysBounded → t.DelaysBounded) ∧
      (s.HouseCounted → s.tables.ClaimsDisjoint → s.tables.ProgramsInRange → s.LanesLaidOut →
        t.LanesLaidOut)

/-- Every step keeps every converter's frames consecutive by index, its FIFO at 256 frames at most and its
history at 64, and the read position of a running converter on the eighth oldest frame of its FIFO (R41,
R44, R45), with a slip waiting only for a block end that is due (log entry 36). -/
def Obligations.StepKeepsConvertersOrdered : Prop :=
  ∀ s t : State, s.ConvertersOrdered → step s = .next t → t.ConvertersOrdered
end

