-- ==== Sys2Proof/Laws/Bits.lean ====
section
/-! SUPPORT. Bits and bytes: the bits of a byte make the byte again, the whole bytes of a frame are read
back, and a framed request is classified as itself (R177, R179). -/

namespace Sys2Proof

theorem byteOfBits_bits (x : Byte) :
    byteOfBits (x.getLsbD 7) (x.getLsbD 6) (x.getLsbD 5) (x.getLsbD 4)
      (x.getLsbD 3) (x.getLsbD 2) (x.getLsbD 1) (x.getLsbD 0) = x := by
  revert x; decide +kernel

theorem bytesOfBits_bitsOfByte_append (x : Byte) (rest : List Bool) :
    bytesOfBits (bitsOfByte x ++ rest) = x :: bytesOfBits rest := by
  simp only [bitsOfByte, List.cons_append, List.nil_append, bytesOfBits, byteOfBits_bits]

theorem bytesOfBits_bitsOfBytes_append (bytes : List Byte) (rest : List Bool) :
    bytesOfBits (bitsOfBytes bytes ++ rest) = bytes ++ bytesOfBits rest := by
  induction bytes with
  | nil => rfl
  | cons x xs ih =>
    have h : bitsOfBytes (x :: xs) = bitsOfByte x ++ bitsOfBytes xs := rfl
    rw [h, List.append_assoc, bytesOfBits_bitsOfByte_append, ih, List.cons_append]

theorem bytesOfBits_requestBits (code : RequestCode) (body : List Byte) (surplus : List Bool) :
    bytesOfBits (requestBits code body surplus) = requestFrame code body ++ bytesOfBits surplus :=
  bytesOfBits_bitsOfBytes_append _ _

theorem word16_bytes16 (x : BitVec 16) : word16 (x.extractLsb' 8 8) (x.extractLsb' 0 8) = x := by
  apply BitVec.eq_of_getLsbD_eq
  intro i hi
  simp only [word16, BitVec.getLsbD_append, BitVec.getLsbD_extractLsb']
  rcases Nat.lt_or_ge i 8 with h | h
  · simp [h]
  · have : 8 + (i - 8) = i := by omega
    simp [Nat.not_lt.mpr h, this, show i - 8 < 8 by omega]

theorem word32_bytes32 (x : BitVec 32) :
    word32 (x.extractLsb' 24 8) (x.extractLsb' 16 8) (x.extractLsb' 8 8) (x.extractLsb' 0 8) = x := by
  apply BitVec.eq_of_getLsbD_eq
  intro i hi
  simp only [word32, BitVec.getLsbD_append, BitVec.getLsbD_extractLsb']
  rcases Nat.lt_or_ge i 8 with h | h
  · simp [h]
  · rcases Nat.lt_or_ge i 16 with h2 | h2
    · have : 8 + (i - 8) = i := by omega
      simp [Nat.not_lt.mpr h, this, show i - 8 < 8 by omega]
    · rcases Nat.lt_or_ge i 24 with h3 | h3
      · have : 16 + (i - 8 - 8) = i := by omega
        simp [Nat.not_lt.mpr h, this, show i - 8 - 8 < 8 by omega, show ¬ i - 8 < 8 by omega]
      · have : 24 + (i - 8 - 8 - 8) = i := by omega
        simp [Nat.not_lt.mpr h, this, show i - 8 - 8 - 8 < 8 by omega, show ¬ i - 8 < 8 by omega,
          show ¬ i - 8 - 8 < 8 by omega]

@[simp] theorem bytes16_length (x : BitVec 16) : (bytes16 x).length = 2 := rfl
@[simp] theorem bytes32_length (x : BitVec 32) : (bytes32 x).length = 4 := rfl
@[simp] theorem bytes48_length (x : BitVec 48) : (bytes48 x).length = 6 := rfl

theorem RequestCode.ofByte_byte (code : RequestCode) : RequestCode.ofByte code.byte = some code := by
  cases code <;> rfl

theorem RequestCode.byte_ne_zero (code : RequestCode) : code.byte ≠ 0#8 := by
  cases code <;> decide

/-- A request whose body has the length its code requires is classified as that request, whatever
follows its frame (R179). -/
theorem classify_requestFrame (code : RequestCode) (body : List Byte) (extra : List Byte)
    (fits : body.length < 65536) (required : requiredLength code body = some body.length) :
    classify (requestFrame code body ++ extra) = .request code body := by
  have hlen : (word16 ((BitVec.ofNat 16 body.length).extractLsb' 8 8)
      ((BitVec.ofNat 16 body.length).extractLsb' 0 8)).toNat = body.length := by
    rw [word16_bytes16]
    simp only [BitVec.toNat_ofNat]
    omega
  have htake : (body ++ extra).take body.length = body := by simp
  simp only [requestFrame, bytes16, List.cons_append, List.nil_append, classify,
    RequestCode.byte_ne_zero, if_false, RequestCode.ofByte_byte, hlen, htake, required, if_true]
  rw [if_neg (by simp)]

theorem classify_requestBits (code : RequestCode) (body : List Byte) (surplus : List Bool)
    (fits : body.length < 65536) (required : requiredLength code body = some body.length) :
    classify (bytesOfBits (requestBits code body surplus)) = .request code body := by
  rw [bytesOfBits_requestBits]
  exact classify_requestFrame code body _ fits required

theorem programRecordLength_le (count flags : Byte) : programRecordLength count flags ≤ 793 := by
  have h : count.toNat < 256 := count.isLt
  simp only [programRecordLength]
  split <;> split <;> split <;> omega

/-- A record of the length its own bytes require makes a WRITE PROGRAM body of the required length
(R186). -/
theorem requiredLength_writeProgram (program : Byte) (revision : BitVec 16) (record : List Byte)
    (fits : programRecordFits record = true) :
    (program :: bytes16 revision ++ record).length < 65536 ∧
      requiredLength .writeProgram (program :: bytes16 revision ++ record) =
        some (program :: bytes16 revision ++ record).length := by
  match record, fits with
  | a :: b :: count :: flags :: rest, fits =>
    have hlen : (a :: b :: count :: flags :: rest).length = programRecordLength count flags := by
      simpa [programRecordFits] using fits
    have hle := programRecordLength_le count flags
    constructor
    · simp only [List.cons_append, List.length_cons, List.length_append, bytes16_length] at hlen ⊢
      omega
    · simp only [bytes16, List.cons_append, List.nil_append, requiredLength, List.length_cons] at hlen ⊢
      congr 1
      omega
  | [], fits => simp [programRecordFits] at fits
  | [_], fits => simp [programRecordFits] at fits
  | [_, _], fits => simp [programRecordFits] at fits
  | [_, _, _], fits => simp [programRecordFits] at fits

end Sys2Proof
end

