-- ==== Sys2Proof/Laws/State.lean ====
section
/-! SUPPORT. Every field after every update of State, by rfl, so that no later proof unfolds a record
update. -/

namespace Sys2Proof.Machine

/-! ### draw2 -/

@[simp] theorem State.draw2_pending (s : State) : (s.draw.2).pending = s.pending := rfl
@[simp] theorem State.draw2_choices (s : State) : (s.draw.2).choices = s.choices + 1 := rfl
@[simp] theorem State.draw2_resetAsserted (s : State) : (s.draw.2).resetAsserted = s.resetAsserted := rfl
@[simp] theorem State.draw2_clock (s : State) : (s.draw.2).clock = s.clock := rfl
@[simp] theorem State.draw2_ref (s : State) : (s.draw.2).ref = s.ref := rfl
@[simp] theorem State.draw2_tables (s : State) : (s.draw.2).tables = s.tables := rfl
@[simp] theorem State.draw2_receivers (s : State) : (s.draw.2).receivers = s.receivers := rfl
@[simp] theorem State.draw2_converters (s : State) : (s.draw.2).converters = s.converters := rfl
@[simp] theorem State.draw2_meters (s : State) : (s.draw.2).meters = s.meters := rfl
@[simp] theorem State.draw2_gains (s : State) : (s.draw.2).gains = s.gains := rfl
@[simp] theorem State.draw2_tonePhase (s : State) : (s.draw.2).tonePhase = s.tonePhase := rfl
@[simp] theorem State.draw2_delays (s : State) : (s.draw.2).delays = s.delays := rfl
@[simp] theorem State.draw2_memory (s : State) : (s.draw.2).memory = s.memory := rfl
@[simp] theorem State.draw2_conditions (s : State) : (s.draw.2).conditions = s.conditions := rfl
@[simp] theorem State.draw2_log (s : State) : (s.draw.2).log = s.log := rfl
@[simp] theorem State.draw2_ports (s : State) : (s.draw.2).ports = s.ports := rfl
@[simp] theorem State.draw2_pins (s : State) : (s.draw.2).pins = s.pins := rfl
@[simp] theorem State.draw2_out (s : State) : (s.draw.2).out = s.out := rfl

/-! ### spend -/

@[simp] theorem State.spend_pending (s : State) (n : Nat) : (s.spend n).pending = s.pending := rfl
@[simp] theorem State.spend_choices (s : State) (n : Nat) : (s.spend n).choices = s.choices + n := rfl
@[simp] theorem State.spend_resetAsserted (s : State) (n : Nat) : (s.spend n).resetAsserted = s.resetAsserted := rfl
@[simp] theorem State.spend_clock (s : State) (n : Nat) : (s.spend n).clock = s.clock := rfl
@[simp] theorem State.spend_ref (s : State) (n : Nat) : (s.spend n).ref = s.ref := rfl
@[simp] theorem State.spend_tables (s : State) (n : Nat) : (s.spend n).tables = s.tables := rfl
@[simp] theorem State.spend_receivers (s : State) (n : Nat) : (s.spend n).receivers = s.receivers := rfl
@[simp] theorem State.spend_converters (s : State) (n : Nat) : (s.spend n).converters = s.converters := rfl
@[simp] theorem State.spend_meters (s : State) (n : Nat) : (s.spend n).meters = s.meters := rfl
@[simp] theorem State.spend_gains (s : State) (n : Nat) : (s.spend n).gains = s.gains := rfl
@[simp] theorem State.spend_tonePhase (s : State) (n : Nat) : (s.spend n).tonePhase = s.tonePhase := rfl
@[simp] theorem State.spend_delays (s : State) (n : Nat) : (s.spend n).delays = s.delays := rfl
@[simp] theorem State.spend_memory (s : State) (n : Nat) : (s.spend n).memory = s.memory := rfl
@[simp] theorem State.spend_conditions (s : State) (n : Nat) : (s.spend n).conditions = s.conditions := rfl
@[simp] theorem State.spend_log (s : State) (n : Nat) : (s.spend n).log = s.log := rfl
@[simp] theorem State.spend_ports (s : State) (n : Nat) : (s.spend n).ports = s.ports := rfl
@[simp] theorem State.spend_pins (s : State) (n : Nat) : (s.spend n).pins = s.pins := rfl
@[simp] theorem State.spend_out (s : State) (n : Nat) : (s.spend n).out = s.out := rfl

/-! ### setPort -/

@[simp] theorem State.setPort_pending (s : State) (q : Port) (v : ControlPort) : (s.setPort q v).pending = s.pending := rfl
@[simp] theorem State.setPort_choices (s : State) (q : Port) (v : ControlPort) : (s.setPort q v).choices = s.choices := rfl
@[simp] theorem State.setPort_resetAsserted (s : State) (q : Port) (v : ControlPort) : (s.setPort q v).resetAsserted = s.resetAsserted := rfl
@[simp] theorem State.setPort_clock (s : State) (q : Port) (v : ControlPort) : (s.setPort q v).clock = s.clock := rfl
@[simp] theorem State.setPort_ref (s : State) (q : Port) (v : ControlPort) : (s.setPort q v).ref = s.ref := rfl
@[simp] theorem State.setPort_tables (s : State) (q : Port) (v : ControlPort) : (s.setPort q v).tables = s.tables := rfl
@[simp] theorem State.setPort_receivers (s : State) (q : Port) (v : ControlPort) : (s.setPort q v).receivers = s.receivers := rfl
@[simp] theorem State.setPort_converters (s : State) (q : Port) (v : ControlPort) : (s.setPort q v).converters = s.converters := rfl
@[simp] theorem State.setPort_meters (s : State) (q : Port) (v : ControlPort) : (s.setPort q v).meters = s.meters := rfl
@[simp] theorem State.setPort_gains (s : State) (q : Port) (v : ControlPort) : (s.setPort q v).gains = s.gains := rfl
@[simp] theorem State.setPort_tonePhase (s : State) (q : Port) (v : ControlPort) : (s.setPort q v).tonePhase = s.tonePhase := rfl
@[simp] theorem State.setPort_delays (s : State) (q : Port) (v : ControlPort) : (s.setPort q v).delays = s.delays := rfl
@[simp] theorem State.setPort_memory (s : State) (q : Port) (v : ControlPort) : (s.setPort q v).memory = s.memory := rfl
@[simp] theorem State.setPort_conditions (s : State) (q : Port) (v : ControlPort) : (s.setPort q v).conditions = s.conditions := rfl
@[simp] theorem State.setPort_log (s : State) (q : Port) (v : ControlPort) : (s.setPort q v).log = s.log := rfl
@[simp] theorem State.setPort_ports (s : State) (q : Port) (v : ControlPort) : (s.setPort q v).ports = s.ports.set q v := rfl
@[simp] theorem State.setPort_pins (s : State) (q : Port) (v : ControlPort) : (s.setPort q v).pins = s.pins := rfl
@[simp] theorem State.setPort_out (s : State) (q : Port) (v : ControlPort) : (s.setPort q v).out = s.out := rfl

/-! ### setPlace -/

@[simp] theorem State.setPlace_pending (s : State) (q : Port) (v : LogPort) : (s.setPlace q v).pending = s.pending := rfl
@[simp] theorem State.setPlace_choices (s : State) (q : Port) (v : LogPort) : (s.setPlace q v).choices = s.choices := rfl
@[simp] theorem State.setPlace_resetAsserted (s : State) (q : Port) (v : LogPort) : (s.setPlace q v).resetAsserted = s.resetAsserted := rfl
@[simp] theorem State.setPlace_clock (s : State) (q : Port) (v : LogPort) : (s.setPlace q v).clock = s.clock := rfl
@[simp] theorem State.setPlace_ref (s : State) (q : Port) (v : LogPort) : (s.setPlace q v).ref = s.ref := rfl
@[simp] theorem State.setPlace_tables (s : State) (q : Port) (v : LogPort) : (s.setPlace q v).tables = s.tables := rfl
@[simp] theorem State.setPlace_receivers (s : State) (q : Port) (v : LogPort) : (s.setPlace q v).receivers = s.receivers := rfl
@[simp] theorem State.setPlace_converters (s : State) (q : Port) (v : LogPort) : (s.setPlace q v).converters = s.converters := rfl
@[simp] theorem State.setPlace_meters (s : State) (q : Port) (v : LogPort) : (s.setPlace q v).meters = s.meters := rfl
@[simp] theorem State.setPlace_gains (s : State) (q : Port) (v : LogPort) : (s.setPlace q v).gains = s.gains := rfl
@[simp] theorem State.setPlace_tonePhase (s : State) (q : Port) (v : LogPort) : (s.setPlace q v).tonePhase = s.tonePhase := rfl
@[simp] theorem State.setPlace_delays (s : State) (q : Port) (v : LogPort) : (s.setPlace q v).delays = s.delays := rfl
@[simp] theorem State.setPlace_memory (s : State) (q : Port) (v : LogPort) : (s.setPlace q v).memory = s.memory := rfl
@[simp] theorem State.setPlace_conditions (s : State) (q : Port) (v : LogPort) : (s.setPlace q v).conditions = s.conditions := rfl
@[simp] theorem State.setPlace_log (s : State) (q : Port) (v : LogPort) : (s.setPlace q v).log = { s.log with ports := s.log.ports.set q v } := rfl
@[simp] theorem State.setPlace_ports (s : State) (q : Port) (v : LogPort) : (s.setPlace q v).ports = s.ports := rfl
@[simp] theorem State.setPlace_pins (s : State) (q : Port) (v : LogPort) : (s.setPlace q v).pins = s.pins := rfl
@[simp] theorem State.setPlace_out (s : State) (q : Port) (v : LogPort) : (s.setPlace q v).out = s.out := rfl

/-! ### setProgram -/

@[simp] theorem State.setProgram_pending (s : State) (p : Fin 16) (r : Record ProgramRecord) : (s.setProgram p r).pending = s.pending := rfl
@[simp] theorem State.setProgram_choices (s : State) (p : Fin 16) (r : Record ProgramRecord) : (s.setProgram p r).choices = s.choices := rfl
@[simp] theorem State.setProgram_resetAsserted (s : State) (p : Fin 16) (r : Record ProgramRecord) : (s.setProgram p r).resetAsserted = s.resetAsserted := rfl
@[simp] theorem State.setProgram_clock (s : State) (p : Fin 16) (r : Record ProgramRecord) : (s.setProgram p r).clock = s.clock := rfl
@[simp] theorem State.setProgram_ref (s : State) (p : Fin 16) (r : Record ProgramRecord) : (s.setProgram p r).ref = s.ref := rfl
@[simp] theorem State.setProgram_tables (s : State) (p : Fin 16) (r : Record ProgramRecord) : (s.setProgram p r).tables = { s.tables with programs := s.tables.programs.set p r } := rfl
@[simp] theorem State.setProgram_receivers (s : State) (p : Fin 16) (r : Record ProgramRecord) : (s.setProgram p r).receivers = s.receivers := rfl
@[simp] theorem State.setProgram_converters (s : State) (p : Fin 16) (r : Record ProgramRecord) : (s.setProgram p r).converters = s.converters := rfl
@[simp] theorem State.setProgram_meters (s : State) (p : Fin 16) (r : Record ProgramRecord) : (s.setProgram p r).meters = s.meters := rfl
@[simp] theorem State.setProgram_gains (s : State) (p : Fin 16) (r : Record ProgramRecord) : (s.setProgram p r).gains = s.gains := rfl
@[simp] theorem State.setProgram_tonePhase (s : State) (p : Fin 16) (r : Record ProgramRecord) : (s.setProgram p r).tonePhase = s.tonePhase := rfl
@[simp] theorem State.setProgram_delays (s : State) (p : Fin 16) (r : Record ProgramRecord) : (s.setProgram p r).delays = s.delays := rfl
@[simp] theorem State.setProgram_memory (s : State) (p : Fin 16) (r : Record ProgramRecord) : (s.setProgram p r).memory = s.memory := rfl
@[simp] theorem State.setProgram_conditions (s : State) (p : Fin 16) (r : Record ProgramRecord) : (s.setProgram p r).conditions = s.conditions := rfl
@[simp] theorem State.setProgram_log (s : State) (p : Fin 16) (r : Record ProgramRecord) : (s.setProgram p r).log = s.log := rfl
@[simp] theorem State.setProgram_ports (s : State) (p : Fin 16) (r : Record ProgramRecord) : (s.setProgram p r).ports = s.ports := rfl
@[simp] theorem State.setProgram_pins (s : State) (p : Fin 16) (r : Record ProgramRecord) : (s.setProgram p r).pins = s.pins := rfl
@[simp] theorem State.setProgram_out (s : State) (p : Fin 16) (r : Record ProgramRecord) : (s.setProgram p r).out = s.out := rfl

/-! ### setLink -/

@[simp] theorem State.setLink_pending (s : State) (l : Fin 8) (r : Record LinkRecord) : (s.setLink l r).pending = s.pending := rfl
@[simp] theorem State.setLink_choices (s : State) (l : Fin 8) (r : Record LinkRecord) : (s.setLink l r).choices = s.choices := rfl
@[simp] theorem State.setLink_resetAsserted (s : State) (l : Fin 8) (r : Record LinkRecord) : (s.setLink l r).resetAsserted = s.resetAsserted := rfl
@[simp] theorem State.setLink_clock (s : State) (l : Fin 8) (r : Record LinkRecord) : (s.setLink l r).clock = s.clock := rfl
@[simp] theorem State.setLink_ref (s : State) (l : Fin 8) (r : Record LinkRecord) : (s.setLink l r).ref = s.ref := rfl
@[simp] theorem State.setLink_tables (s : State) (l : Fin 8) (r : Record LinkRecord) : (s.setLink l r).tables = { s.tables with links := s.tables.links.set l r } := rfl
@[simp] theorem State.setLink_receivers (s : State) (l : Fin 8) (r : Record LinkRecord) : (s.setLink l r).receivers = s.receivers := rfl
@[simp] theorem State.setLink_converters (s : State) (l : Fin 8) (r : Record LinkRecord) : (s.setLink l r).converters = s.converters := rfl
@[simp] theorem State.setLink_meters (s : State) (l : Fin 8) (r : Record LinkRecord) : (s.setLink l r).meters = s.meters := rfl
@[simp] theorem State.setLink_gains (s : State) (l : Fin 8) (r : Record LinkRecord) : (s.setLink l r).gains = s.gains := rfl
@[simp] theorem State.setLink_tonePhase (s : State) (l : Fin 8) (r : Record LinkRecord) : (s.setLink l r).tonePhase = s.tonePhase := rfl
@[simp] theorem State.setLink_delays (s : State) (l : Fin 8) (r : Record LinkRecord) : (s.setLink l r).delays = s.delays := rfl
@[simp] theorem State.setLink_memory (s : State) (l : Fin 8) (r : Record LinkRecord) : (s.setLink l r).memory = s.memory := rfl
@[simp] theorem State.setLink_conditions (s : State) (l : Fin 8) (r : Record LinkRecord) : (s.setLink l r).conditions = s.conditions := rfl
@[simp] theorem State.setLink_log (s : State) (l : Fin 8) (r : Record LinkRecord) : (s.setLink l r).log = s.log := rfl
@[simp] theorem State.setLink_ports (s : State) (l : Fin 8) (r : Record LinkRecord) : (s.setLink l r).ports = s.ports := rfl
@[simp] theorem State.setLink_pins (s : State) (l : Fin 8) (r : Record LinkRecord) : (s.setLink l r).pins = s.pins := rfl
@[simp] theorem State.setLink_out (s : State) (l : Fin 8) (r : Record LinkRecord) : (s.setLink l r).out = s.out := rfl

/-! ### setPolicy -/

@[simp] theorem State.setPolicy_pending (s : State) (r : Record PolicyRecord) : (s.setPolicy r).pending = s.pending := rfl
@[simp] theorem State.setPolicy_choices (s : State) (r : Record PolicyRecord) : (s.setPolicy r).choices = s.choices := rfl
@[simp] theorem State.setPolicy_resetAsserted (s : State) (r : Record PolicyRecord) : (s.setPolicy r).resetAsserted = s.resetAsserted := rfl
@[simp] theorem State.setPolicy_clock (s : State) (r : Record PolicyRecord) : (s.setPolicy r).clock = s.clock := rfl
@[simp] theorem State.setPolicy_ref (s : State) (r : Record PolicyRecord) : (s.setPolicy r).ref = s.ref := rfl
@[simp] theorem State.setPolicy_tables (s : State) (r : Record PolicyRecord) : (s.setPolicy r).tables = { s.tables with policy := r } := rfl
@[simp] theorem State.setPolicy_receivers (s : State) (r : Record PolicyRecord) : (s.setPolicy r).receivers = s.receivers := rfl
@[simp] theorem State.setPolicy_converters (s : State) (r : Record PolicyRecord) : (s.setPolicy r).converters = s.converters := rfl
@[simp] theorem State.setPolicy_meters (s : State) (r : Record PolicyRecord) : (s.setPolicy r).meters = s.meters := rfl
@[simp] theorem State.setPolicy_gains (s : State) (r : Record PolicyRecord) : (s.setPolicy r).gains = s.gains := rfl
@[simp] theorem State.setPolicy_tonePhase (s : State) (r : Record PolicyRecord) : (s.setPolicy r).tonePhase = s.tonePhase := rfl
@[simp] theorem State.setPolicy_delays (s : State) (r : Record PolicyRecord) : (s.setPolicy r).delays = s.delays := rfl
@[simp] theorem State.setPolicy_memory (s : State) (r : Record PolicyRecord) : (s.setPolicy r).memory = s.memory := rfl
@[simp] theorem State.setPolicy_conditions (s : State) (r : Record PolicyRecord) : (s.setPolicy r).conditions = s.conditions := rfl
@[simp] theorem State.setPolicy_log (s : State) (r : Record PolicyRecord) : (s.setPolicy r).log = s.log := rfl
@[simp] theorem State.setPolicy_ports (s : State) (r : Record PolicyRecord) : (s.setPolicy r).ports = s.ports := rfl
@[simp] theorem State.setPolicy_pins (s : State) (r : Record PolicyRecord) : (s.setPolicy r).pins = s.pins := rfl
@[simp] theorem State.setPolicy_out (s : State) (r : Record PolicyRecord) : (s.setPolicy r).out = s.out := rfl

/-! ### setReceiver -/

@[simp] theorem State.setReceiver_pending (s : State) (l : Fin 8) (r : Receiver) : (s.setReceiver l r).pending = s.pending := rfl
@[simp] theorem State.setReceiver_choices (s : State) (l : Fin 8) (r : Receiver) : (s.setReceiver l r).choices = s.choices := rfl
@[simp] theorem State.setReceiver_resetAsserted (s : State) (l : Fin 8) (r : Receiver) : (s.setReceiver l r).resetAsserted = s.resetAsserted := rfl
@[simp] theorem State.setReceiver_clock (s : State) (l : Fin 8) (r : Receiver) : (s.setReceiver l r).clock = s.clock := rfl
@[simp] theorem State.setReceiver_ref (s : State) (l : Fin 8) (r : Receiver) : (s.setReceiver l r).ref = s.ref := rfl
@[simp] theorem State.setReceiver_tables (s : State) (l : Fin 8) (r : Receiver) : (s.setReceiver l r).tables = s.tables := rfl
@[simp] theorem State.setReceiver_receivers (s : State) (l : Fin 8) (r : Receiver) : (s.setReceiver l r).receivers = s.receivers.set l r := rfl
@[simp] theorem State.setReceiver_converters (s : State) (l : Fin 8) (r : Receiver) : (s.setReceiver l r).converters = s.converters := rfl
@[simp] theorem State.setReceiver_meters (s : State) (l : Fin 8) (r : Receiver) : (s.setReceiver l r).meters = s.meters := rfl
@[simp] theorem State.setReceiver_gains (s : State) (l : Fin 8) (r : Receiver) : (s.setReceiver l r).gains = s.gains := rfl
@[simp] theorem State.setReceiver_tonePhase (s : State) (l : Fin 8) (r : Receiver) : (s.setReceiver l r).tonePhase = s.tonePhase := rfl
@[simp] theorem State.setReceiver_delays (s : State) (l : Fin 8) (r : Receiver) : (s.setReceiver l r).delays = s.delays := rfl
@[simp] theorem State.setReceiver_memory (s : State) (l : Fin 8) (r : Receiver) : (s.setReceiver l r).memory = s.memory := rfl
@[simp] theorem State.setReceiver_conditions (s : State) (l : Fin 8) (r : Receiver) : (s.setReceiver l r).conditions = s.conditions := rfl
@[simp] theorem State.setReceiver_log (s : State) (l : Fin 8) (r : Receiver) : (s.setReceiver l r).log = s.log := rfl
@[simp] theorem State.setReceiver_ports (s : State) (l : Fin 8) (r : Receiver) : (s.setReceiver l r).ports = s.ports := rfl
@[simp] theorem State.setReceiver_pins (s : State) (l : Fin 8) (r : Receiver) : (s.setReceiver l r).pins = s.pins := rfl
@[simp] theorem State.setReceiver_out (s : State) (l : Fin 8) (r : Receiver) : (s.setReceiver l r).out = s.out := rfl

/-! ### setConverter -/

@[simp] theorem State.setConverter_pending (s : State) (l : Fin 8) (c : Converter) : (s.setConverter l c).pending = s.pending := rfl
@[simp] theorem State.setConverter_choices (s : State) (l : Fin 8) (c : Converter) : (s.setConverter l c).choices = s.choices := rfl
@[simp] theorem State.setConverter_resetAsserted (s : State) (l : Fin 8) (c : Converter) : (s.setConverter l c).resetAsserted = s.resetAsserted := rfl
@[simp] theorem State.setConverter_clock (s : State) (l : Fin 8) (c : Converter) : (s.setConverter l c).clock = s.clock := rfl
@[simp] theorem State.setConverter_ref (s : State) (l : Fin 8) (c : Converter) : (s.setConverter l c).ref = s.ref := rfl
@[simp] theorem State.setConverter_tables (s : State) (l : Fin 8) (c : Converter) : (s.setConverter l c).tables = s.tables := rfl
@[simp] theorem State.setConverter_receivers (s : State) (l : Fin 8) (c : Converter) : (s.setConverter l c).receivers = s.receivers := rfl
@[simp] theorem State.setConverter_converters (s : State) (l : Fin 8) (c : Converter) : (s.setConverter l c).converters = s.converters.set l c := rfl
@[simp] theorem State.setConverter_meters (s : State) (l : Fin 8) (c : Converter) : (s.setConverter l c).meters = s.meters := rfl
@[simp] theorem State.setConverter_gains (s : State) (l : Fin 8) (c : Converter) : (s.setConverter l c).gains = s.gains := rfl
@[simp] theorem State.setConverter_tonePhase (s : State) (l : Fin 8) (c : Converter) : (s.setConverter l c).tonePhase = s.tonePhase := rfl
@[simp] theorem State.setConverter_delays (s : State) (l : Fin 8) (c : Converter) : (s.setConverter l c).delays = s.delays := rfl
@[simp] theorem State.setConverter_memory (s : State) (l : Fin 8) (c : Converter) : (s.setConverter l c).memory = s.memory := rfl
@[simp] theorem State.setConverter_conditions (s : State) (l : Fin 8) (c : Converter) : (s.setConverter l c).conditions = s.conditions := rfl
@[simp] theorem State.setConverter_log (s : State) (l : Fin 8) (c : Converter) : (s.setConverter l c).log = s.log := rfl
@[simp] theorem State.setConverter_ports (s : State) (l : Fin 8) (c : Converter) : (s.setConverter l c).ports = s.ports := rfl
@[simp] theorem State.setConverter_pins (s : State) (l : Fin 8) (c : Converter) : (s.setConverter l c).pins = s.pins := rfl
@[simp] theorem State.setConverter_out (s : State) (l : Fin 8) (c : Converter) : (s.setConverter l c).out = s.out := rfl

/-! ### setMeter -/

@[simp] theorem State.setMeter_pending (s : State) (p : Fin 16) (m : Meter) : (s.setMeter p m).pending = s.pending := rfl
@[simp] theorem State.setMeter_choices (s : State) (p : Fin 16) (m : Meter) : (s.setMeter p m).choices = s.choices := rfl
@[simp] theorem State.setMeter_resetAsserted (s : State) (p : Fin 16) (m : Meter) : (s.setMeter p m).resetAsserted = s.resetAsserted := rfl
@[simp] theorem State.setMeter_clock (s : State) (p : Fin 16) (m : Meter) : (s.setMeter p m).clock = s.clock := rfl
@[simp] theorem State.setMeter_ref (s : State) (p : Fin 16) (m : Meter) : (s.setMeter p m).ref = s.ref := rfl
@[simp] theorem State.setMeter_tables (s : State) (p : Fin 16) (m : Meter) : (s.setMeter p m).tables = s.tables := rfl
@[simp] theorem State.setMeter_receivers (s : State) (p : Fin 16) (m : Meter) : (s.setMeter p m).receivers = s.receivers := rfl
@[simp] theorem State.setMeter_converters (s : State) (p : Fin 16) (m : Meter) : (s.setMeter p m).converters = s.converters := rfl
@[simp] theorem State.setMeter_meters (s : State) (p : Fin 16) (m : Meter) : (s.setMeter p m).meters = s.meters.set p m := rfl
@[simp] theorem State.setMeter_gains (s : State) (p : Fin 16) (m : Meter) : (s.setMeter p m).gains = s.gains := rfl
@[simp] theorem State.setMeter_tonePhase (s : State) (p : Fin 16) (m : Meter) : (s.setMeter p m).tonePhase = s.tonePhase := rfl
@[simp] theorem State.setMeter_delays (s : State) (p : Fin 16) (m : Meter) : (s.setMeter p m).delays = s.delays := rfl
@[simp] theorem State.setMeter_memory (s : State) (p : Fin 16) (m : Meter) : (s.setMeter p m).memory = s.memory := rfl
@[simp] theorem State.setMeter_conditions (s : State) (p : Fin 16) (m : Meter) : (s.setMeter p m).conditions = s.conditions := rfl
@[simp] theorem State.setMeter_log (s : State) (p : Fin 16) (m : Meter) : (s.setMeter p m).log = s.log := rfl
@[simp] theorem State.setMeter_ports (s : State) (p : Fin 16) (m : Meter) : (s.setMeter p m).ports = s.ports := rfl
@[simp] theorem State.setMeter_pins (s : State) (p : Fin 16) (m : Meter) : (s.setMeter p m).pins = s.pins := rfl
@[simp] theorem State.setMeter_out (s : State) (p : Fin 16) (m : Meter) : (s.setMeter p m).out = s.out := rfl

/-! ### setGain -/

@[simp] theorem State.setGain_pending (s : State) (p : Fin 16) (g : GainStage) : (s.setGain p g).pending = s.pending := rfl
@[simp] theorem State.setGain_choices (s : State) (p : Fin 16) (g : GainStage) : (s.setGain p g).choices = s.choices := rfl
@[simp] theorem State.setGain_resetAsserted (s : State) (p : Fin 16) (g : GainStage) : (s.setGain p g).resetAsserted = s.resetAsserted := rfl
@[simp] theorem State.setGain_clock (s : State) (p : Fin 16) (g : GainStage) : (s.setGain p g).clock = s.clock := rfl
@[simp] theorem State.setGain_ref (s : State) (p : Fin 16) (g : GainStage) : (s.setGain p g).ref = s.ref := rfl
@[simp] theorem State.setGain_tables (s : State) (p : Fin 16) (g : GainStage) : (s.setGain p g).tables = s.tables := rfl
@[simp] theorem State.setGain_receivers (s : State) (p : Fin 16) (g : GainStage) : (s.setGain p g).receivers = s.receivers := rfl
@[simp] theorem State.setGain_converters (s : State) (p : Fin 16) (g : GainStage) : (s.setGain p g).converters = s.converters := rfl
@[simp] theorem State.setGain_meters (s : State) (p : Fin 16) (g : GainStage) : (s.setGain p g).meters = s.meters := rfl
@[simp] theorem State.setGain_gains (s : State) (p : Fin 16) (g : GainStage) : (s.setGain p g).gains = s.gains.set p g := rfl
@[simp] theorem State.setGain_tonePhase (s : State) (p : Fin 16) (g : GainStage) : (s.setGain p g).tonePhase = s.tonePhase := rfl
@[simp] theorem State.setGain_delays (s : State) (p : Fin 16) (g : GainStage) : (s.setGain p g).delays = s.delays := rfl
@[simp] theorem State.setGain_memory (s : State) (p : Fin 16) (g : GainStage) : (s.setGain p g).memory = s.memory := rfl
@[simp] theorem State.setGain_conditions (s : State) (p : Fin 16) (g : GainStage) : (s.setGain p g).conditions = s.conditions := rfl
@[simp] theorem State.setGain_log (s : State) (p : Fin 16) (g : GainStage) : (s.setGain p g).log = s.log := rfl
@[simp] theorem State.setGain_ports (s : State) (p : Fin 16) (g : GainStage) : (s.setGain p g).ports = s.ports := rfl
@[simp] theorem State.setGain_pins (s : State) (p : Fin 16) (g : GainStage) : (s.setGain p g).pins = s.pins := rfl
@[simp] theorem State.setGain_out (s : State) (p : Fin 16) (g : GainStage) : (s.setGain p g).out = s.out := rfl

/-! ### setDelay -/

@[simp] theorem State.setDelay_pending (s : State) (p : Fin 16) (d : DelayEngine) : (s.setDelay p d).pending = s.pending := rfl
@[simp] theorem State.setDelay_choices (s : State) (p : Fin 16) (d : DelayEngine) : (s.setDelay p d).choices = s.choices := rfl
@[simp] theorem State.setDelay_resetAsserted (s : State) (p : Fin 16) (d : DelayEngine) : (s.setDelay p d).resetAsserted = s.resetAsserted := rfl
@[simp] theorem State.setDelay_clock (s : State) (p : Fin 16) (d : DelayEngine) : (s.setDelay p d).clock = s.clock := rfl
@[simp] theorem State.setDelay_ref (s : State) (p : Fin 16) (d : DelayEngine) : (s.setDelay p d).ref = s.ref := rfl
@[simp] theorem State.setDelay_tables (s : State) (p : Fin 16) (d : DelayEngine) : (s.setDelay p d).tables = s.tables := rfl
@[simp] theorem State.setDelay_receivers (s : State) (p : Fin 16) (d : DelayEngine) : (s.setDelay p d).receivers = s.receivers := rfl
@[simp] theorem State.setDelay_converters (s : State) (p : Fin 16) (d : DelayEngine) : (s.setDelay p d).converters = s.converters := rfl
@[simp] theorem State.setDelay_meters (s : State) (p : Fin 16) (d : DelayEngine) : (s.setDelay p d).meters = s.meters := rfl
@[simp] theorem State.setDelay_gains (s : State) (p : Fin 16) (d : DelayEngine) : (s.setDelay p d).gains = s.gains := rfl
@[simp] theorem State.setDelay_tonePhase (s : State) (p : Fin 16) (d : DelayEngine) : (s.setDelay p d).tonePhase = s.tonePhase := rfl
@[simp] theorem State.setDelay_delays (s : State) (p : Fin 16) (d : DelayEngine) : (s.setDelay p d).delays = s.delays.set p d := rfl
@[simp] theorem State.setDelay_memory (s : State) (p : Fin 16) (d : DelayEngine) : (s.setDelay p d).memory = s.memory := rfl
@[simp] theorem State.setDelay_conditions (s : State) (p : Fin 16) (d : DelayEngine) : (s.setDelay p d).conditions = s.conditions := rfl
@[simp] theorem State.setDelay_log (s : State) (p : Fin 16) (d : DelayEngine) : (s.setDelay p d).log = s.log := rfl
@[simp] theorem State.setDelay_ports (s : State) (p : Fin 16) (d : DelayEngine) : (s.setDelay p d).ports = s.ports := rfl
@[simp] theorem State.setDelay_pins (s : State) (p : Fin 16) (d : DelayEngine) : (s.setDelay p d).pins = s.pins := rfl
@[simp] theorem State.setDelay_out (s : State) (p : Fin 16) (d : DelayEngine) : (s.setDelay p d).out = s.out := rfl

/-! ### hand -/

@[simp] theorem State.hand_pending (s : State) (e : Entry) : (s.hand e).pending = s.pending := rfl
@[simp] theorem State.hand_choices (s : State) (e : Entry) : (s.hand e).choices = s.choices := rfl
@[simp] theorem State.hand_resetAsserted (s : State) (e : Entry) : (s.hand e).resetAsserted = s.resetAsserted := rfl
@[simp] theorem State.hand_clock (s : State) (e : Entry) : (s.hand e).clock = s.clock := rfl
@[simp] theorem State.hand_ref (s : State) (e : Entry) : (s.hand e).ref = s.ref := rfl
@[simp] theorem State.hand_tables (s : State) (e : Entry) : (s.hand e).tables = s.tables := rfl
@[simp] theorem State.hand_receivers (s : State) (e : Entry) : (s.hand e).receivers = s.receivers := rfl
@[simp] theorem State.hand_converters (s : State) (e : Entry) : (s.hand e).converters = s.converters := rfl
@[simp] theorem State.hand_meters (s : State) (e : Entry) : (s.hand e).meters = s.meters := rfl
@[simp] theorem State.hand_gains (s : State) (e : Entry) : (s.hand e).gains = s.gains := rfl
@[simp] theorem State.hand_tonePhase (s : State) (e : Entry) : (s.hand e).tonePhase = s.tonePhase := rfl
@[simp] theorem State.hand_delays (s : State) (e : Entry) : (s.hand e).delays = s.delays := rfl
@[simp] theorem State.hand_memory (s : State) (e : Entry) : (s.hand e).memory = s.memory := rfl
@[simp] theorem State.hand_conditions (s : State) (e : Entry) : (s.hand e).conditions = s.conditions := rfl
@[simp] theorem State.hand_log (s : State) (e : Entry) : (s.hand e).log = s.log.hand e := rfl
@[simp] theorem State.hand_ports (s : State) (e : Entry) : (s.hand e).ports = s.ports := rfl
@[simp] theorem State.hand_pins (s : State) (e : Entry) : (s.hand e).pins = s.pins := rfl
@[simp] theorem State.hand_out (s : State) (e : Entry) : (s.hand e).out = s.out := rfl

/-! ### settle -/

@[simp] theorem State.settle_pending (s : State) : (s.settle).pending = s.pending := rfl
@[simp] theorem State.settle_choices (s : State) : (s.settle).choices = s.choices := rfl
@[simp] theorem State.settle_resetAsserted (s : State) : (s.settle).resetAsserted = s.resetAsserted := rfl
@[simp] theorem State.settle_clock (s : State) : (s.settle).clock = s.clock := rfl
@[simp] theorem State.settle_ref (s : State) : (s.settle).ref = s.ref := rfl
@[simp] theorem State.settle_tables (s : State) : (s.settle).tables = s.tables := rfl
@[simp] theorem State.settle_receivers (s : State) : (s.settle).receivers = s.receivers := rfl
@[simp] theorem State.settle_converters (s : State) : (s.settle).converters = s.converters := rfl
@[simp] theorem State.settle_meters (s : State) : (s.settle).meters = s.meters := rfl
@[simp] theorem State.settle_gains (s : State) : (s.settle).gains = s.gains := rfl
@[simp] theorem State.settle_tonePhase (s : State) : (s.settle).tonePhase = s.tonePhase := rfl
@[simp] theorem State.settle_delays (s : State) : (s.settle).delays = s.delays := rfl
@[simp] theorem State.settle_memory (s : State) : (s.settle).memory = s.memory := rfl
@[simp] theorem State.settle_conditions (s : State) : (s.settle).conditions = s.conditions := rfl
@[simp] theorem State.settle_log (s : State) : (s.settle).log = s.log := rfl
@[simp] theorem State.settle_ports (s : State) : (s.settle).ports = s.ports := rfl
@[simp] theorem State.settle_out (s : State) : (s.settle).out = s.out := rfl

/-! ### correctLanes -/

@[simp] theorem State.correctLanes_pending (s : State) (n : SlipNotice) : (s.correctLanes n).pending = s.pending := rfl
@[simp] theorem State.correctLanes_choices (s : State) (n : SlipNotice) : (s.correctLanes n).choices = s.choices := rfl
@[simp] theorem State.correctLanes_resetAsserted (s : State) (n : SlipNotice) : (s.correctLanes n).resetAsserted = s.resetAsserted := rfl
@[simp] theorem State.correctLanes_clock (s : State) (n : SlipNotice) : (s.correctLanes n).clock = s.clock := rfl
@[simp] theorem State.correctLanes_ref (s : State) (n : SlipNotice) : (s.correctLanes n).ref = s.ref := rfl
@[simp] theorem State.correctLanes_tables (s : State) (n : SlipNotice) : (s.correctLanes n).tables = s.tables := rfl
@[simp] theorem State.correctLanes_receivers (s : State) (n : SlipNotice) : (s.correctLanes n).receivers = s.receivers := rfl
@[simp] theorem State.correctLanes_converters (s : State) (n : SlipNotice) : (s.correctLanes n).converters = s.converters := rfl
@[simp] theorem State.correctLanes_meters (s : State) (n : SlipNotice) : (s.correctLanes n).meters = s.meters := rfl
@[simp] theorem State.correctLanes_gains (s : State) (n : SlipNotice) : (s.correctLanes n).gains = s.gains := rfl
@[simp] theorem State.correctLanes_tonePhase (s : State) (n : SlipNotice) : (s.correctLanes n).tonePhase = s.tonePhase := rfl
@[simp] theorem State.correctLanes_memory (s : State) (n : SlipNotice) : (s.correctLanes n).memory = s.memory := rfl
@[simp] theorem State.correctLanes_conditions (s : State) (n : SlipNotice) : (s.correctLanes n).conditions = s.conditions := rfl
@[simp] theorem State.correctLanes_log (s : State) (n : SlipNotice) : (s.correctLanes n).log = s.log := rfl
@[simp] theorem State.correctLanes_ports (s : State) (n : SlipNotice) : (s.correctLanes n).ports = s.ports := rfl
@[simp] theorem State.correctLanes_pins (s : State) (n : SlipNotice) : (s.correctLanes n).pins = s.pins := rfl
@[simp] theorem State.correctLanes_out (s : State) (n : SlipNotice) : (s.correctLanes n).out = s.out := rfl

/-! ### answer -/

@[simp] theorem State.answer_pending (s : State) (q : Port) (status : Status) (body : List Byte) : (s.answer q status body).pending = s.pending := rfl
@[simp] theorem State.answer_choices (s : State) (q : Port) (status : Status) (body : List Byte) : (s.answer q status body).choices = s.choices := rfl
@[simp] theorem State.answer_resetAsserted (s : State) (q : Port) (status : Status) (body : List Byte) : (s.answer q status body).resetAsserted = s.resetAsserted := rfl
@[simp] theorem State.answer_clock (s : State) (q : Port) (status : Status) (body : List Byte) : (s.answer q status body).clock = s.clock := rfl
@[simp] theorem State.answer_ref (s : State) (q : Port) (status : Status) (body : List Byte) : (s.answer q status body).ref = s.ref := rfl
@[simp] theorem State.answer_tables (s : State) (q : Port) (status : Status) (body : List Byte) : (s.answer q status body).tables = s.tables := rfl
@[simp] theorem State.answer_receivers (s : State) (q : Port) (status : Status) (body : List Byte) : (s.answer q status body).receivers = s.receivers := rfl
@[simp] theorem State.answer_converters (s : State) (q : Port) (status : Status) (body : List Byte) : (s.answer q status body).converters = s.converters := rfl
@[simp] theorem State.answer_meters (s : State) (q : Port) (status : Status) (body : List Byte) : (s.answer q status body).meters = s.meters := rfl
@[simp] theorem State.answer_gains (s : State) (q : Port) (status : Status) (body : List Byte) : (s.answer q status body).gains = s.gains := rfl
@[simp] theorem State.answer_tonePhase (s : State) (q : Port) (status : Status) (body : List Byte) : (s.answer q status body).tonePhase = s.tonePhase := rfl
@[simp] theorem State.answer_delays (s : State) (q : Port) (status : Status) (body : List Byte) : (s.answer q status body).delays = s.delays := rfl
@[simp] theorem State.answer_memory (s : State) (q : Port) (status : Status) (body : List Byte) : (s.answer q status body).memory = s.memory := rfl
@[simp] theorem State.answer_conditions (s : State) (q : Port) (status : Status) (body : List Byte) : (s.answer q status body).conditions = s.conditions := rfl
@[simp] theorem State.answer_log (s : State) (q : Port) (status : Status) (body : List Byte) : (s.answer q status body).log = s.log := rfl
@[simp] theorem State.answer_pins (s : State) (q : Port) (status : Status) (body : List Byte) : (s.answer q status body).pins = s.pins := rfl
@[simp] theorem State.answer_out (s : State) (q : Port) (status : Status) (body : List Byte) : (s.answer q status body).out = s.out := rfl

/-! ### makePending -/

@[simp] theorem State.makePending_pending (s : State) (q : Port) (name : RecordName) (revision : BitVec 16) : (s.makePending q name revision).pending = s.pending := rfl
@[simp] theorem State.makePending_choices (s : State) (q : Port) (name : RecordName) (revision : BitVec 16) : (s.makePending q name revision).choices = s.choices := rfl
@[simp] theorem State.makePending_resetAsserted (s : State) (q : Port) (name : RecordName) (revision : BitVec 16) : (s.makePending q name revision).resetAsserted = s.resetAsserted := rfl
@[simp] theorem State.makePending_clock (s : State) (q : Port) (name : RecordName) (revision : BitVec 16) : (s.makePending q name revision).clock = s.clock := rfl
@[simp] theorem State.makePending_ref (s : State) (q : Port) (name : RecordName) (revision : BitVec 16) : (s.makePending q name revision).ref = s.ref := rfl
@[simp] theorem State.makePending_tables (s : State) (q : Port) (name : RecordName) (revision : BitVec 16) : (s.makePending q name revision).tables = s.tables := rfl
@[simp] theorem State.makePending_receivers (s : State) (q : Port) (name : RecordName) (revision : BitVec 16) : (s.makePending q name revision).receivers = s.receivers := rfl
@[simp] theorem State.makePending_converters (s : State) (q : Port) (name : RecordName) (revision : BitVec 16) : (s.makePending q name revision).converters = s.converters := rfl
@[simp] theorem State.makePending_meters (s : State) (q : Port) (name : RecordName) (revision : BitVec 16) : (s.makePending q name revision).meters = s.meters := rfl
@[simp] theorem State.makePending_gains (s : State) (q : Port) (name : RecordName) (revision : BitVec 16) : (s.makePending q name revision).gains = s.gains := rfl
@[simp] theorem State.makePending_tonePhase (s : State) (q : Port) (name : RecordName) (revision : BitVec 16) : (s.makePending q name revision).tonePhase = s.tonePhase := rfl
@[simp] theorem State.makePending_delays (s : State) (q : Port) (name : RecordName) (revision : BitVec 16) : (s.makePending q name revision).delays = s.delays := rfl
@[simp] theorem State.makePending_memory (s : State) (q : Port) (name : RecordName) (revision : BitVec 16) : (s.makePending q name revision).memory = s.memory := rfl
@[simp] theorem State.makePending_conditions (s : State) (q : Port) (name : RecordName) (revision : BitVec 16) : (s.makePending q name revision).conditions = s.conditions := rfl
@[simp] theorem State.makePending_log (s : State) (q : Port) (name : RecordName) (revision : BitVec 16) : (s.makePending q name revision).log = s.log := rfl
@[simp] theorem State.makePending_pins (s : State) (q : Port) (name : RecordName) (revision : BitVec 16) : (s.makePending q name revision).pins = s.pins := rfl
@[simp] theorem State.makePending_out (s : State) (q : Port) (name : RecordName) (revision : BitVec 16) : (s.makePending q name revision).out = s.out := rfl

/-! ### releaseSelect -/

@[simp] theorem State.releaseSelect_pending (s : State) (q : Port) : (s.releaseSelect q).pending = s.pending := rfl
@[simp] theorem State.releaseSelect_choices (s : State) (q : Port) : (s.releaseSelect q).choices = s.choices := rfl
@[simp] theorem State.releaseSelect_resetAsserted (s : State) (q : Port) : (s.releaseSelect q).resetAsserted = s.resetAsserted := rfl
@[simp] theorem State.releaseSelect_clock (s : State) (q : Port) : (s.releaseSelect q).clock = s.clock := rfl
@[simp] theorem State.releaseSelect_ref (s : State) (q : Port) : (s.releaseSelect q).ref = s.ref := rfl
@[simp] theorem State.releaseSelect_tables (s : State) (q : Port) : (s.releaseSelect q).tables = s.tables := rfl
@[simp] theorem State.releaseSelect_receivers (s : State) (q : Port) : (s.releaseSelect q).receivers = s.receivers := rfl
@[simp] theorem State.releaseSelect_converters (s : State) (q : Port) : (s.releaseSelect q).converters = s.converters := rfl
@[simp] theorem State.releaseSelect_meters (s : State) (q : Port) : (s.releaseSelect q).meters = s.meters := rfl
@[simp] theorem State.releaseSelect_gains (s : State) (q : Port) : (s.releaseSelect q).gains = s.gains := rfl
@[simp] theorem State.releaseSelect_tonePhase (s : State) (q : Port) : (s.releaseSelect q).tonePhase = s.tonePhase := rfl
@[simp] theorem State.releaseSelect_delays (s : State) (q : Port) : (s.releaseSelect q).delays = s.delays := rfl
@[simp] theorem State.releaseSelect_memory (s : State) (q : Port) : (s.releaseSelect q).memory = s.memory := rfl
@[simp] theorem State.releaseSelect_conditions (s : State) (q : Port) : (s.releaseSelect q).conditions = s.conditions := rfl
@[simp] theorem State.releaseSelect_log (s : State) (q : Port) : (s.releaseSelect q).log = s.log := rfl
@[simp] theorem State.releaseSelect_pins (s : State) (q : Port) : (s.releaseSelect q).pins = s.pins := rfl
@[simp] theorem State.releaseSelect_out (s : State) (q : Port) : (s.releaseSelect q).out = s.out := rfl

/-! ### Pairs, ports and places -/

@[simp] theorem Pair.get_set_same {α : Type} (x : Pair α) (q : Port) (v : α) : (x.set q v).get q = v := by
  cases q <;> rfl

@[simp] theorem Pair.get_set_other {α : Type} (x : Pair α) {q r : Port} (v : α) (h : r ≠ q) :
    (x.set q v).get r = x.get r := by
  cases q <;> cases r <;> first | rfl | exact absurd rfl h

@[simp] theorem Pair.set_set {α : Type} (x : Pair α) (q : Port) (v w : α) :
    (x.set q v).set q w = x.set q w := by
  cases q <;> rfl

@[simp] theorem Pair.set_get {α : Type} (x : Pair α) (q : Port) : x.set q (x.get q) = x := by
  cases q <;> rfl

theorem Pair.ext_get {α : Type} {x y : Pair α} (h : ∀ q : Port, x.get q = y.get q) : x = y := by
  cases x; cases y
  have ha := h .a
  have hb := h .b
  simp only [Pair.get] at ha hb
  rw [ha, hb]

theorem Port.other_ne (q : Port) : Port.other q ≠ q := by cases q <;> decide

@[simp] theorem State.port_setPort_same (s : State) (q : Port) (v : ControlPort) :
    (s.setPort q v).port q = v := by
  simp [State.port]

@[simp] theorem State.port_setPort_other (s : State) {q r : Port} (v : ControlPort) (h : r ≠ q) :
    (s.setPort q v).port r = s.port r := by
  simp [State.port, h]

@[simp] theorem State.setPort_setPort (s : State) (q : Port) (v w : ControlPort) :
    (s.setPort q v).setPort q w = s.setPort q w := by
  simp [State.setPort]

@[simp] theorem State.place_setPlace_same (s : State) (q : Port) (v : LogPort) :
    (s.setPlace q v).place q = v := by
  simp [State.place]

@[simp] theorem State.place_setPlace_other (s : State) {q r : Port} (v : LogPort) (h : r ≠ q) :
    (s.setPlace q v).place r = s.place r := by
  simp [State.place, h]

@[simp] theorem State.settle_pins (s : State) :
    s.settle.pins =
      { alarms := s.tables.summary s.conditions
        sampled := s.pins.sampled
        atn := { a := s.log.attention .a, b := s.log.attention .b } } := rfl

@[simp] theorem State.settle_port (s : State) (q : Port) : s.settle.port q = s.port q := rfl

@[simp] theorem State.settle_place (s : State) (q : Port) : s.settle.place q = s.place q := rfl

end Sys2Proof.Machine
end

