-- ==== Sys2Proof/Laws/Log.lean ====
section
/-! SUPPORT. The alarm log: every operation keeps it well formed (R160, R163), what it does to each
port's account of the entries (R167), which entries retire (R165), and when a port is called (R170). -/

namespace Sys2Proof.Machine

/-! ## Well-formedness by its oldest number -/

/-- The log's entries carry the numbers from `first` on, and each cursor lies between `first` and the
next number. -/
structure AlarmLog.Runs (log : AlarmLog) (first : Nat) : Prop where
  next_eq : log.next = first + log.entries.length
  numbers : log.entries.map LogEntry.number = List.range' first log.entries.length
  low : ∀ q : Port, first ≤ (log.ports.get q).cursor
  high : ∀ q : Port, (log.ports.get q).cursor ≤ log.next

theorem AlarmLog.wellFormed_iff (log : AlarmLog) :
    log.WellFormed ↔ log.entries.length ≤ Config.logCapacity ∧ ∃ first, log.Runs first := by
  constructor
  · rintro ⟨h1, h2, h3, h4⟩
    exact ⟨h1, log.next - log.entries.length,
      { next_eq := by omega, numbers := h3, low := fun q => (h4 q).1, high := fun q => (h4 q).2 }⟩
  · rintro ⟨h1, first, h⟩
    have hf : log.next - log.entries.length = first := by have := h.next_eq; omega
    exact ⟨h1, by have := h.next_eq; omega, by rw [hf]; exact h.numbers,
      fun q => ⟨by rw [hf]; exact h.low q, h.high q⟩⟩

/-! ## Leaving (R165 to R167) -/

@[simp] theorem departed_get (places : Pair LogPort) (n : Nat) (q : Port) :
    (departed places n).get q = (places.get q).depart n := by
  cases q <;> rfl

/-- The entry a port's cursor stands at or ahead of leaves: the account is kept (R167). -/
theorem LogPort.depart_account (place : LogPort) (n : Nat) (h : n ≤ place.cursor) :
    ((place.depart n).cursor : Int) - (place.depart n).missed =
      (place.cursor : Int) - place.missed := by
  unfold LogPort.depart
  split
  · have : place.cursor = n := by omega
    simp only [this]
    omega
  · rfl

theorem LogPort.depart_low (place : LogPort) (n : Nat) :
    n + 1 ≤ (place.depart n).cursor := by
  unfold LogPort.depart
  split
  · exact Nat.le_refl _
  · show n + 1 ≤ place.cursor; omega

theorem LogPort.depart_high (place : LogPort) (n top : Nat) (h : place.cursor ≤ top) (hn : n < top) :
    (place.depart n).cursor ≤ top := by
  unfold LogPort.depart
  split
  · exact hn
  · exact h

@[simp] theorem LogPort.depart_attending (place : LogPort) (n : Nat) :
    (place.depart n).attending = place.attending := by
  unfold LogPort.depart; split <;> rfl

/-- The run of oldest entries that retire leaves a run: what stays, the numbers, the cursors and the
accounts (R165, R167). -/
theorem retireFrom_runs (entries : List LogEntry) (places : Pair LogPort) (first : Nat)
    (numbers : entries.map LogEntry.number = List.range' first entries.length)
    (low : ∀ q : Port, first ≤ (places.get q).cursor)
    (high : ∀ q : Port, (places.get q).cursor ≤ first + entries.length) :
    ∃ k, k ≤ entries.length ∧ (retireFrom entries places).1 = entries.drop k ∧
      (∀ q : Port, first + k ≤ ((retireFrom entries places).2.get q).cursor) ∧
      (∀ q : Port, ((retireFrom entries places).2.get q).cursor ≤ first + entries.length) ∧
      ∀ q : Port,
        (((retireFrom entries places).2.get q).cursor : Int) -
            ((retireFrom entries places).2.get q).missed =
          ((places.get q).cursor : Int) - (places.get q).missed := by
  induction entries generalizing places first with
  | nil => exact ⟨0, by simp, rfl, low, high, fun q => rfl⟩
  | cons e rest ih =>
    simp only [List.map_cons, List.length_cons, List.range'_succ, List.cons.injEq] at numbers
    obtain ⟨hn, hr⟩ := numbers
    by_cases h : retirable places e.number = true
    · have := ih (departed places e.number) (first + 1) hr
        (fun q => by
          rw [departed_get, hn]
          exact LogPort.depart_low _ _)
        (fun q => by
          rw [departed_get, hn]
          have := high q
          simp only [List.length_cons] at this
          exact LogPort.depart_high _ _ _ (by omega) (by omega))
      obtain ⟨k, hk, h1, h2, h3, h4⟩ := this
      refine ⟨k + 1, by simp [hk], ?_, ?_, ?_, ?_⟩
      · simp only [retireFrom, h, if_true, h1, List.drop_succ_cons]
      · intro q
        simp only [retireFrom, h, if_true]
        have := h2 q
        omega
      · intro q
        simp only [retireFrom, h, if_true]
        have := h3 q
        simp only [List.length_cons]
        omega
      · intro q
        simp only [retireFrom, h, if_true]
        rw [h4 q, departed_get]
        exact LogPort.depart_account _ _ (by rw [hn]; exact low q)
    · exact ⟨0, by simp, by simp [retireFrom, h], fun q => by simpa [retireFrom, h] using low q,
        fun q => by simpa [retireFrom, h] using high q, fun q => by simp [retireFrom, h]⟩

/-- Retirement keeps the log well formed and every port's account (R165, R167). -/
theorem AlarmLog.retire_wellFormed (log : AlarmLog) (h : log.WellFormed) :
    log.retire.WellFormed ∧ ∀ q : Port, log.retire.accounted q = log.accounted q := by
  rw [AlarmLog.wellFormed_iff] at h
  obtain ⟨hcap, first, hr⟩ := h
  obtain ⟨k, hk, h1, h2, h3, h4⟩ := retireFrom_runs log.entries log.ports first hr.numbers hr.low
    (fun q => by have := hr.high q; have := hr.next_eq; omega)
  have he : log.retire.entries = log.entries.drop k := h1
  have hlen : log.retire.entries.length = log.entries.length - k := by rw [he, List.length_drop]
  have hnext : log.retire.next = log.next := rfl
  refine ⟨?_, fun q => h4 q⟩
  rw [AlarmLog.wellFormed_iff]
  refine ⟨by omega, first + k, ?_⟩
  have := hr.next_eq
  exact
    { next_eq := by omega
      numbers := by
        rw [hlen, he, List.map_drop, hr.numbers, List.drop_range']
        simp
      low := h2
      high := fun q => by
        have := h3 q
        rw [hnext]
        show ((retireFrom log.entries log.ports).2.get q).cursor ≤ log.next
        omega }

/-! ## Joining (R162, R166) -/

theorem AlarmLog.drop_runs (log : AlarmLog) (first : Nat) (h : log.Runs first)
    (hne : log.entries ≠ []) :
    log.drop.Runs (first + 1) ∧ log.drop.entries.length + 1 = log.entries.length ∧
      ∀ q : Port, log.drop.accounted q = log.accounted q := by
  have hn := h.numbers
  have hx := h.next_eq
  unfold AlarmLog.drop
  cases hc : log.entries with
  | nil => exact absurd hc hne
  | cons e rest =>
    rw [hc] at hn hx
    simp only [List.map_cons, List.length_cons, List.range'_succ, List.cons.injEq] at hn hx
    refine ⟨{ next_eq := by simp only; omega, numbers := hn.2, low := ?_, high := ?_ }, by simp, ?_⟩
    · intro q
      simp only [departed_get, hn.1]
      exact LogPort.depart_low _ _
    · intro q
      simp only [departed_get, hn.1]
      exact LogPort.depart_high _ _ _ (h.high q) (by omega)
    · intro q
      simp only [AlarmLog.accounted, departed_get]
      exact LogPort.depart_account _ _ (by rw [hn.1]; exact h.low q)

theorem AlarmLog.join_runs (log : AlarmLog) (first : Nat) (h : log.Runs first) (e : Entry) :
    AlarmLog.Runs
      { log with
        entries := log.entries ++ [{ number := log.next, entry := e }], next := log.next + 1 } first :=
  { next_eq := by simp only [List.length_append, List.length_cons, List.length_nil]; have := h.next_eq; omega
    numbers := by
      have := h.next_eq
      simp only [List.map_append, h.numbers, List.map_cons, List.map_nil, List.length_append,
        List.length_cons, List.length_nil, this]
      have hcat := List.range'_concat (s := first) (n := log.entries.length) (step := 1)
      rw [Nat.one_mul] at hcat
      rw [Nat.zero_add]
      exact hcat.symm
    low := h.low
    high := fun q => by have := h.high q; simp only; omega }

/-- An entry that joins keeps the log well formed and every port's account, takes the next number, and
leaves the log's other settings (R162, R166, R167). -/
theorem AlarmLog.hand_wellFormed (log : AlarmLog) (h : log.WellFormed) (e : Entry) :
    (log.hand e).WellFormed ∧ (log.hand e).next = log.next + 1 ∧
      ∀ q : Port, (log.hand e).accounted q = log.accounted q := by
  rw [AlarmLog.wellFormed_iff] at h
  obtain ⟨hcap, first, hr⟩ := h
  have hdn : log.drop.next = log.next := by unfold AlarmLog.drop; split <;> rfl
  by_cases hfull : Config.logCapacity ≤ log.entries.length
  · have hne : log.entries ≠ [] := by
      intro h0
      rw [h0] at hfull
      simp [Config.logCapacity] at hfull
    obtain ⟨h1, h2, h3⟩ := log.drop_runs first hr hne
    have hx : log.hand e = { log.drop with
        entries := log.drop.entries ++ [{ number := log.drop.next, entry := e }]
        next := log.drop.next + 1 } := by simp [AlarmLog.hand, hfull]
    rw [hx]
    refine ⟨?_, by simp [hdn], fun q => h3 q⟩
    rw [AlarmLog.wellFormed_iff]
    exact ⟨by simp only [List.length_append, List.length_cons, List.length_nil]; omega, _,
      log.drop.join_runs _ h1 e⟩
  · have hx : log.hand e = { log with
        entries := log.entries ++ [{ number := log.next, entry := e }]
        next := log.next + 1 } := by simp [AlarmLog.hand, hfull]
    rw [hx]
    refine ⟨?_, rfl, fun q => rfl⟩
    rw [AlarmLog.wellFormed_iff]
    exact ⟨by simp only [List.length_append, List.length_cons, List.length_nil]; omega, _,
      log.join_runs _ hr e⟩

/-- A run of entries handed over keeps the log well formed and every port's account. -/
theorem AlarmLog.handAll_wellFormed (log : AlarmLog) (h : log.WellFormed) (es : List Entry) :
    (log.handAll es).WellFormed ∧ (log.handAll es).next = log.next + es.length ∧
      ∀ q : Port, (log.handAll es).accounted q = log.accounted q := by
  induction es generalizing log with
  | nil => exact ⟨h, rfl, fun q => rfl⟩
  | cons e rest ih =>
    obtain ⟨h1, h2, h3⟩ := log.hand_wellFormed h e
    obtain ⟨h4, h5, h6⟩ := ih (log.hand e) h1
    refine ⟨h4, ?_, fun q => ?_⟩
    · rw [AlarmLog.handAll, h5, h2]
      simp only [List.length_cons]
      omega
    · rw [AlarmLog.handAll, h6 q, h3 q]

/-! ## Attendance (R164) -/

/-- A change of a port's place that keeps its cursor and missed count keeps the log well formed and every
account. -/
theorem AlarmLog.setPlace_wellFormed (log : AlarmLog) (h : log.WellFormed) (q : Port) (v : LogPort)
    (hc : v.cursor = (log.ports.get q).cursor) (hm : v.missed = (log.ports.get q).missed) :
    AlarmLog.WellFormed { log with ports := log.ports.set q v } ∧
      ∀ r : Port, AlarmLog.accounted { log with ports := log.ports.set q v } r = log.accounted r := by
  obtain ⟨h1, h2, h3, h4⟩ := h
  have hget : ∀ r : Port, ((log.ports.set q v).get r).cursor = (log.ports.get r).cursor ∧
      ((log.ports.set q v).get r).missed = (log.ports.get r).missed := by
    intro r
    by_cases hr : r = q
    · subst hr; simp [hc, hm]
    · simp [hr]
  refine ⟨⟨h1, h2, h3, fun r => ?_⟩, fun r => ?_⟩
  · rw [(hget r).1]; exact h4 r
  · simp only [AlarmLog.accounted, (hget r).1, (hget r).2]

theorem AlarmLog.attend_wellFormed (log : AlarmLog) (h : log.WellFormed) (q : Port) :
    (log.attend q).WellFormed ∧ ∀ r : Port, (log.attend q).accounted r = log.accounted r :=
  log.setPlace_wellFormed h q _ rfl rfl

theorem AlarmLog.leave_wellFormed (log : AlarmLog) (h : log.WellFormed) (q : Port) :
    (log.leave q).WellFormed ∧ ∀ r : Port, (log.leave q).accounted r = log.accounted r := by
  obtain ⟨h1, h2⟩ := log.setPlace_wellFormed h q
    { log.ports.get q with attending := false } rfl rfl
  obtain ⟨h3, h4⟩ := AlarmLog.retire_wellFormed _ h1
  exact ⟨h3, fun r => (h4 r).trans (h2 r)⟩

/-! ## Fetching (R168, R169) -/

theorem filter_range'_le (first c n : Nat) (h1 : first ≤ c) (h2 : c ≤ first + n) :
    ((List.range' first n).filter fun m => decide (c ≤ m)) = List.range' c (first + n - c) := by
  induction n generalizing first with
  | zero =>
    have : first - c = 0 := by omega
    simp [this]
  | succ n ih =>
    rw [List.range'_succ]
    by_cases hc : first = c
    · subst hc
      have hall : ((List.range' (first + 1) n).filter fun m => decide (first ≤ m)) =
          List.range' (first + 1) n := by
        rw [List.filter_eq_self]
        intro a ha
        have := (List.mem_range'_1.mp ha).1
        simp; omega
      have : first + (n + 1) - first = n + 1 := by omega
      rw [List.filter_cons_of_pos (by simp), hall, this, List.range'_succ]
    · rw [List.filter_cons_of_neg (by simp; omega), ih (first + 1) (by omega) (by omega)]
      congr 1
      omega

/-- The entries unread by a port are those from its cursor on. -/
theorem AlarmLog.unread_numbers (log : AlarmLog) (h : log.WellFormed) (q : Port) :
    (log.entries.filter fun e => decide ((log.ports.get q).cursor ≤ e.number)).map LogEntry.number =
      List.range' (log.ports.get q).cursor (log.unread q) := by
  obtain ⟨h1, h2, h3, h4⟩ := h
  have hmap : (log.entries.filter fun e => decide ((log.ports.get q).cursor ≤ e.number)).map
      LogEntry.number = ((log.entries.map LogEntry.number).filter
        fun m => decide ((log.ports.get q).cursor ≤ m)) := by
    rw [List.filter_map]
    rfl
  have hq := h4 q
  rw [hmap, h3, filter_range'_le _ _ _ hq.1 (by omega)]
  congr 1
  unfold AlarmLog.unread
  omega

theorem AlarmLog.delivered_length (log : AlarmLog) (h : log.WellFormed) (q : Port) (n : Nat) :
    (log.delivered q n).length =
      min (if 0 < (log.ports.get q).missed then n - 1 else n) (log.unread q) := by
  have := congrArg List.length (log.unread_numbers h q)
  simp only [List.length_map, List.length_range'] at this
  simp only [AlarmLog.delivered, List.length_take, this]

/-- A fetch keeps the log well formed; the fetching port's account rises by what is delivered and
reported, and the other port's is kept (R167 to R169). -/
theorem AlarmLog.advance_wellFormed (log : AlarmLog) (h : log.WellFormed) (q : Port) (n : Nat) :
    (log.advance q n).WellFormed ∧
      (log.advance q n).accounted q =
        log.accounted q + ((log.delivered q n).length : Int) + (log.overrun q : Int) ∧
      ∀ r : Port, r ≠ q → (log.advance q n).accounted r = log.accounted r := by
  have hlen := log.delivered_length h q n
  obtain ⟨h1, h2, h3, h4⟩ := h
  have hq := h4 q
  have hle : (log.delivered q n).length ≤ log.next - (log.ports.get q).cursor := by
    rw [hlen]
    exact Nat.min_le_right _ _
  have hover : log.overrun q ≤ (log.ports.get q).missed := Nat.min_le_left _ _
  refine ⟨⟨h1, h2, h3, fun r => ?_⟩, ?_, fun r hr => ?_⟩
  · by_cases hr : r = q
    · subst hr
      simp only [AlarmLog.advance, Pair.get_set_same]
      omega
    · simp only [AlarmLog.advance, Pair.get_set_other _ _ hr]
      exact h4 r
  · simp only [AlarmLog.accounted, AlarmLog.advance, Pair.get_set_same]
    omega
  · simp only [AlarmLog.accounted, AlarmLog.advance, Pair.get_set_other _ _ hr]

theorem AlarmLog.initial_wellFormed : AlarmLog.initial.WellFormed :=
  ⟨by decide, by decide, rfl, fun q => by cases q <;> decide⟩

/-! ## One entry that joins, and the run that retires (R160, R162, R165 to R167) -/

theorem LogPort.depart_past (x : LogPort) (e : LogEntry) : x.depart e.number = x.past e := rfl

/-- Handing an entry over makes it join. -/
theorem AlarmLog.hand_joins (log : AlarmLog) (e : Entry) : log.Joins e (log.hand e) := by
  have hcap : Config.logCapacity = 128 := rfl
  unfold AlarmLog.Joins AlarmLog.hand
  rw [hcap]
  simp only
  split
  · rename_i hfull
    unfold AlarmLog.drop
    split
    · rename_i hh
      rw [hh] at hfull
      exact absurd hfull (by decide)
    · rename_i oldest rest hh
      rw [hh] at hfull ⊢
      refine ⟨rfl, rfl, fun h => absurd hfull (by omega), fun o r he _ q => ?_⟩
      cases he
      exact departed_get _ _ q
  · rename_i hfull
    exact ⟨rfl, rfl, fun _ => rfl, fun _ _ _ h => absurd h hfull⟩

/-- An entry retires exactly where some port attends and every attending port has read it (R165). -/
theorem retirable_iff (places : Pair LogPort) (n : Nat) :
    retirable places n = true ↔
      (∃ q : Port, (places.get q).attending = true) ∧
        ∀ q : Port, (places.get q).attending = true → n < (places.get q).cursor := by
  unfold retirable
  simp only [Bool.and_eq_true, Bool.or_eq_true, Bool.not_eq_true', decide_eq_true_eq]
  constructor
  · rintro ⟨⟨h1, h2⟩, h3⟩
    refine ⟨?_, fun q hq => ?_⟩
    · rcases h1 with h | h
      · exact ⟨.a, h⟩
      · exact ⟨.b, h⟩
    · cases q
      · exact h2.resolve_left (by rw [show places.a.attending = true from hq]; decide)
      · exact h3.resolve_left (by rw [show places.b.attending = true from hq]; decide)
  · rintro ⟨⟨q, hq⟩, h⟩
    refine ⟨⟨?_, ?_⟩, ?_⟩
    · cases q
      · exact Or.inl hq
      · exact Or.inr hq
    · cases ha : places.a.attending
      · exact Or.inl rfl
      · exact Or.inr (h .a ha)
    · cases hb : places.b.attending
      · exact Or.inl rfl
      · exact Or.inr (h .b hb)

/-- The run that retires, where some port attends (R165, R167). -/
theorem retireFrom_run (entries : List LogEntry) (places : Pair LogPort)
    (attends : ∃ q : Port, (places.get q).attending = true) :
    ∃ k ≤ entries.length,
      (∀ e ∈ entries.take k, ∀ q : Port, (places.get q).attending = true →
        e.number < (places.get q).cursor) ∧
      (∀ e, entries[k]? = some e → ∃ q : Port, (places.get q).attending = true ∧
        (places.get q).cursor ≤ e.number) ∧
      (retireFrom entries places).1 = entries.drop k ∧
      ∀ q : Port, (retireFrom entries places).2.get q =
        (entries.take k).foldl LogPort.past (places.get q) := by
  induction entries generalizing places with
  | nil => exact ⟨0, Nat.le_refl _, fun _ h => absurd h List.not_mem_nil, fun _ h => (nomatch h), rfl,
      fun _ => rfl⟩
  | cons x rest ih =>
    by_cases h : retirable places x.number = true
    · have read := ((retirable_iff _ _).mp h).2
      have kept : ∀ q : Port, (places.get q).attending = true →
          (departed places x.number).get q = places.get q := fun q hq => by
        have := read q hq
        rw [departed_get]
        unfold LogPort.depart
        rw [if_neg (by omega)]
      have flags : ∀ q : Port, ((departed places x.number).get q).attending =
          (places.get q).attending := fun q => by rw [departed_get, LogPort.depart_attending]
      obtain ⟨k, hk, h1, h2, h3, h4⟩ := ih (departed places x.number)
        (attends.imp fun q hq => (flags q).trans hq)
      refine ⟨k + 1, Nat.succ_le_succ hk, fun e he q hq => ?_, fun e he => ?_, ?_, fun q => ?_⟩
      · rcases List.mem_cons.mp he with rfl | he
        · exact read q hq
        · have := h1 e he q ((flags q).trans hq)
          rwa [kept q hq] at this
      · obtain ⟨q, hq, hc⟩ := h2 e he
        rw [flags] at hq
        rw [kept q hq] at hc
        exact ⟨q, hq, hc⟩
      · simp only [retireFrom, h, if_true, h3, List.drop_succ_cons]
      · simp only [retireFrom, h, if_true, h4, departed_get, LogPort.depart_past, List.take_succ_cons,
          List.foldl_cons]
    · refine ⟨0, Nat.zero_le _, fun _ he => absurd he List.not_mem_nil, fun e he => ?_, ?_, fun _ => ?_⟩
      · have he : x = e := Option.some.inj he
        subst he
        refine Classical.byContradiction fun none => h ((retirable_iff _ _).mpr ⟨attends, fun q hq => ?_⟩)
        exact Nat.lt_of_not_le fun hc => none ⟨q, hq, hc⟩
      · rw [retireFrom, if_neg h]
        rfl
      · rw [retireFrom, if_neg h]
        rfl

/-- The test for retirement (R165, R167). -/
theorem AlarmLog.retire_retires (log : AlarmLog) : log.Retires log.retire := by
  refine ⟨fun none => ?_, fun attends => ?_⟩
  · have h : retireFrom log.entries log.ports = (log.entries, log.ports) := by
      cases log.entries with
      | nil => rfl
      | cons e rest =>
        rw [retireFrom, if_neg]
        intro h
        obtain ⟨q, hq⟩ := ((retirable_iff _ _).mp h).1
        rw [none q] at hq
        cases hq
    unfold AlarmLog.retire
    rw [h]
  · obtain ⟨k, hk, h1, h2, h3, h4⟩ := retireFrom_run log.entries log.ports attends
    exact ⟨k, hk, h1, h2, h3, rfl, h4⟩

end Sys2Proof.Machine
end

