-- ==== Sys2Proof/Laws/Orders.lean ====
section
/-! SUPPORT. The free orders: a free order is the same items in some order, a free merge the items of
both lists with each list's own order kept. -/

namespace Sys2Proof.Machine

theorem insertAt_perm {α : Type} (x : α) (n : Nat) (ys : List α) : (insertAt x n ys).Perm (x :: ys) := by
  induction ys generalizing n with
  | nil => cases n <;> exact List.Perm.refl _
  | cons y ys ih =>
    cases n with
    | zero => exact List.Perm.refl _
    | succ n => exact ((ih n).cons y).trans (List.Perm.swap x y ys)

/-- A free order is a permutation. -/
theorem freeOrder_perm {α : Type} (c : Nat) (xs : List α) : (freeOrder c xs).Perm xs := by
  induction xs generalizing c with
  | nil => exact List.Perm.refl _
  | cons x rest ih =>
    cases rest with
    | nil => exact List.Perm.refl _
    | cons y rest => exact (insertAt_perm x _ _).trans ((ih (c + 1)).cons x)

@[simp] theorem freeOrder_nil {α : Type} (c : Nat) : freeOrder c ([] : List α) = [] := rfl

@[simp] theorem freeOrder_single {α : Type} (c : Nat) (x : α) : freeOrder c [x] = [x] := rfl

theorem freeMergeWith_nil_left {α : Type} (fuel c : Nat) (ys : List α) :
    freeMergeWith fuel c [] ys = ys := by
  cases fuel <;> rfl

theorem freeMergeWith_nil_right {α : Type} (fuel c : Nat) (xs : List α) :
    freeMergeWith fuel c xs [] = xs := by
  cases fuel with
  | zero => simp [freeMergeWith]
  | succ fuel => cases xs <;> rfl

/-- A free merge holds the items of both lists. -/
theorem freeMergeWith_perm {α : Type} (fuel c : Nat) (xs ys : List α) :
    (freeMergeWith fuel c xs ys).Perm (xs ++ ys) := by
  induction fuel generalizing c xs ys with
  | zero => exact List.Perm.refl _
  | succ fuel ih =>
    cases xs with
    | nil => exact List.Perm.refl _
    | cons x xs =>
      cases ys with
      | nil => simp [freeMergeWith]
      | cons y ys =>
        simp only [freeMergeWith]
        split
        · exact (ih (c + 1) xs (y :: ys)).cons x
        · refine ((ih (c + 1) (x :: xs) ys).cons y).trans ?_
          exact (List.perm_middle (a := y) (l₁ := x :: xs) (l₂ := ys)).symm

theorem freeMerge_perm {α : Type} (c : Nat) (xs ys : List α) :
    (freeMerge c xs ys).Perm (xs ++ ys) := freeMergeWith_perm _ c xs ys

/-- A free merge keeps the order of its first list. -/
theorem freeMergeWith_left {α : Type} (fuel c : Nat) (xs ys : List α) :
    xs.Sublist (freeMergeWith fuel c xs ys) := by
  induction fuel generalizing c xs ys with
  | zero => exact List.sublist_append_left xs ys
  | succ fuel ih =>
    cases xs with
    | nil => exact List.nil_sublist _
    | cons x xs =>
      cases ys with
      | nil => exact List.Sublist.refl _
      | cons y ys =>
        simp only [freeMergeWith]
        split
        · exact (ih (c + 1) xs (y :: ys)).cons_cons x
        · exact (ih (c + 1) (x :: xs) ys).cons y

/-- A free merge keeps the order of its second list. -/
theorem freeMergeWith_right {α : Type} (fuel c : Nat) (xs ys : List α) :
    ys.Sublist (freeMergeWith fuel c xs ys) := by
  induction fuel generalizing c xs ys with
  | zero => exact List.sublist_append_right xs ys
  | succ fuel ih =>
    cases xs with
    | nil => exact List.Sublist.refl _
    | cons x xs =>
      cases ys with
      | nil => exact List.nil_sublist _
      | cons y ys =>
        simp only [freeMergeWith]
        split
        · exact (ih (c + 1) xs (y :: ys)).cons x
        · exact (ih (c + 1) (x :: xs) ys).cons_cons y

@[simp] theorem freeMerge_nil_left {α : Type} (c : Nat) (ys : List α) : freeMerge c [] ys = ys :=
  freeMergeWith_nil_left _ c ys

@[simp] theorem freeMerge_nil_right {α : Type} (c : Nat) (xs : List α) : freeMerge c xs [] = xs :=
  freeMergeWith_nil_right _ c xs

/-- What a predicate that separates two lists keeps of a free merge of them. -/
theorem freeMergeWith_filter {α : Type} (p : α → Bool) (fuel c : Nat) (xs ys : List α) :
    ((∀ x ∈ xs, p x = true) → (∀ y ∈ ys, p y = false) → (freeMergeWith fuel c xs ys).filter p = xs) ∧
      ((∀ x ∈ xs, p x = false) → (∀ y ∈ ys, p y = true) →
        (freeMergeWith fuel c xs ys).filter p = ys) := by
  have all (zs : List α) (h : ∀ z ∈ zs, p z = true) : zs.filter p = zs := List.filter_eq_self.mpr h
  have none (zs : List α) (h : ∀ z ∈ zs, p z = false) : zs.filter p = [] :=
    List.filter_eq_nil_iff.mpr fun z hz => by simp [h z hz]
  induction fuel generalizing c xs ys with
  | zero =>
    show ((∀ x ∈ xs, p x = true) → (∀ y ∈ ys, p y = false) → (xs ++ ys).filter p = xs) ∧
      ((∀ x ∈ xs, p x = false) → (∀ y ∈ ys, p y = true) → (xs ++ ys).filter p = ys)
    rw [List.filter_append]
    exact ⟨fun hx hy => by rw [all xs hx, none ys hy, List.append_nil],
      fun hx hy => by rw [none xs hx, all ys hy, List.nil_append]⟩
  | succ fuel ih =>
    cases xs with
    | nil =>
      rw [freeMergeWith_nil_left]
      exact ⟨fun _ hy => none ys hy, fun _ hy => all ys hy⟩
    | cons x xs =>
      cases ys with
      | nil =>
        rw [freeMergeWith_nil_right]
        exact ⟨fun hx _ => all _ hx, fun hx _ => none _ hx⟩
      | cons y ys =>
        rw [freeMergeWith]
        split
        · obtain ⟨h1, h2⟩ := ih (c + 1) xs (y :: ys)
          refine ⟨fun hx hy => ?_, fun hx hy => ?_⟩
          · rw [List.filter_cons_of_pos (hx x List.mem_cons_self),
              h1 (fun z hz => hx z (List.mem_cons_of_mem _ hz)) hy]
          · rw [List.filter_cons_of_neg (by simp [hx x List.mem_cons_self]),
              h2 (fun z hz => hx z (List.mem_cons_of_mem _ hz)) hy]
        · obtain ⟨h1, h2⟩ := ih (c + 1) (x :: xs) ys
          refine ⟨fun hx hy => ?_, fun hx hy => ?_⟩
          · rw [List.filter_cons_of_neg (by simp [hy y List.mem_cons_self]),
              h1 hx (fun z hz => hy z (List.mem_cons_of_mem _ hz))]
          · rw [List.filter_cons_of_pos (hy y List.mem_cons_self),
              h2 hx (fun z hz => hy z (List.mem_cons_of_mem _ hz))]

end Sys2Proof.Machine
end

