-- ==== Sys2Proof/Laws/Tables.lean ====
section
/-! SUPPORT. The configuration tables: what an apply and an acceptance leave of one record, and when two
contents claim a common slot or page. -/

namespace Sys2Proof.Machine

/-! ## One record -/

theorem Record.take_applied {α : Type} (r : Record α) : r.take.applied = r.newest := by
  unfold Record.take Record.newest
  cases r.staged <;> rfl

@[simp] theorem Record.take_revision {α : Type} (r : Record α) : r.take.revision = r.revision := by
  unfold Record.take
  split <;> rfl

@[simp] theorem Record.take_staged {α : Type} (r : Record α) : r.take.staged = none := by
  unfold Record.take
  split
  · rfl
  · assumption

/-- A record on which somebody waits only where it is staged has no waiting list after an apply. -/
theorem Record.take_waiting {α : Type} [DecidableEq α] (r : Record α) (h : r.waiting ≠ [] → r.staged.isSome = true) :
    r.take.waiting = [] := by
  unfold Record.take
  split
  · rfl
  · rename_i hs
    apply Decidable.byContradiction
    intro hw
    have hsome := h hw
    rw [hs] at hsome
    cases hsome

theorem Record.mem_contents {α : Type} (r : Record α) (x : α) :
    x ∈ r.contents ↔ x = r.applied ∨ ∃ y, r.staged = some y ∧ x = y.content := by
  unfold Record.contents
  split <;> simp_all

theorem Record.newest_mem_contents {α : Type} (r : Record α) : r.newest ∈ r.contents := by
  rw [Record.mem_contents]
  unfold Record.newest
  split
  · rename_i x hx
    exact Or.inr ⟨x, hx, rfl⟩
  · exact Or.inl rfl

/-- After an apply a record's only content is the newest it held. -/
theorem Record.contents_take {α : Type} (r : Record α) : r.take.contents = [r.newest] := by
  unfold Record.contents
  rw [Record.take_staged, Record.take_applied]

/-- After an acceptance a record's contents are the applied one and the new one. -/
theorem Record.contents_accept {α : Type} (r : Record α) (q : Port) (content : α) :
    (r.accept q content).contents = [r.applied, content] := rfl

theorem Record.contents_leave {α : Type} (r : Record α) (q : Port) :
    (r.leave q).contents = r.contents := rfl

/-! ## Claims (R10) -/

theorem slotsMeet_eq_false (x y : ProgramRecord) :
    slotsMeet x y = false ↔ ∀ slot ∈ x.outputs, slot ∉ y.outputs := by
  simp [slotsMeet, List.any_eq_false]

theorem slotsMeet_comm (x y : ProgramRecord) : slotsMeet x y = slotsMeet y x := by
  rw [Bool.eq_iff_iff]
  simp only [slotsMeet, List.any_eq_true, List.contains_iff_mem]
  exact ⟨fun ⟨slot, hx, hy⟩ => ⟨slot, hy, hx⟩, fun ⟨slot, hy, hx⟩ => ⟨slot, hx, hy⟩⟩

/-- Two windows meet exactly where some page lies in both. -/
theorem DelaySection.meets_iff (x y : DelaySection) :
    x.meets y = true ↔ ∃ page, (x.base ≤ page ∧ page ≤ x.limit) ∧ (y.base ≤ page ∧ page ≤ y.limit) := by
  simp only [DelaySection.meets, DelaySection.claims, Bool.and_eq_true, decide_eq_true_eq]
  constructor
  · rintro ⟨⟨⟨hx, hy⟩, hxy⟩, hyx⟩
    exact ⟨max x.base y.base, by omega, by omega⟩
  · rintro ⟨page, hx, hy⟩
    omega

theorem DelaySection.meets_comm (x y : DelaySection) : x.meets y = y.meets x := by
  rw [Bool.eq_iff_iff, DelaySection.meets_iff, DelaySection.meets_iff]
  exact ⟨fun ⟨page, hx, hy⟩ => ⟨page, hy, hx⟩, fun ⟨page, hy, hx⟩ => ⟨page, hx, hy⟩⟩

theorem pagesMeet_comm (x y : ProgramRecord) : pagesMeet x y = pagesMeet y x := by
  unfold pagesMeet
  cases x.delay <;> cases y.delay <;> simp [DelaySection.meets_comm]

/-- Whether pages meet rests on the base and the limit of the two windows alone. -/
theorem DelaySection.meets_congr (x x' y : DelaySection) (hb : x'.base = x.base)
    (hl : x'.limit = x.limit) : x'.meets y = x.meets y := by
  simp [DelaySection.meets, DelaySection.claims, hb, hl]

theorem Record.conflict_eq_none (r : Record ProgramRecord) (new : ProgramRecord) :
    r.conflict new = none ↔
      ∀ y ∈ r.contents, slotsMeet new y = false ∧ pagesMeet new y = false := by
  unfold Record.conflict
  constructor
  · intro h
    split at h
    · cases h
    · rename_i hs
      split at h
      · cases h
      · rename_i hp
        simp only [List.any_eq_true, not_exists, not_and, Bool.not_eq_true] at hs hp
        exact fun y hy => ⟨hs y hy, hp y hy⟩
  · intro h
    rw [if_neg, if_neg]
    · simp only [List.any_eq_true, not_exists, not_and, Bool.not_eq_true]
      exact fun y hy => (h y hy).2
    · simp only [List.any_eq_true, not_exists, not_and, Bool.not_eq_true]
      exact fun y hy => (h y hy).1

theorem Tables.conflict_eq_none (t : Tables) (p : Fin 16) (new : ProgramRecord) :
    t.conflict p new = none ↔ ∀ q : Fin 16, q ≠ p → t.programs[q].conflict new = none := by
  unfold Tables.conflict
  rw [List.findSome?_eq_none_iff]
  constructor
  · intro h q hq
    have hh := h q (List.mem_finRange q)
    rw [if_neg hq] at hh
    simpa using hh
  · intro h q _
    split
    · rfl
    · rename_i hq
      rw [h q hq]
      rfl

/-- A content that an acceptance has checked claims no slot and no page of another program. -/
theorem Tables.conflict_disjoint (t : Tables) (p : Fin 16) (new : ProgramRecord)
    (h : t.conflict p new = none) (q : Fin 16) (hq : q ≠ p) (y : ProgramRecord)
    (hy : y ∈ t.programs[q].contents) : slotsMeet new y = false ∧ pagesMeet new y = false :=
  (Record.conflict_eq_none _ _).mp ((Tables.conflict_eq_none t p new).mp h q hq) y hy

/-- Replacing one program's record keeps the claims disjoint where each of its contents claims nothing of
another program's and no slot twice. -/
theorem Tables.claims_set (t : Tables) (h : t.ClaimsDisjoint) (p : Fin 16) (r : Record ProgramRecord)
    (others : ∀ x ∈ r.contents, ∀ q : Fin 16, q ≠ p → ∀ y ∈ t.programs[q].contents,
      slotsMeet x y = false ∧ pagesMeet x y = false)
    (once : ∀ x ∈ r.contents, x.outputs.Nodup) :
    ({ t with programs := t.programs.set p r } : Tables).ClaimsDisjoint := by
  have get : ∀ q : Fin 16, (t.programs.set p r)[q] = if q = p then r else t.programs[q] := by
    intro q
    by_cases hq : q = p
    · subst hq
      simp
    · have hv : p.val ≠ q.val := fun e => hq (Fin.ext e.symm)
      simp [hv, hq]
  refine ⟨?_, ?_⟩
  · intro a b hab x hx y hy
    simp only [get] at hx hy
    by_cases ha : a = p
    · subst ha
      rw [if_pos rfl] at hx
      rw [if_neg (Ne.symm hab)] at hy
      exact others x hx b (Ne.symm hab) y hy
    · rw [if_neg ha] at hx
      by_cases hb : b = p
      · subst hb
        rw [if_pos rfl] at hy
        have ho := others y hy a ha x hx
        rw [slotsMeet_comm, pagesMeet_comm]
        exact ho
      · rw [if_neg hb] at hy
        exact h.1 a b hab x hx y hy
  · intro a x hx
    simp only [get] at hx
    by_cases ha : a = p
    · rw [if_pos ha] at hx
      exact once x hx
    · rw [if_neg ha] at hx
      exact h.2 a x hx

/-- An apply keeps the claims disjoint. -/
theorem Tables.claims_take (t : Tables) (h : t.ClaimsDisjoint) : t.take.ClaimsDisjoint := by
  have get : ∀ p : Fin 16, t.take.programs[p] = t.programs[p].take := by
    intro p
    simp [Tables.take]
  refine ⟨?_, ?_⟩
  · intro p q hpq x hx y hy
    rw [get, Record.contents_take, List.mem_singleton] at hx hy
    rw [hx, hy]
    exact h.1 p q hpq _ (Record.newest_mem_contents _) _ (Record.newest_mem_contents _)
  · intro p x hx
    rw [get, Record.contents_take, List.mem_singleton] at hx
    rw [hx]
    exact h.2 p _ (Record.newest_mem_contents _)

/-- An apply empties the waiting list of a record that holds a staged copy, and keeps another's (R14). -/
theorem Record.take_waiting_staged {α : Type} (r : Record α) :
    (r.staged.isSome = true → r.take.waiting = []) ∧
      (r.staged.isSome = false → r.take.waiting = r.waiting) := by
  unfold Record.take
  cases r.staged <;> simp

/-! ## Ranges (R2, R7) -/

/-- A content whose requested delay is replaced within R2's range stays in range (R187). -/
theorem ProgramRecord.withDelay_inRange (r new : ProgramRecord) (frames : Nat) (hr : r.inRange = true)
    (hf : frames ≤ 240000) (h : r.withDelay frames = some new) : new.inRange = true := by
  unfold ProgramRecord.withDelay at h
  cases hd : r.delay with
  | none =>
    rw [hd] at h
    cases h
  | some x =>
    rw [hd] at h
    cases h
    unfold ProgramRecord.inRange at hr ⊢
    rw [hd] at hr
    simp only [Option.all_some, DelaySection.inRange, Bool.and_eq_true, decide_eq_true_eq] at hr ⊢
    obtain ⟨⟨⟨⟨⟨a, b⟩, c⟩, d⟩, e⟩, f⟩ := hr
    refine ⟨⟨⟨⟨⟨?_, b⟩, c⟩, ?_⟩, e⟩, f⟩
    · split at a
      · rename_i ha
        rw [if_pos ha]
        exact a
      · simp at a
    · exact ⟨⟨⟨d.1.1.1, hf⟩, d.1.2⟩, d.2⟩

/-- A content whose target level is replaced within R2's range stays in range (R187). -/
theorem ProgramRecord.withTarget_inRange (r new : ProgramRecord) (tenths : Int) (hr : r.inRange = true)
    (h1 : -400 ≤ tenths) (h2 : tenths ≤ -50) (h : r.withTarget tenths = some new) : new.inRange = true := by
  unfold ProgramRecord.withTarget at h
  cases hd : r.loudness with
  | none =>
    rw [hd] at h
    cases h
  | some x =>
    rw [hd] at h
    cases h
    unfold ProgramRecord.inRange at hr ⊢
    rw [hd] at hr
    simp only [Option.all_some, Loudness.inRange, Bool.and_eq_true, decide_eq_true_eq] at hr ⊢
    obtain ⟨⟨⟨⟨⟨a, b⟩, c⟩, d⟩, e⟩, f⟩ := hr
    refine ⟨⟨⟨⟨⟨?_, b⟩, ?_⟩, d⟩, e⟩, f⟩
    · split at a
      · rename_i ha
        rw [if_pos ha]
        exact a
      · simp at a
    · obtain ⟨⟨⟨⟨⟨⟨⟨⟨⟨_, _⟩, c1⟩, c2⟩, c3⟩, c4⟩, c5⟩, c6⟩, c7⟩, c8⟩ := c
      exact ⟨⟨⟨⟨⟨⟨⟨⟨⟨h1, h2⟩, c1⟩, c2⟩, c3⟩, c4⟩, c5⟩, c6⟩, c7⟩, c8⟩

/-- Replacing one program's record keeps every content in range where its own are. -/
theorem Tables.ranges_set (t : Tables) (h : t.ProgramsInRange) (p : Fin 16) (r : Record ProgramRecord)
    (hr : ∀ x ∈ r.contents, x.inRange = true) :
    ({ t with programs := t.programs.set p r } : Tables).ProgramsInRange := by
  intro q x hx
  by_cases hq : q = p
  · subst hq
    simp only [Fin.getElem_fin, Vector.getElem_set_self] at hx
    exact hr x hx
  · have hv : p.val ≠ q.val := fun e => hq (Fin.ext e.symm)
    simp only [Fin.getElem_fin, Vector.getElem_set, if_neg hv] at hx
    exact h q x hx

/-- An apply keeps every content in range. -/
theorem Tables.ranges_take (t : Tables) (h : t.ProgramsInRange) : t.take.ProgramsInRange := by
  intro p x hx
  have get : t.take.programs[p] = t.programs[p].take := by simp [Tables.take]
  rw [get, Record.contents_take, List.mem_singleton] at hx
  rw [hx]
  exact h p _ (Record.newest_mem_contents _)

theorem Tables.ProgramsInRange.of_programs {t u : Tables} (h : t.ProgramsInRange)
    (k : u.programs = t.programs) : u.ProgramsInRange := by
  unfold Tables.ProgramsInRange
  rw [k]
  exact h

end Sys2Proof.Machine
end

