-- ==== Sys2Proof/Laws/BlockEnd.lean ====
section
/-! SUPPORT. A block end field by field, the log and the sampled summary lines it leaves, and the ports
that its applies complete. -/

namespace Sys2Proof.Machine

/-! ## The state after a block end, field by field -/

theorem State.blockEnd_pending (s : State) : s.blockEnd.pending = s.pending := rfl
theorem State.blockEnd_resetAsserted (s : State) : s.blockEnd.resetAsserted = s.resetAsserted := rfl
theorem State.blockEnd_clock (s : State) :
    s.blockEnd.clock = { s.clock with blocks := s.clock.blocks + 1#32 } := rfl
theorem State.blockEnd_ref (s : State) : s.blockEnd.ref = s.ref := rfl
theorem State.blockEnd_tables (s : State) : s.blockEnd.tables = s.tables.take := rfl
theorem State.blockEnd_tonePhase (s : State) : s.blockEnd.tonePhase = s.tonePhase := rfl
theorem State.blockEnd_memory (s : State) : s.blockEnd.memory = s.memory := rfl
theorem State.blockEnd_ports (s : State) : s.blockEnd.ports = s.tables.completePorts s.ports := rfl
theorem State.blockEnd_out (s : State) : s.blockEnd.out = s.out := rfl
theorem State.blockEnd_sampledPins (s : State) :
    s.blockEnd.pins.sampled = s.tables.summary (s.closeBlock.sampled s.appliedGains) := rfl
theorem State.blockEnd_conditions (s : State) :
    s.blockEnd.conditions =
      appliedConditions s.tables s.tables.take (s.closeBlock.sampled s.appliedGains) := rfl

theorem State.blockEnd_program (s : State) (p : Fin 16) :
    s.blockEnd.program p = s.tables.programs[p].newest := by
  show s.tables.take.programs[p].applied = _
  simp [Tables.take, Record.take_applied]

theorem State.blockEnd_link (s : State) (l : Fin 8) : s.blockEnd.link l = s.tables.links[l].newest := by
  show s.tables.take.links[l].applied = _
  simp [Tables.take, Record.take_applied]

theorem State.blockEnd_receiver (s : State) (l : Fin 8) :
    s.blockEnd.receivers[l] = s.receivers[l].apply (s.link l) (s.blockEnd.link l) := by
  show (Vector.ofFn fun l : Fin 8 => s.receivers[l].apply s.tables.links[l].applied
    (s.blockEnd.link l))[l] = _
  simp [State.link]

theorem State.blockEnd_converter (s : State) (l : Fin 8) :
    s.blockEnd.converters[l] =
      (s.converters[l].blockEnd (s.link l).bandwidth).apply (s.link l) (s.blockEnd.link l) := by
  show (Vector.ofFn fun l : Fin 8 =>
    ((Vector.ofFn fun l : Fin 8 => s.converters[l].blockEnd (s.link l).bandwidth)[l]).apply
      s.tables.links[l].applied (s.blockEnd.link l))[l] = _
  simp [State.link]

theorem State.blockEnd_meter (s : State) (p : Fin 16) :
    s.blockEnd.meters[p] = (s.blockMeter p).apply (s.program p) (s.blockEnd.program p) := by
  show (Vector.ofFn fun p : Fin 16 =>
    ((Vector.ofFn fun p : Fin 16 => s.blockMeter p)[p]).apply
      s.tables.programs[p].applied (s.blockEnd.program p))[p] = _
  simp [State.program]

theorem State.blockEnd_gain (s : State) (p : Fin 16) :
    ∃ first : Bool, s.blockEnd.gains[p] =
      (s.blockGain (s.blockMeter p) p).takeApply first (s.program p) (s.blockEnd.program p)
        (s.delays[p].apply (s.program p) (s.blockEnd.program p)).1
        (s.delays[p].apply (s.program p) (s.blockEnd.program p)).2 s.clock.frames := by
  refine ⟨Config.choice (s.choices + p.val) % 2 == 0, ?_⟩
  show (Vector.ofFn fun p : Fin 16 =>
    ((Vector.ofFn fun p : Fin 16 =>
      s.blockGain ((Vector.ofFn fun p : Fin 16 => s.blockMeter p)[p]) p)[p]).takeApply
        (Config.choice (s.choices + p.val) % 2 == 0) s.tables.programs[p].applied (s.blockEnd.program p)
        (s.delays[p].apply s.tables.programs[p].applied (s.blockEnd.program p)).1
        (s.delays[p].apply s.tables.programs[p].applied (s.blockEnd.program p)).2 s.clock.frames)[p] = _
  simp [State.program]

theorem State.blockEnd_delay (s : State) (p : Fin 16) :
    s.blockEnd.delays[p] =
      (DelayEngine.openBlock (s.delays[p].apply (s.program p) (s.blockEnd.program p)).1
        (s.blockEnd.program p)).formSync := by
  show (Vector.ofFn fun p : Fin 16 =>
    (DelayEngine.openBlock ((Vector.ofFn fun p : Fin 16 =>
      (s.delays[p].apply s.tables.programs[p].applied (s.blockEnd.program p)).1)[p])
        (s.blockEnd.program p)).formSync)[p] = _
  simp [State.program]

/-! ## The log -/

theorem AlarmLog.takeTimeout_wellFormed (log : AlarmLog) (timeout : Nat) (first : Port)
    (h : log.WellFormed) :
    (log.takeTimeout timeout first).WellFormed ∧
      ∀ q : Port, (log.takeTimeout timeout first).accounted q = log.accounted q := by
  have one : ∀ (log : AlarmLog) (q : Port), log.WellFormed →
      (log.leaveIfOut timeout q).WellFormed ∧
        ∀ r : Port, (log.leaveIfOut timeout q).accounted r = log.accounted r := by
    intro log q h
    unfold AlarmLog.leaveIfOut
    split
    · have hl := AlarmLog.leave_wellFormed log h q
      exact hl
    · exact ⟨h, fun _ => rfl⟩
  have h1 := one log first h
  have h2 := one _ (Port.other first) h1.1
  exact ⟨h2.1, fun q => (h2.2 q).trans (h1.2 q)⟩

/-- The log after a block end is well formed and accounts for what it did before. -/
theorem AlarmLog.takeBlock_wellFormed (log : AlarmLog) (entries : List Entry) (timeout : Nat)
    (first : Port) (entriesFirst : Bool) (h : log.WellFormed) :
    (log.takeBlock entries timeout first entriesFirst).WellFormed ∧
      ∀ q : Port, (log.takeBlock entries timeout first entriesFirst).accounted q = log.accounted q := by
  unfold AlarmLog.takeBlock
  split
  · have h1 := AlarmLog.handAll_wellFormed log h entries
    have h2 := AlarmLog.takeTimeout_wellFormed _ timeout first h1.1
    exact ⟨h2.1, fun q => (h2.2 q).trans (h1.2.2 q)⟩
  · have h1 := AlarmLog.takeTimeout_wellFormed log timeout first h
    have h2 := AlarmLog.handAll_wellFormed _ h1.1 entries
    exact ⟨h2.1, fun q => (h2.2.2 q).trans (h1.2 q)⟩

/-! ## Completed ports (R14 step 2) -/

/-- A list's completions leave a port that is not on it alone, and complete a port with the revision of
its one entry. -/
theorem completeList_get (current : BitVec 16) (list : List Waiting) (ports : Pair ControlPort)
    (q : Port) :
    ((∀ w ∈ list, w.port ≠ q) → (completeList current list ports).get q = ports.get q) ∧
      ∀ own : BitVec 16, (∀ w ∈ list, w.port = q → w.revision = own) →
        (∃ w ∈ list, w.port = q) →
          (completeList current list ports).get q = (ports.get q).complete current own := by
  induction list generalizing ports with
  | nil =>
    refine ⟨fun _ => rfl, fun own _ hex => ?_⟩
    obtain ⟨w, hw, _⟩ := hex
    exact absurd hw List.not_mem_nil
  | cons w rest ih =>
    have hrest := ih (ports.set w.port ((ports.get w.port).complete current w.revision))
    refine ⟨fun hno => ?_, fun own hall hex => ?_⟩
    · have hw : q ≠ w.port := fun e => hno w (by simp) e.symm
      show (completeList current rest _).get q = _
      rw [hrest.1 (fun x hx => hno x (List.mem_cons_of_mem _ hx)), Pair.get_set_other _ _ hw]
    · show (completeList current rest _).get q = _
      by_cases hw : w.port = q
      · have hown := hall w (by simp) hw
        have hset : (ports.set w.port ((ports.get w.port).complete current w.revision)).get q =
            (ports.get q).complete current own := by
          rw [hw, Pair.get_set_same, hown]
        by_cases hmore : ∃ x ∈ rest, x.port = q
        · rw [hrest.2 own (fun x hx => hall x (List.mem_cons_of_mem _ hx)) hmore, hset]
          rfl
        · rw [hrest.1 (fun x hx he => hmore ⟨x, hx, he⟩), hset]
      · have hne : q ≠ w.port := fun e => hw e.symm
        have hmore : ∃ x ∈ rest, x.port = q := by
          obtain ⟨x, hx, he⟩ := hex
          rcases List.mem_cons.mp hx with hx | hx
          · exact absurd (hx ▸ he) hw
          · exact ⟨x, hx, he⟩
        rw [hrest.2 own (fun x hx => hall x (List.mem_cons_of_mem _ hx)) hmore,
          Pair.get_set_other _ _ hne]

/-- The apply of a record leaves a port that does not wait on it alone. -/
theorem Record.completePorts_other {α : Type} (r : Record α) (ports : Pair ControlPort) (q : Port)
    (h : ∀ w ∈ r.waiting, w.port ≠ q) : (r.completePorts ports).get q = ports.get q := by
  unfold Record.completePorts
  split
  · exact (completeList_get _ _ _ q).1 h
  · rfl

/-- The apply of a record completes a port whose one entry waits on it. -/
theorem Record.completePorts_waiting {α : Type} (r : Record α) (ports : Pair ControlPort) (q : Port)
    (own : BitVec 16) (staged : r.staged.isSome = true)
    (one : ∀ w ∈ r.waiting, w.port = q → w.revision = own) (waits : ∃ w ∈ r.waiting, w.port = q) :
    (r.completePorts ports).get q = (ports.get q).complete r.revision own := by
  unfold Record.completePorts
  split
  · exact (completeList_get _ _ _ q).2 own one waits
  · rename_i hs
    rw [hs] at staged
    cases staged

/-- The applies of a list of records leave a port that waits on none of them alone. -/
theorem foldl_completePorts_other {α β : Type} (records : β → Record α) (items : List β)
    (ports : Pair ControlPort) (q : Port)
    (h : ∀ i ∈ items, ∀ w ∈ (records i).waiting, w.port ≠ q) :
    (items.foldl (fun ps i => (records i).completePorts ps) ports).get q = ports.get q := by
  induction items generalizing ports with
  | nil => rfl
  | cons i rest ih =>
    rw [List.foldl_cons, ih _ (fun j hj => h j (List.mem_cons_of_mem _ hj))]
    exact Record.completePorts_other _ _ _ (h i (by simp))

/-- The applies of a list of records complete a port that waits on exactly one of them. -/
theorem foldl_completePorts_waiting {α β : Type} (records : β → Record α) (items : List β)
    (ports : Pair ControlPort) (q : Port) (i : β) (own : BitVec 16) (hi : i ∈ items)
    (distinct : items.Nodup) (staged : (records i).staged.isSome = true)
    (one : ∀ w ∈ (records i).waiting, w.port = q → w.revision = own)
    (waits : ∃ w ∈ (records i).waiting, w.port = q)
    (others : ∀ j ∈ items, j ≠ i → ∀ w ∈ (records j).waiting, w.port ≠ q) :
    (items.foldl (fun ps j => (records j).completePorts ps) ports).get q =
      (ports.get q).complete (records i).revision own := by
  induction items generalizing ports with
  | nil => exact absurd hi List.not_mem_nil
  | cons j rest ih =>
    rw [List.foldl_cons]
    rw [List.nodup_cons] at distinct
    rcases List.mem_cons.mp hi with hi | hi
    · subst hi
      rw [foldl_completePorts_other records rest _ q
        (fun k hk => others k (List.mem_cons_of_mem _ hk) (fun e => distinct.1 (e ▸ hk)))]
      exact Record.completePorts_waiting _ _ _ own staged one waits
    · have hne : j ≠ i := fun e => distinct.1 (e ▸ hi)
      rw [ih _ hi distinct.2 (fun k hk => others k (List.mem_cons_of_mem _ hk)),
        Record.completePorts_other _ _ _ (others j (by simp) hne)]

/-- The applies of a block end leave a port that waits on no record alone. -/
theorem Tables.completePorts_other (t : Tables) (ports : Pair ControlPort) (q : Port)
    (h : ∀ name, ∀ w ∈ t.waitingOn name, w.port ≠ q) : (t.completePorts ports).get q = ports.get q := by
  unfold Tables.completePorts
  simp only
  rw [Record.completePorts_other _ _ _ (h .policy),
    foldl_completePorts_other (fun l : Fin 8 => t.links[l]) _ _ _ (fun l _ => h (.link l)),
    foldl_completePorts_other (fun p : Fin 16 => t.programs[p]) _ _ _ (fun p _ => h (.program p))]

/-- The applies of a block end complete a port that waits on exactly one record, once. -/
theorem Tables.completePorts_waiting (t : Tables) (ports : Pair ControlPort) (q : Port)
    (name : RecordName) (own : BitVec 16) (staged : t.stagedOn name = true)
    (one : ∀ w ∈ t.waitingOn name, w.port = q → w.revision = own)
    (waits : ∃ w ∈ t.waitingOn name, w.port = q)
    (others : ∀ other, other ≠ name → ∀ w ∈ t.waitingOn other, w.port ≠ q) :
    (t.completePorts ports).get q = (ports.get q).complete (t.revisionOn name) own := by
  unfold Tables.completePorts
  simp only
  rcases name with p | l | _
  · rw [Record.completePorts_other _ _ _ (others .policy (by simp)),
      foldl_completePorts_other (fun l : Fin 8 => t.links[l]) _ _ _
        (fun l _ => others (.link l) (by simp)),
      foldl_completePorts_waiting (fun p : Fin 16 => t.programs[p]) _ _ _ p own (List.mem_finRange p)
        (List.nodup_finRange _) staged one waits
        (fun j _ hj => others (.program j) (fun e => hj (by cases e; rfl)))]
    rfl
  · rw [Record.completePorts_other _ _ _ (others .policy (by simp)),
      foldl_completePorts_waiting (fun l : Fin 8 => t.links[l]) _ _ _ l own (List.mem_finRange l)
        (List.nodup_finRange _) staged one waits
        (fun j _ hj => others (.link j) (fun e => hj (by cases e; rfl))),
      foldl_completePorts_other (fun p : Fin 16 => t.programs[p]) _ _ _
        (fun p _ => others (.program p) (by simp))]
    rfl
  · rw [Record.completePorts_waiting _ _ _ own staged one waits,
      foldl_completePorts_other (fun l : Fin 8 => t.links[l]) _ _ _
        (fun l _ => others (.link l) (by simp)),
      foldl_completePorts_other (fun p : Fin 16 => t.programs[p]) _ _ _
        (fun p _ => others (.program p) (by simp))]
    rfl

/-! ## The entries of a block end (R152, R153) -/

theorem conditionKind_ne (i : Fin 129) : conditionKind i ≠ .programChanged := by
  revert i
  decide +kernel

theorem sampledEntries_kind (t : Tables) (blocks : BitVec 32) (before after : Vector Condition 129) :
    ∀ e ∈ sampledEntries t blocks before after, e.kind ≠ .programChanged := by
  intro e he
  unfold sampledEntries at he
  rw [List.mem_filterMap] at he
  obtain ⟨i, _, hi⟩ := he
  unfold sampledEntry at hi
  split at hi
  · cases hi
    exact conditionKind_ne i
  · cases hi

theorem appliedEntries_kind (old new : Tables) (blocks : BitVec 32) (conditions : Vector Condition 129) :
    ∀ e ∈ appliedEntries old new blocks conditions, e.kind ≠ .programChanged := by
  intro e he
  unfold appliedEntries at he
  rw [List.mem_filterMap] at he
  obtain ⟨i, _, hi⟩ := he
  unfold appliedEntry at hi
  repeat' split at hi
  all_goals cases hi
  all_goals exact conditionKind_ne i

theorem changedEntries_kind (old new : Tables) (blocks : BitVec 32) :
    ∀ e ∈ changedEntries old new blocks, e.kind = .programChanged := by
  intro e he
  unfold changedEntries at he
  rw [List.mem_filterMap] at he
  obtain ⟨p, _, hp⟩ := he
  unfold changedEntry at hp
  split at hp
  · cases hp
  · split at hp
    · cases hp
      rfl
    · cases hp

/-- The entries of a block end other than PROGRAM_CHANGED come in their own order, and the PROGRAM_CHANGED
entries in a free order. -/
theorem blockEntries_filter (c : Nat) (conditions changed : List Entry)
    (hc : ∀ e ∈ conditions, e.kind ≠ .programChanged) (hg : ∀ e ∈ changed, e.kind = .programChanged) :
    (blockEntries c conditions changed).filter (fun e => e.kind != .programChanged) = conditions ∧
      ((blockEntries c conditions changed).filter fun e => e.kind == .programChanged).Perm changed := by
  have hg' : ∀ e ∈ freeOrder c changed, e.kind = .programChanged := fun e he =>
    hg e ((freeOrder_perm c changed).mem_iff.mp he)
  constructor
  · refine (freeMergeWith_filter _ _ _ _ _).1 (fun e he => ?_) (fun e he => ?_)
    · simpa using hc e he
    · simp [hg' e he]
  · have h := (freeMergeWith_filter (fun e : Entry => e.kind == .programChanged)
      (conditions.length + (freeOrder c changed).length) (c + 16) conditions (freeOrder c changed)).2
      (fun e he => by simpa using hc e he) (fun e he => by simp [hg' e he])
    have e : (blockEntries c conditions changed).filter (fun e => e.kind == .programChanged) =
        freeOrder c changed := h
    rw [e]
    exact freeOrder_perm c changed

/-- The log that a block end leaves. -/
theorem State.blockEnd_logged (s : State) :
    s.BlockLogged s.blockEnd
      (blockEntries (s.choices + 16)
        (sampledEntries s.tables (s.clock.blocks + 1#32) s.conditions
            (s.closeBlock.sampled s.appliedGains) ++
          appliedEntries s.tables s.tables.take (s.clock.blocks + 1#32)
            (s.closeBlock.sampled s.appliedGains))
        (changedEntries s.tables s.tables.take (s.clock.blocks + 1#32))) := by
  refine ⟨chosenPort (s.choices + 400), ?_⟩
  generalize hE : blockEntries _ _ _ = entries
  have h : s.blockEnd.log = s.log.takeBlock entries s.tables.newTimeout (chosenPort (s.choices + 400))
      (Config.choice (s.choices + 401) % 2 == 0) := by
    rw [← hE]
    rfl
  rw [h]
  unfold AlarmLog.takeBlock
  split
  · exact Or.inl rfl
  · exact Or.inr rfl

/-! ## The places of the condition table, and what is sampled there (R140, R142, R143) -/

theorem conditionSubject_link (l : Fin 8) (i : Fin 129)
    (h : i.val = 1 + 2 * l.val ∨ i.val = 2 + 2 * l.val) : conditionSubject i = .link l := by
  have := l.isLt
  unfold conditionSubject
  rw [if_neg (by omega), if_pos (by omega)]
  congr 1
  ext
  simp only
  omega

theorem conditionSubject_program (p : Fin 16) (i : Fin 129) (h : 17 + 7 * p.val ≤ i.val)
    (h2 : i.val ≤ 23 + 7 * p.val) : conditionSubject i = .program p := by
  have := p.isLt
  unfold conditionSubject
  rw [if_neg (by omega), if_neg (by omega)]
  congr 1
  ext
  simp only
  omega

theorem conditionKind_program (p : Fin 16) (k : Nat) (i : Fin 129) (h : i.val = 17 + k + 7 * p.val)
    (hk : k < 7) :
    conditionKind i = match (generalizing := false) k with
      | 0 => .silence
      | 1 => .overload
      | 2 => .loudHigh
      | 3 => .loudLow
      | 4 => .gainAtLimit
      | 5 => .delayClamped
      | _ => .syncLost := by
  unfold conditionKind
  rw [if_neg (by omega), if_neg (by omega)]
  obtain rfl : (i.val - 17) % 7 = k := by omega
  rfl

/-- An instance of a present subject is debounced against its test; one of an absent subject is kept. -/
theorem State.closeBlock_sampled (s : State) (i : Fin 129) :
    (s.closeBlock.sampled s.appliedGains)[i] =
      if s.tables.present i then
        s.conditions[i].debounce (s.policy.kind (conditionKind i)) (s.closeBlock.test s.appliedGains i)
      else s.conditions[i] := by
  simp only [State.sampled, Fin.getElem_fin, Vector.getElem_ofFn]
  rfl

/-- The seven instances of an ACTIVE program, from its blocks after their block-end work (R146 to R148). -/
theorem State.closeBlock_sampled_program (s : State) (p : Fin 16) (i : Fin 129)
    (ha : (s.program p).active = true) (h : 17 + 7 * p.val ≤ i.val) (h2 : i.val ≤ 23 + 7 * p.val) :
    (s.closeBlock.sampled s.appliedGains)[i] =
      s.conditions[i].debounce (s.policy.kind (conditionKind i))
        (programTest (s.program p) (s.meters[p].blockEnd (s.program p).channels)
          (s.blockGain (s.blockMeter p) p) s.delays[p] s.gains[p].applied (conditionKind i)) := by
  have hs := conditionSubject_program p i h h2
  have hp : s.tables.present i = true := by
    unfold Tables.present
    rw [hs]
    exact ha
  have hg : s.closeBlock.gains[p] = s.blockGain (s.blockMeter p) p := by simp [State.closeBlock]
  have hm : s.closeBlock.meters[p] = s.blockMeter p := by simp [State.closeBlock]
  have he : s.blockMeter p = s.meters[p].blockEnd (s.program p).channels := by
    unfold State.blockMeter
    rw [if_pos ha]
  have hl : s.appliedGains[p] = s.gains[p].applied := by simp [State.appliedGains]
  rw [State.closeBlock_sampled, if_pos hp]
  unfold State.test
  rw [hs]
  simp only
  rw [hg, hm, he, hl]
  rfl

end Sys2Proof.Machine
end

