-- ==== Sys2Proof/Laws/Converters.lean ====
section
/-! SUPPORT. The rate converters: runs of consecutive frames, that every operation keeps a converter's frames in
order, and what an arrival, a house frame and a block end make of a converter. -/

namespace Sys2Proof.Machine

/-! ## Runs of frames -/

theorem framesFrom_nil (a : Nat) : framesFrom a [] := rfl

theorem framesFrom_cons (a : Nat) (x : Frame) (xs : List Frame) :
    framesFrom a (x :: xs) ↔ x.index = a ∧ framesFrom (a + 1) xs := by
  simp [framesFrom, List.range'_succ]

theorem framesFrom_append (a : Nat) (xs ys : List Frame) :
    framesFrom a (xs ++ ys) ↔ framesFrom a xs ∧ framesFrom (a + xs.length) ys := by
  induction xs generalizing a with
  | nil => simp [framesFrom_nil]
  | cons x xs ih =>
    rw [List.cons_append, framesFrom_cons, ih, framesFrom_cons, List.length_cons, and_assoc,
      Nat.add_assoc, Nat.add_comm 1]

theorem framesFrom_drop (a n : Nat) (xs : List Frame) (h : framesFrom a xs) (hn : n ≤ xs.length) :
    framesFrom (a + n) (xs.drop n) := by
  have hh := h
  rw [← List.take_append_drop n xs, framesFrom_append] at hh
  have hlen : (xs.take n).length = n := by rw [List.length_take]; omega
  rw [hlen] at hh
  exact hh.2

theorem framesFrom_getElem (a i : Nat) (xs : List Frame) (h : framesFrom a xs) (hi : i < xs.length) :
    xs[i].index = a + i := by
  have hd := framesFrom_drop a i xs h (by omega)
  rw [List.drop_eq_getElem_cons hi, framesFrom_cons] at hd
  exact hd.1

/-- The number of frames ahead of a position in a run. -/
theorem framesFrom_ahead (a n : Nat) (xs : List Frame) (h : framesFrom a xs) :
    (xs.countP fun f => decide (n < f.index)) = xs.length - (n + 1 - a) := by
  induction xs generalizing a with
  | nil => simp
  | cons x xs ih =>
    rw [framesFrom_cons] at h
    rw [List.countP_cons, ih (a + 1) h.2, h.1, List.length_cons]
    by_cases hn : n < a
    · rw [if_pos (by simpa using hn)]
      omega
    · rw [if_neg (by simpa using hn)]
      omega

/-- The frames of a run that a read position has passed are its first ones. -/
theorem framesFrom_passed (a w : Nat) (xs : List Frame) (h : framesFrom a xs) :
    xs.takeWhile (fun f => decide (f.index + 7 < w)) = xs.take (w - 7 - a) ∧
      xs.dropWhile (fun f => decide (f.index + 7 < w)) = xs.drop (w - 7 - a) := by
  induction xs generalizing a with
  | nil => simp
  | cons x xs ih =>
    rw [framesFrom_cons] at h
    by_cases hw : a + 7 < w
    · have hs : w - 7 - a = (w - 7 - (a + 1)) + 1 := by omega
      rw [List.takeWhile_cons, List.dropWhile_cons, h.1, if_pos (by simpa using hw),
        if_pos (by simpa using hw), hs, List.take_succ_cons, List.drop_succ_cons,
        (ih (a + 1) h.2).1, (ih (a + 1) h.2).2]
      exact ⟨rfl, rfl⟩
    · have hz : w - 7 - a = 0 := by omega
      rw [List.takeWhile_cons, List.dropWhile_cons, h.1, if_neg (by simpa using hw),
        if_neg (by simpa using hw), hz]
      exact ⟨rfl, rfl⟩

theorem lastN_length {α : Type} (n : Nat) (xs : List α) : (lastN n xs).length = min n xs.length := by
  simp only [lastN, List.length_drop]
  omega

theorem framesFrom_lastN (a n : Nat) (xs : List Frame) (h : framesFrom a xs) :
    framesFrom (a + (xs.length - n)) (lastN n xs) :=
  framesFrom_drop a (xs.length - n) xs h (by omega)

/-! ## The order of a converter's frames, in parts -/

/-- The parts of FramesOrdered that hold in every state of the tracker. -/
structure Converter.Shape (c : Converter) : Prop where
  fifo : c.fifo.length ≤ 256
  history : c.history.length ≤ 64
  used : c.used ≤ Config.ratioHigh
  room : c.history.length + c.fifo.length ≤ c.nextIndex
  frames : framesFrom (c.nextIndex - (c.history.length + c.fifo.length)) (c.history ++ c.fifo)

/-- The part of FramesOrdered that holds while the converter reads. -/
structure Converter.Reads (c : Converter) : Prop where
  least : c.slipWaits = true ∨ 16 ≤ c.fifo.length
  kept : 77 ≤ c.history.length + c.fifo.length
  place : wholeOf c.position + c.fifo.length = c.nextIndex + 7

theorem Converter.framesOrdered_iff (c : Converter) :
    c.FramesOrdered ↔ c.Shape ∧ (c.running = true → c.Reads) ∧
      (c.state = .acquire →
        c.history = [] ∧ ∀ n ∈ c.arrivals :: c.counts, min 256 n ≤ c.fifo.length) := by
  constructor
  · rintro ⟨h1, h2, h3, h4, h5, h6, h7⟩
    exact ⟨⟨h1, h2, h3, h4, h5⟩, fun hr => ⟨(h6 hr).1, (h6 hr).2.1, (h6 hr).2.2⟩, h7⟩
  · rintro ⟨⟨h1, h2, h3, h4, h5⟩, h6, h7⟩
    exact ⟨h1, h2, h3, h4, h5, fun hr => ⟨(h6 hr).least, (h6 hr).kept, (h6 hr).place⟩, h7⟩

theorem Converter.Shape.fifo_from {c : Converter} (h : c.Shape) :
    framesFrom (c.nextIndex - c.fifo.length) c.fifo := by
  have hf := h.frames
  rw [framesFrom_append] at hf
  have hr := h.room
  have e : c.nextIndex - (c.history.length + c.fifo.length) + c.history.length =
      c.nextIndex - c.fifo.length := by omega
  rw [e] at hf
  exact hf.2

/-- A converter that neither reads nor collects is in order where its shape is. -/
theorem Converter.ordered_of_shape {c : Converter} (h : c.Shape) (hr : c.running = false)
    (ha : c.state ≠ .acquire) : c.FramesOrdered :=
  (Converter.framesOrdered_iff c).mpr
    ⟨h, fun hh => (by rw [hr] at hh; cases hh), fun hh => absurd hh ha⟩

/-- A converter that reads is in order where its shape and its reading are. -/
theorem Converter.ordered_of_reads {c : Converter} (h : c.Shape) (hr : c.Reads)
    (ha : c.state ≠ .acquire) : c.FramesOrdered :=
  (Converter.framesOrdered_iff c).mpr ⟨h, fun _ => hr, fun hh => absurd hh ha⟩

theorem clampRatio_le (x : Int) : clampRatio x ≤ Config.ratioHigh := by
  simp only [clampRatio, Config.ratioHigh, Config.ratioLow]
  omega

theorem wholeOf_add (position frames : Nat) :
    wholeOf (position + frames * 2 ^ 28) = wholeOf position + frames :=
  Nat.add_mul_div_right _ _ (by decide)

theorem wholeOf_sub (position frames : Nat) (h : frames ≤ wholeOf position) :
    wholeOf (position - frames * 2 ^ 28) = wholeOf position - frames := by
  unfold wholeOf at *
  have hm : frames * 2 ^ 28 ≤ position := (Nat.le_div_iff_mul_le (by decide)).mp h
  have e : position = (position - frames * 2 ^ 28) + frames * 2 ^ 28 := by omega
  have hd : position / 2 ^ 28 = (position - frames * 2 ^ 28) / 2 ^ 28 + frames := by
    conv => lhs; rw [e]
    exact Nat.add_mul_div_right _ _ (by decide)
  omega

theorem wholeOf_advance (position used : Nat) (h : used ≤ Config.ratioHigh) :
    wholeOf position ≤ wholeOf (position + used) ∧ wholeOf (position + used) ≤ wholeOf position + 3 := by
  simp only [Config.ratioHigh] at h
  simp only [wholeOf]
  omega

/-! ## Slips -/

theorem Converter.slipped_shape {c : Converter} (h : c.Shape) : c.slipped.Shape := by
  unfold Converter.slipped
  split
  · exact ⟨h.fifo, h.history, clampRatio_le _, h.room, h.frames⟩
  · exact h

theorem Converter.slipped_reads {c : Converter} (h : c.Reads) : c.slipped.Reads := by
  unfold Converter.slipped
  split
  · exact ⟨h.least, h.kept, h.place⟩
  · exact h

theorem Converter.slipped_running (c : Converter) (h : c.running = true) :
    c.slipped.running = true := by
  unfold Converter.slipped
  split
  · rfl
  · exact h

theorem Converter.not_acquire_of_running (c : Converter) (h : c.running = true) :
    c.state ≠ .acquire := by
  intro he
  rw [Converter.running, he] at h
  cases h

/-- A DELETE slip of a full FIFO keeps the order, and leaves 192 frames. -/
theorem Converter.delete_keeps (c : Converter) (link : Fin 8) (h : c.Shape) (hr : c.Reads)
    (full : c.fifo.length = 256) :
    (c.delete link).1.Shape ∧ (c.delete link).1.Reads ∧ (c.delete link).1.fifo.length = 192 := by
  have hroom := h.room
  have hplace := hr.place
  have hfrom := h.fifo_from
  have hlen : (c.fifo.drop 64).length = 192 := by rw [List.length_drop]; omega
  have htake : (c.fifo.take 64).length = 64 := by rw [List.length_take]; omega
  have hmoved : Converter.Shape
      { c with
        history := c.fifo.take 64
        fifo := c.fifo.drop 64
        position := c.position + 64 * 2 ^ 28
        deletes := countSlip c.deletes } := by
    refine ⟨?_, ?_, h.used, ?_, ?_⟩
    · show (c.fifo.drop 64).length ≤ 256
      omega
    · show (c.fifo.take 64).length ≤ 64
      omega
    · show (c.fifo.take 64).length + (c.fifo.drop 64).length ≤ c.nextIndex
      omega
    · show framesFrom (c.nextIndex - ((c.fifo.take 64).length + (c.fifo.drop 64).length))
        (c.fifo.take 64 ++ c.fifo.drop 64)
      rw [List.take_append_drop, hlen, htake]
      rw [full] at hfrom
      exact hfrom
  have hreads : Converter.Reads
      { c with
        history := c.fifo.take 64
        fifo := c.fifo.drop 64
        position := c.position + 64 * 2 ^ 28
        deletes := countSlip c.deletes } := by
    refine ⟨?_, ?_, ?_⟩
    · refine Or.inr ?_
      show 16 ≤ (c.fifo.drop 64).length
      omega
    · show 77 ≤ (c.fifo.take 64).length + (c.fifo.drop 64).length
      omega
    · show wholeOf (c.position + 64 * 2 ^ 28) + (c.fifo.drop 64).length = c.nextIndex + 7
      rw [wholeOf_add]
      omega
  refine ⟨Converter.slipped_shape hmoved, Converter.slipped_reads hreads, ?_⟩
  show (Converter.slipped _).fifo.length = 192
  unfold Converter.slipped
  split <;> exact hlen

/-- A REPEAT slip on a FIFO of few frames keeps the order. -/
theorem Converter.repeat_keeps (c : Converter) (link : Fin 8) (h : c.Shape)
    (few : c.fifo.length ≤ 192) (kept : 77 ≤ c.history.length + c.fifo.length)
    (place : wholeOf c.position + c.fifo.length = c.nextIndex + 7) :
    (c.repeatSlip link).1.Shape ∧ (c.repeatSlip link).1.Reads := by
  have hroom := h.room
  have hhist := h.history
  have hlen : (c.history ++ c.fifo).length = c.history.length + c.fifo.length := List.length_append
  have hmoved : Converter.Shape
      { c with
        history := []
        fifo := c.history ++ c.fifo
        position := c.position - c.history.length * 2 ^ 28
        repeats := countSlip c.repeats } := by
    refine ⟨?_, ?_, h.used, ?_, ?_⟩
    · show (c.history ++ c.fifo).length ≤ 256
      omega
    · show 0 ≤ 64
      omega
    · show 0 + (c.history ++ c.fifo).length ≤ c.nextIndex
      omega
    · show framesFrom (c.nextIndex - (0 + (c.history ++ c.fifo).length)) (c.history ++ c.fifo)
      rw [hlen, Nat.zero_add]
      exact h.frames
  have hreads : Converter.Reads
      { c with
        history := []
        fifo := c.history ++ c.fifo
        position := c.position - c.history.length * 2 ^ 28
        repeats := countSlip c.repeats } := by
    refine ⟨?_, ?_, ?_⟩
    · refine Or.inr ?_
      show 16 ≤ (c.history ++ c.fifo).length
      omega
    · show 77 ≤ 0 + (c.history ++ c.fifo).length
      omega
    · show wholeOf (c.position - c.history.length * 2 ^ 28) + (c.history ++ c.fifo).length =
        c.nextIndex + 7
      rw [wholeOf_sub _ _ (by omega)]
      omega
  exact ⟨Converter.slipped_shape hmoved, Converter.slipped_reads hreads⟩

/-! ## Reading at a house frame -/

/-- Releasing the frames that a moved read position has passed keeps the shape; the FIFO loses as many
frames as lie below the seventh place behind the position. -/
theorem Converter.release_keeps (c : Converter) (h : c.Shape) :
    c.release.Shape ∧
      c.release.fifo = c.fifo.drop (wholeOf c.position - 7 - (c.nextIndex - c.fifo.length)) ∧
      c.release.history.length =
        min 64 (c.history.length +
          min (wholeOf c.position - 7 - (c.nextIndex - c.fifo.length)) c.fifo.length) := by
  have hfrom := h.fifo_from
  have hroom := h.room
  obtain ⟨htake, hdrop⟩ := framesFrom_passed _ (wholeOf c.position) c.fifo hfrom
  have hfifo : c.release.fifo =
      c.fifo.drop (wholeOf c.position - 7 - (c.nextIndex - c.fifo.length)) := hdrop
  have hhist : c.release.history =
      lastN 64 (c.history ++
        c.fifo.take (wholeOf c.position - 7 - (c.nextIndex - c.fifo.length))) := by
    show lastN 64 (c.history ++ c.fifo.takeWhile _) = _
    rw [htake]
  generalize hk : wholeOf c.position - 7 - (c.nextIndex - c.fifo.length) = k at *
  have hlen : c.release.history.length = min 64 (c.history.length + min k c.fifo.length) := by
    rw [hhist, lastN_length, List.length_append, List.length_take]
  have hflen : c.release.fifo.length = c.fifo.length - k := by rw [hfifo, List.length_drop]
  refine ⟨⟨?_, ?_, h.used, ?_, ?_⟩, hfifo, hlen⟩
  · have h1 := h.fifo
    omega
  · omega
  · show c.release.history.length + c.release.fifo.length ≤ c.nextIndex
    omega
  · show framesFrom (c.nextIndex - (c.release.history.length + c.release.fifo.length))
      (c.release.history ++ c.release.fifo)
    have hall := h.frames
    rw [← List.take_append_drop k c.fifo, ← List.append_assoc] at hall
    have hd := framesFrom_drop _
      ((c.history ++ c.fifo.take k).length - 64) _ hall
      (by rw [List.length_append (bs := c.fifo.drop k)]; omega)
    have hl : (c.history ++ c.fifo.take k).length = c.history.length + min k c.fifo.length := by
      rw [List.length_append, List.length_take]
    rw [List.drop_append_of_le_length (by omega)] at hd
    rw [hhist, hfifo]
    show framesFrom _ ((c.history ++ c.fifo.take k).drop _ ++ c.fifo.drop k)
    have e : (c.fifo.take k ++ c.fifo.drop k).length = c.fifo.length := by
      rw [List.take_append_drop]
    rw [hl, e] at hd
    rw [lastN_length, hl, List.length_drop]
    have e2 : c.nextIndex - (min 64 (c.history.length + min k c.fifo.length) + (c.fifo.length - k)) =
        c.nextIndex - (c.history.length + c.fifo.length) +
          (c.history.length + min k c.fifo.length - 64) := by omega
    rw [e2]
    exact hd

/-- The frames ahead of a read position that stands on the eighth oldest frame. -/
theorem Converter.ahead_of_place {c : Converter} (h : c.Shape)
    (place : wholeOf c.position + c.fifo.length = c.nextIndex + 7) :
    c.ahead c.position = c.fifo.length - 8 := by
  have hroom := h.room
  show (c.fifo.countP _) = _
  rw [framesFrom_ahead _ (wholeOf c.position) _ h.fifo_from]
  omega

/-- The reading of a running converter keeps the order, where no slip of it waits. -/
theorem Converter.read_keeps (c : Converter) (link : Fin 8) (waits : Bool) (h : c.Shape) (hr : c.Reads)
    (hrun : c.running = true) (hnow : c.slipWaits = false) :
    (c.read link waits).1.Shape ∧ (c.read link waits).1.Reads ∧ (c.read link waits).1.running = true := by
  have hroom := h.room
  have hplace := hr.place
  have hleast : 16 ≤ c.fifo.length := hr.least.resolve_left (by rw [hnow]; decide)
  have hkept := hr.kept
  have hadv := wholeOf_advance c.position c.used h.used
  let m : Converter := { c with position := c.position + c.used }
  have hm : m.Shape := ⟨h.fifo, h.history, h.used, h.room, h.frames⟩
  obtain ⟨hs, hf, hl⟩ := Converter.release_keeps m hm
  have hw : wholeOf m.position - 7 - (m.nextIndex - m.fifo.length) =
      wholeOf (c.position + c.used) - wholeOf c.position := by
    show wholeOf (c.position + c.used) - 7 - (c.nextIndex - c.fifo.length) = _
    omega
  rw [hw] at hf hl
  have hflen : m.release.fifo.length =
      c.fifo.length - (wholeOf (c.position + c.used) - wholeOf c.position) := by
    rw [hf, List.length_drop]
  have hhlen : m.release.history.length = min 64
      (c.history.length + min (wholeOf (c.position + c.used) - wholeOf c.position) c.fifo.length) := hl
  have hplace' : wholeOf m.release.position + m.release.fifo.length = m.release.nextIndex + 7 := by
    show wholeOf (c.position + c.used) + m.release.fifo.length = c.nextIndex + 7
    omega
  have hkept' : 77 ≤ m.release.history.length + m.release.fifo.length := by omega
  have hahead := Converter.ahead_of_place hs hplace'
  have hrel : m.release.running = true := hrun
  have e : c.read link waits =
      if 8 ≤ m.release.ahead m.release.position then (m.release, none)
      else if m.release.history.isEmpty then ({ m.release with position := c.position }, none)
      else if waits then ({ m.release with slipWaits := true }, none)
      else ((m.release.repeatSlip link).1, some (m.release.repeatSlip link).2) := rfl
  by_cases h8 : 8 ≤ m.release.ahead m.release.position
  · rw [e, if_pos h8]
    rw [hahead] at h8
    exact ⟨hs, ⟨Or.inr (by show 16 ≤ m.release.fifo.length; omega), hkept', hplace'⟩, hrel⟩
  · rw [e, if_neg h8]
    rw [hahead] at h8
    have hne : m.release.history.isEmpty = false := by
      rw [← Bool.not_eq_true, List.isEmpty_iff_length_eq_zero]
      omega
    rw [if_neg (by rw [hne]; decide)]
    cases waits
    case true => exact ⟨⟨hs.fifo, hs.history, hs.used, hs.room, hs.frames⟩, ⟨Or.inl rfl, hkept', hplace'⟩, hrel⟩
    rw [if_neg (by decide)]
    have hrep := Converter.repeat_keeps m.release link hs (by omega) hkept' hplace'
    exact ⟨hrep.1, hrep.2, Converter.slipped_running _ hrel⟩

theorem Converter.moveFade_eq (c : Converter) :
    c.moveFade = { c with fade := c.moveFade.fade, direction := c.moveFade.direction } := by
  unfold Converter.moveFade
  split <;> rfl

theorem Converter.moveFade_shape {c : Converter} (h : c.Shape) : c.moveFade.Shape := by
  rw [Converter.moveFade_eq]
  exact ⟨h.fifo, h.history, h.used, h.room, h.frames⟩

theorem Converter.moveFade_reads {c : Converter} (h : c.Reads) : c.moveFade.Reads := by
  rw [Converter.moveFade_eq]
  exact ⟨h.least, h.kept, h.place⟩

theorem Converter.moveFade_running (c : Converter) : c.moveFade.running = c.running := by
  rw [Converter.moveFade_eq]
  rfl

theorem Converter.emptied_shape {c : Converter} (h : c.used ≤ Config.ratioHigh) : c.emptied.Shape :=
  ⟨Nat.zero_le _, Nat.zero_le _, h, Nat.zero_le _, rfl⟩

theorem Converter.running_iff (c : Converter) :
    c.running = true ↔ c.state = .locked ∨ c.state = .freewheel ∨ c.state = .relock := by
  unfold Converter.running
  cases c.state <;> simp

/-- A house frame keeps a converter's frames in order, where no slip of it waits. -/
theorem Converter.houseFrame_ordered (c : Converter) (link : Fin 8) (waits : Bool) (h : c.FramesOrdered)
    (hnow : c.slipWaits = false) : (c.houseFrame link waits).2.1.FramesOrdered := by
  have hh := (Converter.framesOrdered_iff c).mp h
  have run : c.running = true → (c.moveFade.read link waits).1.FramesOrdered := by
    intro hrun
    obtain ⟨h1, h2, h3⟩ := Converter.read_keeps c.moveFade link waits (Converter.moveFade_shape hh.1)
      (Converter.moveFade_reads (hh.2.1 hrun)) (by rw [Converter.moveFade_running]; exact hrun)
      (by rw [Converter.moveFade_eq]; exact hnow)
    exact Converter.ordered_of_reads h1 h2 (Converter.not_acquire_of_running _ h3)
  unfold Converter.houseFrame
  split
  · exact h
  · exact h
  · rename_i hs
    exact run ((Converter.running_iff c).mpr (Or.inl hs))
  · rename_i hs
    exact run ((Converter.running_iff c).mpr (Or.inr (Or.inl hs)))
  · rename_i hs
    exact run ((Converter.running_iff c).mpr (Or.inr (Or.inr hs)))
  · rename_i hs
    have hst : c.moveFade.state = .lost := by rw [Converter.moveFade_eq]; exact hs
    have hsh := Converter.moveFade_shape hh.1
    split
    · exact Converter.ordered_of_shape (Converter.emptied_shape hsh.used)
        (by show (Converter.running _) = false; simp [Converter.running, Converter.emptied, hst])
        (by simp [Converter.emptied, hst])
    · show (Converter.readLost c.moveFade).FramesOrdered
      unfold Converter.readLost
      split
      · have hm : Converter.Shape
            { c.moveFade with position := c.moveFade.position + c.moveFade.used } :=
          ⟨hsh.fifo, hsh.history, hsh.used, hsh.room, hsh.frames⟩
        exact Converter.ordered_of_shape (Converter.release_keeps _ hm).1
          (by simp [Converter.running, Converter.release, hst])
          (by simp [Converter.release, hst])
      · exact Converter.ordered_of_shape hsh (by simp [Converter.running, hst]) (by simp [hst])

/-! ## Arrivals -/

theorem Converter.join_shape {c : Converter} (samples : Vector Sample 8) (h : c.Shape)
    (room : c.fifo.length < 256) : (c.join samples).Shape := by
  have hroom := h.room
  have hlen : (c.fifo ++ [({ index := c.nextIndex, samples := samples } : Frame)]).length =
      c.fifo.length + 1 := by simp
  refine ⟨?_, h.history, h.used, ?_, ?_⟩
  · show (c.fifo ++ [({ index := c.nextIndex, samples := samples } : Frame)]).length ≤ 256
    omega
  · show c.history.length + (c.fifo ++ [({ index := c.nextIndex, samples := samples } : Frame)]).length
      ≤ c.nextIndex + 1
    omega
  · show framesFrom (c.nextIndex + 1 - (c.history.length + (c.fifo ++ [_]).length))
      (c.history ++ (c.fifo ++ [_]))
    rw [hlen, ← List.append_assoc, framesFrom_append]
    have e : c.nextIndex + 1 - (c.history.length + (c.fifo.length + 1)) =
        c.nextIndex - (c.history.length + c.fifo.length) := by omega
    rw [e]
    refine ⟨h.frames, ?_⟩
    rw [framesFrom_cons, List.length_append]
    exact ⟨by show c.nextIndex = _; omega, framesFrom_nil _⟩

/-- An arrival keeps a converter's frames in order. -/
theorem Converter.arrive_ordered (c : Converter) (link : Fin 8) (samples : Vector Sample 8)
    (h : c.FramesOrdered) : (c.arrive link samples).1.FramesOrdered := by
  have hh := (Converter.framesOrdered_iff c).mp h
  have run : c.running = true → (c.take link samples).1.FramesOrdered := by
    intro hrun
    have hr := hh.2.1 hrun
    have hfull := hh.1.fifo
    unfold Converter.take
    split
    · rename_i hroom
      have hplace := hr.place
      have hleast := hr.least
      have hkept := hr.kept
      have hlen : (c.join samples).fifo.length = c.fifo.length + 1 := by simp [Converter.join]
      refine Converter.ordered_of_reads (Converter.join_shape samples hh.1 hroom) ⟨?_, ?_, ?_⟩
        (Converter.not_acquire_of_running c hrun)
      · exact hleast.imp id fun hl => by show 16 ≤ (c.join samples).fifo.length; omega
      · show 77 ≤ c.history.length + (c.join samples).fifo.length
        omega
      · show wholeOf c.position + (c.join samples).fifo.length = c.nextIndex + 1 + 7
        omega
    · rename_i hroom
      have hfill : ¬ c.fifo.length < 256 := hroom
      obtain ⟨h1, h2, h3⟩ := Converter.delete_keeps c link hh.1 hr (by omega)
      have hplace := h2.place
      have hkept := h2.kept
      have hlen : ((c.delete link).1.join samples).fifo.length = (c.delete link).1.fifo.length + 1 := by
        simp [Converter.join]
      have hrun' : (c.delete link).1.running = true := Converter.slipped_running _ hrun
      refine Converter.ordered_of_reads (Converter.join_shape samples h1 (by omega)) ⟨?_, ?_, ?_⟩
        (Converter.not_acquire_of_running _ hrun')
      · refine Or.inr ?_
        show 16 ≤ ((c.delete link).1.join samples).fifo.length
        omega
      · show 77 ≤ (c.delete link).1.history.length + ((c.delete link).1.join samples).fifo.length
        omega
      · show wholeOf (c.delete link).1.position + ((c.delete link).1.join samples).fifo.length =
          (c.delete link).1.nextIndex + 1 + 7
        omega
  unfold Converter.arrive
  split
  · exact h
  · exact h
  · rename_i hs
    obtain ⟨hhist, hcounts⟩ := hh.2.2 hs
    have hsh := hh.1
    have hroom := hsh.room
    have hfull := hsh.fifo
    show (c.collect samples).FramesOrdered
    unfold Converter.collect
    let fewer := if Config.fifoFrames ≤ c.fill then c.fifo.drop 1 else c.fifo
    have hfewer : fewer.length = min 255 c.fifo.length ∧ framesFrom (c.nextIndex - fewer.length) fewer := by
      have hfrom := hsh.fifo_from
      by_cases hf : Config.fifoFrames ≤ c.fill
      · have hf' : 256 ≤ c.fifo.length := hf
        have e : fewer = c.fifo.drop 1 := if_pos hf
        rw [e]
        have hlen : (c.fifo.drop 1).length = 255 := by rw [List.length_drop]; omega
        refine ⟨by omega, ?_⟩
        have hd := framesFrom_drop _ 1 _ hfrom (by omega)
        have e2 : c.nextIndex - (c.fifo.drop 1).length = c.nextIndex - c.fifo.length + 1 := by
          rw [hhist] at hroom
          simp only [List.length_nil] at hroom
          omega
        rw [e2]
        exact hd
      · have hf' : ¬ 256 ≤ c.fifo.length := hf
        have e : fewer = c.fifo := if_neg hf
        rw [e]
        exact ⟨by omega, hfrom⟩
    have hsh2 : Converter.Shape { c with fifo := fewer } := by
      refine ⟨?_, hsh.history, hsh.used, ?_, ?_⟩
      · show fewer.length ≤ 256
        omega
      · show c.history.length + fewer.length ≤ c.nextIndex
        omega
      · show framesFrom (c.nextIndex - (c.history.length + fewer.length)) (c.history ++ fewer)
        rw [hhist]
        simpa using hfewer.2
    refine (Converter.framesOrdered_iff _).mpr
      ⟨Converter.join_shape samples hsh2 (by show fewer.length < 256; omega), ?_, ?_⟩
    · intro hrun
      exact absurd hs (Converter.not_acquire_of_running _ hrun)
    · intro _
      have hlen : (fewer ++ [({ index := c.nextIndex, samples := samples } : Frame)]).length =
          fewer.length + 1 := by simp
      refine ⟨hhist, fun n hn => ?_⟩
      show min 256 n ≤ (fewer ++ [_]).length
      rw [hlen]
      rcases List.mem_cons.mp hn with hn | hn
      · have hc := hcounts c.arrivals (by simp)
        rw [hn]
        show min 256 (c.arrivals + 1) ≤ _
        omega
      · have hc := hcounts n (List.mem_cons_of_mem _ hn)
        omega
  · rename_i hs
    exact run ((Converter.running_iff c).mpr (Or.inl hs))
  · rename_i hs
    exact run ((Converter.running_iff c).mpr (Or.inr (Or.inl hs)))
  · rename_i hs
    exact run ((Converter.running_iff c).mpr (Or.inr (Or.inr hs)))

/-! ## Loss, return, enable and disable -/

theorem Converter.lose_ordered (c : Converter) (h : c.FramesOrdered) : c.lose.FramesOrdered := by
  have hsh := ((Converter.framesOrdered_iff c).mp h).1
  have empty : ∀ d : Converter, d.used ≤ Config.ratioHigh → d.state = .lost →
      d.emptied.FramesOrdered := fun d hu hs =>
    Converter.ordered_of_shape (Converter.emptied_shape hu)
      (by simp [Converter.running, Converter.emptied, hs]) (by simp [Converter.emptied, hs])
  have fades : (if c.fade = 0 then { c with state := .lost, direction := .steady }.emptied
      else { c with state := .lost, direction := .falling }).FramesOrdered := by
    split
    · exact empty _ hsh.used rfl
    · exact Converter.ordered_of_shape ⟨hsh.fifo, hsh.history, hsh.used, hsh.room, hsh.frames⟩ rfl
        (fun hh => nomatch hh)
  unfold Converter.lose
  split
  · exact h
  · exact h
  · exact empty _ hsh.used rfl
  · exact fades
  · exact fades
  · exact fades

theorem Converter.acquire_ordered (c : Converter) (counting : Bool) (h : c.used ≤ Config.ratioHigh) :
    (c.acquire counting).FramesOrdered :=
  (Converter.framesOrdered_iff _).mpr
    ⟨⟨Nat.zero_le _, Nat.zero_le _, h, Nat.zero_le _, rfl⟩,
      fun hh => by simp [Converter.running, Converter.acquire] at hh,
      fun _ => ⟨rfl, by simp [Converter.acquire]⟩⟩

theorem Converter.regain_ordered (c : Converter) (h : c.FramesOrdered) : c.regain.FramesOrdered := by
  unfold Converter.regain
  split
  · exact c.acquire_ordered false ((Converter.framesOrdered_iff c).mp h).1.used
  · exact h

theorem Converter.enable_ordered (c : Converter) (h : c.FramesOrdered) : c.enable.FramesOrdered := by
  have ha := (Converter.framesOrdered_iff _).mp
    (c.acquire_ordered true ((Converter.framesOrdered_iff c).mp h).1.used)
  exact (Converter.framesOrdered_iff _).mpr
    ⟨⟨ha.1.fifo, ha.1.history, ha.1.used, ha.1.room, ha.1.frames⟩,
      fun hh => by simp [Converter.running, Converter.enable, Converter.acquire] at hh,
      fun _ => ⟨rfl, by simp [Converter.enable, Converter.acquire]⟩⟩

theorem Converter.initial_ordered : Converter.initial.FramesOrdered :=
  Converter.ordered_of_shape
    ⟨Nat.zero_le _, Nat.zero_le _, Nat.zero_le _, Nat.zero_le _, rfl⟩ rfl (fun hh => nomatch hh)

theorem Converter.disable_ordered (c : Converter) : c.disable.FramesOrdered :=
  Converter.ordered_of_shape
    ⟨Nat.zero_le _, Nat.zero_le _, Nat.zero_le _, Nat.zero_le _, rfl⟩ rfl (fun hh => nomatch hh)

/-! ## Block-end tracking -/

/-- A converter with the frames, the read position and the state of reading of another. -/
structure Converter.Tracks (c d : Converter) : Prop where
  fifo : d.fifo = c.fifo
  history : d.history = c.history
  position : d.position = c.position
  nextIndex : d.nextIndex = c.nextIndex
  used : d.used ≤ Config.ratioHigh
  running : d.running = true
  waits : d.slipWaits = c.slipWaits

theorem Converter.ordered_of_tracks {c d : Converter} (h : c.Shape) (hr : c.Reads)
    (hd : Converter.Tracks c d) : d.FramesOrdered := by
  refine Converter.ordered_of_reads ⟨?_, ?_, hd.used, ?_, ?_⟩ ⟨?_, ?_, ?_⟩
    (Converter.not_acquire_of_running d hd.running)
  · rw [hd.fifo]; exact h.fifo
  · rw [hd.history]; exact h.history
  · rw [hd.fifo, hd.history, hd.nextIndex]; exact h.room
  · rw [hd.fifo, hd.history, hd.nextIndex]; exact h.frames
  · rw [hd.fifo, hd.waits]; exact hr.least
  · rw [hd.fifo, hd.history]; exact hr.kept
  · rw [hd.fifo, hd.position, hd.nextIndex]; exact hr.place

/-- Counting and measuring change only the counts and the measured ratio. -/
theorem Converter.counted_eq (c : Converter) :
    c.count.measure =
      { c with
        counts := c.count.measure.counts
        measured := c.count.measure.measured
        measures := c.count.measure.measures
        arrivals := 0
        counting := true } := by
  unfold Converter.measure Converter.count
  cases hc : c.counting <;> simp only [Bool.false_eq_true, if_false, if_true] <;> split <;> simp

theorem Converter.trackLocked_tracks (c : Converter) (b : Bandwidth)
    (hs : c.state = .locked) : Converter.Tracks c (c.trackLocked b) := by
  unfold Converter.trackLocked
  split
  · exact ⟨rfl, rfl, rfl, rfl, clampRatio_le _, rfl, rfl⟩
  · split
    · split
      · exact ⟨rfl, rfl, rfl, rfl, clampRatio_le _, rfl, rfl⟩
      · exact ⟨rfl, rfl, rfl, rfl, clampRatio_le _, (Converter.running_iff _).mpr (Or.inl hs), rfl⟩
    · exact ⟨rfl, rfl, rfl, rfl, clampRatio_le _, (Converter.running_iff _).mpr (Or.inl hs), rfl⟩

theorem Converter.trackFreewheel_tracks (c : Converter) (previous : Nat)
    (h : c.used ≤ Config.ratioHigh) (hs : c.state = .freewheel) :
    Converter.Tracks c (c.trackFreewheel previous) := by
  unfold Converter.trackFreewheel
  simp only
  generalize (if (!inRatioRange c.measured) = true then 0 else _) = run
  split
  · exact ⟨rfl, rfl, rfl, rfl, clampRatio_le _, rfl, rfl⟩
  · exact ⟨rfl, rfl, rfl, rfl, h, (Converter.running_iff _).mpr (Or.inr (Or.inl hs)), rfl⟩

theorem Converter.trackRelock_tracks (c : Converter) (b : Bandwidth)
    (hs : c.state = .relock) : Converter.Tracks c (c.trackRelock b) := by
  have hr : c.running = true := (Converter.running_iff c).mpr (Or.inr (Or.inr hs))
  unfold Converter.trackRelock
  split
  · exact ⟨rfl, rfl, rfl, rfl, clampRatio_le _, rfl, rfl⟩
  · split
    · split
      · exact ⟨rfl, rfl, rfl, rfl, clampRatio_le _, rfl, rfl⟩
      · exact ⟨rfl, rfl, rfl, rfl, clampRatio_le _, hr, rfl⟩
    · exact ⟨rfl, rfl, rfl, rfl, clampRatio_le _, hr, rfl⟩

theorem mem_lastN {α : Type} {n : Nat} {xs : List α} {x : α} (h : x ∈ lastN n xs) : x ∈ xs :=
  List.mem_of_mem_drop h

/-- A sum of a list of numbers each below a bound. -/
theorem sum_lt_of_forall (xs : List Nat) (b : Nat) (h : ∀ x ∈ xs, x < b) (hne : xs ≠ []) :
    xs.sum < b * xs.length := by
  induction xs with
  | nil => exact absurd rfl hne
  | cons x xs ih =>
    have hx := h x (by simp)
    rw [List.sum_cons, List.length_cons, Nat.mul_succ]
    by_cases hxs : xs = []
    · subst hxs
      simp
      omega
    · have hr := ih (fun y hy => h y (List.mem_cons_of_mem _ hy)) hxs
      omega

/-- A ratio in range is measured only where some block brought as many frames as the FIFO holds. -/
theorem exists_large_count (counts : List Nat) (hne : counts ≠ [])
    (h : inRatioRange (measureOf counts) = true) : ∃ n ∈ counts, 256 ≤ n := by
  apply Decidable.byContradiction
  intro hno
  have hlt : ∀ n ∈ counts, n < 256 := by
    intro n hn
    apply Decidable.byContradiction
    intro hge
    exact hno ⟨n, hn, by omega⟩
  have hsum := sum_lt_of_forall counts 256 hlt hne
  have hlen : 0 < counts.length := List.length_pos_iff.mpr hne
  have hlow : Config.ratioLow ≤ measureOf counts := by
    simp only [inRatioRange, Bool.and_eq_true, decide_eq_true_eq] at h
    exact h.1
  unfold measureOf at hlow
  rw [Nat.le_div_iff_mul_le (Nat.mul_pos (by decide) hlen)] at hlow
  simp only [Config.ratioLow, Config.framesPerBlock] at hlow
  omega

/-- A full FIFO that locks keeps its frames in order, with 128 of them ahead of the oldest. -/
theorem Converter.lock_ordered (c : Converter) (h : c.Shape) (full : c.fifo.length = 256) :
    c.lock.FramesOrdered := by
  have hfrom := h.fifo_from
  have hroom := h.room
  have hk : (lastN 128 c.fifo).length = 128 := by rw [lastN_length, full]; rfl
  have hh : (lastN 64 (c.fifo.take (c.fifo.length - 128))).length = 64 := by
    rw [lastN_length, List.length_take, full]; rfl
  have hkept := framesFrom_lastN _ 128 _ hfrom
  have hindex : ((lastN 128 c.fifo)[7]'(by omega)).index = c.nextIndex - 121 := by
    rw [framesFrom_getElem _ 7 _ hkept (by omega)]
    omega
  have hpos : c.lock.position = (c.nextIndex - 121) * 2 ^ 28 := by
    simp only [Converter.lock, Converter.centre]
    rw [List.getElem?_eq_getElem (by omega)]
    simp only [hindex]
  have hf : c.lock.fifo = lastN 128 c.fifo := by simp only [Converter.lock, Converter.centre]
  have hhist : c.lock.history = lastN 64 (c.fifo.take (c.fifo.length - 128)) := by
    simp only [Converter.lock, Converter.centre]
  have hn : c.lock.nextIndex = c.nextIndex := rfl
  have hsplit : lastN 64 (c.fifo.take (c.fifo.length - 128)) ++ lastN 128 c.fifo = c.fifo.drop 64 := by
    have e : (c.fifo.take 128 ++ c.fifo.drop 128).drop 64 = c.fifo.drop 64 := by
      rw [List.take_append_drop]
    rw [← e, List.drop_append_of_le_length (by rw [List.length_take]; omega)]
    simp only [lastN, List.length_take, full, Nat.reduceSub,
      (by decide : min 128 256 = 128)]
  refine Converter.ordered_of_reads ⟨?_, ?_, ?_, ?_, ?_⟩ ⟨?_, ?_, ?_⟩ (fun hh2 => nomatch hh2)
  · rw [hf]; omega
  · rw [hhist]; omega
  · simp only [Converter.lock, Converter.centre]
    exact clampRatio_le _
  · rw [hf, hhist, hn]; omega
  · rw [hf, hhist, hn, hk, hh, hsplit]
    have hd := framesFrom_drop _ 64 _ hfrom (by omega)
    have e : c.nextIndex - (64 + 128) = c.nextIndex - c.fifo.length + 64 := by omega
    rw [e]
    exact hd
  · exact Or.inr (by rw [hf]; omega)
  · rw [hf, hhist]; omega
  · rw [hpos, hf, hn, hk]
    have hw : wholeOf ((c.nextIndex - 121) * 2 ^ 28) = c.nextIndex - 121 :=
      Nat.mul_div_cancel _ (by decide)
    rw [hw]
    omega

/-- A block end keeps a converter's frames in order. -/
theorem Converter.blockEnd_ordered (c : Converter) (b : Bandwidth) (h : c.FramesOrdered) :
    (c.blockEnd b).FramesOrdered := by
  have hh := (Converter.framesOrdered_iff c).mp h
  have hcount := Converter.counted_eq c
  have hshape : c.count.measure.Shape := by
    rw [hcount]
    exact ⟨hh.1.fifo, hh.1.history, hh.1.used, hh.1.room, hh.1.frames⟩
  have hstate : c.count.measure.state = c.state := by rw [hcount]
  have hreads : c.running = true → c.count.measure.Reads := by
    intro hrun
    have hr := hh.2.1 hrun
    rw [hcount]
    exact ⟨hr.least, hr.kept, hr.place⟩
  unfold Converter.blockEnd
  split
  · exact h
  · exact h
  · rename_i hs
    obtain ⟨hhist, hcounts⟩ := hh.2.2 hs
    have hfifo : c.count.measure.fifo = c.fifo := by rw [hcount]
    have hhist' : c.count.measure.history = [] := by rw [hcount]; exact hhist
    have hcounts' : ∀ n ∈ c.count.measure.arrivals :: c.count.measure.counts,
        min 256 n ≤ c.count.measure.fifo.length := by
      have hc : ∀ n ∈ c.count.counts, min 256 n ≤ c.fifo.length := by
        intro n hn
        unfold Converter.count at hn
        split at hn
        · have hm := mem_lastN hn
          rcases List.mem_append.mp hm with hm | hm
          · exact hcounts n (List.mem_cons_of_mem _ hm)
          · rw [List.mem_singleton.mp hm]
            exact hcounts _ (by simp)
        · exact hcounts n (List.mem_cons_of_mem _ hn)
      have hsame : c.count.measure.counts = c.count.counts := by
        unfold Converter.measure
        split <;> rfl
      intro n hn
      rw [hfifo]
      rcases List.mem_cons.mp hn with hn | hn
      · rw [hn, hcount]
        exact Nat.le_trans (Nat.min_le_right _ _) (Nat.zero_le _)
      · rw [hsame] at hn
        exact hc n hn
    have stays : ∀ ratio : Nat, ({ c.count.measure with ratio := ratio } : Converter).FramesOrdered :=
      fun ratio => (Converter.framesOrdered_iff _).mpr
        ⟨⟨hshape.fifo, hshape.history, hshape.used, hshape.room, hshape.frames⟩,
          fun hr => absurd (hstate.trans hs) (Converter.not_acquire_of_running _ hr),
          fun _ => ⟨hhist', hcounts'⟩⟩
    unfold Converter.trackAcquire
    split
    · exact stays c.count.measure.ratio
    · rename_i hne
      have hne' : c.count.measure.counts ≠ [] := by
        intro he
        rw [he] at hne
        exact hne rfl
      split
      · rename_i hlock
        have hmeasures : c.count.measure.measures =
            lastN 8 (c.count.measures ++ [measureOf c.count.measure.counts]) := by
          unfold Converter.measure at hne' ⊢
          split
          · rename_i he
            rw [if_pos he] at hne'
            exact absurd (List.isEmpty_iff.mp he) hne'
          · rfl
        have hrange : inRatioRange (measureOf c.count.measure.counts) = true := by
          simp only [lockTest, Bool.and_eq_true] at hlock
          refine List.all_eq_true.mp hlock.1.2 _ ?_
          rw [hmeasures]
          simp only [lastN]
          rw [List.drop_append_of_le_length (by simp)]
          simp
        obtain ⟨n, hn, hlarge⟩ := exists_large_count _ hne' hrange
        have hfull := hcounts' n (List.mem_cons_of_mem _ hn)
        have hmost := hshape.fifo
        exact Converter.lock_ordered { c.count.measure with ratio := c.count.measure.measured }
          ⟨hshape.fifo, hshape.history, hshape.used, hshape.room, hshape.frames⟩
          (by show c.count.measure.fifo.length = 256; omega)
      · exact stays _
  · rename_i hs
    exact Converter.ordered_of_tracks hshape (hreads ((Converter.running_iff c).mpr (Or.inl hs)))
      (Converter.trackLocked_tracks _ b (hstate.trans hs))
  · rename_i hs
    exact Converter.ordered_of_tracks hshape
      (hreads ((Converter.running_iff c).mpr (Or.inr (Or.inl hs))))
      (Converter.trackFreewheel_tracks _ _ hshape.used (hstate.trans hs))
  · rename_i hs
    exact Converter.ordered_of_tracks hshape
      (hreads ((Converter.running_iff c).mpr (Or.inr (Or.inr hs))))
      (Converter.trackRelock_tracks _ b (hstate.trans hs))

theorem Converter.slipped_fields (c : Converter) :
    c.slipped = { c with state := c.slipped.state, used := c.slipped.used, counter := c.slipped.counter } := by
  unfold Converter.slipped
  split <;> rfl

/-- The slip that waits keeps a converter's frames in order, and none waits after it. -/
theorem Converter.makeWaiting_ordered (c : Converter) (link : Fin 8) (h : c.FramesOrdered) :
    (c.makeWaiting link).1.FramesOrdered ∧ (c.makeWaiting link).1.slipWaits = false := by
  have hh := (Converter.framesOrdered_iff c).mp h
  have hshape : Converter.Shape { c with slipWaits := false } :=
    ⟨hh.1.fifo, hh.1.history, hh.1.used, hh.1.room, hh.1.frames⟩
  unfold Converter.makeWaiting
  cases hw : c.slipWaits
  · exact ⟨h, hw⟩
  simp only [Bool.not_true, Bool.false_eq_true, if_false]
  split
  · rename_i hg
    simp only [Bool.and_eq_true, decide_eq_true_eq] at hg
    have hr := hh.2.1 hg.1.1
    have hahead := Converter.ahead_of_place hh.1 hr.place
    obtain ⟨h1, h2⟩ := Converter.repeat_keeps { c with slipWaits := false } link hshape
      (by show c.fifo.length ≤ 192; omega) hr.kept hr.place
    refine ⟨Converter.ordered_of_reads h1 h2 (Converter.not_acquire_of_running _
      (Converter.slipped_running _ hg.1.1)), ?_⟩
    show (Converter.slipped _).slipWaits = false
    rw [Converter.slipped_fields]
  · rename_i hg
    refine ⟨(Converter.framesOrdered_iff _).mpr ⟨hshape, fun hrun => ?_, hh.2.2⟩, rfl⟩
    have hrun : c.running = true := hrun
    have hr := hh.2.1 hrun
    have hahead := Converter.ahead_of_place hh.1 hr.place
    refine ⟨Or.inr ?_, hr.kept, hr.place⟩
    apply Classical.byContradiction
    intro hl
    have hl : ¬ 16 ≤ c.fifo.length := hl
    apply hg
    have hk := hr.kept
    have hne : c.history.isEmpty = false := by
      rw [← Bool.not_eq_true, List.isEmpty_iff_length_eq_zero]
      omega
    rw [hrun, hne, decide_eq_true (by omega)]
    rfl

/-- A link apply keeps a converter's frames in order. -/
theorem Converter.apply_ordered (c : Converter) (old new : LinkRecord) (h : c.FramesOrdered) :
    (c.apply old new).FramesOrdered := by
  unfold Converter.apply
  split
  · exact c.enable_ordered h
  · exact c.disable_ordered
  · exact h

/-! ## A house frame and a slip (R42 to R46, R53, R55 to R57) -/

theorem Converter.moveFade_moves (c : Converter) : c.FadeMoves c.moveFade := by
  unfold Converter.moveFade
  split <;> rename_i h
  · exact ⟨fun _ => ⟨rfl, h⟩, fun k => (by rw [h] at k; cases k), fun k => (by rw [h] at k; cases k)⟩
  · exact ⟨fun k => (by rw [h] at k; cases k), fun _ => ⟨rfl, rfl⟩, fun k => (by rw [h] at k; cases k)⟩
  · refine ⟨fun k => (by rw [h] at k; cases k), fun k => (by rw [h] at k; cases k), fun _ => ⟨rfl, ?_⟩⟩
    show (if c.fade - 1 = 0 then _ else _ : FadeDirection) = _
    by_cases hz : c.fade ≤ 1
    · rw [if_pos hz, if_pos (by omega)]
    · rw [if_neg hz, if_neg (by omega)]

theorem Converter.FadeMoves.congr {c d e : Converter} (h : c.FadeMoves d) (hf : e.fade = d.fade)
    (hd : e.direction = d.direction) : c.FadeMoves e := by
  unfold Converter.FadeMoves at h ⊢
  rw [hf, hd]
  exact h

theorem Converter.slipped_tracks (c : Converter) : c.SlipTracks c.slipped := by
  unfold Converter.slipped
  constructor
  · intro h
    rw [if_pos h]
    refine ⟨rfl, ?_, rfl⟩
    show clampRatio c.ratio = _
    unfold clampRatio Config.ratioLow Config.ratioHigh
    omega
  · intro h
    rw [if_neg h]
    exact ⟨rfl, rfl, rfl⟩

/-- A running converter that an arrival finds full makes a DELETE slip (R55, R57). -/
theorem Converter.delete_slips (c : Converter) (l : Fin 8) (samples : Vector Sample 8)
    (hr : c.running = true) (hf : 256 ≤ c.fifo.length) :
    ∃ (d : Converter) (n : SlipNotice), c.arrive l samples = (d, some n) ∧
      d = { c with
        state := d.state
        used := d.used
        counter := d.counter
        history := c.fifo.take 64
        fifo := c.fifo.drop 64 ++ [{ index := c.nextIndex, samples := samples }]
        position := c.position + 64 * 2 ^ 28
        deletes := min 4294967295 (c.deletes + 1)
        arrivals := c.arrivals + 1
        nextIndex := c.nextIndex + 1 } ∧
      c.SlipTracks d ∧
      n.link = l ∧ n.direction = .delete ∧
      n.equivalent = (2 * 64 * 2 ^ 28 + d.used) / (2 * d.used) := by
  have ht : c.arrive l samples = c.take l samples := by
    rcases (Converter.running_iff c).mp hr with h | h | h <;> simp only [Converter.arrive, h]
  have hn : ¬ c.fill < Config.fifoFrames := by
    show ¬ c.fifo.length < 256
    omega
  refine ⟨(c.delete l).1.join samples, (c.delete l).2, ?_, ?_, ?_, rfl, rfl, ?_⟩
  · rw [ht, Converter.take, if_neg hn]
  · unfold Converter.delete
    simp only
    rw [Converter.slipped_fields]
    rfl
  · have h := Converter.slipped_tracks
      { c with
        history := c.fifo.take 64
        fifo := c.fifo.drop 64
        position := c.position + 64 * 2 ^ 28
        deletes := countSlip c.deletes }
    exact h
  · unfold Converter.delete
    simp only [slipEquivalent]
    rfl

theorem Converter.read_reads (c : Converter) (l : Fin 8) (waits : Bool) :
    ∀ b : Converter, c = { b with fade := c.fade, direction := c.direction } →
      b.ReadsFrame l waits (c.read l waits).1 (c.read l waits).2 := by
  intro b hb
  have e1 : c.position = b.position := by rw [hb]
  have e2 : c.used = b.used := by rw [hb]
  have e3 : c.fifo = b.fifo := by rw [hb]
  have e4 : c.history = b.history := by rw [hb]
  have e5 : c.state = b.state := by rw [hb]
  have e6 : c.repeats = b.repeats := by rw [hb]
  have hnext : ({ c with position := c.position + c.used } : Converter).release =
      { c with
        position := b.position + b.used
        fifo := b.keptAt (b.position + b.used)
        history := lastN 64 (b.history ++ b.passedAt (b.position + b.used)) } := by
    unfold Converter.release Converter.keptAt Converter.passedAt
    simp only [e1, e2, e3, e4]
    rfl
  unfold Converter.read
  simp only [hnext]
  have hahead : Converter.ahead
      { c with
        position := b.position + b.used
        fifo := b.keptAt (b.position + b.used)
        history := lastN 64 (b.history ++ b.passedAt (b.position + b.used)) }
      (b.position + b.used) = framesAhead (b.keptAt (b.position + b.used)) (b.position + b.used) := rfl
  rw [hahead]
  refine ⟨?_, ?_, ?_, ?_⟩
  · intro h
    rw [if_pos h]
    refine ⟨rfl, ?_⟩
    rw [hb]
  · intro h hh
    rw [if_neg (by omega), if_pos (by rw [hh]; rfl)]
    refine ⟨rfl, ?_⟩
    show ({ c with position := c.position, fifo := _, history := _ } : Converter) = _
    rw [hh, e1, hb]
  · intro h hh hw
    rw [if_neg (by omega), if_neg (by rw [List.isEmpty_iff]; exact hh), if_pos hw]
    refine ⟨rfl, ?_⟩
    rw [hb]
  · intro h hh hw
    rw [if_neg (by omega), if_neg (by rw [List.isEmpty_iff]; exact hh), if_neg (by rw [hw]; decide)]
    refine ⟨rfl, ?_, ?_⟩
    · have hs := Converter.slipped_tracks
        { c with
          position := b.position + b.used -
            (lastN 64 (b.history ++ b.passedAt (b.position + b.used))).length * 2 ^ 28
          fifo := lastN 64 (b.history ++ b.passedAt (b.position + b.used)) ++
            b.keptAt (b.position + b.used)
          history := []
          repeats := countSlip c.repeats }
      rw [hb] at hs ⊢
      exact hs
    · unfold Converter.repeatSlip
      simp only
      rw [Converter.slipped_fields, hb]
      rfl

/-- The slip that waits, made (R44, R56, R57, R196). -/
theorem Converter.makeWaiting_makes (c : Converter) (l : Fin 8) :
    c.MakesWaiting l (c.makeWaiting l).1 (c.makeWaiting l).2 := by
  unfold Converter.makeWaiting
  refine ⟨fun h => ?_, fun h => ?_⟩
  · rw [h]
    exact ⟨rfl, rfl⟩
  rw [h]
  simp only [Bool.not_true, Bool.false_eq_true, if_false]
  have hg : (c.running && decide (c.ahead c.position < 8) && !c.history.isEmpty) = true ↔
      c.running = true ∧ framesAhead c.fifo c.position < 8 ∧ c.history ≠ [] := by
    simp only [Bool.and_eq_true, decide_eq_true_eq, Bool.not_eq_true', List.isEmpty_eq_false_iff, and_assoc]
    exact Iff.rfl
  refine ⟨fun hn => ?_, fun h1 h2 h3 => ?_⟩
  · rw [if_neg (fun hh => ?_)]
    · exact ⟨rfl, rfl⟩
    · obtain ⟨h1, h2, h3⟩ := hg.mp hh
      rcases hn with hn | hn | hn
      · rw [h1] at hn; cases hn
      · omega
      · exact h3 hn
  · rw [if_pos (hg.mpr ⟨h1, h2, h3⟩)]
    refine ⟨rfl, ?_, ?_⟩
    · exact Converter.slipped_tracks
        { c with
          slipWaits := false
          history := []
          fifo := c.history ++ c.fifo
          position := c.position - c.history.length * 2 ^ 28
          repeats := countSlip c.repeats }
    · unfold Converter.repeatSlip
      simp only
      rw [Converter.slipped_fields]
      rfl

theorem Converter.houseFrame_lost (c : Converter) (l : Fin 8) (waits : Bool) (h : c.state = .lost) :
    c.houseFrame l waits =
      if c.moveFade.fade = 0 then (silentSlots, c.moveFade.emptied, none)
      else (c.moveFade.samples, c.moveFade.readLost, none) := by
  simp only [Converter.houseFrame, h]

theorem Converter.houseFrame_running (c : Converter) (l : Fin 8) (waits : Bool) (h : c.running = true) :
    c.houseFrame l waits = (c.moveFade.samples, c.moveFade.read l waits) := by
  rcases (Converter.running_iff c).mp h with h | h | h <;> simp only [Converter.houseFrame, h]

theorem Converter.readLost_fade (c : Converter) :
    c.readLost.fade = c.fade ∧ c.readLost.direction = c.direction := by
  unfold Converter.readLost
  split <;> exact ⟨rfl, rfl⟩

theorem Converter.read_fade (c : Converter) (l : Fin 8) (waits : Bool) :
    (c.read l waits).1.fade = c.fade ∧ (c.read l waits).1.direction = c.direction := by
  unfold Converter.read
  simp only
  split
  · exact ⟨rfl, rfl⟩
  · split
    · exact ⟨rfl, rfl⟩
    · split
      · exact ⟨rfl, rfl⟩
      · unfold Converter.repeatSlip
        simp only
        rw [Converter.slipped_fields]
        exact ⟨rfl, rfl⟩

theorem Converter.houseFrame_runs (c : Converter) (l : Fin 8) (waits : Bool) :
    c.RunsFrame l waits (c.houseFrame l waits).2.1 (c.houseFrame l waits).2.2 := by
  have hm := c.moveFade_eq
  have hmove := c.moveFade_moves
  refine ⟨?_, ?_, ?_⟩
  · rintro (h | h) <;> simp only [Converter.houseFrame, h, and_self]
  · intro h
    rw [c.houseFrame_running l waits h]
    have hr := Converter.read_reads c.moveFade l waits c hm
    refine ⟨?_, hr⟩
    exact hmove.congr (c.moveFade.read_fade l waits).1 (c.moveFade.read_fade l waits).2
  · intro h
    rw [c.houseFrame_lost l waits h]
    by_cases hz : c.moveFade.fade = 0
    · rw [if_pos hz]
      refine ⟨rfl, hmove.congr rfl rfl, fun _ => ?_, fun hp => absurd hz (Nat.pos_iff_ne_zero.mp hp)⟩
      conv => lhs; rw [Converter.emptied, hm]
      rw [hz]
      rfl
    · rw [if_neg hz]
      have hl := c.moveFade.readLost_fade
      refine ⟨rfl, hmove.congr hl.1 hl.2, fun hp => absurd (hl.1.symm.trans hp) hz, fun _ => ?_⟩
      have e1 : c.moveFade.position = c.position := by rw [hm]
      have e2 : c.moveFade.used = c.used := by rw [hm]
      have e3 : c.moveFade.fifo = c.fifo := by rw [hm]
      have e4 : c.moveFade.history = c.history := by rw [hm]
      have hahead : c.moveFade.ahead (c.moveFade.position + c.moveFade.used) =
          framesAhead c.fifo (c.position + c.used) := by
        rw [e1, e2]
        unfold Converter.ahead
        rw [e3]
        rfl
      refine ⟨?_, ?_⟩
      · intro h8
        unfold Converter.readLost
        rw [hahead, if_pos h8]
        unfold Converter.release Converter.keptAt Converter.passedAt
        simp only [e1, e2, e3, e4]
        conv => lhs; rw [hm]
        rfl
      · intro h8
        unfold Converter.readLost
        rw [hahead, if_neg (by omega)]
        exact hm

theorem saturate_toInt (x : Sample) : saturate x.toInt = x := by
  have h1 := BitVec.toInt_lt (x := x)
  have h2 := BitVec.le_toInt (x := x)
  unfold saturate
  have : max (-8388608) (min 8388607 x.toInt) = x.toInt := by
    simp only [Nat.add_one_sub_one] at h1 h2
    omega
  rw [this]
  exact BitVec.ofInt_toInt

theorem roundDiv_mul (a b : Int) (hb : 0 < b) : roundDiv (a * b) b = a := by
  unfold roundDiv
  have h2 : ∀ x : Int, (2 * (x * b) + b) / (2 * b) = x := by
    intro x
    have : 2 * (x * b) + b = b + x * (2 * b) := by rw [Int.mul_left_comm, Int.add_comm]
    rw [this, Int.add_mul_ediv_right _ _ (by omega), Int.ediv_eq_zero_of_lt (by omega) (by omega)]
    omega
  split
  · exact h2 a
  · have : -(a * b) = (-a) * b := by rw [Int.neg_mul]
    rw [this, h2 (-a)]
    omega

/-- A frame of a list whose indices differ is the one its index finds. -/
theorem findIndex_mem (xs : List Frame) (f : Frame) (hn : (xs.map Frame.index).Nodup) (hf : f ∈ xs) :
    xs.find? (fun g => (g.index : Int) == (f.index : Int)) = some f := by
  induction xs with
  | nil => cases hf
  | cons g rest ih =>
    rw [List.map_cons, List.nodup_cons] at hn
    rcases List.mem_cons.mp hf with rfl | hf
    · simp
    · rw [List.find?_cons]
      have : g.index ≠ f.index := fun e => hn.1 (e ▸ List.mem_map_of_mem hf)
      have hb : ((g.index : Int) == (f.index : Int)) = false := by
        rw [beq_eq_false_iff_ne]; omega
      rw [hb]
      exact ih hn.2 hf

theorem Converter.houseFrame_delivers (c : Converter) (l : Fin 8) (waits : Bool) :
    c.Delivers (c.houseFrame l waits).2.1.fade (c.houseFrame l waits).1 := by
  have hm := c.moveFade_eq
  have hruns := c.houseFrame_runs l waits
  have hsilent : ∀ y : Fin 8, silentSlots[y] = 0#24 := by decide
  refine ⟨?_, ?_⟩
  · rintro (h | h | ⟨h, hz⟩) y
    · simp only [Converter.houseFrame, h]
      exact hsilent y
    · simp only [Converter.houseFrame, h]
      exact hsilent y
    · rw [c.houseFrame_lost l waits h] at hz ⊢
      by_cases h0 : c.moveFade.fade = 0
      · rw [if_pos h0]
        exact hsilent y
      · rw [if_neg h0] at hz
        exact absurd (c.moveFade.readLost_fade.1.symm.trans hz) h0
  · intro h y
    have hfade : (c.houseFrame l waits).2.1.fade = c.moveFade.fade ∧
        (c.houseFrame l waits).1 = c.moveFade.samples := by
      rcases h with h | ⟨h, hp⟩
      · rw [c.houseFrame_running l waits h]
        exact ⟨(c.moveFade.read_fade l waits).1, rfl⟩
      · rw [c.houseFrame_lost l waits h] at hp ⊢
        by_cases h0 : c.moveFade.fade = 0
        · rw [if_pos h0] at hp
          exact absurd h0 (Nat.pos_iff_ne_zero.mp hp)
        · rw [if_neg h0]
          exact ⟨c.moveFade.readLost_fade.1, rfl⟩
    rw [hfade.1, hfade.2]
    have e1 : c.moveFade.position = c.position := by rw [hm]
    have e3 : c.moveFade.fifo = c.fifo := by rw [hm]
    have hint : c.moveFade.interpolated y = c.interpolated y := by
      unfold Converter.interpolated Converter.stored
      simp only [e1, e3]
    have hs : c.moveFade.samples[y] = scaled (c.interpolated y) c.moveFade.fade := by
      unfold Converter.samples
      simp only [Fin.getElem_fin, Vector.getElem_ofFn, Fin.eta, hint]
    rw [hs]
    refine ⟨rfl, ?_, ?_⟩
    · intro h480
      unfold scaled
      rw [h480]
      show saturate (roundDiv ((c.interpolated y).toInt * 480) 480) = _
      rw [roundDiv_mul _ _ (by decide), saturate_toInt]
    · intro hp hn f hf hi
      unfold Converter.interpolated interpolate
      have hphase : phaseOf c.position = 0#28 := by
        unfold phaseOf
        apply BitVec.eq_of_toNat_eq
        simpa using hp
      rw [if_pos hphase]
      have hw : (wholeOf c.position : Int) + (((7 : Fin 16).val : Nat) : Int) - 7 = (f.index : Int) := by
        show ((c.position / 2 ^ 28 : Nat) : Int) + 7 - 7 = _
        rw [hi]
        omega
      dsimp only
      rw [hw]
      unfold Converter.stored
      rw [findIndex_mem c.fifo f hn hf]
      exact saturate_toInt _

/-! ## Tracking at a block end (R47 to R54) -/

theorem inRatioRange_iff (x : Nat) : inRatioRange x = true ↔ RatioInRange x := by
  unfold inRatioRange RatioInRange
  rw [Bool.and_eq_true, decide_eq_true_iff, decide_eq_true_iff]
  exact Iff.rfl

theorem inRatioRange_not (x : Nat) : (!inRatioRange x) = true ↔ ¬ RatioInRange x := by
  rw [← inRatioRange_iff]
  cases inRatioRange x <;> simp

theorem clampRatio_int (x : Int) : (clampRatio x : Int) = max 167772160 (min 550292684 x) := by
  show ((max (167772160 : Int) (min 550292684 x)).toNat : Int) = _
  omega

/-- The centring of R_used leaves R and the frames (R52). -/
theorem Converter.centre_centred (c : Converter) : c.centre.Centred := clampRatio_int _

/-- A smoothing step never takes R below zero (R51). -/
theorem smoothed_nonneg (x y : Nat) (n : Nat) (hn : 0 < n) : 0 ≤ (x : Int) + ((y : Int) - x) / (n : Int) := by
  have h1 : -(x : Int) ≤ ((y : Int) - x) / (n : Int) := by
    rw [Int.le_ediv_iff_mul_le (by omega)]
    have : (x : Int) * 1 ≤ (x : Int) * n := Int.mul_le_mul_of_nonneg_left (by omega) (by omega)
    rw [Int.neg_mul]
    omega
  omega

theorem Bandwidth.divisor_eq (b : Bandwidth) : ((2 ^ b.shift : Nat) : Int) = b.divisor := by
  cases b <;> rfl

/-- One smoothing step and the centring after it (R51, R52). -/
theorem Converter.smooth_smooths (c d : Converter) (s : Nat) (hr : d.ratio = c.ratio) :
    c.SmoothsBy ((2 ^ s : Nat) : Int) (d.smooth s).centre := by
  refine ⟨?_, Converter.centre_centred _⟩
  show (((d.ratio : Int) + ((d.measured : Int) - d.ratio) / ((2 ^ s : Nat) : Int)).toNat : Int) = _
  have := smoothed_nonneg d.ratio d.measured (2 ^ s) (Nat.pow_pos (by decide))
  rw [Int.toNat_of_nonneg this, hr]
  rfl

/-- Counting and measuring at a block end (R47, R48). -/
theorem Converter.count_counts (c : Converter) : c.CountsBlock c.count.measure := by
  unfold Converter.CountsBlock Converter.count
  cases hc : c.counting <;> simp only [Bool.false_eq_true, if_false, if_true]
  all_goals
    unfold Converter.measure
    split
    · rename_i h
      have h' := List.isEmpty_iff.mp h
      refine ⟨rfl, rfl, ?_, ?_, fun _ => ⟨rfl, rfl⟩, fun hne => absurd h' hne⟩
      all_goals intro h0; first | rfl | cases h0
    · rename_i h
      refine ⟨rfl, rfl, ?_, ?_, fun he => absurd (List.isEmpty_iff.mpr he) h, fun _ => ⟨rfl, rfl⟩⟩
      all_goals intro h0; first | rfl | cases h0

/-- What counting and measuring keep. -/
theorem Converter.count_keeps (c : Converter) :
    c.count.measure = { c with
      counts := c.count.measure.counts, measured := c.count.measure.measured
      measures := c.count.measure.measures, arrivals := 0, counting := true } := by
  unfold Converter.count
  cases hc : c.counting <;> simp only [Bool.false_eq_true, if_false, if_true]
  all_goals
    unfold Converter.measure
    split <;> rfl

/-- Every part of CountsBlock is read from the counts and the measured ratios. -/
theorem Converter.CountsBlock.congr {c d e : Converter} (h : c.CountsBlock d) (h1 : e.counting = d.counting)
    (h2 : e.arrivals = d.arrivals) (h3 : e.counts = d.counts) (h4 : e.measured = d.measured)
    (h5 : e.measures = d.measures) : c.CountsBlock e := by
  unfold Converter.CountsBlock at h ⊢
  rw [h1, h2, h3, h4, h5]
  exact h

theorem lockTest_iff (measures : List Nat) : lockTest measures = true ↔
    measures.length = 8 ∧ (∀ x ∈ measures, RatioInRange x) ∧
      ∀ x ∈ measures, ∀ y ∈ measures, x ≤ y + 65536 := by
  unfold lockTest
  simp only [Bool.and_eq_true, beq_iff_eq, List.all_eq_true, inRatioRange_iff, decide_eq_true_eq, and_assoc]

theorem Converter.lock_locks (c : Converter) :
    c.lock.state = .locked ∧ c.lock.counter = 0 ∧ c.lock.fade = 0 ∧ c.lock.direction = .rising ∧
      c.lock.Centred ∧ c.lock.fifo = lastN 128 c.fifo ∧
      c.lock.history = lastN 64 (c.fifo.take (c.fifo.length - 128)) ∧
      ∀ f, c.lock.fifo[7]? = some f → c.lock.position = f.index * 2 ^ 28 := by
  have hc : c.lock.Centred := by
    unfold Converter.lock
    exact Converter.centre_centred _
  have hf : c.lock.fifo = lastN 128 c.fifo := by
    simp only [Converter.lock, Converter.centre]
  have hh : c.lock.history = lastN 64 (c.fifo.take (c.fifo.length - 128)) := by
    simp only [Converter.lock, Converter.centre]
  refine ⟨rfl, rfl, rfl, rfl, hc, hf, hh, fun f h => ?_⟩
  rw [hf] at h
  unfold Converter.lock Converter.centre
  simp only [h]

theorem Converter.freewheels (c d : Converter) (hr : d.ratio = c.ratio) :
    c.FreewheelsFrom d.enterFreewheel :=
  ⟨rfl, hr, rfl, by rw [← hr]; exact clampRatio_int _⟩

/-- The tracking of ACQUIRE (R49, R50). -/
theorem Converter.trackAcquire_tracks (c d : Converter) (hs : d.state = .acquire) (hr : d.ratio = c.ratio)
    (hu : d.used = c.used) (hc : d.counter = c.counter) (hf : c.SameFrames d) :
    c.TracksAcquire d.trackAcquire := by
  obtain ⟨f1, f2, f3, f4, f5⟩ := hf
  have he : d.trackAcquire.counts = d.counts ∧ d.trackAcquire.measures = d.measures := by
    unfold Converter.trackAcquire
    repeat' split
    all_goals exact ⟨rfl, rfl⟩
  unfold Converter.TracksAcquire
  rw [he.1, he.2]
  refine ⟨fun h => ?_, fun h => ?_⟩
  · have : d.trackAcquire = d := by
      unfold Converter.trackAcquire
      rw [if_pos (List.isEmpty_iff.mpr h)]
    rw [this]
    exact ⟨hs, hr, hu, hc, f1, f2, f3, f4, f5⟩
  · have hne : ¬ d.counts.isEmpty = true := fun e => h (List.isEmpty_iff.mp e)
    rw [← lockTest_iff]
    unfold Converter.trackAcquire
    rw [if_neg hne]
    by_cases hl : lockTest d.measures = true
    · rw [if_pos hl]
      have hk := Converter.lock_locks { d with ratio := d.measured }
      refine ⟨rfl, fun h => absurd hl h, fun _ => ?_⟩
      rw [← f1]
      exact hk
    · rw [if_neg hl]
      exact ⟨rfl, fun _ => ⟨hs, hu, hc, f1, f2, f3, f4, f5⟩, fun h => absurd h hl⟩

/-- The tracking of LOCKED (R51 to R53). -/
theorem Converter.trackLocked_follows (c d : Converter) (b : Bandwidth) (hs : d.state = .locked)
    (hr : d.ratio = c.ratio) (hc : d.counter = c.counter) :
    c.TracksLocked b (d.trackLocked b) ∧ (d.trackLocked b).measured = d.measured := by
  have hm : (d.trackLocked b).measured = d.measured := by
    unfold Converter.trackLocked
    repeat' split
    all_goals rfl
  refine ⟨?_, hm⟩
  unfold Converter.TracksLocked
  rw [hm, ← b.divisor_eq]
  unfold Converter.trackLocked ratioGap
  by_cases h1 : (!inRatioRange d.measured) = true
  · rw [if_pos h1]
    have h2 := (inRatioRange_not _).mp h1
    exact ⟨fun _ => c.freewheels d hr, fun h => absurd h h2, fun h => absurd h h2⟩
  · rw [if_neg h1, hr, hc]
    have h2 : RatioInRange d.measured := Classical.byContradiction fun h => h1 ((inRatioRange_not _).mpr h)
    by_cases h3 : 524288 < ((d.measured : Int) - c.ratio).natAbs
    · rw [if_pos h3]
      by_cases h4 : 4 ≤ c.counter + 1
      · rw [if_pos h4]
        exact ⟨fun _ => c.freewheels d hr, fun _ _ h => absurd h (by omega), fun _ h => absurd h3 h⟩
      · rw [if_neg h4]
        refine ⟨?_, fun _ _ _ => ⟨hs, rfl, Converter.smooth_smooths c _ _ rfl⟩,
          fun _ h => absurd h3 h⟩
        rintro (h | ⟨_, h⟩)
        · exact absurd h2 h
        · exact absurd h h4
    · rw [if_neg h3]
      refine ⟨?_, fun _ h => absurd h h3, fun _ _ => ⟨hs, rfl, Converter.smooth_smooths c _ _ rfl⟩⟩
      rintro (h | ⟨h, _⟩)
      · exact absurd h2 h
      · exact absurd h h3

/-- The tracking of RELOCK (R54). -/
theorem Converter.trackRelock_follows (c d : Converter) (b : Bandwidth) (hs : d.state = .relock)
    (hr : d.ratio = c.ratio) (hc : d.counter = c.counter) :
    c.TracksRelock b (d.trackRelock b) ∧ (d.trackRelock b).measured = d.measured := by
  have hm : (d.trackRelock b).measured = d.measured := by
    unfold Converter.trackRelock
    repeat' split
    all_goals rfl
  refine ⟨?_, hm⟩
  have h4 : (4 : Int) = ((2 ^ 2 : Nat) : Int) := rfl
  unfold Converter.TracksRelock
  rw [hm, ← b.divisor_eq, h4]
  unfold Converter.trackRelock ratioGap
  by_cases h1 : (!inRatioRange d.measured) = true
  · rw [if_pos h1]
    have h2 := (inRatioRange_not _).mp h1
    exact ⟨fun _ => c.freewheels d hr, fun h => absurd h h2, fun h => absurd h h2, fun h => absurd h h2⟩
  · rw [if_neg h1, hr, hc]
    have h2 : RatioInRange d.measured := Classical.byContradiction fun h => h1 ((inRatioRange_not _).mpr h)
    by_cases h3 : ((d.measured : Int) - c.ratio).natAbs ≤ 65536
    · rw [if_pos h3]
      by_cases h5 : 8 ≤ c.counter + 1
      · rw [if_pos h5]
        exact ⟨fun h => absurd h2 h, fun _ _ h => absurd h (by omega), fun _ _ _ =>
          ⟨rfl, rfl, Converter.smooth_smooths c _ _ rfl⟩,
          fun _ h => absurd h3 h⟩
      · rw [if_neg h5]
        exact ⟨fun h => absurd h2 h, fun _ _ _ =>
          ⟨hs, rfl, Converter.smooth_smooths c _ _ rfl⟩,
          fun _ _ h => absurd h h5, fun _ h => absurd h3 h⟩
    · rw [if_neg h3]
      exact ⟨fun h => absurd h2 h, fun _ h => absurd h h3, fun _ h => absurd h h3, fun _ _ =>
        ⟨hs, rfl, Converter.smooth_smooths c _ _ rfl⟩⟩

/-- The tracking of FREEWHEEL (R53, R54). -/
theorem Converter.trackFreewheel_follows (c d : Converter) (hs : d.state = .freewheel)
    (hr : d.ratio = c.ratio) (hu : d.used = c.used) (hc : d.counter = c.counter) :
    c.TracksFreewheel (d.trackFreewheel c.measured) ∧
      (d.trackFreewheel c.measured).measured = d.measured := by
  have hm : (d.trackFreewheel c.measured).measured = d.measured := by
    unfold Converter.trackFreewheel
    simp only
    repeat' split
    all_goals rfl
  refine ⟨?_, hm⟩
  unfold Converter.TracksFreewheel
  rw [hm]
  intro near run r1 r2 r3 r4
  have hrun : (if !inRatioRange d.measured then 0 else if d.counter = 0 then 1
      else if ratioGap d.measured c.measured ≤ 65536 then d.counter + 1 else 1) = run := by
    by_cases h1 : (!inRatioRange d.measured) = true
    · rw [if_pos h1, r1 ((inRatioRange_not _).mp h1)]
    · have h2 : RatioInRange d.measured := Classical.byContradiction fun h => h1 ((inRatioRange_not _).mpr h)
      rw [if_neg h1, hc]
      by_cases h3 : c.counter = 0
      · rw [if_pos h3, r2 h2 h3]
      · rw [if_neg h3]
        by_cases h4 : ratioGap d.measured c.measured ≤ 65536
        · rw [if_pos h4, r3 h2 (by omega) h4]
        · rw [if_neg h4, r4 h2 (by omega) h4]
  unfold Converter.trackFreewheel
  rw [hrun]
  simp only
  refine ⟨fun h => ?_, fun h => ?_⟩
  · rw [if_neg (by omega)]
    exact ⟨hs, rfl, hr, hu⟩
  · rw [if_pos h]
    exact ⟨rfl, rfl, rfl, Converter.centre_centred _⟩

/-- Every tracking of a converter that reads keeps the frames and what was counted and measured. -/
theorem Converter.track_keeps (d : Converter) (b : Bandwidth) (previous : Nat) :
    ∀ e, e = d.trackLocked b ∨ e = d.trackFreewheel previous ∨ e = d.trackRelock b →
      e = { d with state := e.state, ratio := e.ratio, used := e.used, counter := e.counter } := by
  rintro e (rfl | rfl | rfl)
  · unfold Converter.trackLocked
    repeat' split
    all_goals rfl
  · unfold Converter.trackFreewheel
    simp only
    repeat' split
    all_goals rfl
  · unfold Converter.trackRelock
    repeat' split
    all_goals rfl

/-- A converter's work at a block end (R47 to R54). -/
theorem Converter.blockEnd_tracks (c : Converter) (b : Bandwidth) : c.TracksBlock b (c.blockEnd b) := by
  have hk := c.count_keeps
  have hcount := c.count_counts
  generalize hd : c.count.measure = d at hk hcount
  have hd' : c.count.measure = d := hd
  have s1 : d.state = c.state := by rw [hk]
  have s2 : d.ratio = c.ratio := by rw [hk]
  have s3 : d.used = c.used := by rw [hk]
  have s4 : d.counter = c.counter := by rw [hk]
  have s5 : c.SameFrames d := by rw [hk]; exact ⟨rfl, rfl, rfl, rfl, rfl⟩
  have s6 : d.nextIndex = c.nextIndex ∧ d.deletes = c.deletes ∧ d.repeats = c.repeats ∧
      d.slipWaits = c.slipWaits := by
    rw [hk]; exact ⟨rfl, rfl, rfl, rfl⟩
  unfold Converter.TracksBlock Converter.blockEnd
  rw [hd']
  cases hs : c.state <;> simp only [Converter.running, hs]
  · simp
  · have ht := Converter.trackAcquire_tracks c d (s1.trans hs) s2 s3 s4 s5
    have he : d.trackAcquire.counting = d.counting ∧ d.trackAcquire.arrivals = d.arrivals ∧
        d.trackAcquire.counts = d.counts ∧ d.trackAcquire.measured = d.measured ∧
        d.trackAcquire.measures = d.measures ∧ d.trackAcquire.nextIndex = d.nextIndex ∧
        d.trackAcquire.deletes = d.deletes ∧ d.trackAcquire.repeats = d.repeats ∧
        d.trackAcquire.slipWaits = d.slipWaits := by
      unfold Converter.trackAcquire
      repeat' split
      all_goals exact ⟨rfl, rfl, rfl, rfl, rfl, rfl, rfl, rfl, rfl⟩
    obtain ⟨e1, e2, e3, e4, e5, e6, e7, e8, e9⟩ := he
    refine ⟨by simp, fun _ _ => ⟨hcount.congr e1 e2 e3 e4 e5, e6.trans s6.1, e7.trans s6.2.1,
      e8.trans s6.2.2.1, e9.trans s6.2.2.2⟩, fun _ => ht, fun h => absurd h (by decide), fun h => absurd h (by decide), fun h => absurd h (by decide), fun h => absurd h (by decide)⟩
  · have he := d.track_keeps b c.measured _ (Or.inl rfl)
    have ht := (Converter.trackLocked_follows c d b (s1.trans hs) s2 s4).1
    generalize d.trackLocked b = e at he ht
    rw [he] at ht ⊢
    exact ⟨by simp, fun _ _ => ⟨hcount.congr rfl rfl rfl rfl rfl, s6⟩, fun h => absurd h (by decide), fun _ => s5, fun _ => ht,
      fun h => absurd h (by decide), fun h => absurd h (by decide)⟩
  · have he := d.track_keeps b c.measured _ (Or.inr (Or.inl rfl))
    have ht := (Converter.trackFreewheel_follows c d (s1.trans hs) s2 s3 s4).1
    generalize d.trackFreewheel c.measured = e at he ht
    rw [he] at ht ⊢
    exact ⟨by simp, fun _ _ => ⟨hcount.congr rfl rfl rfl rfl rfl, s6⟩, fun h => absurd h (by decide), fun _ => s5, fun h => absurd h (by decide),
      fun _ => ht, fun h => absurd h (by decide)⟩
  · have he := d.track_keeps b c.measured _ (Or.inr (Or.inr rfl))
    have ht := (Converter.trackRelock_follows c d b (s1.trans hs) s2 s4).1
    generalize d.trackRelock b = e at he ht
    rw [he] at ht ⊢
    exact ⟨by simp, fun _ _ => ⟨hcount.congr rfl rfl rfl rfl rfl, s6⟩, fun h => absurd h (by decide), fun _ => s5, fun h => absurd h (by decide),
      fun h => absurd h (by decide), fun _ => ht⟩
  · simp

end Sys2Proof.Machine
end

