-- ==== Sys2Proof/Laws/Delays.lean ====
section
/-! SUPPORT. The delay engine: step decisions and new targets, a house frame's work and reads, and that every
operation keeps D_t, D_c and the step of D_c within 0 to U. -/

namespace Sys2Proof.Machine

theorem largestStep_eq (rate : Nat) : (largestStep rate : Int) = (rate * 4800 * 65536 / 1000000 : Nat) := rfl

/-- No step decision is made in BYPASS, FILLING and FADE_OUT (R126). -/
theorem DelayEngine.decideStep_other (d : DelayEngine) (x : DelaySection)
    (h : d.state = .bypass ∨ d.state = .filling ∨ d.state = .fadeOut) : d.decideStep x = d := by
  unfold DelayEngine.decideStep
  rw [if_neg]
  rcases h with h | h | h <;> rw [h] <;> decide

/-- The step decision at a block end (R126). -/
theorem DelayEngine.decideStep_decides (d : DelayEngine) (x : DelaySection) :
    d.Decides x (d.decideStep x) := by
  refine ⟨d.decideStep_other x, fun h => ⟨fun hc => ?_, fun hc hm => ?_, fun hc hm distance most hd hs => ?_⟩⟩
  all_goals unfold DelayEngine.decideStep; rw [if_pos h]
  · have hc' : d.current = inUnits d.target := hc
    rw [if_pos hc']
  · have hc' : ¬ d.current = inUnits d.target := hc
    rw [if_neg hc', hm]
    rfl
  · have hc' : ¬ d.current = inUnits d.target := hc
    subst hd hs
    rw [if_neg hc', hm]
    rfl

/-- A new target that leaves the lanes in place (R110, R123 to R125), where under JUMP nothing but FILLING is
running. -/
theorem DelayEngine.takeTarget_new (d : DelayEngine) (x : DelaySection) :
    (d.takeTarget x).2 = (decide (d.state = .filling) && decide (min x.target d.usable ≠ d.target)) := by
  unfold DelayEngine.takeTarget
  simp only
  split <;> rename_i h
  · simp [h]
  · split <;> rename_i hs
    · simp [h, hs]
    · split <;> simp [hs]


/-- The engine on its lanes with a new target, before any step decision (R110, R123 to R125). -/
def DelayEngine.retargeted (d : DelayEngine) (x : DelaySection) : DelayEngine :=
  if d.state = .filling ∧ min x.target d.usable ≠ d.target then
    { d with
      target := min x.target d.usable
      clamped := decide (d.usable < x.target)
      current := inUnits (min x.target d.usable)
      lanes := d.lanes.map (fun lane => { lane with correction := 0 }) }
  else { d with target := min x.target d.usable, clamped := decide (d.usable < x.target) }

theorem DelayEngine.retargeted_retargets (d : DelayEngine) (x : DelaySection) :
    d.Retargets x (d.retargeted x) := by
  refine ⟨fun h1 h2 => ?_, fun h => ?_⟩
  · unfold DelayEngine.retargeted
    rw [if_pos ⟨h1, h2⟩]
    rfl
  · unfold DelayEngine.retargeted
    rw [if_neg]
    rintro ⟨h1, h2⟩
    rcases h with h | h
    · exact h h1
    · exact h2 h

/-- A new target and then the step decision: what the two together give, but for the sync flag, is the step
decision on the retargeted engine (R124 and R126 enter the same FADE_OUT). -/
theorem DelayEngine.takeTarget_decideStep (d : DelayEngine) (x : DelaySection) :
    ∃ flag, (d.takeTarget x).1.decideStep x = { (d.retargeted x).decideStep x with syncLost := flag } := by
  unfold DelayEngine.takeTarget
  simp only
  split <;> rename_i h
  · refine ⟨d.syncLost, ?_⟩
    unfold DelayEngine.retargeted
    rw [if_neg (fun k => k.2 h), h]
    unfold DelayEngine.decideStep DelayEngine.enterFadeOut
    simp only
    repeat' split
    all_goals rfl
  · split <;> rename_i hs
    · refine ⟨(DelayEngine.setCurrent
        { d with target := min x.target d.usable, clamped := decide (d.usable < x.target) }).syncLost, ?_⟩
      have hr : d.retargeted x =
          { d with
            target := min x.target d.usable
            clamped := decide (d.usable < x.target)
            current := inUnits (min x.target d.usable)
            lanes := d.lanes.map (fun lane => { lane with correction := 0 }) } := by
        unfold DelayEngine.retargeted
        rw [if_pos ⟨hs, h⟩]
      have other (e : DelayEngine) (he : e.state = .filling) : e.decideStep x = e :=
        e.decideStep_other x (Or.inr (Or.inl he))
      rw [hr, other _ ?_, other _ ?_]
      · rfl
      · exact hs
      · exact hs
    · refine ⟨d.syncLost, ?_⟩
      unfold DelayEngine.retargeted
      rw [if_neg (fun k => hs k.1)]
      cases hm : x.mode
      · unfold DelayEngine.decideStep DelayEngine.enterFadeOut
        simp only [hm]
        repeat' split
        all_goals rfl
      · unfold DelayEngine.takeJumpTarget
        cases hd : d.state <;> simp only
        · unfold DelayEngine.decideStep; simp
        · exact absurd hd hs
        all_goals
          unfold DelayEngine.decideStep DelayEngine.enterFadeOut
          simp only [hm]
          by_cases hc : d.current = inUnits (min x.target d.usable)
          all_goals simp [hc]

/-! ## D_t, D_c and the step of D_c stay within 0 to U (R136) -/

/-- D_t, D_c and the step of D_c lie within 0 to U (R110, R126, R127). -/
structure DelayEngine.Bounded (d : DelayEngine) : Prop where
  target : d.target ≤ d.usable
  current : d.current ≤ d.usable * 65536
  step : ∀ x, d.step = some x →
    x.frames ≤ 4800 ∧ x.start ≤ d.usable * 65536 ∧ 0 ≤ (x.start : Int) + x.amount ∧
      (x.start : Int) + x.amount ≤ (d.usable * 65536 : Nat)

/-- An effective delay lies within 0 to U whatever its correction (R136). -/
theorem DelayEngine.effective_le (d : DelayEngine) (lane : Lane) :
    d.effective lane ≤ d.usable * 65536 := by
  unfold DelayEngine.effective inUnits
  omega

theorem delaysBounded_iff (s : State) : s.DelaysBounded ↔ ∀ p : Fin 16, s.delays[p].Bounded :=
  ⟨fun h p => ⟨(h p).1, (h p).2.1, (h p).2.2.2⟩,
    fun h p => ⟨(h p).target, (h p).current, fun lane _ => DelayEngine.effective_le _ lane, (h p).step⟩⟩

/-- An engine with the same U whose D_t, D_c and step are kept or dropped stays bounded. -/
theorem DelayEngine.Bounded.of_eq {d e : DelayEngine} (h : d.Bounded) (hu : e.usable = d.usable)
    (ht : e.target ≤ d.usable) (hc : e.current = d.current ∨ e.current = e.target * 65536)
    (hs : e.step = d.step ∨ e.step = none) : e.Bounded := by
  refine ⟨hu ▸ ht, ?_, fun x hx => ?_⟩
  · have := h.current
    rw [hu]
    rcases hc with hc | hc <;> omega
  · rw [hu]
    rcases hs with hs | hs
    · exact h.step x (hs ▸ hx)
    · rw [hs] at hx
      cases hx

theorem DelayEngine.initial_bounded : DelayEngine.initial.Bounded :=
  ⟨Nat.le_refl _, Nat.le_refl _, fun _ hx => nomatch hx⟩

theorem layOut_bounded (n : Nat) (x : DelaySection) : (layOut n x).Bounded :=
  ⟨Nat.min_le_right _ _, Nat.mul_le_mul_right _ (Nat.min_le_right _ _), fun _ hx => nomatch hx⟩

theorem startDelay_bounded (r : ProgramRecord) : (startDelay r).Bounded := by
  unfold startDelay
  split
  · exact layOut_bounded _ _
  · exact DelayEngine.initial_bounded

/-- A place on the way from one number to another lies between them. -/
theorem between_ends (start amount : Int) (i : Nat) (top : Int) (hi : i ≤ 4800) (h0 : 0 ≤ start)
    (h1 : start ≤ top) (h2 : 0 ≤ start + amount) (h3 : start + amount ≤ top) :
    0 ≤ start + amount * i / 4800 ∧ start + amount * i / 4800 ≤ top := by
  by_cases ha : 0 ≤ amount
  · have hm : amount * i ≤ amount * 4800 := Int.mul_le_mul_of_nonneg_left (by omega) ha
    have hz : 0 ≤ amount * i := Int.mul_nonneg ha (by omega)
    omega
  · have hm : (-amount) * i ≤ (-amount) * 4800 := Int.mul_le_mul_of_nonneg_left (by omega) (by omega)
    have hz : 0 ≤ (-amount) * i := Int.mul_nonneg (by omega) (by omega)
    rw [Int.neg_mul] at hm hz
    omega

theorem DelayEngine.glide_bounded (d : DelayEngine) (h : d.Bounded) : d.glide.Bounded := by
  unfold DelayEngine.glide
  split <;> rename_i hx
  · rename_i x
    have hs := h.step x hx
    split <;> rename_i hl
    · have hb := between_ends x.start x.amount (x.frames + 1) (d.usable * 65536 : Nat) hl
        (by omega) (by omega) hs.2.2.1 hs.2.2.2
      refine ⟨h.target, ?_, fun y hy => ?_⟩
      · show ((x.start : Int) + x.amount * ((x.frames + 1 : Nat) : Int) / 4800).toNat ≤ d.usable * 65536
        omega
      · cases hy
        exact ⟨hl, hs.2.1, hs.2.2.1, hs.2.2.2⟩
    · exact h
  · exact h

theorem DelayEngine.fill_bounded (d : DelayEngine) (h : d.Bounded) : d.fill.Bounded :=
  ⟨h.target, h.current, h.step⟩

theorem DelayEngine.formSync_bounded (d : DelayEngine) (h : d.Bounded) : d.formSync.Bounded :=
  ⟨h.target, h.current, h.step⟩

theorem DelayEngine.correct_bounded (d : DelayEngine) (r : ProgramRecord) (n : SlipNotice)
    (h : d.Bounded) : (d.correct r n).Bounded := by
  unfold DelayEngine.correct
  split
  · exact ⟨h.target, h.current, h.step⟩
  · exact h

theorem DelayEngine.setCurrent_bounded (d : DelayEngine) (h : d.Bounded) : d.setCurrent.Bounded :=
  h.of_eq rfl h.target (Or.inr rfl) (Or.inl rfl)

theorem DelayEngine.jump_bounded (d : DelayEngine) (h : d.Bounded) : d.jump.Bounded :=
  h.of_eq rfl h.target (Or.inr rfl) (Or.inl rfl)

theorem DelayEngine.leaveStates_bounded (d : DelayEngine) (level : Nat) (selected : Source)
    (g : GainStage) (frames : Nat) (h : d.Bounded) :
    (d.leaveStates level selected g frames).1.Bounded := by
  unfold DelayEngine.leaveStates
  split
  · exact h
  · exact h
  · exact h
  · simp only
    split
    · exact ⟨h.target, h.current, h.step⟩
    · exact h
  · split
    · exact d.jump_bounded h
    · exact h
  · simp only
    split
    · exact ⟨h.target, h.current, h.step⟩
    · exact h

theorem DelayEngine.takeTarget_bounded (d : DelayEngine) (x : DelaySection) (h : d.Bounded) :
    (d.takeTarget x).1.Bounded := by
  have ht : min x.target d.usable ≤ d.usable := Nat.min_le_right _ _
  unfold DelayEngine.takeTarget
  simp only
  split
  · exact ⟨h.target, h.current, h.step⟩
  · split
    · exact h.of_eq rfl ht (Or.inr rfl) (Or.inl rfl)
    · split
      · exact h.of_eq rfl ht (Or.inl rfl) (Or.inl rfl)
      · unfold DelayEngine.takeJumpTarget
        split
        all_goals first | exact h.of_eq rfl ht (Or.inl rfl) (Or.inl rfl) | skip
        all_goals
          split
          · exact h.of_eq rfl ht (Or.inl rfl) (by first | exact Or.inl rfl | exact Or.inr rfl)
          · exact h.of_eq rfl ht (Or.inl rfl) (Or.inr rfl)

theorem DelayEngine.apply_bounded (d : DelayEngine) (old new : ProgramRecord) (h : d.Bounded) :
    (d.apply old new).1.Bounded := by
  unfold DelayEngine.apply
  split
  · exact h
  · exact startDelay_bounded new
  · exact h.of_eq rfl h.target (Or.inl rfl) (Or.inr rfl)
  · split
    · split
      · exact h
      · exact DelayEngine.initial_bounded
    · split
      · exact d.takeTarget_bounded _ h
      · exact layOut_bounded _ _

theorem DelayEngine.decideStep_bounded (d : DelayEngine) (x : DelaySection) (h : d.Bounded) :
    (d.decideStep x).Bounded := by
  have ht := h.target
  have hc := h.current
  unfold DelayEngine.decideStep
  split
  · split
    · exact h.of_eq rfl ht (Or.inl rfl) (Or.inr rfl)
    · split
      · exact h.of_eq rfl ht (Or.inl rfl) (Or.inr rfl)
      · refine ⟨ht, hc, fun y hy => ?_⟩
        cases hy
        have hm := Nat.mul_le_mul_right 65536 ht
        simp only [inUnits]
        refine ⟨Nat.zero_le _, hc, ?_, ?_⟩ <;> omega
  · exact h

theorem DelayEngine.openBlock_bounded (d : DelayEngine) (r : ProgramRecord) (h : d.Bounded) :
    (d.openBlock r).Bounded := by
  unfold DelayEngine.openBlock
  split
  · exact d.decideStep_bounded _ h
  · exact h

/-! ## The engine at a house frame (R112, R114 to R116, R127 to R131, R136) -/

theorem DelayEngine.effective_delays (d : DelayEngine) (lane : Lane) : d.DelaysBy lane (d.effective lane) := by
  unfold DelayEngine.DelaysBy DelayEngine.effective DelayEngine.unclamped inUnits
  omega

theorem DelayEngine.DelaysBy.eq {d : DelayEngine} {lane : Lane} {delay : Int} (h : d.DelaysBy lane delay) :
    delay = d.effective lane :=
  h.trans (d.effective_delays lane).symm

theorem DelayEngine.laneClamped_iff (d : DelayEngine) (lane : Lane) :
    d.laneClamped lane = true ↔
      (d.current : Int) + lane.correction * 65536 < 0 ∨
        (d.usable : Int) * 65536 < (d.current : Int) + lane.correction * 65536 := by
  unfold DelayEngine.laneClamped DelayEngine.unclamped inUnits
  rw [Bool.or_eq_true, decide_eq_true_iff, decide_eq_true_iff]
  omega

/-- Forming the sync flag makes it say whether a lane is clamped (R136). -/
theorem DelayEngine.formSync_formed (d : DelayEngine) : d.formSync.SyncFormed := by
  have h : ∀ x : Lane, d.formSync.laneClamped x = d.laneClamped x := fun _ => rfl
  unfold DelayEngine.SyncFormed
  simp only [← DelayEngine.laneClamped_iff, h]
  exact List.any_eq_true

theorem DelayEngine.filled_iff (d : DelayEngine) : d.lanes.all d.laneValid = true ↔ d.Filled := by
  unfold DelayEngine.Filled DelayEngine.laneValid
  rw [List.all_eq_true]
  constructor
  · intro h lane hl delay hd
    have := of_decide_eq_true (h lane hl)
    rw [hd.eq]
    unfold inUnits at this
    omega
  · intro h lane hl
    have := h lane hl _ (d.effective_delays lane)
    apply decide_eq_true
    unfold inUnits
    omega

/-- The engine of an ACTIVE program before its reads (R112, R127, R136). -/
theorem DelayEngine.moves_frame (d : DelayEngine) : d.MovesFrame d.glide.fill.formSync := by
  have hg : d.glide = { d with current := d.glide.current, step := d.glide.step } := by
    unfold DelayEngine.glide
    split
    · split <;> rfl
    · rfl
  refine ⟨?_, DelayEngine.formSync_formed _, fun h => ?_, fun x hx => ⟨fun hl => ?_, fun hl => ?_⟩⟩
  · generalize d.glide = e at hg ⊢
    rw [hg]
    rfl
  · have : d.glide = d := by
      unfold DelayEngine.glide
      rw [h]
    show d.glide.current = d.current ∧ d.glide.step = none
    rw [this]
    exact ⟨rfl, h⟩
  · have : d.glide = d := by
      unfold DelayEngine.glide
      rw [hx]
      exact if_neg (Nat.not_lt.mpr hl)
    show d.glide.current = d.current ∧ d.glide.step = some x
    rw [this]
    exact ⟨rfl, hx⟩
  · have : d.glide = { d with
        current := ((x.start : Int) + x.amount * ((x.frames + 1 : Nat) : Int) / 4800).toNat
        step := some { x with frames := x.frames + 1 } } := by
      unfold DelayEngine.glide
      rw [hx]
      exact if_pos hl
    exact ⟨congrArg DelayEngine.step this, congrArg DelayEngine.current this⟩

/-- The engine after an ACTIVE program's work (R116, R128 to R131). -/
theorem DelayEngine.leaveStates_leaves (d : DelayEngine) (level : Nat) (selected : Source)
    (g : GainStage) (frames : Nat) :
    d.LeavesFrame level selected (d.leaveStates level selected g frames).1 := by
  unfold DelayEngine.leaveStates
  refine ⟨?_, fun h => ?_, fun h => ?_, fun h => ?_⟩
  · rintro (h | h | h) <;> rw [h]
  · rw [h]
    simp only [← d.filled_iff]
    exact ⟨fun hv => if_pos hv, fun hv => if_neg hv⟩
  · rw [h]
    refine ⟨fun hl => ?_, fun hl => ?_⟩
    · simp only
      rw [if_neg (by omega)]
    · simp only
      rw [if_pos hl]
      have hj : d.jump.lanes.all d.jump.laneValid = d.setCurrent.lanes.all d.setCurrent.laneValid := rfl
      refine ⟨rfl, DelayEngine.formSync_formed { d with
          current := inUnits d.target
          lanes := d.lanes.map fun x => { x with correction := 0 } }, fun hv => ?_, fun hv => ?_⟩
      · rw [← DelayEngine.filled_iff, hj] at hv
        exact if_pos hv
      · rw [← DelayEngine.filled_iff, hj] at hv
        exact if_neg hv
  · rw [h]
    refine ⟨fun hl => ?_, fun h1 h2 => ?_⟩
    · refine (if_pos hl).trans ?_
      unfold DelayEngine.endFadeIn
      cases d.step <;> rfl
    · exact if_neg (fun hh => hh.elim h1 h2)

/-- A lane's read-side sample (R114). -/
theorem DelayEngine.readLane_reads (d : DelayEngine) (layout : Layout) (m : Memory) (frame l : Nat)
    (lane : Lane) : d.ReadsLane layout m frame l lane (d.readLane layout m frame l lane) := by
  intro delay r hd hr
  refine ⟨fun i => d.placeSample layout m frame l lane (r / 65536 + (i.val : Int) - 7), ?_, ?_⟩
  · unfold DelayEngine.readLane inUnits
    rw [hr, hd.eq]
    rfl
  · intro i n hn
    simp only [← hn]
    unfold DelayEngine.placeSample
    refine ⟨fun h => if_pos h, fun h1 h2 => ?_, fun h1 h2 => ?_⟩
    · rw [if_neg (by omega), if_pos h2]
    · rw [if_neg (by omega), if_neg (by omega)]

/-- The read-side samples of a program (R115, R116, R122). -/
theorem DelayEngine.readSide_reads (d : DelayEngine) (m : Memory) (frame : Nat) (samples : List Sample) :
    d.ReadsSide m frame samples (d.readSide m frame samples) := by
  unfold DelayEngine.readSide
  refine ⟨fun h => ?_, fun layout h => ⟨fun hf => ?_, fun hf => ?_⟩⟩
  · rw [h]
  · rw [h]
    exact if_pos hf
  · rw [h]
    simp only
    rw [if_neg hf]
    refine ⟨List.length_mapIdx, fun l lane v hl hv => ?_⟩
    rw [List.getElem?_mapIdx, hl] at hv
    cases hv
    exact d.readLane_reads layout m frame l lane

end Sys2Proof.Machine
end

