-- ==== Sys2Proof/Laws/Gains.lean ====
section
/-! SUPPORT. The gain schedules: every operation of a gain stage keeps its schedule at 32 entries at most
with strictly increasing stamps below a bound, and what a house frame's work makes of the stage. -/

namespace Sys2Proof.Machine

/-- A schedule of at most 32 entries, with strictly increasing stamps, each below `bound`. -/
structure GainStage.Scheduled (g : GainStage) (bound : Nat) : Prop where
  short : g.queue.length ≤ 32
  rising : (g.queue.map GainEntry.stamp).Pairwise (· < ·)
  behind : ∀ e ∈ g.queue, e.stamp < bound

theorem GainStage.Scheduled.mono {g : GainStage} {a b : Nat} (h : g.Scheduled a) (hab : a ≤ b) :
    g.Scheduled b :=
  ⟨h.short, h.rising, fun e he => Nat.lt_of_lt_of_le (h.behind e he) hab⟩

theorem GainStage.Scheduled.of_stamps {g k : GainStage} {bound : Nat} (h : g.Scheduled bound)
    (hs : (k.queue.map GainEntry.stamp).Sublist (g.queue.map GainEntry.stamp)) : k.Scheduled bound := by
  refine ⟨?_, h.rising.sublist hs, ?_⟩
  · have hl := hs.length_le
    rw [List.length_map, List.length_map] at hl
    exact Nat.le_trans hl h.short
  · intro e he
    have hm := hs.subset (List.mem_map_of_mem (f := GainEntry.stamp) he)
    obtain ⟨d, hd, hde⟩ := List.mem_map.mp hm
    rw [← hde]
    exact h.behind d hd

theorem GainStage.Scheduled.of_queue {g k : GainStage} {bound : Nat} (h : g.Scheduled bound)
    (hs : k.queue.Sublist g.queue) : k.Scheduled bound :=
  h.of_stamps (hs.map GainEntry.stamp)

theorem GainStage.Scheduled.of_eq {g k : GainStage} {bound : Nat} (h : g.Scheduled bound)
    (hs : k.queue = g.queue) : k.Scheduled bound :=
  h.of_queue (hs ▸ List.Sublist.refl _)

theorem GainStage.scheduled_nil {g : GainStage} (bound : Nat) (h : g.queue = []) : g.Scheduled bound :=
  ⟨by rw [h]; exact Nat.zero_le _, by rw [h]; exact List.Pairwise.nil, by rw [h]; simp⟩

/-! ## What each operation does to the queue -/

theorem GainStage.takeDue_queue (g : GainStage) (read : Int) :
    (g.takeDue read).queue.Sublist g.queue := by
  unfold GainStage.takeDue
  split
  · exact List.filter_sublist
  · exact List.Sublist.refl _

theorem GainStage.jump_queue (g : GainStage) (read : Int) : (g.jump read).queue.Sublist g.queue := by
  unfold GainStage.jump
  split
  · exact List.filter_sublist
  · split <;> exact List.Sublist.refl _

theorem GainStage.moveFade_queue (g : GainStage) (d : DelayState) : (g.moveFade d).queue = g.queue := by
  unfold GainStage.moveFade
  split
  · rfl
  · split <;> rfl

theorem GainStage.moveRamp_queue (g : GainStage) : g.moveRamp.queue = g.queue := by
  unfold GainStage.moveRamp
  split <;> rfl

theorem GainStage.prepare_queue (g : GainStage) (d : DelayState) (read : Int) :
    (g.prepare d read).queue.Sublist g.queue := by
  unfold GainStage.prepare
  rw [GainStage.moveRamp_queue, GainStage.moveFade_queue]
  exact g.takeDue_queue read

theorem GainStage.selectPending_queue (g : GainStage) : g.selectPending.queue = g.queue := by
  unfold GainStage.selectPending
  split
  · split <;> rfl
  · rfl

theorem GainStage.moveClosing_queue (g : GainStage) : g.moveClosing.queue.Sublist g.queue := by
  unfold GainStage.moveClosing
  split
  · exact List.Sublist.refl _
  · split
    · exact List.nil_sublist _
    · exact List.Sublist.refl _

theorem GainStage.finish_queue (g : GainStage) (samples : List Sample) :
    (g.finish samples).queue.Sublist g.queue := by
  unfold GainStage.finish
  have selected (k : GainStage) : k.selectPending.queue.Sublist k.queue :=
    GainStage.selectPending_queue k ▸ List.Sublist.refl _
  exact (GainStage.moveClosing_queue _).trans (selected _)

theorem GainStage.followDelay_queue (g : GainStage) (d : DelayEngine) (frames : Nat)
    (change : DelayChange) : (g.followDelay d frames change).queue.Sublist g.queue := by
  cases change
  · exact List.Sublist.refl _
  · exact g.jump_queue _
  · exact g.jump_queue _

theorem GainStage.leaveStates_queue (d : DelayEngine) (level : Nat) (selected : Source)
    (g : GainStage) (frames : Nat) :
    (d.leaveStates level selected g frames).2.queue.Sublist g.queue := by
  unfold DelayEngine.leaveStates
  split
  · exact List.Sublist.refl _
  · exact List.Sublist.refl _
  · exact List.Sublist.refl _
  · exact List.Sublist.refl _
  · split
    · exact g.jump_queue _
    · exact List.Sublist.refl _
  · exact List.Sublist.refl _

/-- A program apply leaves of a schedule's stamps no more than it had. -/
theorem GainStage.apply_stamps (g : GainStage) (old new : ProgramRecord) :
    ((g.apply old new).queue.map GainEntry.stamp).Sublist (g.queue.map GainEntry.stamp) := by
  unfold GainStage.apply
  split
  · exact List.nil_sublist _
  · exact List.nil_sublist _
  · have hsource : (g.changeSource old.source new.source).queue = g.queue := by
      unfold GainStage.changeSource
      split
      · rfl
      · split
        · rfl
        · split <;> rfl
    unfold GainStage.changeLoudness
    split
    · exact hsource ▸ List.Sublist.refl _
    · exact List.nil_sublist _
    · split
      · exact hsource ▸ List.Sublist.refl _
      · rename_i y _ _ _
        have hq : ((g.changeSource old.source new.source).clampTo y).queue =
            g.queue.map fun e => { e with gain := y.clamp e.gain } := by
          unfold GainStage.clampTo
          rw [← hsource]
          simp only
          split <;> rfl
        rw [hq, List.map_map]
        exact List.Sublist.refl _
  · exact List.Sublist.refl _

theorem GainStage.takeApply_scheduled (g : GainStage) (first : Bool) (old new : ProgramRecord)
    (d : DelayEngine) (change : DelayChange) (frames bound : Nat) (h : g.Scheduled bound) :
    (g.takeApply first old new d change frames).Scheduled bound := by
  unfold GainStage.takeApply
  split
  · exact (h.of_stamps (g.apply_stamps old new)).of_queue (GainStage.followDelay_queue _ d frames change)
  · exact (h.of_queue (g.followDelay_queue d frames change)).of_stamps (GainStage.apply_stamps _ old new)

/-! ## Joining (R88) -/

/-- An entry that joins with a stamp above every queued one keeps the schedule in order. -/
theorem GainStage.join_scheduled (g : GainStage) (read : Int) (e : GainEntry)
    (h : g.Scheduled e.stamp) : (g.join read e).Scheduled (e.stamp + 1) := by
  have up := h.mono (Nat.le_succ e.stamp)
  have add : ∀ (xs : List GainEntry), xs.length ≤ 31 → xs.Sublist g.queue →
      GainStage.Scheduled { g with queue := xs ++ [e] } (e.stamp + 1) := by
    intro xs hl hs
    refine ⟨?_, ?_, ?_⟩
    · show (xs ++ [e]).length ≤ 32
      rw [List.length_append, List.length_singleton]
      omega
    · show ((xs ++ [e]).map GainEntry.stamp).Pairwise (· < ·)
      rw [List.map_append, List.pairwise_append]
      refine ⟨h.rising.sublist (hs.map _), List.pairwise_singleton _ _, ?_⟩
      intro a ha b hb
      obtain ⟨x, hx, rfl⟩ := List.mem_map.mp ha
      rw [List.map_singleton, List.mem_singleton] at hb
      rw [hb]
      exact h.behind x (hs.subset hx)
    · intro x hx
      show x.stamp < e.stamp + 1
      rcases List.mem_append.mp hx with hx | hx
      · exact up.behind x (hs.subset hx)
      · rw [List.mem_singleton.mp hx]
        exact Nat.lt_succ_self _
  unfold GainStage.join
  split
  · exact up.of_eq rfl
  · split
    · rename_i hlt
      have hlt' : g.queue.length < 32 := hlt
      exact add g.queue (by omega) (List.Sublist.refl _)
    · have hs := h.short
      exact add g.queue.dropLast (by rw [List.length_dropLast]; omega) (List.dropLast_sublist _)

/-- The gain law at a block end whose F is above every queued stamp keeps the schedule in order. -/
theorem GainStage.law_scheduled (g : GainStage) (loudness : Option Loudness) (m : Meter) (read : Int)
    (frames : Nat) (h : g.Scheduled frames) :
    (g.law loudness m read frames).Scheduled (frames + 1) := by
  have up := h.mono (Nat.le_succ frames)
  unfold GainStage.law
  split
  · exact up.of_eq rfl
  · split
    · exact up.of_eq rfl
    · split
      · exact up.of_eq rfl
      · unfold GainStage.steer
        simp only
        split
        · exact up.of_eq rfl
        · exact GainStage.join_scheduled _ read _ (h.of_eq rfl)

/-! ## The effects of each operation (R83 to R101) -/

theorem GainStage.due_none {g : GainStage} {read : Int} (h : (g.due read).getLast? = none) :
    ∀ e ∈ g.queue, read < (e.stamp : Int) := by
  intro e he
  rw [List.getLast?_eq_none_iff] at h
  have h1 := (List.filter_eq_nil_iff.mp h) e he
  simpa using h1

theorem GainStage.due_nil {g : GainStage} {read : Int} (h : ∀ e ∈ g.queue, read < (e.stamp : Int)) :
    (g.due read).getLast? = none := by
  rw [List.getLast?_eq_none_iff]
  refine List.filter_eq_nil_iff.mpr fun e he => ?_
  simpa using h e he

theorem GainStage.dequeue_queue (g : GainStage) (read : Int) :
    (g.dequeue read).queue = g.queue.filter fun e => decide (read < (e.stamp : Int)) := by
  refine List.filter_congr fun e _ => ?_
  by_cases h : (e.stamp : Int) ≤ read
  · simp [h]
  · simp [h, Int.not_le.mp h]

theorem filter_of_ahead {queue : List GainEntry} {read : Int} (h : ∀ e ∈ queue, read < (e.stamp : Int)) :
    queue.filter (fun e => decide (read < (e.stamp : Int))) = queue :=
  List.filter_eq_self.mpr fun e he => by simpa using h e he

theorem GainStage.jump_jumps (g : GainStage) (read : Int) : g.Jumps read (g.jump read) := by
  unfold GainStage.jump
  split
  · rename_i e he
    have key : ∀ K : Nat, K = gainFactor e.gain →
        g.Jumps read { g.dequeue read with applied := e.gain, factor := K, ramp := none } := by
      intro K hK
      refine ⟨rfl, g.dequeue_queue read, ?_, ?_⟩
      · intro e' he'
        have := he.symm.trans he'
        cases this
        exact ⟨rfl, hK⟩
      · intro h
        rw [GainStage.due_nil h] at he
        cases he
    exact key _ rfl
  · rename_i he
    have ha := GainStage.due_none he
    split
    · rename_i r hr
      refine ⟨rfl, (filter_of_ahead ha).symm, ?_, ?_⟩
      · intro e he'
        have := he.symm.trans he'
        cases this
      · intro _
        exact ⟨rfl, by rw [hr]⟩
    · rename_i hr
      refine ⟨by rw [← hr], (filter_of_ahead ha).symm, ?_, ?_⟩
      · intro e he'
        have := he.symm.trans he'
        cases this
      · intro _
        exact ⟨rfl, by rw [hr]⟩

theorem GainStage.prepare_prepares (g : GainStage) (delay : DelayState) (read : Int) :
    g.Prepares delay read (g.prepare delay read) := by
  have hq : (g.prepare delay read).queue = g.queue.filter fun e => decide (read < (e.stamp : Int)) := by
    unfold GainStage.prepare
    rw [GainStage.moveRamp_queue, GainStage.moveFade_queue]
    unfold GainStage.takeDue
    split
    · exact g.dequeue_queue read
    · rename_i he
      exact (filter_of_ahead (GainStage.due_none he)).symm
  have hd : g.takeDue read = { g with
      applied := (g.takeDue read).applied, queue := (g.takeDue read).queue
      ramp := (g.takeDue read).ramp } := by
    unfold GainStage.takeDue
    split <;> rfl
  have hf : (g.takeDue read).moveFade delay = { g.takeDue read with
      fade := ((g.takeDue read).moveFade delay).fade } := by
    unfold GainStage.moveFade
    split
    · rfl
    · split <;> rfl
  have hr : ∀ k : GainStage, k.moveRamp = { k with factor := k.moveRamp.factor, ramp := k.moveRamp.ramp } := by
    intro k
    unfold GainStage.moveRamp
    split <;> rfl
  have he : g.prepare delay read = { g with
      applied := (g.takeDue read).applied
      factor := (g.prepare delay read).factor
      ramp := (g.prepare delay read).ramp
      queue := (g.prepare delay read).queue
      fade := ((g.takeDue read).moveFade delay).fade } := by
    rw [GainStage.prepare, hr, hf, hd]
  have hfade : (g.prepare delay read).fade = ((g.takeDue read).moveFade delay).fade := by rw [he]
  have happ : (g.prepare delay read).applied = (g.takeDue read).applied := by rw [he]
  have hsel : (g.takeDue read).selected = g.selected := by rw [hd]
  have hpen : (g.takeDue read).pendingSource = g.pendingSource := by rw [hd]
  have hclo : (g.takeDue read).closing = g.closing := by rw [hd]
  have hold : (g.takeDue read).fade = g.fade := by rw [hd]
  refine ⟨by rw [hfade, happ]; exact he, hq, ⟨(g.takeDue read).ramp, ?_, ?_, ?_, ?_⟩, ?_, ?_⟩
  · intro h
    rw [happ]
    unfold GainStage.takeDue
    rw [GainStage.due_nil h]
    exact ⟨rfl, rfl⟩
  · intro e hl
    rw [happ]
    unfold GainStage.takeDue GainStage.due
    rw [hl]
    exact ⟨rfl, rfl⟩
  · intro h
    have h1 : ((g.takeDue read).moveFade delay).ramp = none := by rw [hf]; exact h
    have h2 : ((g.takeDue read).moveFade delay).factor = g.factor := by rw [hf, hd]
    unfold GainStage.prepare GainStage.moveRamp
    rw [h1]
    exact ⟨h2, h1⟩
  · intro r h
    have h1 : ((g.takeDue read).moveFade delay).ramp = some r := by rw [hf]; exact h
    unfold GainStage.prepare GainStage.moveRamp
    rw [h1]
    exact ⟨rfl, rfl⟩
  · intro h
    rw [hfade]
    unfold GainStage.moveFade
    rw [if_pos (by rw [hsel]; exact h)]
  · intro h1 h2
    rw [hfade]
    unfold GainStage.moveFade
    rw [if_neg (by rw [hsel]; rintro (h | h) <;> contradiction), hpen, hclo, hold]
    constructor
    · intro h
      rw [if_pos h]
    · intro h3 h4 h5
      rw [if_neg (by rw [h4, h5]; simp [h3])]
      rfl

/-- The saturated gain products of a house frame (R94). -/
theorem overloadsOf_eq (factor : Nat) (samples : List Sample) :
    overloadsOf factor samples =
      samples.countP fun v =>
        decide (roundDiv (v.toInt * factor) (2 ^ 20) < -8388608 ∨
          8388607 < roundDiv (v.toInt * factor) (2 ^ 20)) := by
  unfold overloadsOf
  congr 1
  funext v
  unfold overflows gainProduct
  rw [Bool.decide_or]

/-- Steps 4 and 5 of a gain stage's work at a house frame (R93). -/
def GainStage.counted (g : GainStage) (samples : List Sample) : GainStage :=
  ({ g with overloads := g.overloads + overloadsOf g.factor samples } : GainStage).selectPending

theorem GainStage.counted_finishes (g : GainStage) (samples : List Sample) :
    g.Finishes samples (g.counted samples) := by
  have hc := overloadsOf_eq g.factor samples
  unfold GainStage.counted GainStage.selectPending GainStage.Finishes
  rw [← hc]
  cases hs : g.pendingSource with
  | none => exact ⟨rfl, rfl, fun _ hx => (nomatch hx), fun _ => ⟨rfl, rfl⟩⟩
  | some source =>
    simp only
    split
    · rename_i hf
      refine ⟨rfl, rfl, fun x hx _ => ?_, fun hx => ?_⟩
      · cases hx
        exact ⟨rfl, rfl⟩
      · rcases hx with hx | hx
        · cases hx
        · omega
    · rename_i hf
      exact ⟨rfl, rfl, fun x hx h0 => absurd h0 hf, fun _ => ⟨rfl, rfl⟩⟩

theorem GainStage.counted_closing (g : GainStage) (samples : List Sample) :
    (g.counted samples).closing = g.closing := by
  rw [(g.counted_finishes samples).1]

/-- The end of a gain stage's work, by its closing count (R93, R98). -/
theorem GainStage.finish_counted (g : GainStage) (samples : List Sample) :
    (g.closing = 0 → g.finish samples = g.counted samples) ∧
      (g.closing = 1 → g.finish samples = GainStage.initial) ∧
      (g.closing ≠ 1 → g.finish samples = { g.counted samples with closing := g.closing - 1 }) := by
  have hc := g.counted_closing samples
  have he : g.finish samples = (g.counted samples).moveClosing := rfl
  rw [he]
  unfold GainStage.moveClosing
  rw [hc]
  refine ⟨fun h => if_pos h, fun h => ?_, fun h => ?_⟩
  · rw [if_neg (by omega), if_pos h]
  · split
    · rename_i h0
      rw [h0, show (0 - 1 : Nat) = (g.counted samples).closing by rw [hc, h0]]
    · rfl

theorem GainStage.law_follows (g : GainStage) (loudness : Option Loudness) (m : Meter) (read : Int)
    (frames : Nat) : g.FollowsLaw loudness m read frames (g.testOverload.law loudness m read frames) := by
  refine ⟨?_, ?_⟩
  · rintro rfl
    rfl
  · rintro x rfl
    refine ⟨?_, ?_⟩
    · intro hm
      simp only [GainStage.law, Loudness.level, hm]
      rfl
    · intro level hl
      have hlev : x.level m = some level := by
        rcases hl with ⟨hm, rfl⟩ | ⟨hm, rfl⟩ <;> simp [Loudness.level, hm]
      refine ⟨?_, ?_⟩
      · intro h
        simp only [GainStage.law, hlev]
        rw [if_pos (by rcases h with h | h <;> simp [h])]
        rfl
      · intro h1 h2 desired last gain hd hlast hg
        have hlast' : last = g.lastScheduled := hlast
        subst hlast'
        have hd' : desired = x.clamp (x.desired level.tenths) := hd
        simp only [GainStage.law, hlev]
        rw [if_neg (by simp [h1, h2])]
        have hgain : towards g.lastScheduled (x.clamp (x.desired level.tenths)) x.slew = gain := by
          rw [hg, hd']
        have hlim : (x.clamp (x.desired level.tenths) != x.desired level.tenths) =
            decide (desired ≠ (x.target - level.tenths) * 10) := by
          rw [hd']
          show (x.clamp (x.desired level.tenths) != x.desired level.tenths) =
            decide (x.clamp (x.desired level.tenths) ≠ x.desired level.tenths)
          by_cases hz : x.clamp (x.desired level.tenths) = x.desired level.tenths
          · simp [hz]
          · simp [hz]
        unfold GainStage.steer
        show _ ∧ _ ∧ _ ∧ _
        simp only [show g.testOverload.lastScheduled = g.lastScheduled from rfl, hgain, hlim]
        refine ⟨?_, ?_, ?_, ?_⟩
        · intro hz
          rw [if_pos hz]
          rfl
        · intro hz hr
          rw [if_neg hz]
          unfold GainStage.join
          rw [if_pos (by exact hr)]
          rfl
        · intro hz hr hn
          rw [if_neg hz]
          unfold GainStage.join
          rw [if_neg (by simpa using hr), if_pos (by exact hn)]
          rfl
        · intro hz hr hn
          rw [if_neg hz]
          unfold GainStage.join
          rw [if_neg (by simpa using hr), if_neg (by exact Nat.not_lt.mpr hn)]
          rfl

theorem GainStage.changeSource_fields (g : GainStage) (old new : Source) :
    g.changeSource old new = { g with
      selected := (g.changeSource old new).selected
      pendingSource := (g.changeSource old new).pendingSource } := by
  unfold GainStage.changeSource
  split
  · rfl
  · split
    · rfl
    · split <;> rfl

theorem GainStage.changeLoudness_fields (g : GainStage) (old new : Option Loudness) :
    g.changeLoudness old new = { g with
      applied := (g.changeLoudness old new).applied
      queue := (g.changeLoudness old new).queue
      ramp := (g.changeLoudness old new).ramp } := by
  unfold GainStage.changeLoudness
  split
  · rfl
  · rfl
  · split
    · rfl
    · unfold GainStage.clampTo
      simp only
      split <;> rfl

theorem GainStage.apply_takes (g : GainStage) (old new : ProgramRecord) (h1 : old.active = true)
    (h2 : new.active = true) : g.TakesContent old new (g.apply old new) := by
  have he : g.apply old new =
      (g.changeSource old.source new.source).changeLoudness old.loudness new.loudness := by
    unfold GainStage.apply
    rw [h1, h2]
  rw [he]
  have hs := g.changeSource_fields old.source new.source
  have hl := (g.changeSource old.source new.source).changeLoudness_fields old.loudness new.loudness
  have hsel : ((g.changeSource old.source new.source).changeLoudness old.loudness new.loudness).selected =
      (g.changeSource old.source new.source).selected := by rw [hl]
  have hpen : ((g.changeSource old.source new.source).changeLoudness old.loudness
      new.loudness).pendingSource = (g.changeSource old.source new.source).pendingSource := by rw [hl]
  refine ⟨?_, ?_, ?_, ?_, ?_, ?_⟩
  · rw [hsel, hpen]
    generalize g.changeSource old.source new.source = c at hs hl
    have f1 : c.factor = g.factor := by rw [hs]
    have f2 : c.limitTest = g.limitTest := by rw [hs]
    have f3 : c.overloads = g.overloads := by rw [hs]
    have f4 : c.overloadTest = g.overloadTest := by rw [hs]
    have f5 : c.fade = g.fade := by rw [hs]
    have f6 : c.closing = g.closing := by rw [hs]
    have f7 : c.closingContent = g.closingContent := by rw [hs]
    conv => lhs; rw [hl, f1, f2, f3, f4, f5, f6, f7]
  · intro h
    rw [hsel, hpen]
    unfold GainStage.changeSource
    rw [if_pos h]
    exact ⟨rfl, rfl⟩
  · intro h hm
    rw [hsel, hpen]
    unfold GainStage.changeSource
    rw [if_neg h]
    by_cases hn : new.source = .mute
    · rw [if_pos hn, hn]
      exact ⟨rfl, rfl⟩
    · rw [if_neg hn, if_pos (hm.resolve_right hn)]
      exact ⟨rfl, rfl⟩
  · intro h ho hn
    rw [hsel, hpen]
    unfold GainStage.changeSource
    rw [if_neg h, if_neg hn, if_neg ho]
    exact ⟨rfl, rfl⟩
  · intro h
    rw [h]
    show (g.changeSource old.source new.source).applied = _ ∧
      (g.changeSource old.source new.source).queue = _ ∧
      (g.changeSource old.source new.source).ramp = _
    rw [hs]
    exact ⟨rfl, rfl, rfl⟩
  · intro x hx
    rw [hx]
    have hfac : (g.changeSource old.source new.source).factor = g.factor := by rw [hs]
    have happ : (g.changeSource old.source new.source).applied = g.applied := by rw [hs]
    have hque : (g.changeSource old.source new.source).queue = g.queue := by rw [hs]
    have hram : (g.changeSource old.source new.source).ramp = g.ramp := by rw [hs]
    refine ⟨?_, ?_⟩
    · intro h
      rw [h]
      refine ⟨rfl, rfl, ?_⟩
      show some ({ start := (g.changeSource old.source new.source).factor, stop := gainFactor 0, step := 0 } : Ramp) = _
      rw [hfac]
    · intro y hy
      rw [hy]
      refine ⟨?_, ?_⟩
      · intro hb hc
        show (if x.maxBoost = y.maxBoost ∧ x.maxCut = y.maxCut then _ else _ : GainStage).applied = _ ∧
          (if x.maxBoost = y.maxBoost ∧ x.maxCut = y.maxCut then _ else _ : GainStage).queue = _ ∧
          (if x.maxBoost = y.maxBoost ∧ x.maxCut = y.maxCut then _ else _ : GainStage).ramp = _
        rw [if_pos ⟨hb, hc⟩]
        exact ⟨happ, hque, hram⟩
      · intro hne
        have hif : (g.changeSource old.source new.source).changeLoudness (some x) (some y) =
            (g.changeSource old.source new.source).clampTo y := by
          show (if x.maxBoost = y.maxBoost ∧ x.maxCut = y.maxCut then _ else _ : GainStage) = _
          rw [if_neg (by rintro ⟨hb, hc⟩; rcases hne with h | h <;> contradiction)]
        rw [hif]
        unfold GainStage.clampTo
        simp only [happ, hque]
        by_cases hz : y.clamp g.applied = g.applied
        · rw [if_pos hz]
          exact ⟨hz.symm, rfl, fun _ => hram, fun h => absurd hz h⟩
        · rw [if_neg hz]
          refine ⟨rfl, rfl, fun h => absurd h hz, fun _ => ?_⟩
          show some ({ start := (g.changeSource old.source new.source).factor
                       stop := gainFactor (y.clamp g.applied)
                       step := 0 } : Ramp) = _
          rw [hfac]

/-! ## Gains within their limits, and schedules ahead of the read reference (R85, R88) -/

/-- The applied gain and every gain in the schedule lie within a loudness section's limits, and are 0 where
there is none (R85). -/
def GainStage.Within (g : GainStage) (loudness : Option Loudness) : Prop :=
  (loudness = none → g.queue = [] ∧ g.applied = 0) ∧
    ∀ x, loudness = some x → ∀ gain ∈ g.applied :: g.queue.map GainEntry.gain,
      -10 * (x.maxCut : Int) ≤ gain ∧ gain ≤ 10 * (x.maxBoost : Int)

/-- Every stamp in a schedule is greater than the read reference (R88). -/
def GainStage.Ahead (g : GainStage) (read : Int) : Prop := ∀ e ∈ g.queue, read < (e.stamp : Int)

theorem gainsBounded_iff (s : State) :
    s.GainsBounded ↔ ∀ p : Fin 16,
      ((s.program p).active = false → s.gains[p].queue = [] ∧ s.gains[p].applied = 0) ∧
        ((s.program p).active = true →
          s.gains[p].Ahead (s.delays[p].readReference s.clock.frames) ∧
            s.gains[p].Within (s.program p).loudness) :=
  Iff.rfl

/-- A stage whose schedule lost entries, and whose applied gain is its own or one of its entries', stays
within the limits. -/
theorem GainStage.Within.of_sublist {g k : GainStage} {loudness : Option Loudness}
    (h : g.Within loudness) (hq : k.queue.Sublist g.queue)
    (ha : k.applied ∈ g.applied :: g.queue.map GainEntry.gain) : k.Within loudness := by
  refine ⟨fun hn => ?_, fun x hx gain hg => ?_⟩
  · obtain ⟨h1, h2⟩ := h.1 hn
    rw [h1] at hq ha
    rw [h2] at ha
    exact ⟨List.sublist_nil.mp hq, by simpa using ha⟩
  · refine h.2 x hx gain ?_
    rcases List.mem_cons.mp hg with rfl | hg
    · exact ha
    · exact List.mem_cons_of_mem _ ((hq.map GainEntry.gain).subset hg)

theorem GainStage.Ahead.of_sublist {g k : GainStage} {read : Int} (h : g.Ahead read)
    (hq : k.queue.Sublist g.queue) : k.Ahead read := fun e he => h e (hq.subset he)

theorem GainStage.start_within (source : Source) (loudness : Option Loudness) :
    (GainStage.start source).Within loudness := by
  refine ⟨fun _ => ⟨rfl, rfl⟩, fun x _ gain hg => ?_⟩
  have : gain = 0 := by simpa [GainStage.start, GainStage.initial] using hg
  omega

theorem GainStage.initial_within (loudness : Option Loudness) : GainStage.initial.Within loudness := by
  refine ⟨fun _ => ⟨rfl, rfl⟩, fun x _ gain hg => ?_⟩
  have : gain = 0 := by simpa [GainStage.initial] using hg
  omega

theorem GainStage.due_subset (g : GainStage) (read : Int) {e : GainEntry}
    (h : (g.due read).getLast? = some e) : e.gain ∈ g.applied :: g.queue.map GainEntry.gain :=
  List.mem_cons_of_mem _ (List.mem_map_of_mem (List.mem_filter.mp (List.mem_of_getLast? h)).1)

theorem GainStage.jump_applied (g : GainStage) (read : Int) :
    (g.jump read).applied ∈ g.applied :: g.queue.map GainEntry.gain := by
  unfold GainStage.jump
  split
  · rename_i e he
    exact g.due_subset read he
  · split <;> exact List.mem_cons_self

theorem GainStage.jump_ahead (g : GainStage) (read : Int) : (g.jump read).Ahead read := by
  intro e he
  unfold GainStage.jump at he
  split at he
  · rw [show ({ g.dequeue read with applied := _, factor := _, ramp := none } : GainStage).queue =
      (g.dequeue read).queue from rfl, GainStage.dequeue, List.mem_filter] at he
    simpa using he.2
  · rename_i hd
    split at he <;> exact GainStage.due_none hd e he

theorem GainStage.jump_within (g : GainStage) (read : Int) (loudness : Option Loudness)
    (h : g.Within loudness) : (g.jump read).Within loudness :=
  h.of_sublist (g.jump_queue read) (g.jump_applied read)

theorem GainStage.moveRamp_applied (g : GainStage) : g.moveRamp.applied = g.applied := by
  unfold GainStage.moveRamp
  split <;> rfl

theorem GainStage.moveFade_applied (g : GainStage) (d : DelayState) :
    (g.moveFade d).applied = g.applied := by
  unfold GainStage.moveFade
  split
  · rfl
  · split <;> rfl

theorem GainStage.takeDue_applied (g : GainStage) (read : Int) :
    (g.takeDue read).applied ∈ g.applied :: g.queue.map GainEntry.gain := by
  unfold GainStage.takeDue
  split
  · rename_i e he
    exact g.due_subset read he
  · exact List.mem_cons_self

theorem GainStage.prepare_within (g : GainStage) (d : DelayState) (read : Int)
    (loudness : Option Loudness) (h : g.Within loudness) : (g.prepare d read).Within loudness := by
  refine h.of_sublist (g.prepare_queue d read) ?_
  unfold GainStage.prepare
  rw [GainStage.moveRamp_applied, GainStage.moveFade_applied]
  exact g.takeDue_applied read

theorem GainStage.prepare_ahead (g : GainStage) (d : DelayState) (read : Int) :
    (g.prepare d read).Ahead read := by
  intro e he
  unfold GainStage.prepare at he
  rw [GainStage.moveRamp_queue, GainStage.moveFade_queue] at he
  unfold GainStage.takeDue at he
  split at he
  · rw [show ((g.dequeue read).rampTo _).queue = (g.dequeue read).queue from rfl, GainStage.dequeue,
      List.mem_filter] at he
    simpa using he.2
  · rename_i hd
    exact GainStage.due_none hd e he

theorem GainStage.finish_within (g : GainStage) (samples : List Sample) (loudness : Option Loudness)
    (h : g.Within loudness) : (g.finish samples).Within loudness := by
  have ha : (g.finish samples) = GainStage.initial ∨ (g.finish samples).applied = g.applied := by
    unfold GainStage.finish GainStage.moveClosing GainStage.selectPending
    repeat' split
    all_goals first | exact Or.inl rfl | exact Or.inr rfl
  rcases ha with ha | ha
  · rw [ha]
    exact GainStage.initial_within loudness
  · exact h.of_sublist (g.finish_queue samples) (ha ▸ List.mem_cons_self)

theorem GainStage.leaveStates_within (d : DelayEngine) (level : Nat) (selected : Source) (g : GainStage)
    (frames : Nat) (loudness : Option Loudness) (h : g.Within loudness)
    (hg : g.Ahead (d.readReference frames)) :
    (d.leaveStates level selected g frames).2.Within loudness ∧
      (d.leaveStates level selected g frames).2.Ahead
        ((d.leaveStates level selected g frames).1.readReference frames) := by
  unfold DelayEngine.leaveStates
  split
  · exact ⟨h, hg⟩
  · exact ⟨h, hg⟩
  · exact ⟨h, hg⟩
  · simp only
    split <;> exact ⟨h, hg⟩
  · split
    · exact ⟨g.jump_within _ _ h, g.jump_ahead _⟩
    · exact ⟨h, hg⟩
  · simp only
    split <;> exact ⟨h, hg⟩

/-- Of a clamped gain. -/
theorem Loudness.clamp_within (x : Loudness) (gain : Int) :
    -10 * (x.maxCut : Int) ≤ x.clamp gain ∧ x.clamp gain ≤ 10 * (x.maxBoost : Int) := by
  unfold Loudness.clamp
  omega

theorem towards_within (last desired low high : Int) (slew : Nat) (h1 : low ≤ last) (h2 : last ≤ high)
    (h3 : low ≤ desired) (h4 : desired ≤ high) :
    low ≤ towards last desired slew ∧ towards last desired slew ≤ high := by
  unfold towards
  split
  · exact ⟨h3, h4⟩
  · split <;> omega

theorem GainStage.lastScheduled_mem (g : GainStage) :
    g.lastScheduled ∈ g.applied :: g.queue.map GainEntry.gain := by
  unfold GainStage.lastScheduled
  split
  · rename_i e he
    exact List.mem_cons_of_mem _ (List.mem_map_of_mem (List.mem_of_getLast? he))
  · exact List.mem_cons_self

theorem GainStage.join_within (g : GainStage) (read : Int) (e : GainEntry) (x : Loudness)
    (h : g.Within (some x)) (he : -10 * (x.maxCut : Int) ≤ e.gain ∧ e.gain ≤ 10 * (x.maxBoost : Int)) :
    (g.join read e).Within (some x) := by
  refine ⟨(fun hn => nomatch hn), fun y hy gain hg => ?_⟩
  cases hy
  have own := h.2 x rfl
  unfold GainStage.join at hg
  split at hg
  · rcases List.mem_cons.mp hg with rfl | hg
    · exact he
    · exact own gain (List.mem_cons_of_mem _ hg)
  · have add (xs : List GainEntry) (hxs : xs.Sublist g.queue)
        (hg : gain ∈ g.applied :: (xs ++ [e]).map GainEntry.gain) :
        -10 * (x.maxCut : Int) ≤ gain ∧ gain ≤ 10 * (x.maxBoost : Int) := by
      rw [List.map_append, List.mem_cons, List.mem_append] at hg
      rcases hg with rfl | hg | hg
      · exact own _ List.mem_cons_self
      · exact own gain (List.mem_cons_of_mem _ ((hxs.map GainEntry.gain).subset hg))
      · have : gain = e.gain := by simpa using hg
        exact this ▸ he
    split at hg
    · exact add _ (List.Sublist.refl _) hg
    · exact add _ (List.dropLast_sublist _) hg

theorem GainStage.join_ahead (g : GainStage) (read : Int) (e : GainEntry) (h : g.Ahead read) :
    (g.join read e).Ahead read := by
  unfold GainStage.join
  split
  · exact h
  · rename_i hr
    have add (xs : List GainEntry) (hxs : xs.Sublist g.queue) :
        ∀ k ∈ xs ++ [e], read < (k.stamp : Int) := by
      intro k hk
      rcases List.mem_append.mp hk with hk | hk
      · exact h k (hxs.subset hk)
      · rw [List.mem_singleton] at hk
        subst hk
        omega
    split
    · exact add _ (List.Sublist.refl _)
    · exact add _ (List.dropLast_sublist _)

theorem GainStage.law_within (g : GainStage) (loudness : Option Loudness) (m : Meter) (read : Int)
    (frames : Nat) (h : g.Within loudness) (ha : g.Ahead read) :
    (g.law loudness m read frames).Within loudness ∧ (g.law loudness m read frames).Ahead read := by
  unfold GainStage.law
  split
  · exact ⟨h, ha⟩
  · rename_i x
    split
    · exact ⟨h, ha⟩
    · split
      · exact ⟨h, ha⟩
      · unfold GainStage.steer
        simp only
        split
        · exact ⟨h, ha⟩
        · rename_i level _ _ _
          have hl := h.2 x rfl _ g.lastScheduled_mem
          have hd := x.clamp_within (x.desired level.tenths)
          refine ⟨GainStage.join_within _ _ _ x h ?_, GainStage.join_ahead _ _ _ ha⟩
          exact towards_within _ _ _ _ _ hl.1 hl.2 hd.1 hd.2

/-- What an apply makes of the gains of a program that stays ACTIVE or becomes so. -/
theorem GainStage.apply_within (g : GainStage) (old new : ProgramRecord) (hn : new.active = true)
    (h : old.active = true → g.Within old.loudness) : (g.apply old new).Within new.loudness := by
  unfold GainStage.apply
  rw [hn]
  cases ho : old.active
  · exact GainStage.start_within _ _
  · simp only
    have hs := h ho
    have hc : (g.changeSource old.source new.source).Within old.loudness := by
      have e : (g.changeSource old.source new.source).queue = g.queue ∧
          (g.changeSource old.source new.source).applied = g.applied := by
        unfold GainStage.changeSource
        repeat' split
        all_goals exact ⟨rfl, rfl⟩
      exact hs.of_sublist (e.1 ▸ List.Sublist.refl _) (e.2 ▸ List.mem_cons_self)
    generalize g.changeSource old.source new.source = k at hc
    unfold GainStage.changeLoudness
    cases hol : old.loudness with
    | none =>
      simp only
      rw [hol] at hc
      obtain ⟨h1, h2⟩ := hc.1 rfl
      refine ⟨fun _ => ⟨h1, h2⟩, fun x _ gain hg => ?_⟩
      rw [h1, h2] at hg
      have : gain = 0 := by simpa using hg
      omega
    | some x =>
      rw [hol] at hc
      cases hnl : new.loudness with
      | none =>
        refine ⟨fun _ => ⟨rfl, rfl⟩, fun _ hy => nomatch hy⟩
      | some y =>
        simp only
        split
        · rename_i hb
          refine ⟨(fun hn => nomatch hn), fun z hz gain hg => ?_⟩
          cases hz
          rw [← hb.1, ← hb.2]
          exact hc.2 x rfl gain hg
        · refine ⟨(fun hn => nomatch hn), fun z hz gain hg => ?_⟩
          cases hz
          unfold GainStage.clampTo at hg
          simp only at hg
          split at hg
          · rename_i he
            rcases List.mem_cons.mp hg with rfl | hg
            · exact he ▸ y.clamp_within _
            · rw [List.map_map, List.mem_map] at hg
              obtain ⟨e, _, rfl⟩ := hg
              exact y.clamp_within _
          · rcases List.mem_cons.mp hg with rfl | hg
            · exact y.clamp_within _
            · rw [show ((({ k with queue := k.queue.map fun e => { e with gain := y.clamp e.gain } } :
                GainStage).rampTo (y.clamp k.applied)).queue.map GainEntry.gain) =
                (k.queue.map fun e => { e with gain := y.clamp e.gain }).map GainEntry.gain from rfl,
                List.map_map, List.mem_map] at hg
              obtain ⟨e, _, rfl⟩ := hg
              exact y.clamp_within _

theorem GainStage.Ahead.of_stamps {g k : GainStage} {read : Int} (h : g.Ahead read)
    (hs : (k.queue.map GainEntry.stamp).Sublist (g.queue.map GainEntry.stamp)) : k.Ahead read := by
  intro e he
  obtain ⟨e', he', hee⟩ := List.mem_map.mp (hs.subset (List.mem_map_of_mem he))
  rw [← hee]
  exact h e' he'

/-- Where an apply sets D_c anew, the schedule has met the new read reference. -/
theorem GainStage.followDelay_within (g : GainStage) (d : DelayEngine) (frames : Nat)
    (change : DelayChange) (loudness : Option Loudness) (h : g.Within loudness) :
    (g.followDelay d frames change).Within loudness := by
  cases change
  · exact h
  · exact g.jump_within _ _ h
  · exact g.jump_within _ _ h

theorem GainStage.followDelay_ahead (g : GainStage) (d : DelayEngine) (frames : Nat)
    (change : DelayChange) (h : change = .kept → g.Ahead (d.readReference frames)) :
    (g.followDelay d frames change).Ahead (d.readReference frames) := by
  cases change
  · exact h rfl
  · exact g.jump_ahead _
  · exact g.jump_ahead _

theorem DelayEngine.apply_kept (d : DelayEngine) (old new : ProgramRecord) (ho : old.active = true)
    (hk : (d.apply old new).2 = .kept) : (d.apply old new).1.current = d.current := by
  unfold DelayEngine.apply at hk ⊢
  rw [ho] at hk ⊢
  cases hn : new.active
  · rfl
  · simp only [hn] at hk ⊢
    cases hu : new.usable with
    | none =>
      simp only [hu] at hk ⊢
      by_cases hb : d.state = .bypass
      · rw [if_pos hb]
      · rw [if_neg hb] at hk
        cases hk
    | some x =>
      simp only [hu] at hk ⊢
      by_cases hs : sameLayout old new = true
      · rw [if_pos hs] at hk ⊢
        simp only at hk ⊢
        unfold DelayEngine.takeTarget at hk ⊢
        simp only at hk ⊢
        split at hk
        · rename_i ht
          rw [if_pos ht]
        · rename_i ht
          rw [if_neg ht]
          split at hk
          · cases hk
          · rename_i hf
            rw [if_neg hf]
            split
            · rfl
            · unfold DelayEngine.takeJumpTarget
              repeat' split
              all_goals rfl
      · rw [if_neg hs] at hk
        cases hk

/-- The gain stage's part of an apply leaves its gains within the new limits and its schedule ahead of the
new read reference. -/
theorem GainStage.takeApply_within (g : GainStage) (first : Bool) (old new : ProgramRecord)
    (d : DelayEngine) (frames : Nat) (hn : new.active = true)
    (hw : old.active = true → g.Within old.loudness)
    (ha : old.active = true → g.Ahead (d.readReference frames)) :
    (g.takeApply first old new (d.apply old new).1 (d.apply old new).2 frames).Within new.loudness ∧
      (g.takeApply first old new (d.apply old new).1 (d.apply old new).2 frames).Ahead
        ((d.apply old new).1.readReference frames) := by
  have hkept : old.active = true → (d.apply old new).2 = .kept →
      g.Ahead ((d.apply old new).1.readReference frames) := by
    intro ho hk
    unfold DelayEngine.readReference
    rw [d.apply_kept old new ho hk]
    exact ha ho
  have stamps (k : GainStage) : ((k.apply old new).queue.map GainEntry.stamp).Sublist
      (k.queue.map GainEntry.stamp) := k.apply_stamps old new
  have hstart (k : GainStage) : old.active = false → (k.apply old new).queue = [] := by
    intro ho
    unfold GainStage.apply
    rw [ho, hn]
    rfl
  unfold GainStage.takeApply
  cases first
  · simp only [Bool.false_eq_true, if_false]
    refine ⟨GainStage.apply_within _ old new hn fun ho => g.followDelay_within _ _ _ _ (hw ho), ?_⟩
    cases ho : old.active
    · intro e he
      rw [hstart _ ho] at he
      cases he
    · exact (g.followDelay_ahead _ _ _ (hkept ho)).of_stamps (stamps _)
  · simp only [if_true]
    refine ⟨GainStage.followDelay_within _ _ _ _ _ (g.apply_within old new hn hw), ?_⟩
    refine GainStage.followDelay_ahead _ _ _ _ fun hk => ?_
    cases ho : old.active
    · intro e he
      rw [hstart _ ho] at he
      cases he
    · exact (hkept ho hk).of_stamps (stamps _)

end Sys2Proof.Machine
end

