-- ==== Sys2Proof/Laws/Memory.lean ====
section
/-! SUPPORT. The delay memory: a cell reads what was last written to it, a write leaves every other
cell, and the canonical form is kept (R104). -/

namespace Sys2Proof.Machine

/-- Every listed address lies above `a`. -/
def Memory.above (a : Nat) (m : Memory) : Prop := ∀ x ∈ m, a < x.1

theorem Memory.wf_iff (m : Memory) :
    Memory.wf m = true ↔
      m.Pairwise (fun x y => x.1 < y.1) ∧
        ∀ x ∈ m, x.1 < Config.memoryCells ∧ x.2 ≠ Memory.blank := by
  simp [Memory.wf, List.all_eq_true]

theorem Memory.wf_nil : Memory.wf [] = true := by decide

theorem Memory.read_above {a : Nat} {m : Memory} (h : Memory.above a m) : m.read a = Memory.blank := by
  induction m with
  | nil => rfl
  | cons x xs ih =>
    have hx : a < x.1 := h x (by simp)
    have hne : ¬ x.1 = a := by omega
    simp only [Memory.read, hne, if_false]
    exact ih fun y hy => h y (by simp [hy])

theorem Memory.read_pair (a b : Nat) (x : Sample) (rest : Memory) :
    (Memory.pair a x ++ rest).read b =
      if a = b then (if x = Memory.blank then rest.read b else x) else rest.read b := by
  by_cases hx : x = Memory.blank
  · simp [Memory.pair, hx]
  · simp [Memory.pair, hx, Memory.read]

/-- A write leaves every other cell as it was. -/
theorem Memory.read_write_other (m : Memory) (a b : Nat) (x : Sample) (h : a ≠ b) :
    (m.write a x).read b = m.read b := by
  induction m with
  | nil =>
    have h2 := Memory.read_pair a b x []
    simp only [List.append_nil, h, if_false] at h2
    exact h2
  | cons c cs ih =>
    simp only [Memory.write]
    split
    · simp only [Memory.read, ih]
    · split
      · rename_i hca
        rw [Memory.read_pair, if_neg h]
        have hcb : ¬ c.1 = b := by omega
        simp only [Memory.read, hcb, if_false]
      · rw [Memory.read_pair, if_neg h]

/-- A cell of a memory in canonical form reads what was just written to it. -/
theorem Memory.read_write_same (m : Memory) (a : Nat) (x : Sample) (h : Memory.wf m = true) :
    (m.write a x).read a = x := by
  rw [Memory.wf_iff] at h
  obtain ⟨hp, hall⟩ := h
  induction m with
  | nil =>
    have h2 := Memory.read_pair a a x []
    simp only [List.append_nil, if_true] at h2
    simp only [Memory.write, h2]
    by_cases hx : x = Memory.blank
    · simp [hx, Memory.read]
    · simp [hx]
  | cons c cs ih =>
    rw [List.pairwise_cons] at hp
    simp only [Memory.write]
    split
    · rename_i hlt
      have hne : ¬ c.1 = a := by omega
      simp only [Memory.read, hne, if_false]
      exact ih hp.2 fun y hy => hall y (by simp [hy])
    · split
      · rename_i hca
        rw [Memory.read_pair, if_pos rfl]
        by_cases hx : x = Memory.blank
        · rw [if_pos hx, Memory.read_above (fun y hy => by have := hp.1 y hy; omega), hx]
        · rw [if_neg hx]
      · rename_i h1 h2
        rw [Memory.read_pair, if_pos rfl]
        by_cases hx : x = Memory.blank
        · rw [if_pos hx, Memory.read_above, hx]
          intro y hy
          rcases List.mem_cons.mp hy with rfl | hy
          · omega
          · have := hp.1 y hy; omega
        · rw [if_neg hx]

/-- The cells listed after a write: the written one, or cells listed before. -/
theorem Memory.mem_write {m : Memory} {a : Nat} {x : Sample} {y : Nat × Sample}
    (h : y ∈ m.write a x) : (y = (a, x) ∧ x ≠ Memory.blank) ∨ y ∈ m := by
  have hpair : ∀ rest : Memory, y ∈ Memory.pair a x ++ rest →
      (y = (a, x) ∧ x ≠ Memory.blank) ∨ y ∈ rest := by
    intro rest hy
    by_cases hx : x = Memory.blank
    · simp [Memory.pair, hx] at hy; exact Or.inr hy
    · simp [Memory.pair, hx] at hy
      rcases hy with hy | hy
      · exact Or.inl ⟨hy, hx⟩
      · exact Or.inr hy
  induction m with
  | nil =>
    have := hpair [] (by simpa [Memory.write] using h)
    simpa using this
  | cons c cs ih =>
    simp only [Memory.write] at h
    split at h
    · rcases List.mem_cons.mp h with rfl | h
      · simp
      · rcases ih h with h | h
        · exact Or.inl h
        · exact Or.inr (by simp [h])
    · split at h
      · rcases hpair _ h with h | h
        · exact Or.inl h
        · exact Or.inr (by simp [h])
      · exact hpair _ h

/-- A write to a cell of the memory keeps the canonical form. -/
theorem Memory.wf_write (m : Memory) (a : Nat) (x : Sample) (ha : a < Config.memoryCells)
    (h : Memory.wf m = true) : Memory.wf (m.write a x) = true := by
  rw [Memory.wf_iff] at h ⊢
  obtain ⟨hp, hall⟩ := h
  refine ⟨?_, fun y hy => ?_⟩
  · have hpair : ∀ rest : Memory, rest.Pairwise (fun x y => x.1 < y.1) → Memory.above a rest →
        (Memory.pair a x ++ rest).Pairwise (fun x y => x.1 < y.1) := by
      intro rest hr hab
      by_cases hx : x = Memory.blank
      · simpa [Memory.pair, hx] using hr
      · simp only [Memory.pair, hx, if_false, List.cons_append, List.nil_append, List.pairwise_cons]
        exact ⟨fun y hy => hab y hy, hr⟩
    clear hall
    induction m with
    | nil =>
      have := hpair [] List.Pairwise.nil (by intro y hy; simp at hy)
      simpa [Memory.write] using this
    | cons c cs ih =>
      rw [List.pairwise_cons] at hp
      simp only [Memory.write]
      split
      · rename_i hlt
        rw [List.pairwise_cons]
        refine ⟨fun y hy => ?_, ih hp.2⟩
        rcases Memory.mem_write hy with ⟨rfl, _⟩ | hy
        · exact hlt
        · exact hp.1 y hy
      · split
        · rename_i hca
          exact hpair cs hp.2 fun y hy => by have := hp.1 y hy; omega
        · rename_i h1 h2
          refine hpair _ (List.pairwise_cons.mpr hp) fun y hy => ?_
          rcases List.mem_cons.mp hy with rfl | hy
          · omega
          · have := hp.1 y hy; omega
  · rcases Memory.mem_write hy with ⟨rfl, hx⟩ | hy
    · exact ⟨ha, hx⟩
    · exact hall y hy

theorem Layout.cell_lt (layout : Layout) (l i : Nat) : layout.cell l i < Config.memoryCells :=
  Nat.mod_lt _ (by decide)

end Sys2Proof.Machine
end

