-- ==== Sys2Proof/Laws/HouseFrame.lean ====
section
/-! SUPPORT. Slip notices and the programs' work at a house frame: what they change of the state, and that
they keep the delay memory canonical, the log well formed and the schedules in order; and what a house frame
makes of each program's engine, gain stage and cells. -/

namespace Sys2Proof.Machine

/-! ## Slip notices -/

theorem State.handEvent_eq (s : State) (k : Kind) (subject : Subject) (detail : Detail) :
    s.handEvent k subject detail = { s with log := (s.handEvent k subject detail).log } := by
  unfold State.handEvent
  split <;> rfl

theorem State.handEvent_log (s : State) (k : Kind) (subject : Subject) (detail : Detail) :
    (s.handEvent k subject detail).log = s.log ∨
      ∃ e, (s.handEvent k subject detail).log = s.log.hand e := by
  unfold State.handEvent
  split
  · exact Or.inr ⟨_, rfl⟩
  · exact Or.inl rfl

/-- A slip notice changes the delay engines and the log. -/
theorem State.takeNotice_eq (s : State) (n : SlipNotice) :
    s.takeNotice n = { s with delays := (s.correctLanes n).delays, log := (s.takeNotice n).log } := by
  unfold State.takeNotice
  rw [State.handEvent_eq]
  rfl

theorem State.takeNotices_eq (s : State) (ns : List SlipNotice) :
    s.takeNotices ns =
      { s with delays := (s.takeNotices ns).delays, log := (s.takeNotices ns).log } := by
  induction ns generalizing s with
  | nil => rfl
  | cons n ns ih =>
    have h := ih (s.takeNotice n)
    show (s.takeNotice n).takeNotices ns =
      { s with
        delays := ((s.takeNotice n).takeNotices ns).delays
        log := ((s.takeNotice n).takeNotices ns).log }
    generalize (s.takeNotice n).takeNotices ns = v at h ⊢
    rw [State.takeNotice_eq] at h
    exact h

theorem State.takeNotices_wellFormed (s : State) (ns : List SlipNotice) (h : s.log.WellFormed) :
    (s.takeNotices ns).log.WellFormed := by
  induction ns generalizing s with
  | nil => exact h
  | cons n ns ih =>
    apply ih
    rcases State.handEvent_log (s.correctLanes n) .linkSlip (.link n.link)
      (.slip n.direction n.equivalent) with hl | ⟨e, hl⟩
    · show ((s.correctLanes n).handEvent _ _ _).log.WellFormed
      rw [hl]
      exact h
    · show ((s.correctLanes n).handEvent _ _ _).log.WellFormed
      rw [hl]
      exact (AlarmLog.hand_wellFormed s.log h e).1

/-- A slip notice changes of a delay engine the corrections and the sync flag. -/
theorem DelayEngine.correct_eq (d : DelayEngine) (r : ProgramRecord) (n : SlipNotice) :
    d.correct r n =
      { d with lanes := (d.correct r n).lanes, syncLost := (d.correct r n).syncLost } := by
  unfold DelayEngine.correct
  split <;> rfl

theorem DelayEngine.correct_inactive (d : DelayEngine) (r : ProgramRecord) (n : SlipNotice)
    (h : r.active = false) : d.correct r n = d := by
  unfold DelayEngine.correct
  rw [h]
  rfl

/-- Slip notices leave of every engine all but the corrections and the sync flag. -/
theorem State.takeNotices_delay (s : State) (ns : List SlipNotice) (p : Fin 16) :
    (s.takeNotices ns).delays[p] =
      { s.delays[p] with
        lanes := ((s.takeNotices ns).delays[p]).lanes
        syncLost := ((s.takeNotices ns).delays[p]).syncLost } := by
  induction ns generalizing s with
  | nil => rfl
  | cons n ns ih =>
    have h := ih (s.takeNotice n)
    have h1 : (s.takeNotice n).delays[p] = s.delays[p].correct (s.program p) n := by
      rw [State.takeNotice_eq]
      simp [State.correctLanes]
    show ((s.takeNotice n).takeNotices ns).delays[p] = _
    rw [h1, DelayEngine.correct_eq] at h
    exact h

theorem State.takeNotices_inactive (s : State) (ns : List SlipNotice) (p : Fin 16)
    (hp : (s.program p).active = false) : (s.takeNotices ns).delays[p] = s.delays[p] := by
  induction ns generalizing s with
  | nil => rfl
  | cons n ns ih =>
    have h1 : (s.takeNotice n).delays[p] = s.delays[p].correct (s.program p) n := by
      rw [State.takeNotice_eq]
      simp [State.correctLanes]
    have hp' : ((s.takeNotice n).program p).active = false := by
      rw [State.takeNotice_eq]
      exact hp
    show ((s.takeNotice n).takeNotices ns).delays[p] = _
    rw [ih _ hp', h1, DelayEngine.correct_inactive _ _ _ hp]

/-! ## Lanes in the delay memory -/

theorem DelayEngine.writeLanes_wf (d : DelayEngine) (layout : Layout) (frame l : Nat)
    (samples : List Sample) (m : Memory) (h : Memory.wf m = true) :
    Memory.wf (d.writeLanes layout frame l samples m) = true := by
  induction samples generalizing l m with
  | nil => exact h
  | cons x xs ih => exact ih _ _ (Memory.wf_write _ _ _ (Layout.cell_lt _ _ _) h)

theorem DelayEngine.writeSide_wf (d : DelayEngine) (m : Memory) (frame : Nat) (samples : List Sample)
    (h : Memory.wf m = true) : Memory.wf (d.writeSide m frame samples) = true := by
  unfold DelayEngine.writeSide
  split
  · exact h
  · exact d.writeLanes_wf _ _ _ _ _ h

/-- A cell that is no written lane's cell keeps its sample. -/
theorem DelayEngine.writeLanes_other (d : DelayEngine) (layout : Layout) (frame l a : Nat)
    (samples : List Sample) (m : Memory)
    (h : ∀ i, i < samples.length → d.cell layout (l + i) frame ≠ a) :
    (d.writeLanes layout frame l samples m).read a = m.read a := by
  induction samples generalizing l m with
  | nil => rfl
  | cons x xs ih =>
    show (d.writeLanes layout frame (l + 1) xs _).read a = _
    rw [ih (l + 1) _ (fun i hi => by
      have hh := h (i + 1) (by simpa using hi)
      rwa [show l + 1 + i = l + (i + 1) by omega])]
    exact Memory.read_write_other _ _ _ _ (h 0 (by simp))

theorem DelayEngine.writeSide_other (d : DelayEngine) (m : Memory) (frame a : Nat)
    (samples : List Sample)
    (h : ∀ (layout : Layout) (i : Nat), d.layout = some layout → i < samples.length →
      d.cell layout i frame ≠ a) :
    (d.writeSide m frame samples).read a = m.read a := by
  unfold DelayEngine.writeSide
  split
  · rfl
  · rename_i layout hl
    exact d.writeLanes_other layout frame 0 a samples m
      (fun i hi => by rw [Nat.zero_add]; exact h layout i hl hi)

/-! ## One program's work -/

/-- A program's work changes its own meter, gain stage and delay engine, and the delay memory. -/
theorem State.runProgram_eq (s : State) (delivered : Vector (Vector Sample 8) 8) (p : Fin 16) :
    (s.runProgram delivered p).1 =
      { s with
        meters := (s.runProgram delivered p).1.meters
        gains := (s.runProgram delivered p).1.gains
        delays := (s.runProgram delivered p).1.delays
        memory := (s.runProgram delivered p).1.memory } := by
  unfold State.runProgram
  split
  · rfl
  · split
    · rfl
    · unfold State.runClosing
      simp only
      split <;> rfl

theorem State.runProgram_other (s : State) (delivered : Vector (Vector Sample 8) 8) (p q : Fin 16)
    (h : q ≠ p) :
    (s.runProgram delivered p).1.meters[q] = s.meters[q] ∧
      (s.runProgram delivered p).1.gains[q] = s.gains[q] ∧
      (s.runProgram delivered p).1.delays[q] = s.delays[q] := by
  have hv : p.val ≠ q.val := fun e => h (Fin.ext e.symm)
  unfold State.runProgram
  split
  · exact ⟨rfl, rfl, rfl⟩
  · split
    · unfold State.runActive
      simp [State.setMeter, State.setDelay, State.setGain, hv]
    · unfold State.runClosing
      simp only
      split <;> simp [State.setMeter, State.setDelay, State.setGain, hv]

/-- A program with no content in force does no work. -/
theorem State.runProgram_none (s : State) (delivered : Vector (Vector Sample 8) 8) (p : Fin 16)
    (h : s.content p = none) : s.runProgram delivered p = (s, []) := by
  unfold State.runProgram
  rw [h]

theorem State.runProgram_wf (s : State) (delivered : Vector (Vector Sample 8) 8) (p : Fin 16)
    (h : Memory.wf s.memory = true) : Memory.wf (s.runProgram delivered p).1.memory = true := by
  unfold State.runProgram
  split
  · exact h
  · split
    · exact DelayEngine.writeSide_wf _ _ _ _ h
    · unfold State.runClosing
      simp only
      split <;> exact DelayEngine.writeSide_wf _ _ _ _ h

theorem State.runProgram_scheduled (s : State) (delivered : Vector (Vector Sample 8) 8)
    (p q : Fin 16) (bound : Nat) (h : s.gains[q].Scheduled bound) :
    ((s.runProgram delivered p).1.gains[q]).Scheduled bound := by
  by_cases hq : q = p
  · subst hq
    unfold State.runProgram
    split
    · exact h
    · split
      · unfold State.runActive
        simp only [State.setMeter, State.setDelay, State.setGain, Fin.getElem_fin,
          Vector.getElem_set_self]
        refine GainStage.Scheduled.of_queue ?_ (GainStage.leaveStates_queue _ _ _ _ _)
        refine GainStage.Scheduled.of_queue ?_ (GainStage.finish_queue _ _)
        exact h.of_queue (GainStage.prepare_queue _ _ _)
      · unfold State.runClosing
        simp only
        split
        all_goals
          simp only [State.setMeter, State.setDelay, State.setGain, Fin.getElem_fin,
            Vector.getElem_set_self]
          refine GainStage.Scheduled.of_queue ?_ (GainStage.finish_queue _ _)
          exact h.of_queue (GainStage.prepare_queue _ _ _)
  · rw [(s.runProgram_other delivered p q hq).2.1]
    exact h

theorem DelayEngine.glide_layout (d : DelayEngine) :
    d.glide.layout = d.layout ∧ d.glide.capacity = d.capacity := by
  unfold DelayEngine.glide
  split
  · split <;> exact ⟨rfl, rfl⟩
  · exact ⟨rfl, rfl⟩

/-- A program's work writes only the cells of its lanes for this frame. -/
theorem State.runProgram_memory (s : State) (delivered : Vector (Vector Sample 8) 8) (p : Fin 16)
    (a : Nat)
    (h : ∀ (r : ProgramRecord) (layout : Layout) (l : Nat), s.content p = some r →
      s.delays[p].layout = some layout → l < r.channels.length →
        s.delays[p].cell layout l s.clock.frames ≠ a) :
    Memory.read (s.runProgram delivered p).1.memory a = Memory.read s.memory a := by
  unfold State.runProgram
  split
  · rfl
  · rename_i r hr
    have hg := s.delays[p].glide_layout
    split
    · refine DelayEngine.writeSide_other _ _ _ _ _ ?_
      intro layout i hl hi
      have hl' : s.delays[p].layout = some layout := by rw [← hg.1]; exact hl
      have hc := h r layout i hr hl' (by simpa using hi)
      show layout.cell i (s.clock.frames % s.delays[p].glide.capacity) ≠ a
      rw [hg.2]
      exact hc
    · unfold State.runClosing
      simp only
      split
      all_goals
        refine DelayEngine.writeSide_other _ _ _ _ _ ?_
        intro layout i hl hi
        exact h r layout i hr hl (by simpa using hi)

/-! ## The work of all programs -/

theorem State.runPrograms_eq (s : State) (delivered : Vector (Vector Sample 8) 8)
    (ps : List (Fin 16)) :
    (s.runPrograms delivered ps).1 =
      { s with
        meters := (s.runPrograms delivered ps).1.meters
        gains := (s.runPrograms delivered ps).1.gains
        delays := (s.runPrograms delivered ps).1.delays
        memory := (s.runPrograms delivered ps).1.memory } := by
  induction ps generalizing s with
  | nil => rfl
  | cons p ps ih =>
    have h := ih (s.runProgram delivered p).1
    show ((s.runProgram delivered p).1.runPrograms delivered ps).1 =
      { s with
        meters := ((s.runProgram delivered p).1.runPrograms delivered ps).1.meters
        gains := ((s.runProgram delivered p).1.runPrograms delivered ps).1.gains
        delays := ((s.runProgram delivered p).1.runPrograms delivered ps).1.delays
        memory := ((s.runProgram delivered p).1.runPrograms delivered ps).1.memory }
    generalize ((s.runProgram delivered p).1.runPrograms delivered ps).1 = v at h ⊢
    rw [State.runProgram_eq] at h
    exact h

/-- A property that every program's work keeps is kept by the work of all. -/
theorem State.runPrograms_keeps (delivered : Vector (Vector Sample 8) 8) (keep : State → Prop)
    (step : ∀ (s : State) (p : Fin 16), keep s → keep (s.runProgram delivered p).1)
    (ps : List (Fin 16)) (s : State) (h : keep s) : keep (s.runPrograms delivered ps).1 := by
  induction ps generalizing s with
  | nil => exact h
  | cons p ps ih => exact ih _ (step s p h)

/-! ## The state after a house frame -/

/-! ### What slip notices and the programs' work keep -/

@[simp] theorem State.takeNotices_pending (s : State) (ns : List SlipNotice) :
    (s.takeNotices ns).pending = s.pending := by
  rw [State.takeNotices_eq]

@[simp] theorem State.takeNotices_choices (s : State) (ns : List SlipNotice) :
    (s.takeNotices ns).choices = s.choices := by
  rw [State.takeNotices_eq]

@[simp] theorem State.takeNotices_resetAsserted (s : State) (ns : List SlipNotice) :
    (s.takeNotices ns).resetAsserted = s.resetAsserted := by
  rw [State.takeNotices_eq]

@[simp] theorem State.takeNotices_clock (s : State) (ns : List SlipNotice) :
    (s.takeNotices ns).clock = s.clock := by
  rw [State.takeNotices_eq]

@[simp] theorem State.takeNotices_ref (s : State) (ns : List SlipNotice) :
    (s.takeNotices ns).ref = s.ref := by
  rw [State.takeNotices_eq]

@[simp] theorem State.takeNotices_tables (s : State) (ns : List SlipNotice) :
    (s.takeNotices ns).tables = s.tables := by
  rw [State.takeNotices_eq]

@[simp] theorem State.takeNotices_receivers (s : State) (ns : List SlipNotice) :
    (s.takeNotices ns).receivers = s.receivers := by
  rw [State.takeNotices_eq]

@[simp] theorem State.takeNotices_converters (s : State) (ns : List SlipNotice) :
    (s.takeNotices ns).converters = s.converters := by
  rw [State.takeNotices_eq]

@[simp] theorem State.takeNotices_tonePhase (s : State) (ns : List SlipNotice) :
    (s.takeNotices ns).tonePhase = s.tonePhase := by
  rw [State.takeNotices_eq]

@[simp] theorem State.takeNotices_conditions (s : State) (ns : List SlipNotice) :
    (s.takeNotices ns).conditions = s.conditions := by
  rw [State.takeNotices_eq]

@[simp] theorem State.takeNotices_ports (s : State) (ns : List SlipNotice) :
    (s.takeNotices ns).ports = s.ports := by
  rw [State.takeNotices_eq]

@[simp] theorem State.takeNotices_meters (s : State) (ns : List SlipNotice) :
    (s.takeNotices ns).meters = s.meters := by
  rw [State.takeNotices_eq]

@[simp] theorem State.takeNotices_gains (s : State) (ns : List SlipNotice) :
    (s.takeNotices ns).gains = s.gains := by
  rw [State.takeNotices_eq]

@[simp] theorem State.takeNotices_memory (s : State) (ns : List SlipNotice) :
    (s.takeNotices ns).memory = s.memory := by
  rw [State.takeNotices_eq]

@[simp] theorem State.takeNotices_pins (s : State) (ns : List SlipNotice) :
    (s.takeNotices ns).pins = s.pins := by
  rw [State.takeNotices_eq]

@[simp] theorem State.takeNotices_out (s : State) (ns : List SlipNotice) :
    (s.takeNotices ns).out = s.out := by
  rw [State.takeNotices_eq]

@[simp] theorem State.runPrograms_pending (s : State) (delivered : Vector (Vector Sample 8) 8)
    (ps : List (Fin 16)) : (s.runPrograms delivered ps).1.pending = s.pending := by
  rw [State.runPrograms_eq]

@[simp] theorem State.runPrograms_choices (s : State) (delivered : Vector (Vector Sample 8) 8)
    (ps : List (Fin 16)) : (s.runPrograms delivered ps).1.choices = s.choices := by
  rw [State.runPrograms_eq]

@[simp] theorem State.runPrograms_resetAsserted (s : State) (delivered : Vector (Vector Sample 8) 8)
    (ps : List (Fin 16)) : (s.runPrograms delivered ps).1.resetAsserted = s.resetAsserted := by
  rw [State.runPrograms_eq]

@[simp] theorem State.runPrograms_clock (s : State) (delivered : Vector (Vector Sample 8) 8)
    (ps : List (Fin 16)) : (s.runPrograms delivered ps).1.clock = s.clock := by
  rw [State.runPrograms_eq]

@[simp] theorem State.runPrograms_ref (s : State) (delivered : Vector (Vector Sample 8) 8)
    (ps : List (Fin 16)) : (s.runPrograms delivered ps).1.ref = s.ref := by
  rw [State.runPrograms_eq]

@[simp] theorem State.runPrograms_tables (s : State) (delivered : Vector (Vector Sample 8) 8)
    (ps : List (Fin 16)) : (s.runPrograms delivered ps).1.tables = s.tables := by
  rw [State.runPrograms_eq]

@[simp] theorem State.runPrograms_receivers (s : State) (delivered : Vector (Vector Sample 8) 8)
    (ps : List (Fin 16)) : (s.runPrograms delivered ps).1.receivers = s.receivers := by
  rw [State.runPrograms_eq]

@[simp] theorem State.runPrograms_converters (s : State) (delivered : Vector (Vector Sample 8) 8)
    (ps : List (Fin 16)) : (s.runPrograms delivered ps).1.converters = s.converters := by
  rw [State.runPrograms_eq]

@[simp] theorem State.runPrograms_tonePhase (s : State) (delivered : Vector (Vector Sample 8) 8)
    (ps : List (Fin 16)) : (s.runPrograms delivered ps).1.tonePhase = s.tonePhase := by
  rw [State.runPrograms_eq]

@[simp] theorem State.runPrograms_conditions (s : State) (delivered : Vector (Vector Sample 8) 8)
    (ps : List (Fin 16)) : (s.runPrograms delivered ps).1.conditions = s.conditions := by
  rw [State.runPrograms_eq]

@[simp] theorem State.runPrograms_ports (s : State) (delivered : Vector (Vector Sample 8) 8)
    (ps : List (Fin 16)) : (s.runPrograms delivered ps).1.ports = s.ports := by
  rw [State.runPrograms_eq]

@[simp] theorem State.runPrograms_log (s : State) (delivered : Vector (Vector Sample 8) 8)
    (ps : List (Fin 16)) : (s.runPrograms delivered ps).1.log = s.log := by
  rw [State.runPrograms_eq]

@[simp] theorem State.runPrograms_pins (s : State) (delivered : Vector (Vector Sample 8) 8)
    (ps : List (Fin 16)) : (s.runPrograms delivered ps).1.pins = s.pins := by
  rw [State.runPrograms_eq]

/-! ### The house frame, field by field -/

theorem State.houseFrame_pending (s : State) : s.houseFrame.pending = s.frameStarted.pending := by
  simp only [State.houseFrame, State.settle_pending, State.takeNotices_pending, State.frameRun,
    State.runPrograms_pending]

theorem State.houseFrame_choices (s : State) : s.houseFrame.choices = s.frameStarted.choices := by
  simp only [State.houseFrame, State.settle_choices, State.takeNotices_choices, State.frameRun,
    State.runPrograms_choices]

theorem State.houseFrame_resetAsserted (s : State) : s.houseFrame.resetAsserted = s.frameStarted.resetAsserted := by
  simp only [State.houseFrame, State.settle_resetAsserted, State.takeNotices_resetAsserted, State.frameRun,
    State.runPrograms_resetAsserted]

theorem State.houseFrame_clock (s : State) : s.houseFrame.clock = s.frameStarted.clock := by
  simp only [State.houseFrame, State.settle_clock, State.takeNotices_clock, State.frameRun,
    State.runPrograms_clock]

theorem State.houseFrame_ref (s : State) : s.houseFrame.ref = s.frameStarted.ref := by
  simp only [State.houseFrame, State.settle_ref, State.takeNotices_ref, State.frameRun,
    State.runPrograms_ref]

theorem State.houseFrame_tables (s : State) : s.houseFrame.tables = s.frameStarted.tables := by
  simp only [State.houseFrame, State.settle_tables, State.takeNotices_tables, State.frameRun,
    State.runPrograms_tables]

theorem State.houseFrame_receivers (s : State) : s.houseFrame.receivers = s.frameStarted.receivers := by
  simp only [State.houseFrame, State.settle_receivers, State.takeNotices_receivers, State.frameRun,
    State.runPrograms_receivers]

theorem State.houseFrame_converters (s : State) : s.houseFrame.converters = s.frameStarted.converters := by
  simp only [State.houseFrame, State.settle_converters, State.takeNotices_converters, State.frameRun,
    State.runPrograms_converters]

theorem State.houseFrame_tonePhase (s : State) : s.houseFrame.tonePhase = s.frameStarted.tonePhase := by
  simp only [State.houseFrame, State.settle_tonePhase, State.takeNotices_tonePhase, State.frameRun,
    State.runPrograms_tonePhase]

theorem State.houseFrame_conditions (s : State) : s.houseFrame.conditions = s.frameStarted.conditions := by
  simp only [State.houseFrame, State.settle_conditions, State.takeNotices_conditions, State.frameRun,
    State.runPrograms_conditions]

theorem State.houseFrame_ports (s : State) : s.houseFrame.ports = s.frameStarted.ports := by
  simp only [State.houseFrame, State.settle_ports, State.takeNotices_ports, State.frameRun,
    State.runPrograms_ports]

theorem State.houseFrame_meters (s : State) : s.houseFrame.meters = s.frameRun.1.meters := by
  rw [State.houseFrame, State.settle_meters, State.takeNotices_meters]

theorem State.houseFrame_gains (s : State) : s.houseFrame.gains = s.frameRun.1.gains := by
  rw [State.houseFrame, State.settle_gains, State.takeNotices_gains]

theorem State.houseFrame_memory (s : State) : s.houseFrame.memory = s.frameRun.1.memory := by
  rw [State.houseFrame, State.settle_memory, State.takeNotices_memory]

theorem State.houseFrame_out (s : State) : s.houseFrame.out = outputFrames s.frameRun.2 := by
  rw [State.houseFrame, State.settle_out, State.takeNotices_out]

/-! ### The content in force through a house frame -/

theorem State.takeNotices_content (s : State) (ns : List SlipNotice) (p : Fin 16) :
    (s.takeNotices ns).content p = s.content p := by
  unfold State.content State.program
  simp only [State.takeNotices_tables, State.takeNotices_gains]

theorem State.frameStarted_content (s : State) (p : Fin 16) :
    s.frameStarted.content p = s.content p := rfl

theorem State.runProgram_content (s : State) (delivered : Vector (Vector Sample 8) 8)
    (p q : Fin 16) (h : q ≠ p) : (s.runProgram delivered p).1.content q = s.content q := by
  unfold State.content State.program
  have hg := (s.runProgram_other delivered p q h).2.1
  rw [State.runProgram_eq] at hg ⊢
  simp only at hg ⊢
  rw [hg]

/-- A program with no content in force keeps its meter, gain stage and delay engine. -/
theorem State.runPrograms_none (s : State) (delivered : Vector (Vector Sample 8) 8)
    (ps : List (Fin 16)) (p : Fin 16) (h : s.content p = none) :
    (s.runPrograms delivered ps).1.meters[p] = s.meters[p] ∧
      (s.runPrograms delivered ps).1.gains[p] = s.gains[p] ∧
      (s.runPrograms delivered ps).1.delays[p] = s.delays[p] := by
  induction ps generalizing s with
  | nil => exact ⟨rfl, rfl, rfl⟩
  | cons q ps ih =>
    show ((s.runProgram delivered q).1.runPrograms delivered ps).1.meters[p] = _ ∧
      ((s.runProgram delivered q).1.runPrograms delivered ps).1.gains[p] = _ ∧
      ((s.runProgram delivered q).1.runPrograms delivered ps).1.delays[p] = _
    by_cases hq : p = q
    · subst hq
      rw [s.runProgram_none delivered p h]
      exact ih s h
    · have h2 := s.runProgram_other delivered q p hq
      obtain ⟨a, b, c⟩ := ih (s.runProgram delivered q).1
        (by rw [s.runProgram_content delivered q p hq]; exact h)
      exact ⟨a.trans h2.1, b.trans h2.2.1, c.trans h2.2.2⟩

/-- The programs' work writes only cells of their lanes for this frame. -/
theorem State.runPrograms_memory (s : State) (delivered : Vector (Vector Sample 8) 8)
    (ps : List (Fin 16)) (distinct : ps.Nodup) (a : Nat)
    (h : ∀ p ∈ ps, ∀ (r : ProgramRecord) (layout : Layout) (l : Nat), s.content p = some r →
      s.delays[p].layout = some layout → l < r.channels.length →
        s.delays[p].cell layout l s.clock.frames ≠ a) :
    Memory.read (s.runPrograms delivered ps).1.memory a = Memory.read s.memory a := by
  induction ps generalizing s with
  | nil => rfl
  | cons q ps ih =>
    rw [List.nodup_cons] at distinct
    show Memory.read ((s.runProgram delivered q).1.runPrograms delivered ps).1.memory a = _
    rw [ih _ distinct.2]
    · exact s.runProgram_memory delivered q a (h q (by simp))
    · intro p hp r layout l hr hl hlt
      have hpq : p ≠ q := fun e => distinct.1 (e ▸ hp)
      rw [s.runProgram_content delivered q p hpq] at hr
      rw [(s.runProgram_other delivered q p hpq).2.2] at hl ⊢
      have hc := h p (List.mem_cons_of_mem _ hp) r layout l hr hl hlt
      rw [State.runProgram_eq]
      exact hc

/-! ### Driven slots -/

theorem driven_output (active : Bool) (channels : List Channel) (samples : List Sample) (x : Driven)
    (h : x ∈ driven active channels samples) : ∃ c ∈ channels, c.output = some x.slot := by
  unfold driven at h
  simp only [List.mem_filterMap, Option.map_eq_some_iff] at h
  obtain ⟨⟨c, y⟩, hm, slot, hs, rfl⟩ := h
  exact ⟨c, (List.of_mem_zip hm).1, hs⟩

/-- A program drives only output slots that its content in force claims. -/
theorem State.runProgram_drives (s : State) (delivered : Vector (Vector Sample 8) 8) (p : Fin 16)
    (x : Driven) (h : x ∈ (s.runProgram delivered p).2) :
    ∃ r, s.content p = some r ∧ x.slot ∈ r.outputs := by
  unfold State.runProgram at h
  split at h
  · exact absurd h List.not_mem_nil
  · rename_i r hr
    refine ⟨r, hr, ?_⟩
    have hc : ∃ c ∈ r.channels, c.output = some x.slot := by
      split at h
      · exact driven_output _ _ _ x h
      · exact driven_output _ _ _ x h
    simpa [ProgramRecord.outputs, List.mem_filterMap] using hc

/-- The programs drive only output slots that some program's content in force claims. -/
theorem State.runPrograms_drives (s : State) (delivered : Vector (Vector Sample 8) 8)
    (ps : List (Fin 16)) (distinct : ps.Nodup) (x : Driven)
    (h : x ∈ (s.runPrograms delivered ps).2) :
    ∃ p ∈ ps, ∃ r, s.content p = some r ∧ x.slot ∈ r.outputs := by
  induction ps generalizing s with
  | nil => exact absurd h List.not_mem_nil
  | cons q ps ih =>
    rw [List.nodup_cons] at distinct
    have h' : x ∈ (s.runProgram delivered q).2 ++
        ((s.runProgram delivered q).1.runPrograms delivered ps).2 := h
    rcases List.mem_append.mp h' with h' | h'
    · obtain ⟨r, hr, hs⟩ := s.runProgram_drives delivered q x h'
      exact ⟨q, by simp, r, hr, hs⟩
    · obtain ⟨p, hp, r, hr, hs⟩ := ih _ distinct.2 h'
      have hpq : p ≠ q := fun e => distinct.1 (e ▸ hp)
      rw [s.runProgram_content delivered q p hpq] at hr
      exact ⟨p, List.mem_cons_of_mem _ hp, r, hr, hs⟩

/-! ## The work of one program among the work of all -/

theorem driven_active (active : Bool) (channels : List Channel) (samples : List Sample) (x : Driven)
    (h : x ∈ driven active channels samples) : x.active = active := by
  unfold driven at h
  simp only [List.mem_filterMap, Option.map_eq_some_iff] at h
  obtain ⟨_, _, slot, _, rfl⟩ := h
  rfl

theorem State.runProgram_active (s : State) (delivered : Vector (Vector Sample 8) 8) (p : Fin 16)
    (x : Driven) (h : x ∈ (s.runProgram delivered p).2) : x.active = (s.program p).active := by
  unfold State.runProgram at h
  split at h
  · exact absurd h List.not_mem_nil
  · split at h <;> rename_i ha
    · rw [ha]
      exact driven_active _ _ _ x h
    · rw [Bool.eq_false_iff.mpr ha]
      exact driven_active _ _ _ x h

/-- A state in which some programs of a list other than `p` have done their work at a house frame: it differs from
`s` in meters, gain stages and delay engines other than those of `p`, and in cells of their lanes. -/
structure State.OthersRun (s : State) (ps : List (Fin 16)) (p : Fin 16) (u : State) : Prop where
  fields : u = { s with
    meters := u.meters, gains := u.gains, delays := u.delays, memory := u.memory }
  meter : u.meters[p] = s.meters[p]
  gain : u.gains[p] = s.gains[p]
  delay : u.delays[p] = s.delays[p]
  canonical : Memory.wf s.memory = true → Memory.wf u.memory = true
  cells : ∀ a : Nat,
    (∀ q ∈ ps, ∀ (r : ProgramRecord) (layout : Layout) (l : Nat), s.content q = some r →
      s.delays[q].layout = some layout → l < r.channels.length →
        s.delays[q].cell layout l s.clock.frames ≠ a) →
    Memory.read u.memory a = Memory.read s.memory a

theorem State.OthersRun.content {s u : State} {ps : List (Fin 16)} {p : Fin 16}
    (h : s.OthersRun ps p u) :
    u.content p = s.content p := by
  unfold State.content State.program
  rw [h.gain, h.fields]

theorem State.OthersRun.program {s u : State} {ps : List (Fin 16)} {p : Fin 16}
    (h : s.OthersRun ps p u) (q : Fin 16) :
    u.program q = s.program q := by
  unfold State.program
  rw [h.fields]

theorem State.OthersRun.clock {s u : State} {ps : List (Fin 16)} {p : Fin 16}
    (h : s.OthersRun ps p u) : u.clock = s.clock := by
  rw [h.fields]

/-- The slots that programs of a list drive, each under its content in force. -/
def State.DrivenBy (s : State) (ps : List (Fin 16)) (xs : List Driven) : Prop :=
  ∀ x ∈ xs, ∃ q ∈ ps, ∃ r, s.content q = some r ∧ x.slot ∈ r.outputs ∧
    x.active = (s.program q).active

theorem State.runProgram_program (s : State) (delivered : Vector (Vector Sample 8) 8) (p q : Fin 16) :
    (s.runProgram delivered p).1.program q = s.program q := by
  unfold State.program
  rw [State.runProgram_eq]

theorem State.runPrograms_drivenBy (s : State) (delivered : Vector (Vector Sample 8) 8)
    (ps : List (Fin 16)) (distinct : ps.Nodup) : s.DrivenBy ps (s.runPrograms delivered ps).2 := by
  induction ps generalizing s with
  | nil => exact fun x hx => absurd hx List.not_mem_nil
  | cons q ps ih =>
    rw [List.nodup_cons] at distinct
    intro x hx
    rcases List.mem_append.mp (show x ∈ (s.runProgram delivered q).2 ++
        ((s.runProgram delivered q).1.runPrograms delivered ps).2 from hx) with hx | hx
    · obtain ⟨r, hr, hs⟩ := s.runProgram_drives delivered q x hx
      exact ⟨q, List.mem_cons_self, r, hr, hs, s.runProgram_active delivered q x hx⟩
    · obtain ⟨k, hk, r, hr, hs, ha⟩ := ih _ distinct.2 x hx
      have hkq : k ≠ q := fun e => distinct.1 (e ▸ hk)
      rw [s.runProgram_content delivered q k hkq] at hr
      rw [s.runProgram_program delivered q k] at ha
      exact ⟨k, List.mem_cons_of_mem _ hk, r, hr, hs, ha⟩

theorem State.runPrograms_without (s : State) (delivered : Vector (Vector Sample 8) 8)
    (ps : List (Fin 16)) (p : Fin 16) (hp : p ∉ ps) :
    (s.runPrograms delivered ps).1.meters[p] = s.meters[p] ∧
      (s.runPrograms delivered ps).1.gains[p] = s.gains[p] ∧
      (s.runPrograms delivered ps).1.delays[p] = s.delays[p] := by
  induction ps generalizing s with
  | nil => exact ⟨rfl, rfl, rfl⟩
  | cons q ps ih =>
    rw [List.mem_cons, not_or] at hp
    have h2 := s.runProgram_other delivered q p hp.1
    obtain ⟨a, b, c⟩ := ih (s.runProgram delivered q).1 hp.2
    exact ⟨a.trans h2.1, b.trans h2.2.1, c.trans h2.2.2⟩

theorem State.OthersRun.refl (s : State) (ps : List (Fin 16)) (p : Fin 16) : s.OthersRun ps p s :=
  ⟨rfl, rfl, rfl, rfl, id, fun _ _ => rfl⟩

/-- The work of a list of programs, at one of them: the others' work leaves its meter, gain stage and delay
engine, which are as its own work leaves them; and it drives its own slots among those of the others. -/
theorem State.runPrograms_at (s : State) (delivered : Vector (Vector Sample 8) 8)
    (ps : List (Fin 16)) (p : Fin 16) (hp : p ∈ ps) (distinct : ps.Nodup) :
    ∃ (u : State) (before after : List Driven), s.OthersRun ps p u ∧
      (s.runPrograms delivered ps).1.meters[p] = (u.runProgram delivered p).1.meters[p] ∧
      (s.runPrograms delivered ps).1.gains[p] = (u.runProgram delivered p).1.gains[p] ∧
      (s.runPrograms delivered ps).1.delays[p] = (u.runProgram delivered p).1.delays[p] ∧
      (s.runPrograms delivered ps).2 = before ++ (u.runProgram delivered p).2 ++ after ∧
      s.DrivenBy (ps.filter (· != p)) (before ++ after) := by
  induction ps generalizing s with
  | nil => exact absurd hp List.not_mem_nil
  | cons q ps ih =>
    have hdist := distinct
    rw [List.nodup_cons] at distinct
    by_cases hq : p = q
    · subst hq
      obtain ⟨a, b, c⟩ := (s.runProgram delivered p).1.runPrograms_without delivered ps p distinct.1
      refine ⟨s, [], ((s.runProgram delivered p).1.runPrograms delivered ps).2, State.OthersRun.refl s _ p, a, b, c, rfl,
        fun x hx => ?_⟩
      obtain ⟨k, hk, r, hr, hs, ha⟩ := State.runPrograms_drivenBy _ delivered ps distinct.2 x hx
      have hkp : k ≠ p := fun e => distinct.1 (e ▸ hk)
      rw [s.runProgram_content delivered p k hkp] at hr
      rw [s.runProgram_program delivered p k] at ha
      exact ⟨k, List.mem_filter.mpr ⟨List.mem_cons_of_mem _ hk, by simpa using hkp⟩, r, hr, hs, ha⟩
    · have hp' : p ∈ ps := (List.mem_cons.mp hp).resolve_left hq
      obtain ⟨u, before, after, ho, hm, hg, hd, hx, hb⟩ := ih (s.runProgram delivered q).1 hp' distinct.2
      have h2 := s.runProgram_other delivered q p hq
      refine ⟨u, (s.runProgram delivered q).2 ++ before, after, ?_, hm, hg, hd, ?_, ?_⟩
      · refine ⟨?_, ho.meter.trans h2.1, ho.gain.trans h2.2.1, ho.delay.trans h2.2.2,
          fun h => ho.canonical (s.runProgram_wf delivered q h), fun a ha => ?_⟩
        · have hf := ho.fields
          rw [State.runProgram_eq] at hf
          exact hf
        · refine (ho.cells a ?_).trans (s.runProgram_memory delivered q a
            (ha q List.mem_cons_self))
          intro k hk r layout l hr hl hlt
          have hkq : k ≠ q := fun e => distinct.1 (e ▸ hk)
          rw [s.runProgram_content delivered q k hkq] at hr
          rw [(s.runProgram_other delivered q k hkq).2.2] at hl ⊢
          have hc := ha k (List.mem_cons_of_mem _ hk) r layout l hr hl hlt
          rw [State.runProgram_eq]
          exact hc
      · show (s.runProgram delivered q).2 ++ _ = _
        rw [hx]
        simp only [List.append_assoc]
      · intro x hx
        rw [List.append_assoc, List.mem_append] at hx
        rcases hx with hx | hx
        · obtain ⟨r, hr, hs⟩ := s.runProgram_drives delivered q x hx
          exact ⟨q, List.mem_filter.mpr ⟨List.mem_cons_self, by simpa using fun e : q = p => hq e.symm⟩,
            r, hr, hs, s.runProgram_active delivered q x hx⟩
        · obtain ⟨k, hk, r, hr, hs, ha⟩ := hb x hx
          have hk' := List.mem_filter.mp hk
          have hkq : k ≠ q := fun e => distinct.1 (e ▸ hk'.1)
          rw [s.runProgram_content delivered q k hkq] at hr
          rw [s.runProgram_program delivered q k] at ha
          exact ⟨k, List.mem_filter.mpr ⟨List.mem_cons_of_mem _ hk'.1, hk'.2⟩, r, hr, hs, ha⟩

/-- The delay engine of an ACTIVE program as its reads see it. -/
def State.readingDelay (s : State) (p : Fin 16) : DelayEngine :=
  if (s.program p).active then s.delays[p].glide.fill.formSync else s.delays[p].fill

/-- The gain stage of a program after its first three steps (R93). -/
def State.readyGain (s : State) (p : Fin 16) : GainStage :=
  s.gains[p].prepare (s.readingDelay p).state ((s.readingDelay p).readReference s.clock.frames)

/-- The read-side samples of a program under its content in force, after its writes (R111 to R116). -/
def State.readSamples (s : State) (delivered : Vector (Vector Sample 8) 8) (p : Fin 16)
    (r : ProgramRecord) : List Sample :=
  let written := r.channels.map (s.writeSample delivered)
  (s.readingDelay p).readSide ((s.readingDelay p).writeSide s.memory s.clock.frames written)
    s.clock.frames written

/-- The work of an ACTIVE program at a house frame: what it makes of its own meter, delay engine and gain
stage, and the slots it drives. -/
theorem State.runProgram_of_active (s : State) (delivered : Vector (Vector Sample 8) 8) (p : Fin 16)
    (h : (s.program p).active = true) :
    (s.runProgram delivered p).1.meters[p] =
        s.meters[p].houseFrame ((s.program p).channels.map (s.writeSample delivered)) ∧
      (s.runProgram delivered p).1.delays[p] =
        ((s.readingDelay p).leaveStates (s.readyGain p).fade (s.readyGain p).selected
          ((s.readyGain p).finish (s.readSamples delivered p (s.program p))) s.clock.frames).1 ∧
      (s.runProgram delivered p).1.gains[p] =
        ((s.readingDelay p).leaveStates (s.readyGain p).fade (s.readyGain p).selected
          ((s.readyGain p).finish (s.readSamples delivered p (s.program p))) s.clock.frames).2 ∧
      (s.runProgram delivered p).2 =
        driven true (s.program p).channels
          ((s.readyGain p).outputs s.clock.frames s.tonePhase
            (s.readSamples delivered p (s.program p))) := by
  have hc : s.content p = some (s.program p) := by rw [State.content, if_pos h]
  have hd : s.readingDelay p = s.delays[p].glide.fill.formSync := by rw [State.readingDelay, if_pos h]
  unfold State.readyGain State.readSamples
  rw [hd]
  unfold State.runProgram
  rw [hc]
  simp only [h, if_true]
  unfold State.runActive
  simp [State.setMeter, State.setDelay, State.setGain]

/-- The work at a house frame of a program in its closing fade. -/
theorem State.runProgram_of_closing (s : State) (delivered : Vector (Vector Sample 8) 8) (p : Fin 16)
    (r : ProgramRecord) (h : (s.program p).active = false) (hc : s.content p = some r) :
    (s.runProgram delivered p).1.gains[p] =
        (s.readyGain p).finish (s.readSamples delivered p r) ∧
      (((s.readyGain p).finish (s.readSamples delivered p r)).closing = 0 →
        (s.runProgram delivered p).1.meters[p] = Meter.initial ∧
          (s.runProgram delivered p).1.delays[p] = DelayEngine.initial) ∧
      (((s.readyGain p).finish (s.readSamples delivered p r)).closing ≠ 0 →
        (s.runProgram delivered p).1.meters[p] = s.meters[p] ∧
          (s.runProgram delivered p).1.delays[p] = s.readingDelay p) ∧
      (s.runProgram delivered p).2 =
        driven false r.channels
          ((s.readyGain p).outputs s.clock.frames s.tonePhase (s.readSamples delivered p r)) := by
  have hd : s.readingDelay p = s.delays[p].fill := by rw [State.readingDelay, h]; rfl
  unfold State.readyGain State.readSamples
  rw [hd]
  unfold State.runProgram
  rw [hc]
  simp only [h, Bool.false_eq_true, if_false]
  unfold State.runClosing
  simp only
  refine ⟨?_, fun hz => ?_, fun hz => ?_, trivial⟩
  · split <;> simp [State.setMeter, State.setDelay, State.setGain]
  · rw [if_pos hz]
    simp [State.setMeter, State.setDelay, State.setGain]
  · rw [if_neg hz]
    simp [State.setDelay, State.setGain]

/-! ### The LINK_SLIP entries of a house frame -/

theorem State.handEvent_slip (s : State) (n : SlipNotice) :
    (s.handEvent .linkSlip (.link n.link) (.slip n.direction n.equivalent)).log = s.slipsLogged [n] := by
  unfold State.handEvent State.slipsLogged
  split <;> rename_i h
  · have hl : (s.policy.kind .linkSlip).edges = .log := by
      revert h
      cases (s.policy.kind .linkSlip).edges <;> simp [LogEdges.includes]
    rw [if_pos hl]
    rfl
  · have hl : (s.policy.kind .linkSlip).edges ≠ .log := by
      intro e
      rw [e] at h
      exact h rfl
    rw [if_neg hl]

/-- The log after a run of slip notices (R57, R153). -/
theorem State.takeNotices_log (s : State) (ns : List SlipNotice) :
    (s.takeNotices ns).log = s.slipsLogged ns := by
  induction ns generalizing s with
  | nil =>
    unfold State.slipsLogged
    split <;> rfl
  | cons n ns ih =>
    have h1 : (s.takeNotice n).log = s.slipsLogged [n] := (s.correctLanes n).handEvent_slip n
    show ((s.takeNotice n).takeNotices ns).log = _
    rw [ih]
    have hp : (s.takeNotice n).policy = s.policy := by
      unfold State.policy
      rw [State.takeNotice_eq]
    have hb : (s.takeNotice n).clock = s.clock := by rw [State.takeNotice_eq]
    have he : (s.takeNotice n).slipEntry = s.slipEntry := by
      funext m
      unfold State.slipEntry
      rw [hp, hb]
    unfold State.slipsLogged at h1 ⊢
    rw [hp, he, h1]
    split <;> rfl

theorem AlarmLog.handAll_append (log : AlarmLog) (xs ys : List Entry) :
    log.handAll (xs ++ ys) = (log.handAll xs).handAll ys := by
  induction xs generalizing log with
  | nil => rfl
  | cons x xs ih => exact ih _

theorem splitNotices_perm (c : Nat) (ns : List SlipNotice) :
    ((splitNotices c ns).1 ++ (splitNotices c ns).2).Perm ns := by
  induction ns generalizing c with
  | nil => exact List.Perm.refl _
  | cons n ns ih =>
    rw [splitNotices]
    split
    · exact (ih (c + 1)).cons n
    · exact List.perm_middle.trans ((ih (c + 1)).cons n)

theorem State.frameNotices_perm (s : State) :
    (s.frameNotices.1 ++ s.frameNotices.2).Perm
      ((List.finRange 8).filterMap fun l => (s.converters[l].houseFrame l (s.slipLater l)).2.2) := by
  have hs : slipsOf s.readConverters =
      (List.finRange 8).filterMap fun l => (s.converters[l].houseFrame l (s.slipLater l)).2.2 := by
    unfold slipsOf State.readConverters
    congr 1
    funext l
    simp
  rw [← hs]
  exact (splitNotices_perm _ _).trans (freeOrder_perm _ _)

/-- The log after a house frame: the LINK_SLIP entries of its slips, in a free order. -/
theorem State.houseFrame_log (s : State) :
    s.houseFrame.log = s.slipsLogged (s.frameNotices.1 ++ s.frameNotices.2) := by
  have e1 : s.houseFrame.log =
      ({ s.frameRun.1 with out := outputFrames s.frameRun.2 } : State).slipsLogged s.frameNotices.2 := by
    rw [State.houseFrame, State.settle_log, State.takeNotices_log]
  rw [e1]
  have h2 : s.frameRun.1.log = s.slipsLogged s.frameNotices.1 := by
    rw [State.frameRun, State.runPrograms_log, State.takeNotices_log]
    rfl
  have hp : ({ s.frameRun.1 with out := outputFrames s.frameRun.2 } : State).policy = s.policy := by
    unfold State.policy State.frameRun
    simp only [State.runPrograms_tables, State.takeNotices_tables]
    rfl
  have he : ({ s.frameRun.1 with out := outputFrames s.frameRun.2 } : State).slipEntry = s.slipEntry := by
    funext m
    unfold State.slipEntry
    rw [hp]
    unfold State.frameRun
    simp only [State.runPrograms_clock, State.takeNotices_clock]
    rfl
  unfold State.slipsLogged at h2 ⊢
  rw [hp, he, h2]
  split
  · rw [List.map_append, AlarmLog.handAll_append]
  · rfl

/-! ### One program at a house frame -/

/-- A house frame at one program: the state in which its work is done has the frame's slip notices that come
before the reads, and the work of the others that come before it; and what its work leaves is what the house
frame leaves, but for the notices taken after the reads. -/
theorem State.houseFrame_at (s : State) (p : Fin 16) :
    ∃ (u : State) (before after : List Driven),
      State.OthersRun (s.frameStarted.takeNotices s.frameNotices.1) (List.finRange 16) p u ∧
      s.houseFrame.meters[p] = (u.runProgram s.delivered p).1.meters[p] ∧
      s.houseFrame.gains[p] = (u.runProgram s.delivered p).1.gains[p] ∧
      s.frameRun.1.delays[p] = (u.runProgram s.delivered p).1.delays[p] ∧
      s.frameRun.2 = before ++ (u.runProgram s.delivered p).2 ++ after ∧
      State.DrivenBy (s.frameStarted.takeNotices s.frameNotices.1)
        ((List.finRange 16).filter (· != p)) (before ++ after) := by
  obtain ⟨u, before, after, ho, hm, hg, hd, hx, hb⟩ :=
    State.runPrograms_at (s.frameStarted.takeNotices s.frameNotices.1) s.delivered (List.finRange 16) p
      (List.mem_finRange p) (List.nodup_finRange 16)
  exact ⟨u, before, after, ho, by rw [State.houseFrame_meters]; exact hm,
    by rw [State.houseFrame_gains]; exact hg, hd, hx, hb⟩

/-- A slot of an assembled frame carries its sample (R25, R38). -/
theorem slotSample_audioFrame (v : Vector Sample 8) (y : Fin 8) : slotSample (audioFrame v) y = v[y] := by
  apply BitVec.eq_of_getLsbD_eq
  intro i hi
  unfold slotSample audioFrame
  obtain ⟨y, hy⟩ := y
  match y, hy with
  | 0, _ | 1, _ | 2, _ | 3, _ | 4, _ | 5, _ | 6, _ | 7, _ =>
    simp only [BitVec.getLsbD_extractLsb', BitVec.getLsbD_append, decide_eq_true hi, Bool.true_and]
    repeat first | rw [if_neg (by omega)] | rw [if_pos (by omega)]
    refine congrArg (BitVec.getLsbD _) ?_
    omega

/-! ## The samples that a program drives (R39, R94, R96, R99, R100) -/

/-- A program that names a slot once drives it with the sample of its channel. -/
theorem driven_find (active : Bool) (channels : List Channel) (samples : List Sample) (slot : Slot) (k : Nat)
    (c : Channel) (v : Sample) (hn : (channels.filterMap Channel.output).Nodup)
    (hc : channels[k]? = some c) (ho : c.output = some slot) (hv : samples[k]? = some v) :
    (driven active channels samples).find? (fun x => x.slot == slot) =
      some { active := active, slot := slot, sample := v } := by
  induction channels generalizing samples k with
  | nil => simp at hc
  | cons c0 cs ih =>
    cases samples with
    | nil => simp at hv
    | cons v0 vs =>
      cases k with
      | zero =>
        simp at hc hv; subst hc hv
        unfold driven
        simp [ho]
      | succ k =>
        simp at hc hv
        have hmem : slot ∈ cs.filterMap Channel.output :=
          List.mem_filterMap.mpr ⟨c, List.mem_of_getElem? hc, ho⟩
        cases h0 : c0.output with
        | none =>
          rw [List.filterMap_cons, h0] at hn
          have := ih vs k hn hc hv
          unfold driven at this ⊢
          simpa [h0] using this
        | some s0 =>
          rw [List.filterMap_cons, h0] at hn
          simp only [List.nodup_cons] at hn
          have hne : s0 ≠ slot := fun e => hn.1 (e ▸ hmem)
          have := ih vs k hn.2 hc hv
          unfold driven at this ⊢
          simp only [List.zip_cons_cons, List.filterMap_cons, h0, Option.map_some]
          rw [List.find?_cons]
          have hb : (s0 == slot) = false := by simpa using hne
          simp only [hb]
          exact this

/-- An output slot of the frame that a house frame starts carries what the crosspoint gives it. -/
theorem State.houseFrame_slot (s : State) (x y : Fin 8) :
    slotSample s.houseFrame.out[x] y = slotOutput s.frameRun.2 { link := x, slot := y } := by
  rw [State.houseFrame_out]
  unfold outputFrames
  simp only [Fin.getElem_fin, Vector.getElem_ofFn]
  rw [slotSample_audioFrame]
  simp

/-- A gain stage's output of a channel, from its read-side sample. -/
theorem GainStage.outputs_sends (g : GainStage) (frames phase k : Nat) (samples : List Sample) (v : Sample)
    (hv : samples[k]? = some v) :
    ∃ out, (g.outputs frames phase samples)[k]? = some out ∧ g.SendsChannel frames phase k v out := by
  refine ⟨channelOutput g.selected frames phase g.factor g.fade k v, ?_, fun h => ?_, fun h => ?_,
    fun h hf => ?_, fun h hf => ?_⟩
  · unfold GainStage.outputs channelOutputs
    simp [hv]
  · rw [h]
    rfl
  · rw [h]
    rfl
  · rw [h, hf]
    rfl
  · rw [h]
    show programOutput _ _ _ = _
    unfold programOutput
    rw [if_neg (show ¬ g.fade = Config.fadeFrames from hf)]
    rfl

/-! ## The relations of a house frame's work (R3, R111, R132, R133) -/

/-- Slip notices correct each program's lanes one after another (R132, R133). -/
theorem State.takeNotices_fold (s : State) (ns : List SlipNotice) (p : Fin 16) :
    (s.takeNotices ns).delays[p] =
      ns.foldl (fun d n => d.correct (s.program p) n) s.delays[p] := by
  induction ns generalizing s with
  | nil => rfl
  | cons n ns ih =>
    have h1 : (s.takeNotice n).delays[p] = s.delays[p].correct (s.program p) n := by
      rw [State.takeNotice_eq]
      simp [State.correctLanes]
    have h2 : (s.takeNotice n).program p = s.program p := by
      rw [State.takeNotice_eq]
      rfl
    show ((s.takeNotice n).takeNotices ns).delays[p] = _
    rw [ih, h1, h2]
    rfl

/-- The sample that the input crosspoint gives a channel (R3). -/
theorem State.writeSample_gives (s u : State) (h : u.tables = s.tables)
    (delivered : Vector (Vector Sample 8) 8) (c : Channel) :
    s.GivesChannel delivered c (u.writeSample delivered c) := by
  have hl : ∀ l, u.link l = s.link l := fun l => by unfold State.link; rw [h]
  unfold State.GivesChannel State.writeSample
  refine ⟨fun hc => ?_, fun x hx => ?_⟩
  · rw [hc]
  · rw [hx]
    simp only [hl]
    refine ⟨fun ⟨h1, h2⟩ => ?_, fun h1 => ?_⟩
    · rw [if_pos (by rw [h1, decide_eq_true h2]; rfl)]
    · rw [if_neg]
      rw [Bool.and_eq_true, decide_eq_true_iff]
      rintro ⟨h2, h3⟩
      rcases h1 with h1 | h1
      · rw [h1] at h2
        cases h2
      · omega

/-- A channel is given one sample (R3). -/
theorem State.GivesChannel.eq {s : State} {delivered : Vector (Vector Sample 8) 8} {c : Channel}
    {v w : Sample} (hv : s.GivesChannel delivered c v) (hw : s.GivesChannel delivered c w) : v = w := by
  cases hc : c.input with
  | none => exact (hv.1 hc).trans (hw.1 hc).symm
  | some x =>
    by_cases h : (s.link x.link).enable = true ∧ x.slot.val < (s.link x.link).slots
    · exact ((hv.2 x hc).1 h).trans ((hw.2 x hc).1 h).symm
    · have h' : (s.link x.link).enable = false ∨ (s.link x.link).slots ≤ x.slot.val := by
        cases he : (s.link x.link).enable
        · exact Or.inl rfl
        · exact Or.inr (Nat.le_of_not_lt fun hh => h ⟨he, hh⟩)
      exact ((hv.2 x hc).2 h').trans ((hw.2 x hc).2 h').symm

/-! ### What a program's work makes of its own state and of the memory -/

/-- A program that works at a house frame does what WorksFrame says, whatever others have worked before it. -/
theorem State.OthersRun.works {s u : State} {ps : List (Fin 16)} {p : Fin 16}
    (h : (s.frameStarted.takeNotices s.frameNotices.1).OthersRun ps p u)
    (r : ProgramRecord) (hc : s.content p = some r) :
    s.WorksFrame s.delivered s.frameNotices.1 p r (r.channels.map (u.writeSample s.delivered))
      (u.readSamples s.delivered p r) u.memory (u.readingDelay p) (u.readyGain p) := by
  have tables : u.tables = s.tables := by rw [h.fields, State.takeNotices_tables]; rfl
  have program : u.program p = s.program p := by unfold State.program; rw [tables]
  have frames : u.clock.frames = s.clock.frames + 1 := by rw [h.clock, State.takeNotices_clock]; rfl
  have gain : u.gains[p] = s.gains[p] := by rw [h.gain, State.takeNotices_gains]; rfl
  have delay : u.delays[p] =
      s.frameNotices.1.foldl (fun d n => d.correct (s.program p) n) s.delays[p] := by
    rw [h.delay, State.takeNotices_fold]
    rfl
  refine
    { content := hc
      count := List.length_map ..
      given := fun j c w hj hw => ?_
      active := fun ha => ?_
      closing := fun ha => ?_
      others := fun a ha => ?_
      canonical := fun hm => ?_
      reads := ?_
      gain := ?_ }
  · rw [List.getElem?_map, hj] at hw
    cases hw
    exact s.writeSample_gives u tables s.delivered c
  · have hr : r = s.program p := by
      rw [State.content, if_pos ha] at hc
      exact (Option.some.inj hc).symm
    rw [State.readingDelay, program, if_pos ha, hr, ← delay]
    exact DelayEngine.moves_frame _
  · have hd : u.delays[p] = s.delays[p] := by
      rw [h.delay]
      exact State.takeNotices_inactive s.frameStarted s.frameNotices.1 p ha
    rw [State.readingDelay, program, if_neg (by rw [ha]; decide), hd]
    rfl
  · refine (h.cells a fun q _ r' layout l hr' hl hlt => ?_).trans (by rw [State.takeNotices_memory]; rfl)
    rw [State.takeNotices_content, State.frameStarted_content] at hr'
    rw [State.takeNotices_clock]
    have hd := State.takeNotices_delay s.frameStarted s.frameNotices.1 q
    have e1 : ((s.frameStarted.takeNotices s.frameNotices.1).delays[q]).layout = s.delays[q].layout := by
      rw [hd]
      rfl
    have e2 : ((s.frameStarted.takeNotices s.frameNotices.1).delays[q]).capacity =
        s.delays[q].capacity := by
      rw [hd]
      rfl
    rw [e1] at hl
    have := ha q r' layout l hr' hl hlt
    unfold DelayEngine.cell at this ⊢
    rw [e2]
    exact this
  · refine h.canonical ?_
    rw [State.takeNotices_memory]
    exact hm
  · unfold State.readSamples
    rw [frames]
    exact DelayEngine.readSide_reads _ _ _ _
  · unfold State.readyGain
    rw [gain, frames]
    exact GainStage.prepare_prepares _ _ _

/-- A lane's cell reads the sample written to it, where no later lane has the same cell (R108, R111). -/
theorem DelayEngine.writeLanes_read (d : DelayEngine) (layout : Layout) (frame l i : Nat)
    (samples : List Sample) (w : Sample) (m : Memory) (hm : Memory.wf m = true)
    (hi : samples[i]? = some w)
    (alone : ∀ k, k < samples.length → d.cell layout (l + k) frame = d.cell layout (l + i) frame → k = i) :
    (d.writeLanes layout frame l samples m).read (d.cell layout (l + i) frame) = w := by
  induction samples generalizing l i m with
  | nil => simp at hi
  | cons x xs ih =>
    cases i with
    | zero =>
      cases hi
      show (d.writeLanes layout frame (l + 1) xs _).read _ = _
      rw [d.writeLanes_other layout frame (l + 1) _ xs _ fun k hk he => by
        have := alone (k + 1) (Nat.succ_lt_succ hk) (by rwa [show l + (k + 1) = l + 1 + k by omega])
        omega]
      exact Memory.read_write_same _ _ _ hm
    | succ i =>
      rw [show l + (i + 1) = l + 1 + i by omega]
      refine ih (l + 1) i _ (Memory.wf_write _ _ _ (Layout.cell_lt _ _ _) hm) hi fun k hk he => ?_
      have := alone (k + 1) (Nat.succ_lt_succ hk)
        (by rwa [show l + (k + 1) = l + 1 + k by omega, show l + (i + 1) = l + 1 + i by omega])
      omega

/-- The memory after a program's work (R111). -/
theorem State.runProgram_writes (s : State) (delivered : Vector (Vector Sample 8) 8) (p : Fin 16)
    (r : ProgramRecord) (hc : s.content p = some r) :
    (s.runProgram delivered p).1.memory =
      (s.readingDelay p).writeSide s.memory s.clock.frames
        (r.channels.map (s.writeSample delivered)) := by
  unfold State.runProgram
  rw [hc]
  simp only
  split <;> rename_i ha
  · have hr : s.readingDelay p = s.delays[p].glide.fill.formSync := by rw [State.readingDelay, if_pos ha]
    rw [hr]
    rfl
  · have hr : s.readingDelay p = s.delays[p].fill := by rw [State.readingDelay, if_neg ha]
    rw [hr]
    unfold State.runClosing
    simp only
    split <;> rfl

/-- A cell after the work of a list of programs, where only `p` of them writes it. -/
theorem State.runPrograms_writes (s : State) (delivered : Vector (Vector Sample 8) 8)
    (ps : List (Fin 16)) (p : Fin 16) (hp : p ∈ ps) (distinct : ps.Nodup) (a : Nat)
    (alone : ∀ q ∈ ps, q ≠ p → ∀ (r : ProgramRecord) (layout : Layout) (l : Nat),
      s.content q = some r → s.delays[q].layout = some layout → l < r.channels.length →
        s.delays[q].cell layout l s.clock.frames ≠ a) :
    ∃ u, s.OthersRun ps p u ∧
      Memory.read (s.runPrograms delivered ps).1.memory a =
        Memory.read (u.runProgram delivered p).1.memory a := by
  induction ps generalizing s with
  | nil => exact absurd hp List.not_mem_nil
  | cons q ps ih =>
    rw [List.nodup_cons] at distinct
    have kept : ∀ k ∈ ps, k ≠ p → ∀ (r : ProgramRecord) (layout : Layout) (l : Nat),
        (s.runProgram delivered q).1.content k = some r →
        (s.runProgram delivered q).1.delays[k].layout = some layout → l < r.channels.length →
          (s.runProgram delivered q).1.delays[k].cell layout l
            (s.runProgram delivered q).1.clock.frames ≠ a := by
      intro k hk hkp r layout l hr hl hlt
      have hkq : k ≠ q := fun e => distinct.1 (e ▸ hk)
      rw [s.runProgram_content delivered q k hkq] at hr
      rw [(s.runProgram_other delivered q k hkq).2.2] at hl ⊢
      have := alone k (List.mem_cons_of_mem _ hk) hkp r layout l hr hl hlt
      rw [State.runProgram_eq]
      exact this
    by_cases hq : p = q
    · subst hq
      refine ⟨s, State.OthersRun.refl s _ p, ?_⟩
      show Memory.read ((s.runProgram delivered p).1.runPrograms delivered ps).1.memory a = _
      exact State.runPrograms_memory _ _ _ distinct.2 a fun k hk =>
        kept k hk fun e => distinct.1 (e ▸ hk)
    · have hp' : p ∈ ps := (List.mem_cons.mp hp).resolve_left hq
      obtain ⟨u, ho, hr⟩ := ih (s.runProgram delivered q).1 hp' distinct.2 kept
      have h2 := s.runProgram_other delivered q p hq
      refine ⟨u, ⟨?_, ho.meter.trans h2.1, ho.gain.trans h2.2.1, ho.delay.trans h2.2.2,
          fun h => ho.canonical (s.runProgram_wf delivered q h), fun b hb => ?_⟩, hr⟩
      · have hf := ho.fields
        rw [State.runProgram_eq] at hf
        exact hf
      · refine (ho.cells b ?_).trans (s.runProgram_memory delivered q b (hb q List.mem_cons_self))
        intro k hk r layout l hr hl hlt
        have hkq : k ≠ q := fun e => distinct.1 (e ▸ hk)
        rw [s.runProgram_content delivered q k hkq] at hr
        rw [(s.runProgram_other delivered q k hkq).2.2] at hl ⊢
        have hc := hb k (List.mem_cons_of_mem _ hk) r layout l hr hl hlt
        rw [State.runProgram_eq]
        exact hc

/-- A lane's cell of a house frame holds its channel's sample afterwards (R108, R111). -/
theorem State.houseFrame_cell (s : State) (p : Fin 16) (r : ProgramRecord) (layout : Layout) (l : Nat)
    (c : Channel) (hm : s.MemoryCanonical) (hc : s.content p = some r)
    (hl : s.delays[p].layout = some layout) (hch : r.channels[l]? = some c)
    (alone : ∀ (q : Fin 16) (u : ProgramRecord) (other : Layout) (k : Nat),
      s.content q = some u → s.delays[q].layout = some other → k < u.channels.length →
      s.delays[q].cell other k (s.clock.frames + 1) =
        s.delays[p].cell layout l (s.clock.frames + 1) → q = p ∧ k = l) :
    ∃ u, State.OthersRun (s.frameStarted.takeNotices s.frameNotices.1) (List.finRange 16) p u ∧
      Memory.read s.houseFrame.memory (s.delays[p].cell layout l (s.clock.frames + 1)) =
        u.writeSample s.delivered c := by
  have shape : ∀ q : Fin 16,
      ((s.frameStarted.takeNotices s.frameNotices.1).delays[q]).layout = s.delays[q].layout ∧
      ((s.frameStarted.takeNotices s.frameNotices.1).delays[q]).capacity = s.delays[q].capacity := by
    intro q
    rw [State.takeNotices_delay s.frameStarted s.frameNotices.1 q]
    exact ⟨rfl, rfl⟩
  have frames : (s.frameStarted.takeNotices s.frameNotices.1).clock.frames = s.clock.frames + 1 := by
    rw [State.takeNotices_clock]
    rfl
  have cells : ∀ (q : Fin 16) (d : DelayEngine), d.capacity = s.delays[q].capacity →
      ∀ (other : Layout) (k frame : Nat), d.cell other k frame = s.delays[q].cell other k frame := by
    intro q d hd other k frame
    unfold DelayEngine.cell
    rw [hd]
  obtain ⟨u, ho, hr⟩ := State.runPrograms_writes (s.frameStarted.takeNotices s.frameNotices.1)
    s.delivered (List.finRange 16) p (List.mem_finRange p) (List.nodup_finRange 16)
    (s.delays[p].cell layout l (s.clock.frames + 1)) (by
      intro q _ hqp r' other k hr' hl' hk he
      rw [State.takeNotices_content, State.frameStarted_content] at hr'
      rw [(shape q).1] at hl'
      rw [frames, cells q _ (shape q).2] at he
      exact hqp (alone q r' other k hr' hl' hk he).1)
  refine ⟨u, ho, ?_⟩
  have hcu : u.content p = some r := by
    rw [ho.content, State.takeNotices_content]
    exact hc
  have hd : (u.readingDelay p).layout = s.delays[p].layout ∧
      (u.readingDelay p).capacity = s.delays[p].capacity := by
    rw [← (shape p).1, ← (shape p).2, ← ho.delay]
    unfold State.readingDelay
    split
    · exact u.delays[p].glide_layout
    · exact ⟨rfl, rfl⟩
  rw [State.houseFrame_memory]
  unfold State.frameRun
  rw [hr, State.runProgram_writes u _ p r hcu, ho.clock, frames]
  unfold DelayEngine.writeSide
  rw [hd.1, hl]
  simp only
  have hw := DelayEngine.writeLanes_read (u.readingDelay p) layout (s.clock.frames + 1) 0 l
    (r.channels.map (u.writeSample s.delivered)) (u.writeSample s.delivered c) u.memory
    (ho.canonical (by rw [State.takeNotices_memory]; exact hm))
    (by rw [List.getElem?_map, hch]; rfl)
    (fun k hk he => by
      rw [Nat.zero_add, Nat.zero_add, cells p _ hd.2, cells p _ hd.2] at he
      exact (alone p r layout k hc hl (by simpa using hk) he).2)
  rw [Nat.zero_add, cells p _ hd.2] at hw
  exact hw

/-- The delay engine after a house frame: what the work of the programs left, with the notices taken after the
reads. -/
theorem State.houseFrame_delay (s : State) (p : Fin 16) :
    s.houseFrame.delays[p] =
      s.frameNotices.2.foldl (fun d n => d.correct (s.program p) n) s.frameRun.1.delays[p] := by
  have ht : s.frameRun.1.tables = s.tables := by
    unfold State.frameRun
    rw [State.runPrograms_tables, State.takeNotices_tables]
    rfl
  have hp : s.frameRun.1.program p = s.program p := by
    generalize s.frameRun = x at ht
    unfold State.program
    rw [ht]
  rw [← hp]
  unfold State.houseFrame
  generalize s.frameRun = x
  rw [State.settle_delays]
  exact State.takeNotices_fold _ _ p

end Sys2Proof.Machine
end

