-- ==== Sys2Proof/Laws/Lanes.lean ====
section
/-! SUPPORT. The lanes of the delay engine: what every operation of the engine keeps of their layout, and
that the lanes of the contents in force lie apart in the delay memory. -/

namespace Sys2Proof.Machine

/-! ## The shape of an engine's lanes -/

/-- Two engines have the same layout, capacity and number of lanes, and the second is in BYPASS only where the
first is. -/
def DelayEngine.SameShape (d e : DelayEngine) : Prop :=
  e.layout = d.layout ∧ e.capacity = d.capacity ∧ e.lanes.length = d.lanes.length ∧
    (e.state = .bypass → d.state = .bypass)

theorem DelayEngine.SameShape.refl (d : DelayEngine) : d.SameShape d := ⟨rfl, rfl, rfl, id⟩

theorem DelayEngine.SameShape.trans {d e f : DelayEngine} (h : d.SameShape e) (k : e.SameShape f) :
    d.SameShape f :=
  ⟨k.1.trans h.1, k.2.1.trans h.2.1, k.2.2.1.trans h.2.2.1, fun x => h.2.2.2 (k.2.2.2 x)⟩

/-- An engine of the same shape is laid out for the same content. -/
theorem DelayEngine.LaidFor.of_shape {d e : DelayEngine} {r : ProgramRecord} (h : d.LaidFor r)
    (k : d.SameShape e) : e.LaidFor r := by
  obtain ⟨k1, k2, k3, k4⟩ := k
  refine ⟨fun hb => k1.trans (h.1 (k4 hb)), fun layout hl => ?_⟩
  obtain ⟨x, h1, h2, h3, h4⟩ := h.2 layout (k1.symm.trans hl)
  exact ⟨x, h1, h2, k2.trans h3, k3.trans h4⟩

theorem DelayEngine.initial_laid (r : ProgramRecord) : DelayEngine.initial.LaidFor r :=
  ⟨fun _ => rfl, fun _ h => nomatch h⟩

theorem DelayEngine.glide_shape (d : DelayEngine) : d.SameShape d.glide := by
  unfold DelayEngine.glide
  split
  · split <;> exact ⟨rfl, rfl, rfl, id⟩
  · exact .refl d

theorem DelayEngine.fill_shape (d : DelayEngine) : d.SameShape d.fill :=
  ⟨rfl, rfl, List.length_map .., id⟩

theorem DelayEngine.formSync_shape (d : DelayEngine) : d.SameShape d.formSync := ⟨rfl, rfl, rfl, id⟩

theorem DelayEngine.setCurrent_shape (d : DelayEngine) : d.SameShape d.setCurrent :=
  ⟨rfl, rfl, List.length_map .., id⟩

theorem DelayEngine.correct_shape (d : DelayEngine) (r : ProgramRecord) (n : SlipNotice) :
    d.SameShape (d.correct r n) := by
  unfold DelayEngine.correct
  split
  · exact ⟨rfl, rfl, List.length_mapIdx .., id⟩
  · exact .refl d

theorem DelayEngine.corrects_shape (d : DelayEngine) (r : ProgramRecord) (ns : List SlipNotice) :
    d.SameShape (ns.foldl (fun e n => e.correct r n) d) := by
  induction ns generalizing d with
  | nil => exact .refl d
  | cons n ns ih => exact (d.correct_shape r n).trans (ih _)

theorem DelayEngine.leaveStates_shape (d : DelayEngine) (level : Nat) (selected : Source) (g : GainStage)
    (frames : Nat) : d.SameShape (d.leaveStates level selected g frames).1 := by
  unfold DelayEngine.leaveStates
  split <;> rename_i h
  · exact .refl d
  · exact .refl d
  · exact .refl d
  · simp only
    split
    · exact ⟨rfl, rfl, rfl, fun hb => nomatch hb⟩
    · exact .refl d
  · split
    · refine ⟨rfl, rfl, List.length_map .., fun hb => ?_⟩
      unfold DelayEngine.jump at hb
      simp only at hb
      split at hb <;> cases hb
    · exact .refl d
  · simp only
    split
    · refine ⟨rfl, rfl, rfl, fun hb => ?_⟩
      unfold DelayEngine.endFadeIn at hb
      simp only at hb
      split at hb <;> cases hb
    · exact .refl d

theorem DelayEngine.takeTarget_shape (d : DelayEngine) (x : DelaySection) :
    d.SameShape (d.takeTarget x).1 := by
  unfold DelayEngine.takeTarget
  simp only
  split
  · exact ⟨rfl, rfl, rfl, id⟩
  · split
    · exact ⟨rfl, rfl, List.length_map .., id⟩
    · split
      · exact ⟨rfl, rfl, rfl, id⟩
      · unfold DelayEngine.takeJumpTarget DelayEngine.enterFadeOut
        simp only
        repeat' split
        all_goals first | exact ⟨rfl, rfl, rfl, id⟩ | exact ⟨rfl, rfl, rfl, fun hb => nomatch hb⟩

theorem DelayEngine.openBlock_shape (d : DelayEngine) (r : ProgramRecord) : d.SameShape (d.openBlock r) := by
  unfold DelayEngine.openBlock DelayEngine.decideStep DelayEngine.enterFadeOut
  split
  · split <;> rename_i h
    · have ne : d.state ≠ .bypass := by rcases h with h | h | h <;> rw [h] <;> decide
      simp only
      repeat' split
      all_goals
        refine ⟨rfl, rfl, rfl, fun hb => ?_⟩
        first | exact absurd hb ne | cases hb
    · exact .refl d
  · exact .refl d

/-! ## Layouts of contents -/

theorem ProgramRecord.usable_some (r : ProgramRecord) (x : DelaySection) (h : r.usable = some x) :
    r.delay = some x ∧ x.base ≤ x.limit ∧ r.channels.length ≤ x.limit + 1 - x.base := by
  unfold ProgramRecord.usable at h
  cases hd : r.delay with
  | none =>
    rw [hd] at h
    cases h
  | some y =>
    rw [hd] at h
    simp only at h
    split at h <;> rename_i hc
    · cases h
      simp only [DelaySection.claims, DelaySection.pages, Bool.and_eq_true, decide_eq_true_eq] at hc
      exact ⟨rfl, hc.1, of_decide_eq_true hc.2⟩
    · cases h

theorem layOut_laid (r : ProgramRecord) (x : DelaySection) (h : r.usable = some x) :
    (layOut r.channels.length x).LaidFor r := by
  refine ⟨(fun hb => nomatch hb), fun layout hl => ?_⟩
  cases hl
  exact ⟨x, h, rfl, rfl, List.length_replicate ..⟩

theorem startDelay_laid (r : ProgramRecord) : (startDelay r).LaidFor r := by
  unfold startDelay
  split <;> rename_i h
  · exact layOut_laid r _ h
  · exact DelayEngine.initial_laid r

/-- Two contents of the same layout are laid out alike. -/
theorem DelayEngine.LaidFor.of_sameLayout {d : DelayEngine} {old new : ProgramRecord} (h : d.LaidFor old)
    (hs : sameLayout old new = true) : d.LaidFor new := by
  refine ⟨h.1, fun layout hl => ?_⟩
  obtain ⟨x, h1, h2, h3, h4⟩ := h.2 layout hl
  unfold sameLayout at hs
  rw [h1] at hs
  cases hy : new.usable with
  | none =>
    rw [hy] at hs
    cases hs
  | some y =>
    rw [hy] at hs
    simp only [Bool.and_eq_true, beq_iff_eq] at hs
    obtain ⟨⟨e1, e2⟩, e3⟩ := hs
    refine ⟨y, rfl, ?_, h3, h4.trans e1⟩
    rw [h2, ← e1, ← e2, ← e3]

/-- An apply leaves a program that is ACTIVE after it with its lanes laid out for its new content. -/
theorem DelayEngine.apply_laid (d : DelayEngine) (old new : ProgramRecord) (hn : new.active = true)
    (h : old.active = true → d.LaidFor old) : (d.apply old new).1.LaidFor new := by
  unfold DelayEngine.apply
  rw [hn]
  cases ho : old.active
  · exact startDelay_laid new
  · have hd := h ho
    simp only
    cases hu : new.usable with
    | none =>
      simp only
      split <;> rename_i hb
      · exact ⟨hd.1, fun layout hl => by rw [hd.1 hb] at hl; cases hl⟩
      · exact DelayEngine.initial_laid new
    | some x =>
      simp only
      split <;> rename_i hs
      · exact (hd.of_sameLayout hs).of_shape (d.takeTarget_shape x)
      · exact layOut_laid new x hu

/-! ## The lanes lie apart -/

theorem DelaySection.limit_of_inRange (r : ProgramRecord) (x : DelaySection) (h : r.inRange = true)
    (hx : r.delay = some x) : x.limit ≤ 16383 := by
  unfold ProgramRecord.inRange at h
  simp only [Bool.and_eq_true] at h
  have hd := h.1.1.2
  rw [hx] at hd
  simp only [Option.all_some, DelaySection.inRange, Bool.and_eq_true, decide_eq_true_eq] at hd
  exact hd.1.1.1.2

/-- The cell of a lane's frame lies in the lane's own pages of its window (R107, R108). -/
theorem DelayEngine.LaidFor.cell {d : DelayEngine} {r : ProgramRecord} (h : d.LaidFor r)
    (hr : r.inRange = true) {layout : Layout} (hl : d.layout = some layout) {l : Nat}
    (hlt : l < r.channels.length) (frame : Nat) :
    ∃ (x : DelaySection) (i : Nat), r.delay = some x ∧ x.base ≤ x.limit ∧ 0 < layout.pages ∧
      layout.base = x.base ∧ layout.base + (l + 1) * layout.pages ≤ x.limit + 1 ∧
      i < layout.pages * 1024 ∧
      d.cell layout l frame = (layout.base + l * layout.pages) * 1024 + i := by
  obtain ⟨x, h1, h2, h3, _⟩ := h.2 layout hl
  obtain ⟨hd, hb, hn⟩ := r.usable_some x h1
  have hlim := DelaySection.limit_of_inRange r x hr hd
  have hp : layout.pages = (x.limit + 1 - x.base) / r.channels.length := by rw [h2]
  have hbase : layout.base = x.base := by rw [h2]
  have pos : 0 < layout.pages := by rw [hp]; exact Nat.div_pos hn (by omega)
  have fit : r.channels.length * layout.pages ≤ x.limit + 1 - x.base := by
    rw [hp]
    exact Nat.mul_div_le _ _
  have step : (l + 1) * layout.pages ≤ r.channels.length * layout.pages := Nat.mul_le_mul_right _ hlt
  have split : (l + 1) * layout.pages = l * layout.pages + layout.pages := by rw [Nat.succ_mul]
  refine ⟨x, frame % d.capacity, hd, hb, pos, hbase, by omega, ?_, ?_⟩
  · rw [h3]
    exact Nat.mod_lt _ (by omega)
  · have hi : frame % d.capacity < layout.pages * 1024 := by
      rw [h3]
      exact Nat.mod_lt _ (by omega)
    unfold DelayEngine.cell Layout.cell Config.cellsPerPage Config.memoryCells
    refine Nat.mod_eq_of_lt ?_
    generalize l * layout.pages = a at *
    omega

/-- Where the lanes are laid out, no two of them share a cell (R10, R107, R108). -/
theorem State.LanesLaidOut.alone {s : State} (h : s.LanesLaidOut) {p q : Fin 16} {r u : ProgramRecord}
    {layout other : Layout} {l k : Nat} (frame : Nat) (hp : s.content p = some r)
    (hl : s.delays[p].layout = some layout) (hlt : l < r.channels.length) (hq : s.content q = some u)
    (ho : s.delays[q].layout = some other) (hk : k < u.channels.length)
    (he : s.delays[q].cell other k frame = s.delays[p].cell layout l frame) : q = p ∧ k = l := by
  obtain ⟨x, i, hx, hxb, px, bx, ex, ix, cx⟩ := (h.laid p r hp).cell (h.ranged p r hp) hl hlt frame
  obtain ⟨y, j, hy, hyb, py, by', ey, iy, cy⟩ := (h.laid q u hq).cell (h.ranged q u hq) ho hk frame
  rw [cx, cy] at he
  have sx : (l + 1) * layout.pages = l * layout.pages + layout.pages := by rw [Nat.succ_mul]
  have sy : (k + 1) * other.pages = k * other.pages + other.pages := by rw [Nat.succ_mul]
  by_cases hpq : q = p
  · subst hpq
    rw [hp] at hq
    cases hq
    rw [hl] at ho
    cases ho
    refine ⟨rfl, ?_⟩
    rcases Nat.lt_trichotomy k l with hlt' | heq | hgt
    · have := Nat.mul_le_mul_right layout.pages (Nat.succ_le_of_lt hlt')
      rw [Nat.succ_mul] at this
      omega
    · exact heq
    · have := Nat.mul_le_mul_right layout.pages (Nat.succ_le_of_lt hgt)
      rw [Nat.succ_mul] at this
      omega
  · exfalso
    have hm := h.apart p q r u (Ne.symm hpq) hp hq
    unfold pagesMeet at hm
    rw [hx, hy] at hm
    have : x.meets y = true := by
      rw [DelaySection.meets_iff]
      refine ⟨(layout.base + l * layout.pages) + i / 1024, ⟨by omega, by omega⟩, ?_⟩
      omega
    have hm' : x.meets y = false := hm
    rw [this] at hm'
    cases hm'

/-! ## Every operation keeps the lanes laid out (R98, R107, R117, R118) -/

/-- A command that keeps the gain stages, the programs, the house frame count and the shape of the lanes. -/
theorem State.LanesLaidOut.of_shape {s t : State} (h : s.LanesLaidOut) (hg : t.gains = s.gains)
    (hf : t.clock.frames = s.clock.frames) (hb : t.clock.blocks = s.clock.blocks)
    (hp : ∀ p, t.program p = s.program p) (hd : ∀ p : Fin 16, s.delays[p].SameShape t.delays[p]) :
    t.LanesLaidOut := by
  have hc : ∀ p, t.content p = s.content p := fun p => by unfold State.content; rw [hp, hg]
  have due : t.clock.blockDue = s.clock.blockDue := by unfold Timebase.blockDue; rw [hf, hb]
  refine ⟨fun p r hr => ?_, fun p r hr => ?_, fun p q r u hpq hr hu => ?_, fun p => ?_, fun hx p => ?_⟩
  · exact h.ranged p r (hc p ▸ hr)
  · exact (h.laid p r (hc p ▸ hr)).of_shape (hd p)
  · exact h.apart p q r u hpq (hc p ▸ hr) (hc q ▸ hu)
  · rw [hg, hf, hp]
    exact h.closing p
  · rw [hg]
    exact h.closed (due ▸ hx) p

/-- A state in which no content is closing, whose ACTIVE programs hold contents that were in the tables before
and have their lanes laid out. -/
theorem State.lanesLaidOut_of_active (s : State) (t : Tables) (hd : t.ClaimsDisjoint) (hr : t.ProgramsInRange)
    (hp : ∀ p, s.program p ∈ t.programs[p].contents) (hg : ∀ p : Fin 16, s.gains[p].closing = 0)
    (hl : ∀ p : Fin 16, (s.program p).active = true → s.delays[p].LaidFor (s.program p)) :
    s.LanesLaidOut := by
  have hc : ∀ p r, s.content p = some r → r = s.program p ∧ (s.program p).active = true := by
    intro p r h
    unfold State.content at h
    split at h
    · rename_i ha
      exact ⟨(Option.some.inj h).symm, ha⟩
    · rw [if_neg (by rw [hg]; decide)] at h
      cases h
  refine ⟨fun p r h => ?_, fun p r h => ?_, fun p q r u hpq h k => ?_, fun p => Or.inl (hg p), fun _ p => hg p⟩
  · rw [(hc p r h).1]
    exact hr p _ (hp p)
  · rw [(hc p r h).1]
    exact hl p (hc p r h).2
  · rw [(hc p r h).1, (hc q u k).1]
    exact (hd.1 p q hpq _ (hp p) _ (hp q)).2

/-- The closing fade of a gain stage after an apply (R98). -/
theorem GainStage.takeApply_closing (g : GainStage) (first : Bool) (old new : ProgramRecord)
    (d : DelayEngine) (change : DelayChange) (frames : Nat) :
    (old.active = true → new.active = false →
      (g.takeApply first old new d change frames).closing = 480 ∧
        (g.takeApply first old new d change frames).closingContent = some old) ∧
    (old.active = false → new.active = true → (g.takeApply first old new d change frames).closing = 0) ∧
    (old.active = new.active → (g.takeApply first old new d change frames).closing = g.closing) := by
  have follow : ∀ x : GainStage, (x.followDelay d frames change).closing = x.closing ∧
      (x.followDelay d frames change).closingContent = x.closingContent := by
    intro x
    unfold GainStage.followDelay GainStage.jump
    repeat' split
    all_goals exact ⟨rfl, rfl⟩
  have app : ∀ x : GainStage,
      (old.active = true → new.active = false →
        (x.apply old new).closing = 480 ∧ (x.apply old new).closingContent = some old) ∧
      (old.active = false → new.active = true → (x.apply old new).closing = 0) ∧
      (old.active = new.active → (x.apply old new).closing = x.closing) := by
    intro x
    unfold GainStage.apply
    cases ho : old.active <;> cases hn : new.active
    · exact ⟨(fun h => nomatch h), (fun _ h => nomatch h), fun _ => rfl⟩
    · exact ⟨(fun h => nomatch h), fun _ _ => rfl, fun h => nomatch h⟩
    · exact ⟨fun _ _ => ⟨rfl, rfl⟩, (fun h => nomatch h), fun h => nomatch h⟩
    · refine ⟨(fun _ h => nomatch h), (fun h => nomatch h), fun _ => ?_⟩
      unfold GainStage.changeSource GainStage.changeLoudness GainStage.clampTo GainStage.rampTo
      simp only
      repeat' split
      all_goals rfl
  unfold GainStage.takeApply
  split
  · rw [(follow _).1, (follow _).2]
    exact app g
  · obtain ⟨a, b, c⟩ := app (g.followDelay d frames change)
    exact ⟨a, b, fun h => (c h).trans (follow g).1⟩

/-- The block-end work leaves the closing fade of a gain stage alone. -/
theorem State.blockGain_closing (s : State) (m : Meter) (p : Fin 16) :
    (s.blockGain m p).closing = s.gains[p].closing := by
  unfold State.blockGain
  split
  · unfold GainStage.law GainStage.steer GainStage.join GainStage.testOverload GainStage.rampTo
    simp only
    repeat' split
    all_goals rfl
  · rfl

/-- A block end that is due leaves the lanes of every content in force laid out. -/
theorem State.blockEnd_lanes (s : State) (hb : s.clock.blockDue = true) (hh : s.HouseCounted)
    (hd : s.tables.ClaimsDisjoint) (hr : s.tables.ProgramsInRange) (h : s.LanesLaidOut) :
    s.blockEnd.LanesLaidOut := by
  have newest : ∀ p, s.blockEnd.program p = s.tables.programs[p].newest := s.blockEnd_program
  have old : ∀ p, s.program p ∈ s.tables.programs[p].contents := fun p => by
    rw [Record.mem_contents]
    exact Or.inl rfl
  have frames : s.clock.frames % 4800 = 0 := by
    unfold Timebase.blockDue at hb
    simp only [Bool.and_eq_true, beq_iff_eq] at hb
    exact hb.1
  have gain : ∀ p : Fin 16,
      ((s.program p).active = true → (s.blockEnd.program p).active = false →
        s.blockEnd.gains[p].closing = 480 ∧ s.blockEnd.gains[p].closingContent = some (s.program p)) ∧
      ((s.program p).active = false ∨ (s.blockEnd.program p).active = true →
        s.blockEnd.gains[p].closing = 0) := by
    intro p
    obtain ⟨first, hg⟩ := s.blockEnd_gain p
    rw [hg]
    obtain ⟨a, b, c⟩ := GainStage.takeApply_closing (s.blockGain (s.blockMeter p) p) first (s.program p)
      (s.blockEnd.program p) (s.delays[p].apply (s.program p) (s.blockEnd.program p)).1
      (s.delays[p].apply (s.program p) (s.blockEnd.program p)).2 s.clock.frames
    refine ⟨a, fun hor => ?_⟩
    have zero := (s.blockGain_closing (s.blockMeter p) p).trans (h.closed hb p)
    cases ho : (s.program p).active <;> cases hn : (s.blockEnd.program p).active
    · exact (c (ho.trans hn.symm)).trans zero
    · exact b ho hn
    · rw [ho, hn] at hor
      rcases hor with h | h <;> cases h
    · exact (c (ho.trans hn.symm)).trans zero
  have content : ∀ p r, s.blockEnd.content p = some r →
      r ∈ s.tables.programs[p].contents ∧ s.blockEnd.delays[p].LaidFor r := by
    intro p r hc
    unfold State.content at hc
    have laid : ∀ e : DelayEngine, (s.delays[p].apply (s.program p) (s.blockEnd.program p)).1 = e →
        e.LaidFor r → s.blockEnd.delays[p].LaidFor r := by
      intro e he hl
      rw [State.blockEnd_delay, he]
      exact hl.of_shape ((e.openBlock_shape _).trans (DelayEngine.formSync_shape _))
    split at hc
    · rename_i hn
      cases hc
      refine ⟨by rw [newest]; exact Record.newest_mem_contents _, laid _ rfl ?_⟩
      refine DelayEngine.apply_laid _ _ _ hn fun ho => h.laid p _ ?_
      unfold State.content
      rw [if_pos ho]
    · rename_i hn
      have hn' : (s.blockEnd.program p).active = false := by simpa using hn
      cases ho : (s.program p).active
      · rw [if_neg (by rw [(gain p).2 (Or.inl ho)]; decide)] at hc
        cases hc
      · obtain ⟨a, b⟩ := (gain p).1 ho hn'
        rw [if_pos (by rw [a]; decide), b] at hc
        cases hc
        refine ⟨old p, laid { s.delays[p] with step := none } ?_ ?_⟩
        · unfold DelayEngine.apply
          rw [ho, hn']
        · refine (h.laid p _ ?_).of_shape ⟨rfl, rfl, rfl, id⟩
          unfold State.content
          rw [if_pos ho]
  refine ⟨fun p r hc => hr p r (content p r hc).1, fun p r hc => (content p r hc).2,
    fun p q r u hpq hc hk => (hd.1 p q hpq r (content p r hc).1 u (content q u hk).1).2, fun p => ?_,
    fun hdue => ?_⟩
  · rw [State.blockEnd_clock]
    simp only [frames]
    cases ho : (s.program p).active
    · exact Or.inl ((gain p).2 (Or.inl ho))
    · cases hn : (s.blockEnd.program p).active
      · obtain ⟨a, b⟩ := (gain p).1 ho hn
        exact Or.inr ⟨by omega, by rw [b]; rfl, rfl⟩
      · exact Or.inl ((gain p).2 (Or.inr hn))
  · exfalso
    rw [State.blockEnd_clock] at hdue
    unfold Timebase.blockDue at hb hdue
    simp only [Bool.and_eq_true, bne_iff_ne] at hb hdue
    rcases hh.1 with h1 | h1
    · exact hb.2 h1
    · exact hdue.2 h1.2

/-- The end of a gain stage's work and the jump keep the content of a closing fade, and take one frame from
it (R93, R98). -/
theorem GainStage.finish_closing (g : GainStage) (samples : List Sample) :
    (g.finish samples).closing = g.closing - 1 ∧
      ((g.finish samples).closing ≠ 0 → (g.finish samples).closingContent = g.closingContent) := by
  obtain ⟨_, a, b⟩ := g.finish_counted samples
  by_cases h : g.closing = 1
  · rw [a h, h]
    exact ⟨rfl, fun hn => absurd rfl hn⟩
  · rw [b h]
    refine ⟨rfl, fun _ => ?_⟩
    show (g.counted samples).closingContent = _
    rw [(g.counted_finishes samples).1]

theorem DelayEngine.leaveStates_closing (d : DelayEngine) (level : Nat) (selected : Source) (g : GainStage)
    (frames : Nat) :
    (d.leaveStates level selected g frames).2.closing = g.closing ∧
      (d.leaveStates level selected g frames).2.closingContent = g.closingContent := by
  have jump : ∀ n, (g.jump n).closing = g.closing ∧ (g.jump n).closingContent = g.closingContent := by
    intro n
    unfold GainStage.jump
    repeat' split
    all_goals exact ⟨rfl, rfl⟩
  unfold DelayEngine.leaveStates
  split
  · exact ⟨rfl, rfl⟩
  · exact ⟨rfl, rfl⟩
  · exact ⟨rfl, rfl⟩
  · exact ⟨rfl, rfl⟩
  · split
    · exact jump _
    · exact ⟨rfl, rfl⟩
  · exact ⟨rfl, rfl⟩

/-- The closing count of a program after a house frame, and the content of one that goes on. -/
theorem State.houseFrame_closing (s : State) (p : Fin 16) :
    (s.content p = none → s.houseFrame.gains[p] = s.gains[p]) ∧
      ∀ r, s.content p = some r →
        s.houseFrame.gains[p].closing = s.gains[p].closing - 1 ∧
          (s.houseFrame.gains[p].closing ≠ 0 →
            s.houseFrame.gains[p].closingContent = s.gains[p].closingContent) := by
  obtain ⟨u, _, _, ho, _, hg, _, _, _⟩ := s.houseFrame_at p
  have hug : u.gains[p] = s.gains[p] := by rw [ho.gain, State.takeNotices_gains]; rfl
  have hcu : u.content p = s.content p := by rw [ho.content, State.takeNotices_content]; rfl
  have hup : u.program p = s.program p := by
    rw [ho.program]
    unfold State.program
    rw [State.takeNotices_tables]
    rfl
  rw [hg]
  refine ⟨fun hc => ?_, fun r hc => ?_⟩
  · rw [u.runProgram_none s.delivered p (hcu.trans hc)]
    exact hug
  · have hready : (u.readyGain p).closing = s.gains[p].closing ∧
        (u.readyGain p).closingContent = s.gains[p].closingContent := by
      have := (GainStage.prepare_prepares u.gains[p] (u.readingDelay p).state
        ((u.readingDelay p).readReference u.clock.frames)).1
      unfold State.readyGain
      rw [this, hug]
      exact ⟨rfl, rfl⟩
    obtain ⟨f1, f2⟩ := (u.readyGain p).finish_closing (u.readSamples s.delivered p r)
    rw [hready.1] at f1
    rw [hready.2] at f2
    cases ha : (s.program p).active
    · rw [(u.runProgram_of_closing s.delivered p r (by rw [hup]; exact ha) (hcu.trans hc)).1]
      exact ⟨f1, f2⟩
    · have hr : r = u.program p := by
        unfold State.content at hc
        rw [if_pos ha] at hc
        rw [hup]
        exact (Option.some.inj hc).symm
      rw [(u.runProgram_of_active s.delivered p (by rw [hup]; exact ha)).2.2.1]
      obtain ⟨l1, l2⟩ := (u.readingDelay p).leaveStates_closing (u.readyGain p).fade (u.readyGain p).selected
        ((u.readyGain p).finish (u.readSamples s.delivered p (u.program p))) u.clock.frames
      rw [l1, l2, ← hr]
      exact ⟨f1, f2⟩

/-- The shape of a program's lanes through a house frame that keeps its content in force. -/
theorem State.houseFrame_shape (s : State) (p : Fin 16) (r : ProgramRecord)
    (hc : s.houseFrame.content p = some r) : s.content p = some r ∧
      s.delays[p].SameShape s.houseFrame.delays[p] := by
  have hp : s.houseFrame.program p = s.program p := by
    unfold State.program
    rw [State.houseFrame_tables]
    rfl
  obtain ⟨hn, hs⟩ := s.houseFrame_closing p
  obtain ⟨u, _, _, ho, _, hg, hd, _, _⟩ := s.houseFrame_at p
  have hcu : u.content p = s.content p := by rw [ho.content, State.takeNotices_content]; rfl
  have hup : u.program p = s.program p := by
    rw [ho.program]
    unfold State.program
    rw [State.takeNotices_tables]
    rfl
  have before : s.delays[p].SameShape u.delays[p] := by
    rw [ho.delay, State.takeNotices_fold]
    exact DelayEngine.corrects_shape _ _ _
  have after : s.frameRun.1.delays[p].SameShape s.houseFrame.delays[p] := by
    rw [State.houseFrame_delay]
    exact DelayEngine.corrects_shape _ _ _
  have reading : u.delays[p].SameShape (u.readingDelay p) := by
    unfold State.readingDelay
    split
    · exact ((DelayEngine.glide_shape _).trans (DelayEngine.fill_shape _)).trans (DelayEngine.formSync_shape _)
    · exact DelayEngine.fill_shape _
  cases ha : (s.program p).active
  · have hcp : s.content p = some r ∧ s.houseFrame.gains[p].closing ≠ 0 := by
      unfold State.content at hc
      rw [if_neg (by rw [hp, ha]; decide)] at hc
      split at hc <;> rename_i hpos
      · have hne : s.houseFrame.gains[p].closing ≠ 0 := by omega
        cases hx : s.content p with
        | none =>
          exfalso
          rw [hn hx] at hc hpos
          unfold State.content at hx
          rw [if_neg (by rw [ha]; decide), if_pos hpos, hc] at hx
          cases hx
        | some x =>
          obtain ⟨h1, h2⟩ := hs x hx
          rw [h2 hne] at hc
          refine ⟨?_, hne⟩
          unfold State.content at hx
          rw [if_neg (by rw [ha]; decide), if_pos (by omega), hc] at hx
          exact hx.symm
      · cases hc
    refine ⟨hcp.1, ?_⟩
    obtain ⟨r1, _, r3, _⟩ := u.runProgram_of_closing s.delivered p r (by rw [hup]; exact ha) (hcu.trans hcp.1)
    have hclosing := hcp.2
    rw [hg, r1] at hclosing
    rw [(r3 hclosing).2] at hd
    exact ((before.trans reading).trans (hd ▸ .refl _)).trans after
  · have hr : s.content p = some r := by
      unfold State.content at hc ⊢
      rw [if_pos (by rw [hp]; exact ha), hp] at hc
      rw [if_pos ha]
      exact hc
    refine ⟨hr, ?_⟩
    obtain ⟨_, r2, _⟩ := u.runProgram_of_active s.delivered p (by rw [hup]; exact ha)
    rw [r2] at hd
    refine (before.trans reading).trans (DelayEngine.SameShape.trans ?_ after)
    rw [hd]
    exact DelayEngine.leaveStates_shape _ _ _ _ _

/-- A house frame keeps the lanes laid out. -/
theorem State.houseFrame_lanes (s : State) (h : s.LanesLaidOut) :
    s.houseFrame.LanesLaidOut := by
  have frames : s.houseFrame.clock.frames = s.clock.frames + 1 := by
    rw [State.houseFrame_clock]
    rfl
  have left : ∀ p : Fin 16, s.houseFrame.gains[p].closing = 0 ∨
      s.gains[p].closing + s.clock.frames % 4800 ≤ 480 ∧
        s.houseFrame.gains[p].closing = s.gains[p].closing - 1 ∧
        s.houseFrame.gains[p].closingContent.isSome = true ∧ (s.houseFrame.program p).active = false := by
    intro p
    obtain ⟨hn, hs⟩ := s.houseFrame_closing p
    rcases h.closing p with h0 | ⟨h1, h2, hi⟩
    · cases hc : s.content p with
      | none => exact Or.inl (by rw [hn hc]; exact h0)
      | some r => exact Or.inl (by rw [(hs r hc).1, h0])
    · by_cases hz : s.gains[p].closing = 0
      · cases hc : s.content p with
        | none => exact Or.inl (by rw [hn hc]; exact hz)
        | some r => exact Or.inl (by rw [(hs r hc).1, hz])
      · obtain ⟨x, hx⟩ := Option.isSome_iff_exists.mp h2
        have hc : ∃ r, s.content p = some r := by
          unfold State.content
          split
          · exact ⟨_, rfl⟩
          · rw [if_pos (by omega)]
            exact ⟨x, hx⟩
        obtain ⟨r, hc⟩ := hc
        obtain ⟨a, b⟩ := hs r hc
        by_cases hl : s.houseFrame.gains[p].closing = 0
        · exact Or.inl hl
        · refine Or.inr ⟨h1, a, by rw [b hl]; exact h2, ?_⟩
          unfold State.program
          rw [State.houseFrame_tables]
          exact hi
  refine ⟨fun p r hc => ?_, fun p r hc => ?_, fun p q r u hpq hc hk => ?_, fun p => ?_, fun hdue p => ?_⟩
  · exact h.ranged p r (s.houseFrame_shape p r hc).1
  · obtain ⟨a, b⟩ := s.houseFrame_shape p r hc
    exact (h.laid p r a).of_shape b
  · exact h.apart p q r u hpq (s.houseFrame_shape p r hc).1 (s.houseFrame_shape q u hk).1
  · rcases left p with h0 | ⟨h1, h2, h3, hi⟩
    · exact Or.inl h0
    · by_cases hz : s.houseFrame.gains[p].closing = 0
      · exact Or.inl hz
      · refine Or.inr ⟨?_, h3, hi⟩
        rw [frames]
        omega
  · have hm : (s.clock.frames + 1) % 4800 = 0 := by
      unfold Timebase.blockDue at hdue
      rw [frames] at hdue
      simp only [Bool.and_eq_true, beq_iff_eq] at hdue
      exact hdue.1
    rcases left p with h0 | ⟨h1, h2, _, _⟩
    · exact h0
    · omega

end Sys2Proof.Machine
end

