-- ==== Sys2Proof/Laws/Levels.lean ====
section
/-! SUPPORT. The exact logarithms and powers: what the search `greatest` finds, and that the levels of R71,
the power factors of R68 and the gain factors of R91 are the rounded ones. -/

namespace Sys2Proof.Machine

/-- The search of the exact logarithms and powers: for a predicate that holds at `acc` and, above it, holds
below wherever it holds, it finds a number that the predicate admits and whose successor, within the range
searched, it does not. -/
theorem greatest_spec (p : Nat → Bool) (k acc : Nat) (h0 : p acc = true)
    (down : ∀ m n, acc ≤ m → m ≤ n → p n = true → p m = true) :
    acc ≤ greatest p k acc ∧ greatest p k acc < acc + 2 ^ k ∧ p (greatest p k acc) = true ∧
      (greatest p k acc + 1 < acc + 2 ^ k → p (greatest p k acc + 1) = false) := by
  induction k generalizing acc with
  | zero => exact ⟨Nat.le_refl _, Nat.lt_add_one _, h0, fun h => absurd h (by simp [greatest])⟩
  | succ k ih =>
    rw [greatest]
    have h2 : 2 ^ (k + 1) = 2 ^ k + 2 ^ k := by rw [Nat.pow_succ]; omega
    split <;> rename_i hp
    · obtain ⟨a, b, c, d⟩ := ih (acc + 2 ^ k) hp (fun m n hm => down m n (Nat.le_trans (Nat.le_add_right _ _) hm))
      exact ⟨by omega, by omega, c, fun h => d (by omega)⟩
    · obtain ⟨a, b, c, d⟩ := ih acc h0 down
      refine ⟨a, by omega, c, fun _ => ?_⟩
      by_cases hlt : greatest p k acc + 1 < acc + 2 ^ k
      · exact d hlt
      · have : greatest p k acc + 1 = acc + 2 ^ k := by omega
        rw [this]
        exact Bool.eq_false_iff.mpr hp

/-- The powers that reach a level reach every lower one. -/
theorem reachesLevel_down (power : Nat) (a b : Int) (h : a ≤ b) (hb : reachesLevel power b = true) :
    reachesLevel power a = true := by
  unfold reachesLevel at hb ⊢
  simp only at hb ⊢
  by_cases h1 : 0 ≤ 2 * b - 1
  · rw [if_pos h1] at hb
    have hb := of_decide_eq_true hb
    by_cases h2 : 0 ≤ 2 * a - 1
    · rw [if_pos h2]
      apply decide_eq_true
      refine Nat.le_trans (Nat.mul_le_mul_right _ ?_) hb
      exact Nat.pow_le_pow_right (by decide) (by omega)
    · rw [if_neg h2]
      apply decide_eq_true
      refine Nat.le_trans ?_ (Nat.le_mul_of_pos_right _ (Nat.pow_pos (by decide)))
      exact Nat.le_trans (Nat.le_mul_of_pos_left _ (Nat.pow_pos (by decide))) hb
  · rw [if_neg h1] at hb
    have hb := of_decide_eq_true hb
    rw [if_neg (by omega)]
    apply decide_eq_true
    exact Nat.le_trans hb (Nat.mul_le_mul_left _ (Nat.pow_le_pow_right (by decide) (by omega)))

/-- A level is reached as the powers of ten of R71 compare. -/
theorem reachesLevel_iff (power : Nat) (level : Int) :
    reachesLevel power level = true ↔ tenPowerBelow (2 * level - 1) ((2 ^ 40) ^ 200) (power ^ 200) := by
  have e : ((2 ^ 200) ^ 40 : Nat) = (2 ^ 40) ^ 200 := Nat.pow_right_comm 2 200 40
  unfold reachesLevel tenPowerBelow
  simp only [e]
  by_cases h : 0 ≤ 2 * level - 1
  · rw [if_pos h, decide_eq_true_iff]
    have : (-(2 * level - 1)).toNat = 0 := by omega
    rw [this, Nat.pow_zero, Nat.mul_one, Nat.mul_comm]
  · rw [if_neg h, decide_eq_true_iff]
    have : (2 * level - 1).toNat = 0 := by omega
    rw [this, Nat.pow_zero, Nat.mul_one]

theorem levelOf_floored : LevelsFloored := by
  intro power hp
  have hd : ∀ m n : Nat, 0 ≤ m → m ≤ n → reachesLevel power ((n : Int) - 1000) = true →
      reachesLevel power ((m : Int) - 1000) = true := fun m n _ hmn h =>
    reachesLevel_down power _ _ (by omega) h
  by_cases h0 : reachesLevel power (((0 : Nat) : Int) - 1000) = true
  · obtain ⟨a, b, c, d⟩ := greatest_spec (fun n => reachesLevel power ((n : Int) - 1000)) 11 0 h0 hd
    unfold levelOf
    generalize greatest (fun n => reachesLevel power ((n : Int) - 1000)) 11 0 = g at a b c d ⊢
    refine ⟨by omega, fun _ => (reachesLevel_iff _ _).mp c, fun h => ?_⟩
    have e : 2 * ((g : Int) - 1000) + 1 = 2 * (((g + 1 : Nat) : Int) - 1000) - 1 := by omega
    rw [e] at h
    have hr := (reachesLevel_iff power _).mpr h
    by_cases hg : g + 1 < 0 + 2 ^ 11
    · have := d hg
      rw [this] at hr
      cases hr
    · have hmax : reachesLevel power 152 = true := reachesLevel_down power _ _ (by omega) hr
      rw [reachesLevel_iff] at hmax
      unfold tenPowerBelow at hmax
      have h2 : power ^ 200 ≤ (2 ^ 45) ^ 200 := Nat.pow_le_pow_left (by omega) _
      have h3 : (2 ^ 40) ^ 200 * 10 ^ (2 * (152 : Int) - 1).toNat ≤
          (2 ^ 45) ^ 200 * 10 ^ (-(2 * (152 : Int) - 1)).toNat :=
        Nat.le_trans hmax (Nat.mul_le_mul_right _ h2)
      revert h3
      decide +kernel
  · have hz : levelOf power = -1000 := by
      unfold levelOf
      have : ∀ k, greatest (fun n => reachesLevel power ((n : Int) - 1000)) k 0 = 0 := by
        intro k
        induction k with
        | zero => rfl
        | succ k ih =>
          rw [greatest, if_neg ?_]
          · exact ih
          · intro h
            exact h0 (hd 0 _ (Nat.le_refl _) (Nat.zero_le _) h)
      rw [this]
      rfl
    rw [hz]
    refine ⟨by decide, fun h => absurd h (by decide), fun h => ?_⟩
    have e : (2 * (-1000) + 1 : Int) = 2 * (-999) - 1 := by decide
    rw [e] at h
    have hr := (reachesLevel_iff power (-999)).mpr h
    exact h0 (reachesLevel_down power _ _ (by decide) hr)

theorem powerFactor_rounded : PowerFactorsRounded := by
  intro j h1 h2
  have h3 : ∀ i : Fin 25, tenPowerBelow (-((i.val : Int) - 12)) ((2 * powerFactor ((i.val : Int) - 12) - 1) ^ 20) ((2 ^ 17) ^ 20) ∧
      ¬ tenPowerBelow (-((i.val : Int) - 12)) ((2 * powerFactor ((i.val : Int) - 12) + 1) ^ 20) ((2 ^ 17) ^ 20) := by
    unfold tenPowerBelow
    decide +kernel
  have := h3 ⟨(j + 12).toNat, by omega⟩
  have e : (((j + 12).toNat : Nat) : Int) - 12 = j := by omega
  simp only [e] at this
  exact this

/-! ## The factors of gains (R91) -/

/-- The search of R91 is for the greatest number that its rounding admits. -/
theorem gainFactor_rounded : GainFactorsRounded := by
  intro g h1 h2
  have down : ∀ m n : Nat, 0 ≤ m → m ≤ n →
      decide ((2 * n - 1) ^ 2000 * 10 ^ (-g).toNat ≤ (2 ^ 21) ^ 2000 * 10 ^ g.toNat) = true →
      decide ((2 * m - 1) ^ 2000 * 10 ^ (-g).toNat ≤ (2 ^ 21) ^ 2000 * 10 ^ g.toNat) = true := by
    intro m n _ hmn h
    rw [decide_eq_true_iff] at h ⊢
    exact Nat.le_trans (Nat.mul_le_mul_right _ (Nat.pow_le_pow_left (by omega) _)) h
  have zero : decide ((2 * 0 - 1) ^ 2000 * 10 ^ (-g).toNat ≤ (2 ^ 21) ^ 2000 * 10 ^ g.toNat) = true := by
    have : ∀ k : Nat, 0 < k → (2 * 0 - 1) ^ k = 0 := fun k hk => Nat.zero_pow hk
    rw [this _ (by decide), Nat.zero_mul]
    exact decide_eq_true (Nat.zero_le _)
  obtain ⟨_, b, c, d⟩ := greatest_spec
    (fun n => decide ((2 * n - 1) ^ 2000 * 10 ^ (-g).toNat ≤ (2 ^ 21) ^ 2000 * 10 ^ g.toNat)) 32 0 zero
    down
  have above : decide ((2 * 2 ^ 31 - 1) ^ 2000 * 10 ^ (-g).toNat ≤ (2 ^ 21) ^ 2000 * 10 ^ g.toNat) =
      false := by
    rw [decide_eq_false_iff_not]
    intro h
    have h3 : (2 ^ 31) ^ 2000 ≤ (2 ^ 21) ^ 2000 * (2 ^ 4) ^ 2000 :=
      Nat.le_trans (Nat.pow_le_pow_left (by decide) 2000)
        (Nat.le_trans (Nat.le_mul_of_pos_right _ (Nat.pow_pos (by decide)))
          (Nat.le_trans h (Nat.mul_le_mul_left _
            (Nat.le_trans (Nat.pow_le_pow_right (by decide) (show g.toNat ≤ 2000 by omega))
              (Nat.pow_le_pow_left (by decide) 2000)))))
    have less : ∀ k : Nat, k ≠ 0 → ¬ (2 ^ 31) ^ k ≤ (2 ^ 21) ^ k * (2 ^ 4) ^ k := by
      intro k hk
      rw [← Nat.mul_pow]
      exact Nat.not_le.mpr (Nat.pow_lt_pow_left (by decide) hk)
    exact less 2000 (by decide) h3
  have upper : gainFactor g < 2 ^ 31 := by
    apply Classical.byContradiction
    intro h
    rw [down (2 ^ 31) (gainFactor g) (Nat.zero_le _) (Nat.le_of_not_lt h) c] at above
    cases above
  unfold tenPowerBelow
  rw [show (-(-g)).toNat = g.toNat by rw [Int.neg_neg]]
  refine ⟨of_decide_eq_true c, ?_⟩
  have hd := d (by
    have : gainFactor g + 1 < 0 + 2 ^ 32 := by omega
    exact this)
  have e : 2 * gainFactor g + 1 = 2 * (gainFactor g + 1) - 1 := by omega
  rw [e]
  exact of_decide_eq_false hd

theorem gainFactor_least : gainFactor (-2000) = 104858 := by decide +kernel

theorem gainFactor_most : gainFactor 2000 = 10485760 := by decide +kernel

end Sys2Proof.Machine
end

