-- ==== Sys2Proof/Laws/Meters.lean ====
section
/-! SUPPORT. The meters: a house frame of a channel, the histogram, the integrated level and the block-end
work. -/

namespace Sys2Proof.Machine

/-- One house frame of a channel's meter (R65 to R67). -/
theorem ChannelMeter.take_takes (m : ChannelMeter) (x : Sample) : m.Takes x (m.take x) :=
  ⟨_, _, rfl, rfl, rfl⟩

/-- The records of a histogram (R72, R73). -/
theorem recordPower_recorded (h : Vector Bin 170) (level : Int) (power : Nat) :
    Recorded h level power (recordPower h level power) := by
  refine ⟨fun hl => by rw [recordPower, if_pos hl], fun hl i hi => ?_⟩
  have hb : binOf level = i := Fin.ext hi.symm
  have hr : recordPower h level power =
      (if h[i].count = 65535 then Vector.ofFn fun k : Fin 170 => h[k].halve else h).set i
        { count := (if h[i].count = 65535 then Vector.ofFn fun k : Fin 170 => h[k].halve else h)[i].count + 1
          energy := (if h[i].count = 65535 then Vector.ofFn fun k : Fin 170 => h[k].halve else h)[i].energy
            + power } := by
    rw [recordPower, if_neg (by omega)]
    simp only [hb]
  refine ⟨fun hc => by rw [hr]; simp only [if_neg hc], fun hc => ?_⟩
  rw [hr]
  simp only [if_pos hc]
  have hh : ∀ k : Fin 170, (Vector.ofFn fun k : Fin 170 => h[k].halve)[k] = h[k].halve := by
    intro k
    simp
  constructor
  · have : h[i].halve = { count := 32767, energy := h[i].energy / 2 } := by
      rw [Bin.halve, hc]
      rfl
    simp only [hh, this]
    simp
  · intro k hk
    have hne : i.val ≠ k.val := fun e => hk (Fin.ext e.symm)
    simp only [Fin.getElem_fin, Vector.getElem_set, if_neg hne, Vector.getElem_ofFn]
    unfold Bin.halve
    split <;> rename_i hz
    · exact ⟨hz.symm, rfl⟩
    · exact ⟨rfl, rfl⟩

/-- The integrated level of a histogram (R74, R75). -/
theorem integratedLevel_integrated (h : Vector Bin 170) : Integrated h (integratedLevel h) := by
  refine ⟨fun hc => ?_, fun hc gate hg => ?_⟩
  · have hz : countFrom h 0 = 0 := hc
    rw [integratedLevel, if_pos hz]
    rfl
  · have hz : countFrom h 0 ≠ 0 := Nat.ne_of_gt hc
    subst hg
    rw [integratedLevel, if_neg hz]
    rfl

/-- A running meter's work at a block end (R67 to R76). -/
theorem Meter.blockEnd_closes (m : Meter) (channels : List Channel) :
    m.ClosesBlock channels (m.blockEnd channels) := by
  have hring : (m.blockEnd channels).ring = lastN 30 (m.ring ++ [m.blockPower channels]) := rfl
  have hblock : m.blockPower channels =
      (List.zipWith
        (fun (c : Channel) (x : ChannelMeter) =>
          match c.weight with
          | .excluded => 0
          | .steps j => powerFactor j * (x.energy / 307200) / 2 ^ 16) channels m.channels).sum := rfl
  refine ⟨hring.trans (congrArg (fun x => lastN 30 (m.ring ++ [x])) hblock), rfl, ?_, recordPower_recorded _ _ _, integratedLevel_integrated _,
    rfl, rfl⟩
  have hw : windowPower (lastN 30 (m.ring ++ [m.blockPower channels])) 30 =
      (lastN 30 (m.ring ++ [m.blockPower channels])).sum /
        (lastN 30 (m.ring ++ [m.blockPower channels])).length := by
    unfold windowPower
    have : lastN 30 (lastN 30 (m.ring ++ [m.blockPower channels])) =
        lastN 30 (m.ring ++ [m.blockPower channels]) := by
      generalize m.ring ++ [m.blockPower channels] = xs
      unfold lastN
      rw [List.length_drop]
      have : xs.length - (xs.length - 30) - 30 = 0 := by omega
      rw [this]
      rfl
    rw [this]
  show measuredLevel (windowPower _ 30) = _
  rw [hw]
  rfl

/-- The levels of the meters start unmeasured. -/
theorem rechannel_length (old new : List Channel) (ms : List ChannelMeter) :
    (rechannel old new ms).length = new.length := by
  induction new generalizing old ms with
  | nil => cases old <;> simp [rechannel]
  | cons x xs ih =>
    cases old <;> cases ms <;> simp [rechannel, ih]

end Sys2Proof.Machine
end

