-- ==== Sys2Proof/Laws/PerInstr.lean ====
section
/-! SUPPORT. Family ReleaseSpells: the bits of a well-formed command spell the outcome its row stands
for (R179). -/

namespace Sys2Proof.Laws.ReleaseSpells

/-- The bits of a well-formed command spell its outcome. -/
def Statement (i : Instr) : Prop := i.wellFormed = true → i.spells = true

theorem powerOnReset : Statement .powerOnReset := fun _ => rfl
theorem warmResetAssert : Statement .warmResetAssert := fun _ => rfl
theorem warmResetRelease : Statement .warmResetRelease := fun _ => rfl
theorem frameArrival (link : Fin 8) (frame : BitVec 256) : Statement (.frameArrival link frame) :=
  fun _ => rfl
theorem receiverAbsenceExpiry (link : Fin 8) : Statement (.receiverAbsenceExpiry link) := fun _ => rfl
theorem refPulse : Statement .refPulse := fun _ => rfl
theorem refAbsenceExpiry : Statement .refAbsenceExpiry := fun _ => rfl
theorem houseFrame : Statement .houseFrame := fun _ => rfl
theorem blockEnd : Statement .blockEnd := fun _ => rfl
theorem selectAssert (q : Port) : Statement (.selectAssert q) := fun _ => rfl
theorem null (q : Port) (sdi : List Bool) : Statement (.null q sdi) := fun h => h
theorem unknown (q : Port) (sdi : List Bool) : Statement (.unknown q sdi) := fun h => h
theorem length (q : Port) (sdi : List Bool) : Statement (.length q sdi) := fun h => h
theorem pendingTransactionEnd (q : Port) (sdi : List Bool) :
    Statement (.pendingTransactionEnd q sdi) := fun _ => rfl

/-- A request whose body has the required length spells its outcome. -/
theorem of_request (i : Instr) (code : RequestCode) (surplus : List Bool)
    (houtcome : i.outcome = some (.request code i.body))
    (hsdi : i.sdi = requestBits code i.body surplus)
    (fits : i.body.length < 65536) (required : requiredLength code i.body = some i.body.length) :
    Statement i := by
  intro _
  simp only [Instr.spells, houtcome, hsdi, classify_requestBits code i.body surplus fits required]
  exact beq_self_eq_true _

theorem identify (q : Port) (surplus : List Bool) : Statement (.identify q surplus) :=
  of_request _ .identify surplus rfl rfl (by simp [Instr.body]) rfl
theorem readProgram (q : Port) (p : Byte) (surplus : List Bool) :
    Statement (.readProgram q p surplus) :=
  of_request _ .readProgram surplus rfl rfl (by simp [Instr.body]) rfl
theorem writeProgram (q : Port) (p : Byte) (revision : BitVec 16) (record : List Byte)
    (surplus : List Bool) : Statement (.writeProgram q p revision record surplus) := by
  intro h
  have h2 := requiredLength_writeProgram p revision record h
  exact of_request _ .writeProgram surplus rfl rfl h2.1 h2.2 h
theorem setDelay (q : Port) (p : Byte) (frames : BitVec 32) (surplus : List Bool) :
    Statement (.setDelay q p frames surplus) :=
  of_request _ .setDelay surplus rfl rfl (by simp [Instr.body]) rfl
theorem setTarget (q : Port) (p : Byte) (tenths : BitVec 16) (surplus : List Bool) :
    Statement (.setTarget q p tenths surplus) :=
  of_request _ .setTarget surplus rfl rfl (by simp [Instr.body]) rfl
theorem readMeter (q : Port) (p : Byte) (surplus : List Bool) : Statement (.readMeter q p surplus) :=
  of_request _ .readMeter surplus rfl rfl (by simp [Instr.body]) rfl
theorem resetMeter (q : Port) (p : Byte) (surplus : List Bool) :
    Statement (.resetMeter q p surplus) :=
  of_request _ .resetMeter surplus rfl rfl (by simp [Instr.body]) rfl
theorem readLink (q : Port) (l : Byte) (surplus : List Bool) : Statement (.readLink q l surplus) :=
  of_request _ .readLink surplus rfl rfl (by simp [Instr.body]) rfl
theorem writeLink (q : Port) (l : Byte) (revision : BitVec 16) (e n b : Byte) (k : KindSet)
    (surplus : List Bool) : Statement (.writeLink q l revision e n b k surplus) :=
  of_request _ .writeLink surplus rfl rfl (by simp [Instr.body]) rfl
theorem readPolicy (q : Port) (surplus : List Bool) : Statement (.readPolicy q surplus) :=
  of_request _ .readPolicy surplus rfl rfl (by simp [Instr.body]) rfl
theorem writePolicy (q : Port) (revision : BitVec 16) (record : List Byte) (surplus : List Bool) :
    Statement (.writePolicy q revision record surplus) := by
  intro h
  have hlen : record.length = 74 := by simpa [Instr.wellFormed] using h
  refine of_request _ .writePolicy surplus rfl rfl ?_ ?_ h
  · simp [Instr.body, hlen]
  · simp [Instr.body, requiredLength, hlen]
theorem readConditions (q : Port) (surplus : List Bool) : Statement (.readConditions q surplus) :=
  of_request _ .readConditions surplus rfl rfl (by simp [Instr.body]) rfl
theorem fetchAlarms (q : Port) (n : Byte) (surplus : List Bool) :
    Statement (.fetchAlarms q n surplus) :=
  of_request _ .fetchAlarms surplus rfl rfl (by simp [Instr.body]) rfl
theorem setAttention (q : Port) (mask : KindSet) (threshold : Byte) (surplus : List Bool) :
    Statement (.setAttention q mask threshold surplus) :=
  of_request _ .setAttention surplus rfl rfl (by simp [Instr.body]) rfl
theorem portReset (q : Port) (surplus : List Bool) : Statement (.portReset q surplus) :=
  of_request _ .portReset surplus rfl rfl (by simp [Instr.body]) rfl
theorem attendanceExpiry (q : Port) : Statement (.attendanceExpiry q) := fun _ => rfl
theorem frameSyncMark (link : Fin 8) : Statement (.frameSyncMark link) := fun _ => rfl
theorem selectSeenReleased (q : Port) : Statement (.selectSeenReleased q) := fun _ => rfl

end Sys2Proof.Laws.ReleaseSpells
end

