-- ==== Sys2Proof/Laws/Ports.lean ====
section
/-! SUPPORT. The release that ends a transaction, once for all rows: what it leaves of the port, the log
and the output pins, whatever the input carried; and that what it accepts is in range. -/

namespace Sys2Proof.Machine

theorem Port.eq_or_other (q r : Port) : r = q ∨ r = Port.other q := by
  cases q <;> cases r <;> simp [Port.other]

@[simp] theorem Pair.get_set_toOther {α : Type} (x : Pair α) (q : Port) (v : α) :
    (x.set q v).get (Port.other q) = x.get (Port.other q) :=
  Pair.get_set_other x v (Port.other_ne q)

@[simp] theorem State.port_setPort_toOther (s : State) (q : Port) (v : ControlPort) :
    (s.setPort q v).port (Port.other q) = s.port (Port.other q) :=
  State.port_setPort_other s v (Port.other_ne q)

@[simp] theorem State.place_setPlace_toOther (s : State) (q : Port) (v : LogPort) :
    (s.setPlace q v).place (Port.other q) = s.place (Port.other q) :=
  State.place_setPlace_other s v (Port.other_ne q)

/-! ## The settled outputs -/

/-- The monitored flag of an instance, by the records (R154). -/
theorem Tables.monitored_iff (t : Tables) (i : Fin 129) : t.monitored i = true ↔ t.MonitorsByRecord i := by
  have hi := i.isLt
  unfold Tables.MonitorsByRecord Tables.monitored
  by_cases h0 : i.val = 0
  · have hs : conditionSubject i = .device := if_pos h0
    rw [hs]
    simp only
    constructor
    · intro h
      exact Or.inl ⟨h0, h⟩
    · rintro (⟨_, h⟩ | ⟨l, k, _, h, _⟩ | ⟨p, k, _, _, h, _⟩)
      · exact h
      · omega
      · omega
  · by_cases h1 : i.val < 17
    · have hs : conditionSubject i = .link ⟨(i.val - 1) / 2 % 8, by omega⟩ := by
        unfold conditionSubject
        rw [if_neg h0, if_pos h1]
      have hk : (conditionKind i).code = 1 + (i.val - 1) % 2 := by
        unfold conditionKind
        rw [if_neg h0, if_pos h1]
        split
        · rename_i h
          rw [h]
          rfl
        · rename_i h
          rw [show (i.val - 1) % 2 = 1 by omega]
          rfl
      rw [hs]
      simp only [Kind.within, hk]
      constructor
      · intro h
        exact Or.inr (Or.inl ⟨_, (i.val - 1) % 2, by omega, by simp only; omega, h⟩)
      · rintro (⟨h, _⟩ | ⟨l, k, hk2, h, hb⟩ | ⟨p, k, _, _, h, _⟩)
        · exact absurd h h0
        · have e1 : (i.val - 1) / 2 % 8 = l.val := by omega
          have e2 : (i.val - 1) % 2 = k := by omega
          rw [e2]
          simp only [e1]
          exact hb
        · omega
    · have hs : conditionSubject i = .program ⟨(i.val - 17) / 7 % 16, by omega⟩ := by
        unfold conditionSubject
        rw [if_neg h0, if_neg h1]
      have hk : (conditionKind i).code = 5 + (i.val - 17) % 7 := by
        unfold conditionKind
        rw [if_neg h0, if_neg h1]
        have h7 : (i.val - 17) % 7 < 7 := Nat.mod_lt _ (by decide)
        generalize (i.val - 17) % 7 = k at h7
        match k, h7 with
        | 0, _ | 1, _ | 2, _ | 3, _ | 4, _ | 5, _ | 6, _ => rfl
      rw [hs]
      simp only [Kind.within, hk]
      constructor
      · intro h
        split at h
        · rename_i x hx
          exact Or.inr (Or.inr ⟨_, (i.val - 17) % 7, x, by omega, by simp only; omega, hx, h⟩)
        · cases h
      · rintro (⟨h, _⟩ | ⟨l, k, _, h, _⟩ | ⟨p, k, x, hk7, h, hx, hb⟩)
        · exact absurd h h0
        · omega
        · have e1 : (i.val - 17) / 7 % 16 = p.val := by omega
          have e2 : (i.val - 17) % 7 = k := by omega
          rw [e2]
          simp only [e1]
          simp only [Fin.eta, hx]
          exact hb

/-- A summary line, by the conditions (R158). -/
theorem Tables.alarming_iff (t : Tables) (conditions : Vector Condition 129) (x : Severity) :
    t.alarming conditions x = true ↔ t.AlarmsAt conditions x := by
  unfold Tables.alarming Tables.AlarmsAt Tables.severity
  rw [List.any_eq_true]
  constructor
  · rintro ⟨i, _, h⟩
    simp only [Bool.and_eq_true, beq_iff_eq] at h
    exact ⟨i, h.1.1, (t.monitored_iff i).mp h.1.2, h.2⟩
  · rintro ⟨i, h1, h2, h3⟩
    refine ⟨i, List.mem_finRange i, ?_⟩
    simp only [Bool.and_eq_true, beq_iff_eq]
    exact ⟨⟨h1, (t.monitored_iff i).mpr h2⟩, h3⟩

/-- ALARM_MAJOR of a summary (R158). -/
theorem Tables.summary_major (t : Tables) (conditions : Vector Condition 129) :
    (t.summary conditions).major = true ↔ t.AlarmsAt conditions .major := t.alarming_iff conditions .major

/-- ALARM_MINOR of a summary (R158). -/
theorem Tables.summary_minor (t : Tables) (conditions : Vector Condition 129) :
    (t.summary conditions).minor = true ↔ t.AlarmsAt conditions .minor := t.alarming_iff conditions .minor

theorem Severity.rank_le (x y : Severity) :
    x.rank ≤ y.rank ↔ x = .note ∨ y = .major ∨ y = x := by
  cases x <;> cases y <;> decide

/-- ATN of a port, by the log (R170, R172, R173). -/
theorem AlarmLog.attention_iff (log : AlarmLog) (q : Port) : log.attention q = true ↔ log.CallsPort q := by
  have hw : Config.highWater = 96 := rfl
  unfold AlarmLog.attention AlarmLog.CallsPort
  simp only [Bool.or_eq_true, List.any_eq_true, Bool.and_eq_true, decide_eq_true_eq, Bool.not_eq_true',
    Kind.within, Severity.rank_le, hw, or_assoc, and_assoc]

theorem State.settle_exact (s : State) : s.settle.OutputsExact := by
  refine ⟨s.tables.alarming_iff s.conditions .major, s.tables.alarming_iff s.conditions .minor,
    fun q => ?_⟩
  cases q
  · exact s.log.attention_iff .a
  · exact s.log.attention_iff .b

theorem State.settle_follow (s t : State) (h : t.pins.sampled = s.pins.sampled) :
    PinsFollow s t.settle := ⟨t.settle_exact, h⟩

/-! ## What the input of a transaction changes of its ports -/

/-- Taking an input at port `q` leaves of the ports all but the held response and the executing request
of `q`, and leaves the pins. -/
def Answers (q : Port) (u v : State) : Prop :=
  v.port q = { u.port q with held := (v.port q).held, executing := (v.port q).executing } ∧
    v.port (Port.other q) = u.port (Port.other q) ∧ v.pins = u.pins

theorem Answers.refl (q : Port) (u : State) : Answers q u u := ⟨rfl, rfl, rfl⟩

theorem Answers.trans {q : Port} {u v w : State} (h : Answers q u v) (k : Answers q v w) :
    Answers q u w := by
  obtain ⟨h1, h2, h3⟩ := h
  obtain ⟨k1, k2, k3⟩ := k
  refine ⟨?_, k2.trans h2, k3.trans h3⟩
  rw [k1]
  rw [h1]

theorem Answers.of_ports {q : Port} {u v : State} (h : v.ports = u.ports) (k : v.pins = u.pins) :
    Answers q u v := by
  have hp : ∀ r, v.port r = u.port r := fun r => by simp [State.port, h]
  exact ⟨by rw [hp], hp _, k⟩

theorem State.setPort_answers (s : State) (q : Port) (held : Option Response)
    (executing : Option Executing) :
    Answers q s (s.setPort q { s.port q with held := held, executing := executing }) := by
  refine ⟨?_, ?_, rfl⟩
  · simp
  · simp

theorem State.answer_answers (s : State) (q : Port) (status : Status) (body : List Byte) :
    Answers q s (s.answer q status body) :=
  s.setPort_answers q (some (respond status body)) (s.port q).executing

theorem State.makePending_answers (s : State) (q : Port) (name : RecordName) (revision : BitVec 16) :
    Answers q s (s.makePending q name revision) :=
  s.setPort_answers q none (some { record := name, revision := revision })

theorem State.acceptProgram_answers (s : State) (q : Port) (p : Fin 16) (content : ProgramRecord) :
    Answers q s (s.acceptProgram q p content) :=
  (Answers.of_ports rfl rfl).trans (State.makePending_answers _ q _ _)

theorem State.acceptLink_answers (s : State) (q : Port) (l : Fin 8) (content : LinkRecord) :
    Answers q s (s.acceptLink q l content) :=
  (Answers.of_ports rfl rfl).trans (State.makePending_answers _ q _ _)

theorem State.acceptPolicy_answers (s : State) (q : Port) (content : PolicyRecord) :
    Answers q s (s.acceptPolicy q content) :=
  (Answers.of_ports rfl rfl).trans (State.makePending_answers _ q _ _)

/-! ## Acceptances, field by field -/

theorem State.acceptProgram_eq (s : State) (q : Port) (p : Fin 16) (content : ProgramRecord) :
    s.acceptProgram q p content =
      { s with
        tables :=
          { s.tables with
            programs := s.tables.programs.set p (s.tables.programs[p].accept q content) }
        ports := s.ports.set q
          { s.port q with
            held := none
            executing := some
              { record := .program p, revision := s.tables.programs[p].revision + 1#16 } } } := rfl

theorem State.acceptLink_eq (s : State) (q : Port) (l : Fin 8) (content : LinkRecord) :
    s.acceptLink q l content =
      { s with
        tables :=
          { s.tables with links := s.tables.links.set l (s.tables.links[l].accept q content) }
        ports := s.ports.set q
          { s.port q with
            held := none
            executing := some
              { record := .link l, revision := s.tables.links[l].revision + 1#16 } } } := rfl

theorem State.acceptPolicy_eq (s : State) (q : Port) (content : PolicyRecord) :
    s.acceptPolicy q content =
      { s with
        tables := { s.tables with policy := s.tables.policy.accept q content }
        ports := s.ports.set q
          { s.port q with
            held := none
            executing := some { record := .policy, revision := s.tables.policy.revision + 1#16 } } } :=
  rfl

theorem State.leaveList_ports (s : State) (q : Port) (name : RecordName) :
    (s.leaveList q name).ports = s.ports ∧ (s.leaveList q name).pins = s.pins := by
  cases name <;> exact ⟨rfl, rfl⟩

theorem State.dropExecuting_answers (s : State) (q : Port) : Answers q s (s.dropExecuting q) := by
  unfold State.dropExecuting
  split
  · exact Answers.refl q s
  · rename_i x _
    have h := s.leaveList_ports q x.record
    refine ⟨?_, ?_, h.2⟩
    · simp
    · simp [State.port, State.setPort, h.1]

theorem takePortReset_answers (q : Port) (s : State) : Answers q s (takePortReset q s) :=
  ((s.dropExecuting_answers q).trans (Answers.of_ports rfl rfl)).trans (State.answer_answers _ q _ _)

/-- Every well-formed request answers. -/
theorem takeRequest_answers (q : Port) (code : RequestCode) (body : List Byte) (s : State) :
    Answers q s (takeRequest q code body s) := by
  unfold takeRequest
  split
  · exact s.answer_answers q _ _
  · unfold takeReadProgram; split <;> exact s.answer_answers q _ _
  · unfold takeWriteProgram
    split
    · split
      · unfold writeProgramChecked
        split
        · exact s.answer_answers q _ _
        · split
          · exact s.answer_answers q _ _
          · exact s.acceptProgram_answers q _ _
      · exact s.answer_answers q _ _
    · exact s.answer_answers q _ _
  · unfold takeSetDelay
    split
    · exact s.answer_answers q _ _
    · split
      · exact s.answer_answers q _ _
      · split
        · exact s.acceptProgram_answers q _ _
        · exact s.answer_answers q _ _
  · unfold takeSetTarget
    split
    · exact s.answer_answers q _ _
    · split
      · exact s.answer_answers q _ _
      · split
        · exact s.acceptProgram_answers q _ _
        · exact s.answer_answers q _ _
  · unfold takeReadMeter; split <;> exact s.answer_answers q _ _
  · unfold takeResetMeter
    split
    · exact Answers.trans (Answers.of_ports rfl rfl) (State.answer_answers _ q _ _)
    · split
      · exact s.answer_answers q _ _
      · exact Answers.trans (Answers.of_ports rfl rfl) (State.answer_answers _ q _ _)
  · unfold takeReadLink; split <;> exact s.answer_answers q _ _
  · unfold takeWriteLink
    split
    · split
      · exact s.answer_answers q _ _
      · split
        · exact s.answer_answers q _ _
        · exact s.acceptLink_answers q _ _
    · exact s.answer_answers q _ _
  · exact s.answer_answers q _ _
  · unfold takeWritePolicy
    split
    · split
      · exact s.answer_answers q _ _
      · split
        · exact s.answer_answers q _ _
        · exact s.acceptPolicy_answers q _
    · exact s.answer_answers q _ _
  · exact s.answer_answers q _ _
  · unfold takeFetchAlarms
    split
    · exact Answers.trans (Answers.of_ports rfl rfl) (State.answer_answers _ q _ _)
    · exact s.answer_answers q _ _
  · unfold takeSetAttention
    split
    · exact Answers.trans (Answers.of_ports rfl rfl) (State.answer_answers _ q _ _)
    · exact s.answer_answers q _ _
  · exact takePortReset_answers q s
  · exact Answers.refl q s

theorem takeClass_answers (q : Port) (n : Nat) (c : InputClass) (s : State) :
    Answers q s (takeClass q n c s) := by
  cases c with
  | null => exact s.setPort_answers q _ (s.port q).executing
  | unknown => exact s.answer_answers q _ _
  | length => exact s.answer_answers q _ _
  | request code body =>
    exact (s.setPort_answers q none (s.port q).executing).trans (takeRequest_answers q code body _)

theorem takePending_answers (q : Port) (bytes : List Byte) (s : State) :
    Answers q s (takePending q bytes s) := by
  unfold takePending
  split
  · exact takePortReset_answers q s
  · exact Answers.refl q s

/-! ## The release of select -/

/-- The state that the input of a transaction is taken in: the port released and attending. -/
def State.releasedAt (s : State) (q : Port) (bytes : List Byte) : State :=
  { s.setPort q ((s.port q).release bytes.length) with log := s.log.attend q }

theorem State.finishTransaction_eq (s : State) (q : Port) (bytes : List Byte) (take : State → State) :
    s.finishTransaction q bytes take =
      State.settle
        { take (s.releasedAt q bytes) with log := (take (s.releasedAt q bytes)).log.retire } := rfl

/-- What every release leaves of its port, of the other port and of the pins. -/
theorem State.finishTransaction_released (s : State) (q : Port) (bytes : List Byte)
    (take : State → State) (h : Answers q (s.releasedAt q bytes) (take (s.releasedAt q bytes))) :
    PortReleased q bytes.length s (s.finishTransaction q bytes take) ∧
      PinsFollow s (s.finishTransaction q bytes take) := by
  rw [State.finishTransaction_eq]
  obtain ⟨h1, h2, h3⟩ := h
  have hq : (s.releasedAt q bytes).port q = (s.port q).release bytes.length := by
    simp [State.releasedAt, State.port, State.setPort]
  have ho : (s.releasedAt q bytes).port (Port.other q) = s.port (Port.other q) := by
    simp [State.releasedAt, State.port, State.setPort]
  rw [hq] at h1
  rw [ho] at h2
  refine ⟨?_, State.settle_follow _ _ (by simp [h3]; rfl)⟩
  show _ ∧ _ ∧ _ ∧ _ ∧ _ ∧ _
  refine ⟨?_, ?_, ?_, ?_, ?_, h2⟩ <;>
  · show _ = _
    simp only [State.settle, State.port] at h1 ⊢
    rw [h1]
    rfl

/-- A release whose input leaves the log alone also leaves it attended. -/
theorem State.finishTransaction_ends (s : State) (q : Port) (bytes : List Byte)
    (take : State → State) (h : Answers q (s.releasedAt q bytes) (take (s.releasedAt q bytes)))
    (hlog : (take (s.releasedAt q bytes)).log = (s.releasedAt q bytes).log) :
    TransactionEnds q bytes.length s (s.finishTransaction q bytes take) := by
  obtain ⟨h1, h2⟩ := s.finishTransaction_released q bytes take h
  refine ⟨h1, ?_, h2⟩
  show _ = _
  rw [State.finishTransaction_eq]
  show (take (s.releasedAt q bytes)).log.retire = _
  rw [hlog]
  rfl

/-! ## The rows, by the class of their bits -/

theorem endTransaction_normal (q : Port) (sdi : List Bool) (s : State) (h : s.InNormal q) :
    endTransaction q sdi s =
      s.finishTransaction q (bytesOfBits sdi)
        (takeClass q (bytesOfBits sdi).length (classify (bytesOfBits sdi))) := by
  simp [endTransaction, h.1, h.2]

theorem endTransaction_pending (q : Port) (sdi : List Bool) (s : State) (h : s.resetAsserted = false)
    (hp : (s.port q).transaction = .pending) :
    endTransaction q sdi s = s.finishTransaction q (bytesOfBits sdi) (takePending q (bytesOfBits sdi)) := by
  simp [endTransaction, h, hp]

/-- A request row at the end of a normal transaction: the request of its own code and body is taken, with
no response held. -/
theorem endTransaction_request (q : Port) (code : RequestCode) (body : List Byte)
    (surplus : List Bool) (s : State) (h : s.InNormal q) (fits : body.length < 65536)
    (required : requiredLength code body = some body.length) :
    endTransaction q (requestBits code body surplus) s =
      s.finishTransaction q (bytesOfBits (requestBits code body surplus)) fun u =>
        takeRequest q code body (u.setPort q { u.port q with held := none }) := by
  rw [endTransaction_normal q _ s h, classify_requestBits code body surplus fits required]
  rfl

/-- The state that a request is taken in: the port released and attending, with no response held. -/
def State.takenAt (s : State) (q : Port) (bytes : List Byte) : State :=
  (s.releasedAt q bytes).setPort q { (s.releasedAt q bytes).port q with held := none }

theorem State.takenAt_port (s : State) (q : Port) (bytes : List Byte) :
    (s.takenAt q bytes).port q = { (s.port q).release bytes.length with held := none } := by
  simp [State.takenAt, State.releasedAt, State.port, State.setPort]

/-- What a request row leaves at the end of a normal transaction: the state after its taking, with
retirement tested and the outputs settled; its port is released and the pins follow. -/
theorem endTransaction_takes (q : Port) (code : RequestCode) (body : List Byte) (surplus : List Bool)
    (s : State) (h : s.InNormal q) (fits : body.length < 65536)
    (required : requiredLength code body = some body.length) (v : State)
    (hv : takeRequest q code body (s.takenAt q (bytesOfBits (requestBits code body surplus))) = v) :
    endTransaction q (requestBits code body surplus) s = State.settle { v with log := v.log.retire } ∧
      PortReleased q (bytesOfBits (requestBits code body surplus)).length s
        (State.settle { v with log := v.log.retire }) ∧
      PinsFollow s (State.settle { v with log := v.log.retire }) := by
  have e : endTransaction q (requestBits code body surplus) s
      = State.settle { v with log := v.log.retire } := by
    rw [endTransaction_request q code body surplus s h fits required, State.finishTransaction_eq]
    simp only [← hv]
    rfl
  refine ⟨e, ?_⟩
  rw [← e, endTransaction_request q code body surplus s h fits required]
  exact s.finishTransaction_released q _ _
    ((State.setPort_answers _ q none _).trans (takeRequest_answers q code body _))

/-- A request row whose taking only answers, from parts of the state that a release keeps, leaves that
answer held and nothing else changed but the ports, the log and the pins. -/
theorem endTransaction_answers (q : Port) (code : RequestCode) (body : List Byte) (surplus : List Bool)
    (s : State) (h : s.InNormal q) (fits : body.length < 65536)
    (required : requiredLength code body = some body.length) (status : Status) (answer : List Byte)
    (taken : takeRequest q code body (s.takenAt q (bytesOfBits (requestBits code body surplus))) =
      (s.takenAt q (bytesOfBits (requestBits code body surplus))).answer q status answer) :
    ∃ t, endTransaction q (requestBits code body surplus) s = t ∧ OnlyPortsDiffer s t ∧
      TransactionEnds q (bytesOfBits (requestBits code body surplus)).length s t ∧
      (t.port q).executing = (s.port q).executing ∧
      (t.port q).held = some { status := status, body := answer, clocked := 0 } := by
  obtain ⟨e, h1, h2⟩ := endTransaction_takes q code body surplus s h fits required _ taken
  refine ⟨_, e, ?_, ⟨h1, ?_, h2⟩, ?_, ?_⟩
  · rfl
  · rfl
  · simp [State.answer, State.settle, State.port, State.setPort, State.takenAt, State.releasedAt,
      ControlPort.release]
  · simp [State.answer, State.settle, State.port, State.setPort, respond]

theorem indexOf_val (n : Nat) (x : Byte) (k : Fin n) (h : k.val = x.toNat) : indexOf n x = some k := by
  have hk := k.isLt
  unfold indexOf
  rw [dif_pos (by omega)]
  congr 1
  exact Fin.ext h.symm

theorem indexOf_none (n : Nat) (x : Byte) (h : n ≤ x.toNat) : indexOf n x = none := by
  unfold indexOf
  rw [dif_neg (by omega)]

/-! ## What a transaction leaves of the other blocks -/

/-- A transaction changes nothing but the tables, the meters, the log, the ports and the pins, and of the
tables no applied content. -/
def KeepsBlocks (u v : State) : Prop :=
  v = { u with tables := v.tables, meters := v.meters, log := v.log, ports := v.ports, pins := v.pins } ∧
    (∀ p : Fin 16, v.program p = u.program p) ∧ (∀ l : Fin 8, v.link l = u.link l) ∧ v.policy = u.policy

theorem KeepsBlocks.refl (u : State) : KeepsBlocks u u := ⟨rfl, fun _ => rfl, fun _ => rfl, rfl⟩

theorem KeepsBlocks.trans {u v w : State} (h : KeepsBlocks u v) (k : KeepsBlocks v w) :
    KeepsBlocks u w := by
  obtain ⟨h1, h2, h3, h4⟩ := h
  obtain ⟨k1, k2, k3, k4⟩ := k
  refine ⟨?_, fun p => (k2 p).trans (h2 p), fun l => (k3 l).trans (h3 l), k4.trans h4⟩
  rw [k1]
  rw [h1]

theorem KeepsBlocks.of_tables {u v : State} (h : v = { u with
    meters := v.meters, log := v.log, ports := v.ports, pins := v.pins }) : KeepsBlocks u v := by
  have ht : v.tables = u.tables := by rw [h]
  refine ⟨?_, fun p => ?_, fun l => ?_, ?_⟩
  · rw [ht]
    exact h
  · unfold State.program
    rw [ht]
  · unfold State.link
    rw [ht]
  · unfold State.policy
    rw [ht]

theorem State.answer_keepsBlocks (s : State) (q : Port) (status : Status) (body : List Byte) :
    KeepsBlocks s (s.answer q status body) := .of_tables rfl

theorem State.acceptProgram_keepsBlocks (s : State) (q : Port) (p : Fin 16) (content : ProgramRecord) :
    KeepsBlocks s (s.acceptProgram q p content) := by
  rw [State.acceptProgram_eq]
  refine ⟨rfl, fun k => ?_, fun _ => rfl, rfl⟩
  unfold State.program
  by_cases h : p = k
  · subst h
    simp [Record.accept]
  · have hv : p.val ≠ k.val := fun e => h (Fin.ext e)
    simp [hv]

theorem State.acceptLink_keepsBlocks (s : State) (q : Port) (l : Fin 8) (content : LinkRecord) :
    KeepsBlocks s (s.acceptLink q l content) := by
  rw [State.acceptLink_eq]
  refine ⟨rfl, fun _ => rfl, fun k => ?_, rfl⟩
  unfold State.link
  by_cases h : l = k
  · subst h
    simp [Record.accept]
  · have hv : l.val ≠ k.val := fun e => h (Fin.ext e)
    simp [hv]

theorem State.acceptPolicy_keepsBlocks (s : State) (q : Port) (content : PolicyRecord) :
    KeepsBlocks s (s.acceptPolicy q content) := by
  rw [State.acceptPolicy_eq]
  exact ⟨rfl, fun _ => rfl, fun _ => rfl, rfl⟩

theorem State.leaveList_keepsBlocks (s : State) (q : Port) (name : RecordName) :
    KeepsBlocks s (s.leaveList q name) := by
  cases name with
  | program p =>
    refine ⟨rfl, fun k => ?_, fun _ => rfl, rfl⟩
    unfold State.leaveList State.setProgram State.program
    by_cases h : p = k
    · subst h
      simp [Record.leave]
    · have hv : p.val ≠ k.val := fun e => h (Fin.ext e)
      simp [hv]
  | link l =>
    refine ⟨rfl, fun _ => rfl, fun k => ?_, rfl⟩
    unfold State.leaveList State.setLink State.link
    by_cases h : l = k
    · subst h
      simp [Record.leave]
    · have hv : l.val ≠ k.val := fun e => h (Fin.ext e)
      simp [hv]
  | policy => exact ⟨rfl, fun _ => rfl, fun _ => rfl, rfl⟩

theorem takePortReset_keepsBlocks (q : Port) (s : State) : KeepsBlocks s (takePortReset q s) := by
  have h : KeepsBlocks s (s.dropExecuting q) := by
    unfold State.dropExecuting
    split
    · exact .refl s
    · exact (s.leaveList_keepsBlocks q _).trans (.of_tables rfl)
  exact h.trans (.of_tables rfl)

theorem takeRequest_keepsBlocks (q : Port) (code : RequestCode) (body : List Byte) (s : State) :
    KeepsBlocks s (takeRequest q code body s) := by
  unfold takeRequest
  split
  · exact s.answer_keepsBlocks q _ _
  · unfold takeReadProgram; split <;> exact s.answer_keepsBlocks q _ _
  · unfold takeWriteProgram writeProgramChecked
    repeat' split
    all_goals first | exact s.answer_keepsBlocks q _ _ | exact s.acceptProgram_keepsBlocks q _ _
  · unfold takeSetDelay
    repeat' split
    all_goals first | exact s.answer_keepsBlocks q _ _ | exact s.acceptProgram_keepsBlocks q _ _
  · unfold takeSetTarget
    repeat' split
    all_goals first | exact s.answer_keepsBlocks q _ _ | exact s.acceptProgram_keepsBlocks q _ _
  · unfold takeReadMeter; split <;> exact s.answer_keepsBlocks q _ _
  · unfold takeResetMeter
    repeat' split
    all_goals exact .of_tables rfl
  · unfold takeReadLink; split <;> exact s.answer_keepsBlocks q _ _
  · unfold takeWriteLink
    repeat' split
    all_goals first | exact s.answer_keepsBlocks q _ _ | exact s.acceptLink_keepsBlocks q _ _
  · exact s.answer_keepsBlocks q _ _
  · unfold takeWritePolicy
    repeat' split
    all_goals first | exact s.answer_keepsBlocks q _ _ | exact s.acceptPolicy_keepsBlocks q _
  · exact s.answer_keepsBlocks q _ _
  · unfold takeFetchAlarms
    split <;> exact .of_tables rfl
  · unfold takeSetAttention
    split <;> exact .of_tables rfl
  · exact takePortReset_keepsBlocks q s
  · exact .refl s

/-- The release of a port's select, whatever the bits before it spell, leaves every block but the meters,
and every applied content. -/
theorem endTransaction_keepsBlocks (q : Port) (sdi : List Bool) (s : State) :
    KeepsBlocks s (endTransaction q sdi s) := by
  have finish (take : State → State) (bytes : List Byte) (h : ∀ u, KeepsBlocks u (take u)) :
      KeepsBlocks s (s.finishTransaction q bytes take) := by
    rw [State.finishTransaction_eq]
    refine KeepsBlocks.trans (v := s.releasedAt q bytes) (.of_tables rfl) ?_
    exact (h _).trans (.of_tables rfl)
  unfold endTransaction
  split
  · exact .of_tables rfl
  · split
    · exact .refl s
    · exact .of_tables rfl
    · refine finish _ _ fun u => ?_
      unfold takeClass
      split
      · exact .of_tables rfl
      · exact .of_tables rfl
      · exact .of_tables rfl
      · exact KeepsBlocks.trans (.of_tables rfl) (takeRequest_keepsBlocks q _ _ _)
    · refine finish _ _ fun u => ?_
      unfold takePending
      split
      · exact takePortReset_keepsBlocks q u
      · exact .refl u

/-! ## A transaction keeps the contents in range (R7, R187) -/

theorem State.acceptProgram_ranges (s : State) (q : Port) (p : Fin 16) (content : ProgramRecord)
    (h : s.tables.ProgramsInRange) (hc : content.inRange = true) :
    (s.acceptProgram q p content).tables.ProgramsInRange := by
  rw [State.acceptProgram_eq]
  refine s.tables.ranges_set h p _ fun x hx => ?_
  rw [Record.contents_accept] at hx
  rcases List.mem_cons.mp hx with hx | hx
  · exact h p x (by rw [hx, Record.mem_contents]; exact Or.inl rfl)
  · rw [List.mem_singleton.mp hx]
    exact hc

theorem State.leaveList_ranges (s : State) (q : Port) (name : RecordName) (h : s.tables.ProgramsInRange) :
    (s.leaveList q name).tables.ProgramsInRange := by
  cases name with
  | program p =>
    refine s.tables.ranges_set h p _ fun x hx => ?_
    rw [Record.contents_leave] at hx
    exact h p x hx
  | link l => exact h
  | policy => exact h

theorem takePortReset_ranges (q : Port) (s : State) (h : s.tables.ProgramsInRange) :
    (takePortReset q s).tables.ProgramsInRange := by
  have hd : (s.dropExecuting q).tables.ProgramsInRange := by
    unfold State.dropExecuting
    split
    · exact h
    · exact s.leaveList_ranges q _ h
  exact hd

theorem takeRequest_ranges (q : Port) (code : RequestCode) (body : List Byte) (s : State)
    (h : s.tables.ProgramsInRange) : (takeRequest q code body s).tables.ProgramsInRange := by
  have newest (p : Fin 16) : (s.tables.programs[p].newest).inRange = true :=
    h p _ (Record.newest_mem_contents _)
  unfold takeRequest
  split
  · exact h.of_programs rfl
  · unfold takeReadProgram; split <;> exact h.of_programs rfl
  · unfold takeWriteProgram writeProgramChecked
    split
    · split <;> rename_i hr
      · repeat' split
        all_goals first | exact h.of_programs rfl | exact s.acceptProgram_ranges q _ _ h hr
      · exact h.of_programs rfl
    · exact h.of_programs rfl
  · unfold takeSetDelay
    split
    · exact h.of_programs rfl
    · split <;> rename_i hf
      · exact h.of_programs rfl
      · split <;> rename_i hw
        · exact s.acceptProgram_ranges q _ _ h
            (ProgramRecord.withDelay_inRange _ _ _ (newest _) (Nat.le_of_not_lt hf) hw)
        · exact h.of_programs rfl
  · unfold takeSetTarget
    split
    · exact h.of_programs rfl
    · split <;> rename_i hf
      · exact h.of_programs rfl
      · split <;> rename_i hw
        · exact s.acceptProgram_ranges q _ _ h
            (ProgramRecord.withTarget_inRange _ _ _ (newest _) (by omega) (by omega) hw)
        · exact h.of_programs rfl
  · unfold takeReadMeter; split <;> exact h.of_programs rfl
  · unfold takeResetMeter
    repeat' split
    all_goals exact h.of_programs rfl
  · unfold takeReadLink; split <;> exact h.of_programs rfl
  · unfold takeWriteLink
    repeat' split
    all_goals exact h.of_programs rfl
  · exact h.of_programs rfl
  · unfold takeWritePolicy
    repeat' split
    all_goals exact h.of_programs rfl
  · exact h.of_programs rfl
  · unfold takeFetchAlarms
    split <;> exact h.of_programs rfl
  · unfold takeSetAttention
    split <;> exact h.of_programs rfl
  · exact takePortReset_ranges q s h
  · exact h.of_programs rfl

/-- The release of a port's select, whatever the bits before it spell, keeps every content in range. -/
theorem endTransaction_ranges (q : Port) (sdi : List Bool) (s : State) (h : s.tables.ProgramsInRange) :
    (endTransaction q sdi s).tables.ProgramsInRange := by
  have finish (take : State → State) (bytes : List Byte)
      (hk : ∀ u : State, u.tables.ProgramsInRange → (take u).tables.ProgramsInRange) :
      (s.finishTransaction q bytes take).tables.ProgramsInRange := by
    rw [State.finishTransaction_eq]
    exact hk _ h
  unfold endTransaction
  split
  · exact h
  · split
    · exact h
    · exact h
    · refine finish _ _ fun u hu => ?_
      unfold takeClass
      split
      · exact hu
      · exact hu
      · exact hu
      · exact takeRequest_ranges q _ _ _ hu
    · refine finish _ _ fun u hu => ?_
      unfold takePending
      split
      · exact takePortReset_ranges q u hu
      · exact hu

end Sys2Proof.Machine
end

