-- ==== Sys2Proof/Laws/Slips.lean ====
section
/-! SUPPORT. The slips that wait for a block end (R57, R137, R196): what making them changes, for one link and
for a run of links, and that every invariant of the converters and the lanes lasts. -/

namespace Sys2Proof.Machine

/-! ## One converter's work and its notice -/

theorem State.putConverter_eq (s : State) (l : Fin 8) (work : Converter × Option SlipNotice) :
    s.putConverter l work = (s.setConverter l work.1).takeNotices work.2.toList := by
  unfold State.putConverter
  cases work.2 <;> rfl

theorem Converter.makeWaiting_none (c : Converter) (l : Fin 8) (h : c.slipWaits = false) :
    c.makeWaiting l = (c, none) := by
  unfold Converter.makeWaiting
  rw [h]
  rfl

/-- Nothing waits in a converter after its slip has been made. -/
theorem Converter.makeWaiting_waits (c : Converter) (l : Fin 8) :
    (c.makeWaiting l).1.slipWaits = false := by
  cases h : c.slipWaits
  · rw [c.makeWaiting_none l h]
    exact h
  · unfold Converter.makeWaiting
    rw [h]
    simp only [Bool.not_true, Bool.false_eq_true, if_false]
    split
    · show (Converter.slipped _).slipWaits = false
      rw [Converter.slipped_fields]
    · rfl

/-! ## A run of links -/

theorem filterMap_same {α β : Type} {f g : α → Option β} {xs : List α} (h : ∀ x ∈ xs, f x = g x) :
    xs.filterMap f = xs.filterMap g := by
  induction xs with
  | nil => rfl
  | cons x xs ih =>
    rw [List.filterMap_cons, List.filterMap_cons, h x (by simp), ih fun y hy => h y (by simp [hy])]

/-- Items that a map sends to nothing may be filtered out before it. -/
theorem filterMap_filter_of_none {α β : Type} (p : α → Bool) (f : α → Option β) (xs : List α)
    (h : ∀ x ∈ xs, p x = false → f x = none) : (xs.filter p).filterMap f = xs.filterMap f := by
  induction xs with
  | nil => rfl
  | cons x xs ih =>
    have hr := ih fun y hy => h y (by simp [hy])
    cases hx : p x
    · rw [List.filter_cons_of_neg (by simp [hx]), List.filterMap_cons, h x (by simp) hx]
      exact hr
    · rw [List.filter_cons_of_pos hx, List.filterMap_cons, List.filterMap_cons, hr]

/-- The notices of the slips that wait at some links, in their order. -/
def State.waitingNotices (s : State) (ks : List (Fin 8)) : List SlipNotice :=
  ks.filterMap fun l => (s.converters[l].makeWaiting l).2

theorem State.slipsLogged_append (s t : State) (xs ys : List SlipNotice) (hp : t.policy = s.policy)
    (hb : t.clock = s.clock) (hl : t.log = s.slipsLogged xs) :
    t.slipsLogged ys = s.slipsLogged (xs ++ ys) := by
  have he : t.slipEntry = s.slipEntry := by
    funext m
    unfold State.slipEntry
    rw [hp, hb]
  unfold State.slipsLogged at hl ⊢
  rw [hp, he, hl]
  split
  · rw [List.map_append, AlarmLog.handAll_append]
  · rfl

/-- What making the slips that wait at some links changes, and nothing else. -/
structure State.SlipsMade (s : State) (ks : List (Fin 8)) (t : State) : Prop where
  same : t = { s with converters := t.converters, delays := t.delays, log := t.log }
  others : ∀ l : Fin 8, l ∉ ks → t.converters[l] = s.converters[l]
  made : ∀ l ∈ ks, t.converters[l] = (s.converters[l].makeWaiting l).1
  lanes : ∀ p : Fin 16,
    t.delays[p] = (s.waitingNotices ks).foldl (fun d n => d.correct (s.program p) n) s.delays[p]
  logged : t.log = s.slipsLogged (s.waitingNotices ks)

theorem State.makeSlips_made (s : State) (ks : List (Fin 8)) (hn : ks.Nodup) :
    s.SlipsMade ks (s.makeSlips ks) := by
  induction ks generalizing s with
  | nil =>
    refine State.SlipsMade.mk rfl (fun _ _ => rfl) (fun _ h => nomatch h) (fun _ => rfl) ?_
    unfold State.slipsLogged
    split <;> rfl
  | cons k ks ih =>
    rw [List.nodup_cons] at hn
    have h := ih (s.makeSlip k) hn.2
    have e : s.makeSlip k =
        (s.setConverter k (s.converters[k].makeWaiting k).1).takeNotices
          (s.converters[k].makeWaiting k).2.toList := s.putConverter_eq k _
    have hsame := State.takeNotices_eq (s.setConverter k (s.converters[k].makeWaiting k).1)
      (s.converters[k].makeWaiting k).2.toList
    have hlog := State.takeNotices_log (s.setConverter k (s.converters[k].makeWaiting k).1)
      (s.converters[k].makeWaiting k).2.toList
    have hdel := State.takeNotices_fold (s.setConverter k (s.converters[k].makeWaiting k).1)
      (s.converters[k].makeWaiting k).2.toList
    rw [← e] at hsame hlog hdel
    have hconv : (s.makeSlip k).converters =
        s.converters.set k (s.converters[k].makeWaiting k).1 := by rw [hsame]; rfl
    have hprog : ∀ p, (s.makeSlip k).program p = s.program p := fun p => by rw [hsame]; rfl
    have hpol : (s.makeSlip k).policy = s.policy := by rw [hsame]; rfl
    have hclock : (s.makeSlip k).clock = s.clock := by rw [hsame]; rfl
    have hother : ∀ l : Fin 8, l ≠ k → (s.makeSlip k).converters[l] = s.converters[l] := by
      intro l hl
      rw [hconv]
      exact Vector.getElem_set_ne _ _ fun hv => hl (Fin.ext hv.symm)
    have hnotices : s.waitingNotices (k :: ks) =
        (s.converters[k].makeWaiting k).2.toList ++ (s.makeSlip k).waitingNotices ks := by
      unfold State.waitingNotices
      have hrest : (ks.filterMap fun l => ((s.makeSlip k).converters[l].makeWaiting l).2) =
          ks.filterMap fun l => (s.converters[l].makeWaiting l).2 :=
        filterMap_same fun l hl => by rw [hother l fun hk => hn.1 (hk ▸ hl)]
      rw [hrest, List.filterMap_cons]
      cases (s.converters[k].makeWaiting k).2 <;> rfl
    have hlog' : (s.makeSlip k).log = s.slipsLogged (s.converters[k].makeWaiting k).2.toList := hlog
    refine ⟨?_, ?_, ?_, ?_, ?_⟩
    · show (s.makeSlip k).makeSlips ks =
        { s with
          converters := ((s.makeSlip k).makeSlips ks).converters
          delays := ((s.makeSlip k).makeSlips ks).delays
          log := ((s.makeSlip k).makeSlips ks).log }
      have hs := h.same
      generalize (s.makeSlip k).makeSlips ks = v at hs ⊢
      rw [hsame] at hs
      exact hs
    · intro l hl
      rw [List.mem_cons, not_or] at hl
      exact (h.others l hl.2).trans (hother l hl.1)
    · intro l hl
      by_cases hk : l = k
      · subst hk
        refine (h.others l hn.1).trans ?_
        rw [hconv]
        exact Vector.getElem_set_self _
      · rw [← hother l hk]
        exact h.made l ((List.mem_cons.mp hl).resolve_left hk)
    · intro p
      have hp := h.lanes p
      rw [hprog p] at hp
      rw [hnotices, List.foldl_append]
      have hd : (s.makeSlip k).delays[p] =
          (s.converters[k].makeWaiting k).2.toList.foldl (fun d n => d.correct (s.program p) n)
            s.delays[p] := hdel p
      rw [← hd]
      exact hp
    · rw [hnotices, ← State.slipsLogged_append s (s.makeSlip k) _ _ hpol hclock hlog']
      exact h.logged

/-- Making the slips that wait at some links, in any order, is what the statements call it. -/
theorem State.makeSlips_makes (s : State) (links ks : List (Fin 8)) (hn : ks.Nodup)
    (hp : ks.Perm (links.filter fun l => s.converters[l].slipWaits)) :
    s.MakesSlips links (s.makeSlips ks).settle := by
  have h := s.makeSlips_made ks hn
  have hkeep : ∀ l : Fin 8, l ∉ ks → s.converters[l].slipWaits = true → l ∉ links := by
    intro l hl hw hk
    exact hl (hp.mem_iff.mpr (List.mem_filter.mpr ⟨hk, hw⟩))
  refine ⟨?_, ⟨State.settle_exact _, ?_⟩, fun l hl => ?_, fun l => (s.converters[l].makeWaiting l).2,
    s.waitingNotices ks, fun l hl => ?_, ?_, h.lanes, h.logged⟩
  · have hs := h.same
    generalize s.makeSlips ks = t at hs ⊢
    rw [hs]
    rfl
  · have hs := h.same
    show (s.makeSlips ks).pins.sampled = _
    rw [hs]
  · have hk : l ∉ ks := fun hk => hl (List.mem_filter.mp (hp.mem_iff.mp hk)).1
    exact h.others l hk
  · have hm := s.converters[l].makeWaiting_makes l
    show s.converters[l].MakesWaiting l (s.makeSlips ks).converters[l] _
    by_cases hk : l ∈ ks
    · rw [h.made l hk]
      exact hm
    · have hw : s.converters[l].slipWaits = false := by
        cases hw : s.converters[l].slipWaits
        · rfl
        · exact absurd hl (hkeep l hk hw)
      rw [h.others l hk]
      show s.converters[l].MakesWaiting l s.converters[l] (s.converters[l].makeWaiting l).2
      rw [Converter.makeWaiting_none _ l hw] at hm ⊢
      exact hm
  · unfold State.waitingNotices
    refine (hp.filterMap _).trans (List.Perm.of_eq ?_)
    exact filterMap_filter_of_none _ _ _ fun l _ hw => by rw [Converter.makeWaiting_none _ l hw]

/-! ## The slips after a block end, and before a loss -/

theorem State.waitingLinks_nodup (s : State) (c : Nat) : (freeOrder c s.waitingLinks).Nodup :=
  (freeOrder_perm c _).nodup_iff.mpr (List.Nodup.sublist List.filter_sublist (List.nodup_finRange 8))

/-- A block end and then the slips that waited for it (R57, R137, R196). -/
theorem State.blockEndThenSlips_makes (s : State) :
    s.blockEnd.MakesSlips (List.finRange 8) s.blockEndThenSlips :=
  State.makeSlips_makes _ _ _ (s.blockEnd.waitingLinks_nodup _) (freeOrder_perm _ _)

/-- A loss finds the slip of its link made. -/
theorem State.slipFirst_makes (s : State) (l : Fin 8) (h : s.converters[l].slipWaits = true) :
    s.MakesSlips [l] (s.slipFirst l) := by
  unfold State.slipFirst
  rw [if_pos h]
  refine State.makeSlips_makes s [l] [l] (by simp) ?_
  have e : [l].filter (fun l => s.converters[l].slipWaits) = [l] := by simpa using h
  rw [e]

/-! ## What making the slips keeps -/

/-- Making slips keeps what the conditions, the contents and the memory of a state say, and every gain. -/
theorem State.MakesSlips.keeps {s t : State} {links : List (Fin 8)} (h : s.MakesSlips links t) :
    t.tables = s.tables ∧ t.gains = s.gains ∧ t.clock = s.clock ∧ t.memory = s.memory ∧
      t.conditions = s.conditions ∧ t.ports = s.ports ∧ t.meters = s.meters ∧ t.tonePhase = s.tonePhase ∧
      t.receivers = s.receivers ∧ t.out = s.out ∧ t.ref = s.ref ∧ t.resetAsserted = s.resetAsserted ∧
      t.pending = s.pending ∧ t.choices = s.choices := by
  have e := h.1
  generalize t.converters = a at e
  generalize t.delays = b at e
  generalize t.log = c at e
  generalize t.pins = d at e
  subst e
  exact ⟨rfl, rfl, rfl, rfl, rfl, rfl, rfl, rfl, rfl, rfl, rfl, rfl, rfl, rfl⟩

/-- Making slips keeps the lanes laid out. -/
theorem State.MakesSlips.lanes {s t : State} {links : List (Fin 8)} (h : s.MakesSlips links t)
    (hl : s.LanesLaidOut) : t.LanesLaidOut := by
  obtain ⟨made, notices, _, _, hd, _⟩ := h.2.2.2
  have k := h.keeps
  refine hl.of_shape k.2.1 (by rw [k.2.2.1]) (by rw [k.2.2.1])
    (fun p => by unfold State.program; rw [k.1]) fun p => ?_
  rw [hd p]
  exact DelayEngine.corrects_shape _ _ _

/-- No slip waits at the link after it. -/
theorem State.slipFirst_waits (s : State) (l : Fin 8) : (s.slipFirst l).converters[l].slipWaits = false := by
  unfold State.slipFirst
  split
  · have hk := s.makeSlips_made [l] (by simp)
    show (s.makeSlips [l]).converters[l].slipWaits = _
    rw [hk.made l (by simp)]
    exact Converter.makeWaiting_waits _ l
  · rename_i h
    simpa using h

theorem State.slipFirst_none (s : State) (l : Fin 8) (h : s.converters[l].slipWaits = false) :
    s.slipFirst l = s := by
  unfold State.slipFirst
  rw [if_neg (by rw [h]; decide)]

/-- A slip waits after a house frame only where one was to wait. -/
theorem Converter.houseFrame_waits (c : Converter) (l : Fin 8) (h : c.slipWaits = false) :
    (c.houseFrame l false).2.1.slipWaits = false := by
  have hm : c.moveFade.slipWaits = false := by rw [Converter.moveFade_eq]; exact h
  have hread : (c.moveFade.read l false).1.slipWaits = false := by
    unfold Converter.read
    simp only [Bool.false_eq_true, if_false]
    split
    · exact hm
    · split
      · exact hm
      · show (Converter.slipped _).slipWaits = false
        rw [Converter.slipped_fields]
        exact hm
  unfold Converter.houseFrame
  split
  · exact h
  · exact h
  · exact hread
  · exact hread
  · exact hread
  · split
    · exact hm
    · show (Converter.readLost _).slipWaits = false
      unfold Converter.readLost
      split <;> exact hm

/-- A house frame that no block end waits for keeps every converter's frames in order. -/
theorem State.houseFrame_ordered (s : State) (h : s.ConvertersOrdered) (hb : s.clock.blockDue = false) :
    s.houseFrame.ConvertersOrdered := by
  intro l
  have hw : s.converters[l].slipWaits = false := by
    cases hw : s.converters[l].slipWaits
    · rfl
    · exact absurd ((h l).2 hw) (by rw [hb]; decide)
  have hc : s.houseFrame.converters[l] = (s.converters[l].houseFrame l (s.slipLater l)).2.1 := by
    rw [State.houseFrame_converters]
    show (Vector.ofFn fun l : Fin 8 => s.readConverters[l].2.1)[l] = _
    simp [State.readConverters]
  rw [hc]
  refine ⟨Converter.houseFrame_ordered _ l _ (h l).1 hw, fun hs => ?_⟩
  rw [State.houseFrame_clock]
  cases hl : s.slipLater l
  · rw [hl, Converter.houseFrame_waits _ l hw] at hs
    cases hs
  · unfold State.slipLater at hl
    rw [Bool.and_eq_true] at hl
    exact hl.1

/-- A block end and its slips keep every converter's frames in order, and no slip waits after them. -/
theorem State.blockEndThenSlips_ordered (s : State) (h : ∀ l : Fin 8, s.converters[l].FramesOrdered)
    (l : Fin 8) :
    s.blockEndThenSlips.converters[l].FramesOrdered ∧
      s.blockEndThenSlips.converters[l].slipWaits = false := by
  have hb : s.blockEnd.converters[l].FramesOrdered := by
    rw [State.blockEnd_converter]
    exact Converter.apply_ordered _ _ _ (Converter.blockEnd_ordered _ _ (h l))
  have hm := s.blockEnd.makeSlips_made _ (s.blockEnd.waitingLinks_nodup (s.choices + 416))
  show (s.blockEnd.makeSlips _).converters[l].FramesOrdered ∧ (s.blockEnd.makeSlips _).converters[l].slipWaits = _
  by_cases hk : l ∈ freeOrder (s.choices + 416) s.blockEnd.waitingLinks
  · rw [hm.made l hk]
    exact Converter.makeWaiting_ordered _ l hb
  · rw [hm.others l hk]
    refine ⟨hb, ?_⟩
    cases hw : s.blockEnd.converters[l].slipWaits
    · rfl
    · exact absurd ((freeOrder_perm _ _).mem_iff.mpr
        (List.mem_filter.mpr ⟨List.mem_finRange l, hw⟩)) hk

end Sys2Proof.Machine
end

