-- ==== Sys2Proof/Laws/Tone.lean ====
section
/-! SUPPORT. The line-up tone of R99 is the sine of that rule, rounded to nearest. -/

namespace Sys2Proof.Machine

/-- A sample of the tone against a sine whose square is known to lie between two numbers. -/
theorem tone_near {x c : ℝ} {v : ℤ} (hx : 0 ≤ x) (hv : 1 ≤ v) (hs : x ^ 2 = (1 - c) / 2)
    (low : (v - 1 / 2 : ℝ) ^ 2 < 1056064 ^ 2 * ((1 - c) / 2))
    (high : 1056064 ^ 2 * ((1 - c) / 2) < (v + 1 / 2 : ℝ) ^ 2) :
    |(v : ℝ) - 1056064 * x| < 1 / 2 := by
  have hv' : (1 : ℝ) ≤ v := by exact_mod_cast hv
  rw [← hs, ← mul_pow] at low high
  have a := lt_of_pow_lt_pow_left₀ 2 (by positivity) low
  have b := lt_of_pow_lt_pow_left₀ 2 (by linarith) high
  rw [abs_lt]
  constructor <;> linarith

/-- The sine of a quarter's phase, by its double angle. -/
theorem sin_sq_quarter (k : ℕ) :
    Real.sin (2 * Real.pi * k / 48) ^ 2 = (1 - Real.cos (Real.pi * k / 12)) / 2 := by
  have h := Real.cos_sq' (2 * Real.pi * k / 48)
  have h2 := Real.cos_two_mul (2 * Real.pi * k / 48)
  rw [show 2 * (2 * Real.pi * k / 48) = Real.pi * k / 12 by ring] at h2
  linarith

/-- The sine is not negative in the first quarter. -/
theorem sin_quarter_nonneg (k : ℕ) (h : k ≤ 12) : 0 ≤ Real.sin (2 * Real.pi * k / 48) := by
  have hk : (k : ℝ) ≤ 12 := by exact_mod_cast h
  have := Real.pi_pos
  apply Real.sin_nonneg_of_nonneg_of_le_pi
  · positivity
  · nlinarith

theorem cos_pi_div_twelve : Real.cos (Real.pi / 12) = √2 * (√3 + 1) / 4 := by
  rw [show Real.pi / 12 = Real.pi / 3 - Real.pi / 4 by ring, Real.cos_sub, Real.cos_pi_div_three,
    Real.cos_pi_div_four, Real.sin_pi_div_three, Real.sin_pi_div_four]
  ring

theorem cos_five_pi_div_twelve : Real.cos (Real.pi * 5 / 12) = √2 * (√3 - 1) / 4 := by
  rw [show Real.pi * 5 / 12 = Real.pi / 3 + Real.pi / 12 by ring, Real.cos_add, Real.cos_pi_div_three,
    Real.sin_pi_div_three, cos_pi_div_twelve,
    show Real.pi / 12 = Real.pi / 3 - Real.pi / 4 by ring, Real.sin_sub, Real.cos_pi_div_three,
    Real.cos_pi_div_four, Real.sin_pi_div_three, Real.sin_pi_div_four]
  have h3 : √3 * √3 = (3 : ℝ) := Real.mul_self_sqrt (by norm_num)
  linear_combination (-√2 / 8) * h3

/-- The square root of 2 to twenty decimal places. -/
theorem sqrt_two_bounds : (1.41421356237309504880 : ℝ) < √2 ∧ √2 < 1.41421356237309504881 := by
  constructor
  · exact Real.lt_sqrt_of_sq_lt (by norm_num)
  · rw [Real.sqrt_lt' (by norm_num)]; norm_num

/-- The square root of 3 to twenty decimal places. -/
theorem sqrt_three_bounds : (1.73205080756887729352 : ℝ) < √3 ∧ √3 < 1.73205080756887729353 := by
  constructor
  · exact Real.lt_sqrt_of_sq_lt (by norm_num)
  · rw [Real.sqrt_lt' (by norm_num)]; norm_num

/-- The samples of a quarter of the tone are the rounded ones (R99). -/
theorem toneQuarter_rounded : ∀ k : ℕ, k ≤ 12 →
    |((toneQuarter.getD k 0 : ℤ) : ℝ) - 1056064 * Real.sin (2 * Real.pi * k / 48)| < 1 / 2 := by
  intro k hk
  obtain ⟨a2, b2⟩ := sqrt_two_bounds
  obtain ⟨a3, b3⟩ := sqrt_three_bounds
  have hs := sin_sq_quarter k
  have h0 := sin_quarter_nonneg k hk
  have c1 := cos_pi_div_twelve
  have c5 := cos_five_pi_div_twelve
  have l6 : (1.41421356237309504880 * (1.73205080756887729352) : ℝ) < √2 * √3 :=
    mul_lt_mul'' a2 a3 (by norm_num) (by norm_num)
  have u6 : √2 * √3 < (1.41421356237309504881 * (1.73205080756887729353) : ℝ) :=
    mul_lt_mul'' b2 b3 (by positivity) (by positivity)
  interval_cases k
  · simp [toneQuarter]
  · rw [show Real.pi * ((1 : ℕ) : ℝ) / 12 = Real.pi / 12 by push_cast; ring, c1] at hs
    exact tone_near h0 (by decide) hs (by norm_num [toneQuarter]; linarith) (by norm_num [toneQuarter]; linarith)
  · rw [show Real.pi * ((2 : ℕ) : ℝ) / 12 = Real.pi / 6 by push_cast; ring, Real.cos_pi_div_six] at hs
    exact tone_near h0 (by decide) hs (by norm_num [toneQuarter]; linarith) (by norm_num [toneQuarter]; linarith)
  · rw [show Real.pi * ((3 : ℕ) : ℝ) / 12 = Real.pi / 4 by push_cast; ring, Real.cos_pi_div_four] at hs
    exact tone_near h0 (by decide) hs (by norm_num [toneQuarter]; linarith) (by norm_num [toneQuarter]; linarith)
  · rw [show Real.pi * ((4 : ℕ) : ℝ) / 12 = Real.pi / 3 by push_cast; ring, Real.cos_pi_div_three] at hs
    exact tone_near h0 (by decide) hs (by norm_num [toneQuarter]) (by norm_num [toneQuarter])
  · rw [show Real.pi * ((5 : ℕ) : ℝ) / 12 = Real.pi * 5 / 12 by push_cast; ring, c5] at hs
    exact tone_near h0 (by decide) hs (by norm_num [toneQuarter]; linarith) (by norm_num [toneQuarter]; linarith)
  · rw [show Real.pi * ((6 : ℕ) : ℝ) / 12 = Real.pi / 2 by push_cast; ring, Real.cos_pi_div_two] at hs
    exact tone_near h0 (by decide) hs (by norm_num [toneQuarter]) (by norm_num [toneQuarter])
  · rw [show Real.pi * ((7 : ℕ) : ℝ) / 12 = Real.pi - Real.pi * 5 / 12 by push_cast; ring,
      Real.cos_pi_sub, c5] at hs
    exact tone_near h0 (by decide) hs (by norm_num [toneQuarter]; linarith) (by norm_num [toneQuarter]; linarith)
  · rw [show Real.pi * ((8 : ℕ) : ℝ) / 12 = Real.pi - Real.pi / 3 by push_cast; ring, Real.cos_pi_sub,
      Real.cos_pi_div_three] at hs
    exact tone_near h0 (by decide) hs (by norm_num [toneQuarter]) (by norm_num [toneQuarter])
  · rw [show Real.pi * ((9 : ℕ) : ℝ) / 12 = Real.pi - Real.pi / 4 by push_cast; ring, Real.cos_pi_sub,
      Real.cos_pi_div_four] at hs
    exact tone_near h0 (by decide) hs (by norm_num [toneQuarter]; linarith) (by norm_num [toneQuarter]; linarith)
  · rw [show Real.pi * ((10 : ℕ) : ℝ) / 12 = Real.pi - Real.pi / 6 by push_cast; ring, Real.cos_pi_sub,
      Real.cos_pi_div_six] at hs
    exact tone_near h0 (by decide) hs (by norm_num [toneQuarter]; linarith) (by norm_num [toneQuarter]; linarith)
  · rw [show Real.pi * ((11 : ℕ) : ℝ) / 12 = Real.pi - Real.pi / 12 by push_cast; ring, Real.cos_pi_sub,
      c1] at hs
    exact tone_near h0 (by decide) hs (by norm_num [toneQuarter]; linarith) (by norm_num [toneQuarter]; linarith)
  · rw [show Real.pi * ((12 : ℕ) : ℝ) / 12 = Real.pi by push_cast; ring, Real.cos_pi] at hs
    exact tone_near h0 (by decide) hs (by norm_num [toneQuarter]) (by norm_num [toneQuarter])

/-- Half a period of the tone. -/
theorem toneHalf_rounded (n : ℕ) (h : n < 24) :
    |((tone n : ℤ) : ℝ) - 1056064 * Real.sin (2 * Real.pi * n / 48)| < 1 / 2 := by
  unfold tone
  simp only [if_pos h]
  by_cases h12 : n ≤ 12
  · rw [if_pos h12]
    exact toneQuarter_rounded n h12
  · rw [if_neg h12]
    have := toneQuarter_rounded (24 - n) (by omega)
    rw [Nat.cast_sub (by omega),
      show 2 * Real.pi * (((24 : ℕ) : ℝ) - n) / 48 = Real.pi - 2 * Real.pi * n / 48 by push_cast; ring,
      Real.sin_pi_sub] at this
    exact this

/-- The tone is the sine of R99, rounded to nearest. -/
theorem tone_rounded (n : ℕ) (h : n < 48) :
    |((tone n : ℤ) : ℝ) - 1056064 * Real.sin (2 * Real.pi * n / 48)| < 1 / 2 := by
  by_cases h24 : n < 24
  · exact toneHalf_rounded n h24
  · have := toneHalf_rounded (n - 24) (by omega)
    have e : tone n = -tone (n - 24) := by
      unfold tone
      rw [if_neg h24, if_pos (by omega : n - 24 < 24)]
    rw [Nat.cast_sub (by omega),
      show 2 * Real.pi * ((n : ℝ) - ((24 : ℕ) : ℝ)) / 48 = 2 * Real.pi * n / 48 - Real.pi by push_cast; ring,
      Real.sin_sub_pi] at this
    rw [e, ← abs_neg]
    convert this using 2
    push_cast
    ring

end Sys2Proof.Machine
end

