-- ==== Sys2Proof/Tests/Slice0.lean ====
section
/-! SUPPORT. The model's own tests: a smoke test of the well-formedness checks, one or two small runs of
each command on a small state, figures of the byte layouts and the levels, and for each statement of
Certificates/Slice0/Obligations.lean that has hypotheses a state and operands that meet them. -/

namespace Sys2Proof.Tests

open Sys2Proof.Machine

set_option Elab.async false

/-! ## Well-formedness: each check refuses an ill-formed term and passes a well-formed one -/

theorem test_null_bits : (Instr.null .a (bitsOfBytes [1#8])).wellFormed = false := by decide
theorem test_null_passes : (Instr.null .a (bitsOfBytes [0#8, 9#8])).wellFormed = true := by decide
theorem test_unknown_bits : (Instr.unknown .a (bitsOfBytes [0x10#8])).wellFormed = false := by decide
theorem test_unknown_passes : (Instr.unknown .a (bitsOfBytes [0x50#8])).wellFormed = true := by decide
theorem test_length_bits : (Instr.length .b (bitsOfBytes [1#8, 0#8, 0#8])).wellFormed = false := by decide
theorem test_length_passes : (Instr.length .b (bitsOfBytes [1#8, 0#8, 1#8])).wellFormed = true := by decide
theorem test_writeProgram_record :
    (Instr.writeProgram .a 0#8 0#16 [1#8, 0#8, 1#8, 0#8] []).wellFormed = false := by decide
theorem test_writeProgram_passes :
    (Instr.writeProgram .a 0#8 0#16 [0#8, 2#8, 0#8, 0#8] []).wellFormed = true := by decide
theorem test_writePolicy_record :
    (Instr.writePolicy .a 0#16 (List.replicate 73 0#8) []).wellFormed = false := by decide
theorem test_writePolicy_passes :
    (Instr.writePolicy .a 0#16 (List.replicate 74 0#8) []).wellFormed = true := by decide

/-! ## Small states -/

/-- The state a command leaves; the state before it where it leaves none. -/
def after (c : Instr) (s : State) : State :=
  match exec c s with
  | .next t => t
  | .fault _ => s
  | .refused _ => s

/-- A channel from slot 0 of input link 0 to slot 0 of output link 0, of weight 0 dB. -/
def channel : Channel :=
  { input := some { link := 0, slot := 0 }, output := some { link := 0, slot := 0 }, weight := .steps 0 }

/-- A delay section over pages 0 to 3, at 100 frames under SLEW. -/
def section4 : DelaySection := { base := 0, limit := 3, target := 100, mode := .slew, rate := 1000 }

/-- A loudness section at its widest limits. -/
def loudness : Loudness :=
  { mode := .integrated, target := -230, maxBoost := 200, maxCut := 200, slew := 10, gate := -700,
    range := 10 }

/-- A program of one channel with all three sections. -/
def content : ProgramRecord :=
  { active := true, source := .program, channels := [channel], loudness := some loudness,
    delay := some section4, alarm := some { kinds := 0x0FE0#16, silence := -600 } }

/-- A program of one channel that passes its audio straight through. -/
def plain : ProgramRecord :=
  { active := true, source := .program, channels := [channel], loudness := none, delay := none,
    alarm := some { kinds := 0#16, silence := -600 } }

/-- The state with program 0's applied content. -/
def withProgram (r : ProgramRecord) (s : State) : State := s.setProgram 0 (Record.initial r)

/-- The state with a port in a normal transaction. -/
def normal (q : Port) (s : State) : State := s.setPort q (s.port q).begin

/-- A port that a program change keeps pending, in a pending transaction. -/
def pendingPort : ControlPort :=
  { ControlPort.initial with
    executing := some { record := .program 0, revision := 1#16 }
    transaction := .pending
    output := [0x02#8, 0#8, 0#8]
    select := true }

/-- A state whose program 0 has a change by port A staged, with port A in a pending transaction. -/
def changing (r : ProgramRecord) : State :=
  (State.reset.setProgram 0
    { applied := ProgramRecord.unused
      revision := 1#16
      staged := some { content := r, origin := .a }
      waiting := [{ port := .a, revision := 1#16 }] }).setPort .a pendingPort

/-- The state with link 0 enabled. -/
def enabled (s : State) : State := s.setLink 0 (Record.initial { LinkRecord.initial with enable := true })

/-- The state with link 0's receiver PRESENT, between a mark and its frame, and its converter collecting. -/
def receiving : State :=
  ((enabled State.reset).setReceiver 0 { Receiver.start with inFrame := true }).setConverter 0
    (Converter.initial.enable)

/-- The state with link 0's receiver LOST at a run count, between a mark and its frame. -/
def returning (run : Nat) : State :=
  ((enabled State.reset).setReceiver 0
    { state := .lost, timer := some 0, run := run, inFrame := true }).setConverter 0
      { Converter.initial with state := .lost }

/-- The state at a house frame instant with a block end due. -/
def blockDue (s : State) : State := { s with clock := { s.clock with frames := 4800 } }

/-- The state with the reference monitor in TRACKING since a pulse, some time ago. -/
def tracking (ago : Nat) : State :=
  { State.reset with
    clock := { State.reset.clock with now := 1000000, lastFrame := 999000, nextFrame := 1999000 }
    ref :=
      { RefMonitor.initial with state := .tracking, lastPulse := some (1000000 - ago) } }

/-- The state with the reference monitor in HOLDOVER at a run count, a nominal period after a pulse. -/
def holding (run : Nat) : State :=
  { State.reset with
    clock := { State.reset.clock with now := 1000000 }
    ref := { RefMonitor.initial with run := run, lastPulse := some 0 } }

/-- A log entry. -/
def entry : Entry :=
  { kind := .refLost, subject := .device, edge := .raised, severity := .major, stamp := 7#32,
    detail := .cause .sampled }

/-- The state with one entry in the log. -/
def logged : State := (State.reset.hand entry).settle

/-- The state with port A attending for as long as the timeout. -/
def overdue : State :=
  State.reset.setPlace .a
    { LogPort.initial with attending := true, timer := 10 * Config.second }

/-- `n` frames from an index on. -/
def frames (first n : Nat) : List Frame :=
  (List.range n).map fun i => { index := first + i, samples := silentSlots }

/-- A LOCKED converter at ratio 1 with `n` frames from index 0 in its FIFO and none in its history. -/
def running (n : Nat) : Converter :=
  { Converter.initial with
    state := .locked
    fifo := frames 0 n
    position := 7 * 2 ^ 28
    ratio := 268435456
    used := 268435456
    nextIndex := n }

/-! ## The commands -/

theorem test_powerOnReset : (after .powerOnReset (blockDue State.reset)).clock = State.reset.clock := by
  decide
theorem test_warmResetAssert :
    (after .warmResetAssert (changing plain)).program 0 = plain ∧
      (after .warmResetAssert (changing plain)).resetAsserted = true := by decide
theorem test_warmResetRelease :
    (after .warmResetRelease (after .warmResetAssert (enabled State.reset))).receivers[(0 : Fin 8)] =
      Receiver.start ∧
    (after .warmResetRelease (after .warmResetAssert (enabled State.reset))).converters[(0 : Fin 8)].state =
      .acquire := by decide
theorem test_frameSyncMark : (after (.frameSyncMark 0)
    (State.reset.setReceiver 0 Receiver.start)).receivers[(0 : Fin 8)].inFrame = true := by decide
theorem test_frameArrival :
    (((after (.frameArrival 0 (0x123456#24 ++ 0#232)) receiving).converters[(0 : Fin 8)]).fifo.map
      fun f => f.samples[0]) = [0x123456#24] := by decide +kernel
theorem test_frameArrival_return :
    (after (.frameArrival 0 0#256) (returning 31)).receivers[(0 : Fin 8)] = Receiver.start ∧
      (after (.frameArrival 0 0#256) (returning 30)).receivers[(0 : Fin 8)].run = 31 := by decide +kernel
theorem test_receiverAbsenceExpiry :
    (after (.receiverAbsenceExpiry 0) (receiving.setReceiver 0
      { Receiver.start with timer := some 4800000 })).converters[(0 : Fin 8)].state = .lost := by decide
theorem test_refPulse : (after .refPulse (tracking 999000)).ref.period = 999000 := by decide
theorem test_refPulse_returns : (after .refPulse (holding 31)).ref.state = .tracking := by decide
theorem test_refAbsenceExpiry :
    (after .refAbsenceExpiry { tracking 5 with ref := { (tracking 5).ref with timer := 4800000 } }).ref.state =
      .holdover := by decide
theorem test_houseFrame : (after .houseFrame State.reset).clock.frames = 1 ∧
    (after .houseFrame State.reset).tonePhase = 1 := by decide +kernel
theorem test_houseFrame_lineup :
    slotSample ((after .houseFrame
      { withProgram { plain with source := .lineup } State.reset with
        clock := { State.reset.clock with frames := 4800, blocks := 1#32 }
        tonePhase := 11
        gains := State.reset.gains.set 0
          { GainStage.initial with selected := .lineup, fade := 480 } }).out[(0 : Fin 8)]) 0 =
      BitVec.ofInt 24 1056064 := by decide +kernel
theorem test_blockEnd : (after .blockEnd (blockDue (changing plain))).program 0 = plain ∧
    (after .blockEnd (blockDue (changing plain))).port .a =
      { pendingPort with executing := none, held := some (respond .done [0#8, 1#8]) } := by
  decide +kernel
theorem test_blockEnd_debounces :
    (after .blockEnd (blockDue State.reset)).conditions[(0 : Fin 129)] =
      { test := true, raised := true, counter := 0 } := by decide +kernel
theorem test_selectAssert :
    ((after (.selectAssert .a) State.reset).port .a).output = [0#8, 0#8, 0#8] := by decide
theorem test_null : ((after (.null .a (bitsOfBytes [0#8, 0#8, 0#8, 0#8]))
    (normal .a (State.reset.answer .a .done [5#8]))).port .a).held = none ∧
    ((after (.null .a (bitsOfBytes [0#8, 0#8, 0#8, 0#8]))
      (normal .a (State.reset.answer .a .done [5#8]))).port .a).sdo = [1#8, 0#8, 1#8, 5#8] := by
  decide +kernel
theorem test_unknown : ((after (.unknown .a (bitsOfBytes [0x50#8])) (normal .a State.reset)).port .a).held =
    some (respond .unknown []) := by decide +kernel
theorem test_length : ((after (.length .a (bitsOfBytes [1#8])) (normal .a State.reset)).port .a).held =
    some (respond .length []) := by decide +kernel
theorem test_pendingTransactionEnd :
    ((after (.pendingTransactionEnd .a (bitsOfBytes [1#8, 0#8, 0#8])) (changing plain)).port .a).executing =
      some { record := .program 0, revision := 1#16 } := by decide +kernel
theorem test_pendingTransactionEnd_portReset :
    ((after (.pendingTransactionEnd .a (bitsOfBytes [0x7F#8, 0#8, 0#8])) (changing plain)).port .a).executing =
      none := by decide +kernel
theorem test_identify : ((after (.identify .b []) (normal .b State.reset)).port .b).held =
    some (respond .done [0x5A#8, 0x43#8, 0x19#8, 0x10#8, 1#8, 16#8, 8#8, 128#8]) := by decide +kernel
theorem test_readProgram : ((after (.readProgram .a 0#8 []) (normal .a State.reset)).port .a).held =
    some (respond .done [0#8, 0#8, 0#8, 0#8, 2#8, 0#8, 0#8]) := by decide +kernel
theorem test_writeProgram :
    (after (.writeProgram .a 0#8 0#16 (programBytes content) []) (normal .a State.reset)).tables.programs[(0 : Fin 16)].staged =
      some { content := content, origin := .a } := by decide +kernel
theorem test_writeProgram_conflict :
    ((after (.writeProgram .a 1#8 0#16 (programBytes content) [])
      (normal .a (withProgram plain State.reset))).port .a).held =
      some (respond .conflict [0#8, 0#8]) := by decide +kernel
theorem test_setDelay :
    ((after (.setDelay .a 0#8 200#32 []) (normal .a (withProgram content State.reset))).tables.programs[(0 : Fin 16)].newest.delay.map
      DelaySection.target) = some 200 := by decide +kernel
theorem test_setTarget :
    ((after (.setTarget .a 0#8 (BitVec.ofInt 16 (-240)) []) (normal .a (withProgram content State.reset))).tables.programs[(0 : Fin 16)].newest.loudness.map
      Loudness.target) = some (-240) := by decide +kernel
theorem test_readMeter :
    (((after (.readMeter .a 0#8 []) (normal .a State.reset)).port .a).held.map fun r => r.body.take 6) =
      some [0xFC#8, 0x18#8, 0xFC#8, 0x18#8, 0xFC#8, 0x18#8] := by decide +kernel
theorem test_resetMeter :
    (after (.resetMeter .a 255#8 []) (normal .a State.reset)).meters[(15 : Fin 16)].clearPending = true := by
  decide +kernel
theorem test_readLink :
    (((after (.readLink .a 7#8 []) (normal .a State.reset)).port .a).held.map fun r => r.body.take 8) =
      some [0#8, 0#8, 0#8, 0#8, 8#8, 1#8, 0#8, 6#8] := by decide +kernel
theorem test_writeLink :
    (after (.writeLink .a 0#8 0#16 1#8 2#8 0#8 2#16 []) (normal .a State.reset)).tables.links[(0 : Fin 8)].newest =
      { enable := true, slots := 2, bandwidth := .wide, kinds := 2#16 } := by decide +kernel
theorem test_readPolicy :
    (((after (.readPolicy .a []) (normal .a State.reset)).port .a).held.map fun r => r.body.drop 75) =
      some [1#8, 10#8] := by decide +kernel
theorem test_writePolicy :
    (after (.writePolicy .a 0#16 (policyBytes PolicyRecord.initial) []) (normal .a State.reset)).tables.policy.revision =
      1#16 := by decide +kernel
theorem test_readConditions :
    (((after (.readConditions .a []) (normal .a State.reset)).port .a).held.map fun r =>
      (r.body.length, r.body[50]?)) = some (179, some 4#8) := by decide +kernel
theorem test_fetchAlarms :
    (((after (.fetchAlarms .a 8#8 []) (normal .a logged)).port .a).held.map fun r => r.body) =
      some [1#8, 0#8, 0#8, 4#8, 0#8, 0#8, 2#8, 0#8, 0#8, 0#8, 7#8, 0#8, 0#8, 0#8, 0#8] := by
  decide +kernel
theorem test_fetchAlarms_retires : (after (.fetchAlarms .a 8#8 []) (normal .a logged)).log.entries = [] := by
  decide +kernel
theorem test_setAttention :
    (after (.setAttention .a 0x0010#16 0#8 []) (normal .a logged)).pins.atn = { a := false, b := true } := by
  decide +kernel
theorem test_portReset : ((after (.portReset .a []) (normal .a State.reset)).port .a).held =
    some (respond .done []) := by decide +kernel
theorem test_attendanceExpiry :
    ((after (.attendanceExpiry .a) overdue).place .a).attending = false := by decide +kernel
theorem test_selectSeenReleased :
    ((after (.selectSeenReleased .a)
      (State.reset.setPort .a { ControlPort.initial with transaction := .waiting, select := true })).port .a) =
      ControlPort.initial := by decide

/-! ## Figures -/

theorem test_program_layout :
    programBytes content =
      [1#8, 0#8, 1#8, 7#8, 0#8, 0#8, 0#8, 0#8, 0xFF#8, 0x1A#8, 200#8, 200#8, 10#8, 0xFD#8, 0x44#8, 10#8,
       0#8, 0#8, 0#8, 3#8, 0#8, 0#8, 0#8, 100#8, 0#8, 0x03#8, 0xE8#8, 0x0F#8, 0xE0#8, 0xFD#8, 0xA8#8] := by
  decide +kernel
theorem test_program_reads : programOfBytes (programBytes content) = some content := by decide +kernel
theorem test_policy_reads :
    policyOfBytes (policyBytes PolicyRecord.initial) = some PolicyRecord.initial := by decide +kernel
theorem test_audio_frame :
    slotSample (audioFrame #v[1#24, 2#24, 3#24, 4#24, 5#24, 6#24, 7#24, 0x800000#24]) 7 = 0x800000#24 := by
  decide +kernel
theorem test_level_full_scale : levelOf (2 ^ 40) = 0 ∧ levelOf (2 ^ 39) = -30 ∧ levelOf 0 = -1000 := by
  decide +kernel
theorem test_gain_factors : gainFactor 0 = 1048576 ∧ gainFactor 600 = 2092184 ∧
    gainFactor (-30) = 1012978 := by decide +kernel
theorem test_power_factor : powerFactor 0 = 65536 ∧ powerFactor 3 = 92572 := by decide +kernel
theorem test_tone : tone 12 = 1056064 ∧ tone 36 = -1056064 ∧ tone 24 = 0 := by decide

/-! ## What the statements suppose is met

One theorem for each statement of the obligations that has hypotheses, named after it: a state and operands
that meet all of them together, for each clause, at the ends of its range. -/

theorem test_meets_IdleStepPassesTime : State.reset.pending = [] := rfl

theorem test_meets_WarmResetAsserts : State.reset.resetAsserted = false := rfl

theorem test_meets_WarmResetReleases :
    let s : State := { withProgram plain (enabled State.reset) with resetAsserted := true }
    s.resetAsserted = true ∧ (s.link 0).enable = true ∧ (s.link 7).enable = false ∧
      (s.program 0).active = true ∧ (s.program 15).active = false := by decide

theorem test_meets_SyncMarkStartsFrame :
    receiving.receivers[(0 : Fin 8)].state ≠ .off ∧ receiving.receivers[(7 : Fin 8)].state = .off := by
  decide

theorem test_meets_ArrivalInPresentFeedsConverter :
    receiving.receivers[(7 : Fin 8)].state = .off ∧
      (State.reset.setReceiver 0 Receiver.start).receivers[(0 : Fin 8)].inFrame = false ∧
      receiving.receivers[(0 : Fin 8)].state = .present ∧
      receiving.receivers[(0 : Fin 8)].inFrame = true ∧
      (receiving.converters[(0 : Fin 8)].arrive 0
        (Vector.ofFn fun y => slotSample 0#256 y)).2 = none := by decide +kernel

/-- A converter in IDLE, in LOST, and in ACQUIRE with 255 frames and with 256; and one that reads, with 255
frames and with 256. -/
theorem test_meets_FullFifoDeletes :
    let collecting (n : Nat) : Converter := { Converter.initial.enable with fifo := frames 0 n, nextIndex := n }
    (Converter.initial.state = .idle ∧ ({ running 16 with state := .lost } : Converter).state = .lost) ∧
      ((collecting 255).state = .acquire ∧ (collecting 255).fifo.length = 255 ∧
        (collecting 256).fifo.length = 256) ∧
      ((running 255).running = true ∧ (running 255).fifo.length < 256) ∧
      ((running 256).running = true ∧ 256 ≤ (running 256).fifo.length ∧ (running 256).state = .locked) ∧
      ({ running 256 with state := .freewheel } : Converter).running = true := by decide +kernel

theorem test_meets_ArrivalInLostCountsReturn :
    (∀ run ∈ [0, 30, 31], (returning run).receivers[(0 : Fin 8)].state = .lost ∧
      (returning run).receivers[(0 : Fin 8)].inFrame = true ∧
      (returning run).converters[(0 : Fin 8)].state = .lost) ∧
      (returning 30).receivers[(0 : Fin 8)].run < 31 ∧
      (returning 31).receivers[(0 : Fin 8)].run = 31 := by decide

theorem test_meets_AbsenceDeclaresLoss :
    let present := receiving.setReceiver 0 { Receiver.start with timer := some 4800000 }
    let lost := (returning 3).setReceiver 0 { state := .lost, timer := some 4800000, run := 3, inFrame := false }
    (present.receivers[(0 : Fin 8)].timer = some Config.absenceLimit ∧
      present.receivers[(0 : Fin 8)].state = .present ∧
      present.converters[(0 : Fin 8)].state ≠ .idle) ∧
      lost.receivers[(0 : Fin 8)].timer = some Config.absenceLimit ∧
      lost.receivers[(0 : Fin 8)].state = .lost := by decide

/-- A pulse is ignored while RESETn is asserted and 479,999 units after another. -/
theorem test_meets_RefPulseMeasures_ignored :
    ({ State.reset with resetAsserted := true } : State).resetAsserted = true ∧
      (tracking 479999).ref.lastPulse = some 520001 ∧
      (tracking 479999).clock.now - 520001 < Config.refDeadTime := by decide

/-- The reference monitor in TRACKING, 4,800,000 units and some more after a pulse. -/
def late (more : Nat) : State :=
  { tracking 0 with
    clock :=
      { State.reset.clock with now := 4800000 + more, lastFrame := 3900000, nextFrame := 4900000 }
    ref := { RefMonitor.initial with state := .tracking, lastPulse := some 0 } }

/-- Accepted pulses: 480,000 units after another in TRACKING, nearer to the instant before; 4,800,000
units after another, nearer to the instant after; and first of all, in HOLDOVER. -/
theorem test_meets_RefPulseMeasures_accepted :
    ((tracking 480000).resetAsserted = false ∧ (tracking 480000).ref.lastPulse = some 520000 ∧
      Config.refDeadTime ≤ (tracking 480000).clock.now - 520000 ∧
      (tracking 480000).clock.now - 520000 ≤ Config.absenceLimit ∧
      (tracking 480000).ref.state = .tracking ∧
      (tracking 480000).clock.now - (tracking 480000).clock.lastFrame <
        (tracking 480000).clock.nextFrame - (tracking 480000).clock.now) ∧
      ((late 0).ref.lastPulse = some 0 ∧ (late 0).clock.now - 0 ≤ Config.absenceLimit ∧
        Config.refDeadTime ≤ (late 0).clock.now - 0 ∧
        (late 0).clock.nextFrame - (late 0).clock.now < (late 0).clock.now - (late 0).clock.lastFrame) ∧
      State.reset.ref.lastPulse = none ∧ State.reset.ref.state = .holdover := by decide

/-- Accepted pulses more than 100 µs after another, and in HOLDOVER at run counts 0, 1, 30 and 31. -/
theorem test_meets_RefPulseMeasures_runs :
    (Config.absenceLimit < (late 1).clock.now - 0 ∧ (late 1).ref.state = .tracking) ∧
      ∀ run ∈ [0, 1, 30, 31], (holding run).ref.state = .holdover ∧ (holding run).ref.run = run ∧
        (holding run).ref.lastPulse = some 0 ∧ Config.refDeadTime ≤ (holding run).clock.now - 0 ∧
        (holding run).clock.now - 0 ≤ Config.absenceLimit := by decide

/-- The 32nd pulse of a run, nearer to the instant after it and nearer to the one before. -/
theorem test_meets_RefPulseMeasures_returns :
    let at_ (next : Nat) : State :=
      { holding 31 with
        clock := { State.reset.clock with now := 1000000, lastFrame := 500000, nextFrame := next } }
    ∀ next ∈ [1499999, 1500001], (at_ next).ref.state = .holdover ∧ (at_ next).ref.run = 31 ∧
      (at_ next).clock.now - 0 ≤ Config.absenceLimit ∧
      ((at_ 1499999).clock.nextFrame - (at_ 1499999).clock.now <
        (at_ 1499999).clock.now - (at_ 1499999).clock.lastFrame) ∧
      (at_ 1500001).clock.now - (at_ 1500001).clock.lastFrame <
        (at_ 1500001).clock.nextFrame - (at_ 1500001).clock.now := by decide

theorem test_meets_RefAbsenceHoldsOver :
    let s : State := { tracking 5 with ref := { (tracking 5).ref with timer := 4800000 } }
    let r : State := { State.reset with ref := { State.reset.ref with timer := 4800000 } }
    (s.resetAsserted = false ∧ s.ref.timer = Config.absenceLimit ∧ s.ref.state = .tracking) ∧
      r.resetAsserted = false ∧ r.ref.timer = Config.absenceLimit ∧ r.ref.state = .holdover := by decide

theorem test_meets_FramePeriodBounded :
    let r (offset : Int) : RefMonitor := { RefMonitor.initial with state := .tracking, offset := offset }
    RefMonitor.initial.state = .holdover ∧ (r 21).state = .tracking ∧ 0 < (r 21).offset ∧
      (r (-21)).offset < 0 := by decide

theorem test_meets_HouseFrameCounts :
    State.reset.resetAsserted = false ∧ State.reset.clock.blockDue = false ∧
      State.reset.content 15 = none := by decide

theorem test_meets_HouseFrameCounts_cell :
    ∀ (p : Fin 16) (r : ProgramRecord) (layout : Layout) (l : Nat),
      State.reset.content p = some r → State.reset.delays[p].layout = some layout →
        l < r.channels.length →
          State.reset.delays[p].cell layout l (State.reset.clock.frames + 1) ≠ 5 := by
  intro p r layout l h
  have hall : ∀ p : Fin 16, State.reset.content p = none := by decide
  rw [hall p] at h
  cases h

theorem test_meets_UnclaimedSlotSilent :
    ∀ (p : Fin 16) (r : ProgramRecord), (withProgram plain State.reset).content p = some r →
      ({ link := 7, slot := 7 } : Slot) ∉ r.outputs := by
  intro p r h
  have hp : ∀ p : Fin 16, ((withProgram plain State.reset).content p).all
      (fun r => decide (({ link := 7, slot := 7 } : Slot) ∉ r.outputs)) = true := by decide
  have hh := hp p
  rw [h] at hh
  simpa using hh

theorem test_meets_HouseFrameInReset :
    ({ State.reset with resetAsserted := true } : State).resetAsserted = true := rfl

/-- A lane of valid depth 11, at whole delays 0 and 10. -/
theorem test_meets_WholeDelayReadsStoredFrame :
    let d (k : Nat) : DelayEngine := { layOut 1 section4 with current := k * 65536 }
    let lane : Lane := { valid := 11, correction := 0 }
    ((d 0).effective lane = 0 * 65536 ∧ 0 ≤ 10 ∧ 0 < lane.valid) ∧
      (d 10).effective lane = 10 * 65536 ∧ 10 ≤ 10 ∧ 10 < lane.valid := by decide +kernel

theorem test_meets_LanesHoldWhatIsWritten :
    let layout : Layout := { base := 16382, pages := 1, lanes := 2 }
    Memory.wf [] = true ∧ 0 < layout.pages ∧
      ({ DelayEngine.initial with capacity := 1024 } : DelayEngine).capacity = layout.pages * 1024 ∧
      (layout.base + [1#24, 2#24].length * layout.pages) * 1024 ≤ Config.memoryCells ∧
      1 < [1#24, 2#24].length := by decide

theorem test_meets_BlockEndApplies :
    (blockDue (changing plain)).resetAsserted = false ∧
      (blockDue (changing plain)).clock.blockDue = true ∧
      ((blockDue (changing plain)).port .a).executing = some { record := .program 0, revision := 1#16 } ∧
      ((blockDue (changing plain)).port .b).executing = none := by decide

/-- A state with a change staged is consistent. -/
theorem test_meets_BlockEndApplies_consistent : (changing plain).ChangesConsistent := by
  refine ⟨?_, ?_, ?_⟩
  · intro name q revision
    rcases name with p | l | _
    · by_cases hp : p = 0
      · subst hp
        cases q <;> simp [changing, Tables.waitingOn, State.port, State.setPort, pendingPort, Pair.get,
          Pair.set, State.reset, ControlPort.initial, eq_comm]
      · have hv : ¬ (0 : Nat) = p.val := fun e => hp (Fin.ext e.symm)
        cases q <;> simp [changing, Tables.waitingOn, State.port, State.setPort, pendingPort, Pair.get,
          Pair.set, State.reset, ControlPort.initial, hv, Tables.initial, Record.initial, eq_comm, hp]
    · cases q <;> simp [changing, Tables.waitingOn, State.port, State.setPort, pendingPort, Pair.get,
        Pair.set, State.reset, ControlPort.initial, Tables.initial, Record.initial]
    · cases q <;> simp [changing, Tables.waitingOn, State.port, State.setPort, pendingPort, Pair.get,
        Pair.set, State.reset, ControlPort.initial, Tables.initial, Record.initial]
  · intro name
    rcases name with p | l | _
    · revert p; decide
    · revert l; decide
    · decide
  · intro q
    cases q <;> decide

/-- Disagreeing samples at a counter below the hold and at it, for both directions. -/
theorem test_meets_DebounceFollowsHolds :
    let policy : KindPolicy := { severity := .major, holdRaise := 10, holdClear := 5, edges := .both }
    let c (raised : Bool) (n : Nat) : Condition := { test := false, raised := raised, counter := n }
    (true ≠ (c false 9).raised ∧ (c false 9).counter < policy.holdRaise ∧
      policy.holdRaise ≤ (c false 10).counter) ∧
      false ≠ (c true 4).raised ∧ (c true 4).counter < policy.holdClear ∧
      policy.holdClear ≤ (c true 5).counter ∧ false = (c false 3).raised := by decide

/-- A block end at which an instance is sampled and stays present, at a counter below its hold and at it, with
a hold of 0, and with a counter of 3,000. -/
theorem test_meets_DebounceFollowsHolds_blockEnd :
    let s (i : Fin 129) (n : Nat) : State :=
      { blockDue (enabled State.reset) with
        conditions := State.reset.conditions.set i { test := true, raised := false, counter := n } }
    ∀ i ∈ [(1 : Fin 129), 2], ∀ n ∈ [0, 9, 10, 3000],
      (s i n).resetAsserted = false ∧ (s i n).clock.blockDue = true ∧ (s i n).tables.present i = true ∧
        (after .blockEnd (s i n)).tables.present i = true ∧ (s i n).conditions[i].counter = n ∧
        ((s i n).policy.kind (conditionKind 1)).holdRaise = 0 ∧
        ((s i n).policy.kind (conditionKind 2)).holdRaise = 10 := by decide +kernel

/-- A block end at which link 0 stays enabled, link 1 is disabled, link 2 is enabled and link 7 stays
disabled. -/
def linkChanges : State :=
  (((blockDue (enabled State.reset)).setLink 1
    { applied := { LinkRecord.initial with enable := true }, revision := 1#16,
      staged := some { content := LinkRecord.initial, origin := .a }, waiting := [] }).setLink 2
    { applied := LinkRecord.initial, revision := 1#16,
      staged := some { content := { LinkRecord.initial with enable := true }, origin := .a },
      waiting := [] })

theorem test_meets_BlockEndDebounces :
    linkChanges.resetAsserted = false ∧ linkChanges.clock.blockDue = true ∧
      ((linkChanges.link 0).enable = true ∧ ((after .blockEnd linkChanges).link 0).enable = true) ∧
      ((linkChanges.link 1).enable = true ∧ ((after .blockEnd linkChanges).link 1).enable = false) ∧
      (linkChanges.link 7).enable = false ∧ (128 : Fin 129).val ≠ 1 + 2 * (0 : Fin 8).val ∧
      (15 : Fin 129).val = 1 + 2 * (7 : Fin 8).val := by decide +kernel

theorem test_meets_BlockEndAppliesLinks :
    ((linkChanges.link 2).enable = false ∧ ((after .blockEnd linkChanges).link 2).enable = true) ∧
      ((linkChanges.link 1).enable = true ∧ ((after .blockEnd linkChanges).link 1).enable = false) ∧
      (linkChanges.link 7).enable = ((after .blockEnd linkChanges).link 7).enable := by decide +kernel

/-- A converter of R_meas 1 at a block end that ends a block of some arrivals, and its state and counter after
it. -/
def tracked (state : ConverterState) (arrivals counter ratio : Nat) : Converter :=
  { running 256 with
    state := state, counting := true, arrivals := arrivals, counter := counter, ratio := ratio
    measured := 268435456 }

/-- The state and the counter that a block end leaves. -/
def tracks (c : Converter) : ConverterState × Nat :=
  ((c.blockEnd .medium).state, (c.blockEnd .medium).counter)

/-- ACQUIRE: a converter that starts to count, one of seven measured ratios, and those of eight, which lie up to
65,536 apart and 65,537 apart. -/
theorem test_meets_BlockEndAppliesLinks_locks :
    let collecting (measures : List Nat) : Converter :=
      { tracked .acquire 4800 0 0 with measures := measures }
    (tracks { tracked .acquire 7 0 0 with counting := false } = (.acquire, 0) ∧
      tracks (collecting (List.replicate 6 268435456)) = (.acquire, 0)) ∧
      tracks (collecting ((268435456 + 65536) :: List.replicate 6 268435456)) = (.locked, 0) ∧
        tracks (collecting ((268435456 + 65537) :: List.replicate 6 268435456)) = (.acquire, 0) := by
  decide +kernel

/-- LOCKED, FREEWHEEL and RELOCK: R_meas in range and not, at the ends of the distances that they test, and at
the counters before their last. -/
theorem test_meets_BlockEndAppliesLinks_tracks :
    let one : Nat := 268435456
    (tracks (tracked .locked 4800 3 (one + 524288)) = (.locked, 0) ∧
      tracks (tracked .locked 4800 2 (one + 524289)) = (.locked, 3) ∧
      tracks (tracked .locked 4800 3 (one + 524289)) = (.freewheel, 0) ∧
      tracks (tracked .locked 2999 0 one) = (.freewheel, 0)) ∧
      (tracks (tracked .freewheel 4800 0 one) = (.freewheel, 1) ∧
        tracks (tracked .freewheel 4800 6 one) = (.freewheel, 7) ∧
        tracks (tracked .freewheel 4800 7 one) = (.relock, 0) ∧
        tracks (tracked .freewheel 2999 7 one) = (.freewheel, 0) ∧
        tracks { tracked .freewheel 4800 7 one with measured := one + 65537 } = (.freewheel, 1)) ∧
      tracks (tracked .relock 4800 6 (one + 65536)) = (.relock, 7) ∧
        tracks (tracked .relock 4800 7 (one + 65536)) = (.locked, 0) ∧
        tracks (tracked .relock 4800 7 (one + 65537)) = (.relock, 0) ∧
        tracks (tracked .relock 2999 7 one) = (.freewheel, 0) := by decide +kernel

/-- A block end that starts a program with a delay, one that starts a program without, and one that
closes a program. -/
theorem test_meets_BlockEndStartsAndClosesPrograms :
    let starts := blockDue (changing content)
    let passes := blockDue (changing plain)
    let closes := blockDue (State.reset.setProgram 0
      { applied := plain, revision := 1#16,
        staged := some { content := ProgramRecord.unused, origin := .a }, waiting := [] })
    (starts.clock.blockDue = true ∧ (starts.program 0).active = false ∧
      ((after .blockEnd starts).program 0).active = true ∧
      ((after .blockEnd starts).program 0).usable = some section4) ∧
      ((passes.program 0).active = false ∧ ((after .blockEnd passes).program 0).active = true ∧
        ((after .blockEnd passes).program 0).usable = none) ∧
      closes.clock.blockDue = true ∧ (closes.program 0).active = true ∧
        ((after .blockEnd closes).program 0).active = false := by decide +kernel

/-- A distance of exactly the slew, one more on either side, and the ends of the limits. -/
theorem test_meets_GainMovesOneSlewStep :
    (((10 : Int) - 0).natAbs ≤ 10 ∧ 10 < ((11 : Int) - 0).natAbs ∧ (0 : Int) < 11 ∧
      10 < ((-11 : Int) - 0).natAbs ∧ (-11 : Int) < 0) ∧
      -10 * (loudness.maxCut : Int) ≤ -2000 ∧ (2000 : Int) ≤ 10 * (loudness.maxBoost : Int) := by decide

/-- The least and the greatest gain, the first and the last phase, and the ends of a ramp. -/
theorem test_meets_RampRunsToItsEnd :
    ((-2000 : Int) ≤ -2000 ∧ (-2000 : Int) ≤ 2000 ∧ (2000 : Int) ≤ 2000) ∧ (0 < 48 ∧ 47 < 48) ∧
      0 ≤ 4800 ∧ 4800 ≤ 4800 := by decide

theorem test_meets_LayoutDividesWindow :
    0 < 4 ∧ section4.base ≤ section4.limit ∧ 4 ≤ section4.limit + 1 - section4.base := by decide

/-- Steps at their first and last house frame, one of them down to 0. -/
theorem test_meets_DelayGlidesByItsStep :
    let x : DelayStep := { amount := -65536, start := 65536, frames := 0 }
    let y : DelayStep := { amount := 4800, start := 0, frames := 4799 }
    (x.frames < 4800 ∧ 0 ≤ (x.start : Int) + x.amount) ∧
      y.frames < 4800 ∧ 0 ≤ (y.start : Int) + y.amount ∧ y.frames = 4799 := by decide

theorem test_meets_SlipCorrectsLanesOfItsLink :
    content.active = true ∧ (layOut 1 section4).layout.isSome = true ∧
      (layOut 1 section4).lanes[0]? = some { valid := 0, correction := 0 } ∧
      content.channels[0]? = some channel ∧ channel.feedsFrom 0 = true ∧ channel.feedsFrom 7 = false := by
  decide +kernel

/-- Valid depths of exactly the target and 16, and of one less. -/
theorem test_meets_JumpTakesTarget :
    let d (valid : Nat) : DelayEngine :=
      { layOut 1 section4 with lanes := [{ valid := valid, correction := 3 }] }
    (d 116).target ≤ (d 116).usable ∧ (d 116).lanes.all (fun x => (d 116).target + 16 ≤ x.valid) = true ∧
      (d 115).lanes.any (fun x => decide (x.valid < (d 115).target + 16)) = true := by decide +kernel

theorem test_meets_SelectAssertFixesOutput :
    let waiting := State.reset.setPort .a { ControlPort.initial with transaction := .waiting }
    let holding := State.reset.answer .a .done [5#8]
    let executing := (changing plain).setPort .a { pendingPort with transaction := .idle }
    ({ State.reset with resetAsserted := true } : State).resetAsserted = true ∧
      ((waiting.port .a).transaction = .waiting ∧ waiting.resetAsserted = false) ∧
      ((executing.port .a).transaction = .idle ∧ (executing.port .a).executing.isSome = true) ∧
      ((State.reset.port .b).transaction = .idle ∧ (State.reset.port .b).executing = none ∧
        (State.reset.port .b).held = none) ∧
      (holding.port .a).transaction = .idle ∧ (holding.port .a).executing = none ∧
        (holding.port .a).held = some (respond .done [5#8]) := by decide

/-- A NULL of the whole frame of a held response of one byte, and one of a byte less; an UNKNOWN and a
LENGTH. -/
theorem test_meets_FramesWithoutRequestAnswered :
    (normal .a State.reset).resetAsserted = false ∧
      ((normal .a State.reset).port .a).transaction = .normal ∧
      ((normal .a State.reset).port .a).held = none ∧
      ((normal .a (State.reset.answer .a .done [5#8])).port .a).held = some (respond .done [5#8]) ∧
      ((Instr.null .a (bitsOfBytes [0#8, 0#8, 0#8, 0#8])).wellFormed = true ∧
        3 + (respond .done [5#8]).body.length ≤ (bytesOfBits (bitsOfBytes [0#8, 0#8, 0#8, 0#8])).length) ∧
      ((Instr.null .a (bitsOfBytes [0#8, 0#8, 0#8])).wellFormed = true ∧
        (bytesOfBits (bitsOfBytes [0#8, 0#8, 0#8])).length < 3 + (respond .done [5#8]).body.length) ∧
      (Instr.unknown .a (bitsOfBytes [2#8])).wellFormed = true ∧
      (Instr.length .a (bitsOfBytes [1#8])).wellFormed = true := by decide +kernel

theorem test_meets_PendingTransactionIgnoresInput :
    (changing plain).resetAsserted = false ∧ ((changing plain).port .a).transaction = .pending ∧
      completesPortReset (bytesOfBits (bitsOfBytes [0x7F#8, 0#8])) = false := by decide +kernel

theorem test_meets_WaitEndsWithoutTransaction :
    let s := State.reset.setPort .a { ControlPort.initial with transaction := .waiting, select := true }
    s.resetAsserted = false ∧ (s.port .a).transaction = .waiting := by decide

theorem test_meets_AttendanceExpires :
    (overdue.place .a).attending = true ∧ overdue.policy.timeout ≠ 0 ∧
      overdue.policy.timeout * Config.second ≤ (overdue.place .a).timer := by decide

/-- A log with one entry while no port attends, while one attends that has not read it, and while one attends
that has: the entry stays, stays, and leaves. -/
theorem test_meets_AttendanceExpires_retires :
    let log (attending : Bool) (cursor : Nat) : AlarmLog :=
      (logged.setPlace .a { LogPort.initial with attending := attending, cursor := cursor }).log
    ((∀ q : Port, ((log false 0).ports.get q).attending = false) ∧ (log false 0).retire = log false 0) ∧
      (((log true 0).ports.get .a).attending = true ∧ (log true 0).retire = log true 0) ∧
      ((log true 1).ports.get .a).attending = true ∧ (log true 1).retire.entries = [] ∧
        ((log true 1).retire.ports.get .b) = { LogPort.initial with cursor := 1, missed := 1 } := by
  refine ⟨⟨fun q => by cases q <;> decide, by decide⟩, by decide, by decide, by decide, by decide⟩

/-- The state that the requests' statements suppose: IDENTIFY, READ_PROGRAM, READ_LINK, READ_POLICY,
READ_METER, READ_CONDITIONS, RESET_METER, FETCH_ALARMS and SET_ATTENTION. -/
theorem test_meets_InNormal : (normal .a State.reset).InNormal .a ∧ (normal .b State.reset).InNormal .b := by
  exact ⟨⟨rfl, rfl⟩, rfl, rfl⟩

/-- Program and link numbers at the end of their ranges and just past it, for RecordReadsAnswer,
MeterReadAnswers and ResetMeterMarksClear. -/
theorem test_meets_RecordReadsAnswer :
    ((15 : Fin 16).val = (15#8).toNat ∧ 16 ≤ (16#8).toNat) ∧
      ((7 : Fin 8).val = (7#8).toNat ∧ 8 ≤ (8#8).toNat) ∧
      (16 ≤ (254#8).toNat ∧ 254#8 ≠ 255#8) := by decide

theorem test_meets_WriteProgramAccepted :
    (Instr.writeProgram .a 15#8 0#16 (programBytes content) []).wellFormed = true ∧
      (15 : Fin 16).val = (15#8).toNat ∧ programOfBytes (programBytes content) = some content ∧
      content.inRange = true ∧
      0#16 = (normal .a State.reset).tables.programs[(15 : Fin 16)].revision ∧
      (normal .a State.reset).tables.conflict 15 content = none := by decide +kernel

/-- A number out of range, a record that encodes nothing, a record out of range, another revision, and a
conflict. -/
theorem test_meets_WriteProgramRefused :
    16 ≤ (16#8).toNat ∧
      ((Instr.writeProgram .a 0#8 0#16 [2#8, 0#8, 0#8, 0#8] []).wellFormed = true ∧
        (programOfBytes [2#8, 0#8, 0#8, 0#8]).all (fun r => !r.inRange) = true) ∧
      ((Instr.writeProgram .a 0#8 0#16 [1#8, 0#8, 0#8, 0#8] []).wellFormed = true ∧
        (programOfBytes [1#8, 0#8, 0#8, 0#8]).all (fun r => !r.inRange) = true) ∧
      5#16 ≠ (normal .a State.reset).tables.programs[(0 : Fin 16)].revision ∧
      (normal .a (withProgram plain State.reset)).tables.conflict 1 content = some (0, .slot) := by
  decide +kernel

theorem test_meets_ConflictCheckExact :
    (withProgram plain State.reset).tables.conflict 0 content = none ∧
      (withProgram content State.reset).tables.conflict 15 { content with channels := [] } =
        some (0, .pages) := by decide +kernel

/-- A link number out of range and fields just out of range; a record in range; another revision. -/
theorem test_meets_WriteLinkChecked :
    (8 ≤ (8#8).toNat ∧ 1 < (2#8).toNat ∧ (1#8).toNat < 2 ∧ 8 < (9#8).toNat ∧ 2 < (3#8).toNat ∧
      (8#16 : KindSet) &&& ~~~0x0006#16 ≠ 0#16) ∧
      (linkOfBytes ([1#8, 8#8, 2#8] ++ bytes16 6#16) =
          some { enable := true, slots := 8, bandwidth := .narrow, kinds := 6#16 } ∧
        ({ enable := true, slots := 8, bandwidth := .narrow, kinds := 6#16 } : LinkRecord).inRange = true) ∧
      (7 : Fin 8).val = (7#8).toNat ∧
      0#16 = (normal .a State.reset).tables.links[(7 : Fin 8)].revision ∧
      1#16 ≠ (normal .a State.reset).tables.links[(7 : Fin 8)].revision := by decide

theorem test_meets_WritePolicyChecked :
    (Instr.writePolicy .a 0#16 (policyBytes PolicyRecord.initial) []).wellFormed = true ∧
      policyOfBytes (policyBytes PolicyRecord.initial) = some PolicyRecord.initial ∧
      PolicyRecord.initial.inRange = true ∧
      ((Instr.writePolicy .a 0#16 (List.replicate 74 0#8) []).wellFormed = true ∧
        (policyOfBytes (List.replicate 74 5#8)).all (fun r => !r.inRange) = true) ∧
      0#16 = (normal .a State.reset).tables.policy.revision ∧
      1#16 ≠ (normal .a State.reset).tables.policy.revision := by decide +kernel

/-- Values at the ends of their ranges and just past them, a program with the section and one without. -/
theorem test_meets_SetsLandOnBaseContent :
    ((240000#32).toNat ≤ 240000 ∧ 240000 < (240001#32).toNat) ∧
      (-400 ≤ (BitVec.ofInt 16 (-400)).toInt ∧ (BitVec.ofInt 16 (-401)).toInt < -400 ∧
        (BitVec.ofInt 16 (-50)).toInt ≤ -50 ∧ -50 < (BitVec.ofInt 16 (-49)).toInt) ∧
      (withProgram content State.reset).tables.programs[(0 : Fin 16)].newest.delay = some section4 ∧
      (withProgram content State.reset).tables.programs[(0 : Fin 16)].newest.loudness = some loudness ∧
      (withProgram content State.reset).tables.programs[(15 : Fin 16)].newest.delay = none ∧
      (withProgram content State.reset).tables.programs[(15 : Fin 16)].newest.loudness = none := by
  decide +kernel

theorem test_meets_FetchDelivers :
    ((0#8).toNat = 0 ∧ 8 < (9#8).toNat) ∧ (1 ≤ (1#8).toNat ∧ (1#8).toNat ≤ 8) ∧
      1 ≤ (8#8).toNat ∧ (8#8).toNat ≤ 8 := by decide

theorem test_meets_SetAttentionReplaces :
    ((1#16 : KindSet) &&& ~~~0x1FFE#16 ≠ 0#16 ∧ 2 < (3#8).toNat) ∧
      ((0x1FFE#16 : KindSet) &&& ~~~0x1FFE#16 = 0#16 ∧ Severity.rank .major = (2#8).toNat) := by decide

theorem test_meets_PortResetTaken :
    ((normal .a State.reset).resetAsserted = false ∧
      ((normal .a State.reset).port .a).transaction = .normal ∧
      ((normal .a State.reset).port .a).executing = none) ∧
      (changing plain).resetAsserted = false ∧ ((changing plain).port .a).transaction = .pending := by
  decide

theorem test_meets_WellFormedCommandsSpellTheirRow :
    (Instr.writeProgram .a 0#8 0#16 (programBytes content) []).wellFormed = true ∧
      (Instr.identify .b [true]).wellFormed = true ∧
      (Instr.null .a []).wellFormed = true ∧
      (Instr.null .a []).outcome = some .null := by decide +kernel

theorem test_meets_RecordsRoundTrip :
    content.inRange = true ∧ ProgramRecord.unused.inRange = true ∧ LinkRecord.initial.inRange = true ∧
      PolicyRecord.initial.inRange = true := by decide +kernel

/-! ### The invariants: a state that meets each, with a step to take -/

/-- A cell listed, and a step of time. -/
theorem test_meets_StepKeepsMemoryCanonical :
    ({ State.reset with memory := [(5, 1#24)] } : State).MemoryCanonical ∧
      step { State.reset with memory := [(5, 1#24)] } =
        .next (State.tick { State.reset with memory := [(5, 1#24)] }) :=
  ⟨show Memory.wf [(5, 1#24)] = true by decide, rfl⟩

theorem test_meets_StepKeepsLogWellFormed :
    logged.log.WellFormed ∧ step logged = .next logged.tick :=
  ⟨(AlarmLog.hand_wellFormed _ AlarmLog.initial_wellFormed entry).1, rfl⟩

theorem test_meets_EntriesAreAccounted :
    logged.log.WellFormed ∧ exec .refPulse logged = .next (after .refPulse logged) ∧
      Instr.refPulse ≠ .powerOnReset ∧ Instr.refPulse ≠ .warmResetAssert ∧
      ∀ body, classify (bytesOfBits Instr.refPulse.sdi) ≠ .request .fetchAlarms body :=
  ⟨(AlarmLog.hand_wellFormed _ AlarmLog.initial_wellFormed entry).1, rfl, by decide, by decide,
    fun _ h => nomatch h⟩

theorem test_meets_FetchIsAccounted :
    (normal .a logged).log.WellFormed ∧ (normal .a logged).InNormal .a ∧ 1 ≤ (8#8).toNat ∧
      (8#8).toNat ≤ 8 ∧
      exec (.fetchAlarms .a 8#8 []) (normal .a logged) =
        .next (after (.fetchAlarms .a 8#8 []) (normal .a logged)) :=
  ⟨(AlarmLog.hand_wellFormed _ AlarmLog.initial_wellFormed entry).1, ⟨rfl, rfl⟩, by decide, by decide,
    rfl⟩

theorem test_meets_StepKeepsClaimsDisjoint :
    (withProgram plain State.reset).tables.ClaimsDisjoint ∧
      step (withProgram plain State.reset) = .next (withProgram plain State.reset).tick := by
  refine ⟨⟨?_, ?_⟩, rfl⟩
  · intro p q hpq x hx y hy
    have hall : ∀ p q : Fin 16, p ≠ q →
        ∀ x ∈ (withProgram plain State.reset).tables.programs[p].contents,
          ∀ y ∈ (withProgram plain State.reset).tables.programs[q].contents,
            slotsMeet x y = false ∧ pagesMeet x y = false := by decide +kernel
    exact hall p q hpq x hx y hy
  · have hall : ∀ p : Fin 16, ∀ x ∈ (withProgram plain State.reset).tables.programs[p].contents,
        x.outputs.Nodup := by decide +kernel
    exact hall

theorem test_meets_StepKeepsChangesConsistent :
    (changing plain).ChangesConsistent ∧ step (changing plain) = .next (changing plain).tick :=
  ⟨test_meets_BlockEndApplies_consistent, rfl⟩

theorem test_meets_StepKeepsOutputsExact :
    logged.OutputsExact ∧ step logged = .next logged.tick := ⟨State.settle_exact _, rfl⟩

/-- One queued gain behind F. -/
theorem test_meets_StepKeepsSchedulesOrdered :
    let s : State :=
      { State.reset with
        clock := { State.reset.clock with frames := 4801, blocks := 1#32 }
        tonePhase := 1
        gains := State.reset.gains.set 0 { GainStage.initial with queue := [{ stamp := 4800, gain := 10 }] } }
    s.HouseCounted ∧ s.SchedulesOrdered ∧ step s = .next s.tick := by
  refine ⟨⟨Or.inl (by decide), by decide⟩, ?_, rfl⟩
  intro p
  revert p
  decide +kernel

/-- A LOCKED converter with a whole FIFO. -/
theorem test_meets_StepKeepsConvertersOrdered :
    (State.reset.setConverter 7 (running 256)).ConvertersOrdered ∧
      step (State.reset.setConverter 7 (running 256)) =
        .next (State.reset.setConverter 7 (running 256)).tick := by
  refine ⟨?_, rfl⟩
  intro l
  by_cases hl : l = 7
  · subst hl
    refine ⟨?_, fun h => nomatch h⟩
    show (running 256).FramesOrdered
    refine ⟨by decide +kernel, by decide, by decide, by decide +kernel, ?_, ?_, ?_⟩
    · show List.map _ _ = _
      decide +kernel
    · intro _
      decide +kernel
    · intro h
      cases h
  · have hv : ¬ (7 : Nat) = l.val := fun e => hl (Fin.ext e.symm)
    have he : (State.reset.setConverter 7 (running 256)).converters[l] = Converter.initial := by
      simp only [State.setConverter, State.reset, Fin.getElem_fin, Vector.getElem_set,
        Vector.getElem_replicate]
      exact if_neg hv
    rw [he]
    exact ⟨Converter.initial_ordered, fun h => nomatch h⟩

/-! ### Further clauses of the statements about time, arrivals and loss -/

/-- Timers that run, one at its limit and one below it, and one that does not run; a port that attends and one
that does not; and a house frame that brings F to 4,800. -/
theorem test_meets_IdleStepPassesTime_timers :
    let s (timer : Nat) : State := State.reset.setReceiver 0 { Receiver.start with timer := some timer }
    let ends : State := { State.reset with clock := { State.reset.clock with now := 999999, frames := 4799 } }
    ((s 4799999).pending = [] ∧ (s 4799999).receivers[(0 : Fin 8)].timer = some 4799999 ∧
      (s 4800000).receivers[(0 : Fin 8)].timer = some 4800000 ∧
      (s 0).receivers[(7 : Fin 8)].timer = none) ∧
      (overdue.pending = [] ∧ (overdue.place .a).attending = true ∧
        (overdue.place .b).attending = false) ∧
      ends.pending = [] ∧ ends.resetAsserted = false ∧ ends.clock.nextFrame ≤ ends.clock.now + 1 ∧
        (ends.clock.frames + 1) % 4800 = 0 := by decide

theorem test_idle_blockEnd :
    (State.tick { State.reset with
      clock := { State.reset.clock with now := 999999, frames := 4799 } }).pending =
        [.houseFrame, .blockEnd] := by decide +kernel

/-- A change waits on a record when RESETn is asserted. -/
theorem test_meets_WarmResetAsserts_waiting :
    (changing plain).resetAsserted = false ∧ (changing plain).ChangesConsistent ∧
      (changing plain).tables.waitingOn (.program 0) ≠ [] :=
  ⟨rfl, test_meets_BlockEndApplies_consistent, by decide⟩

/-- The state with the log edges of LINK_SLIP and PROGRAM_CHANGED replaced. -/
def withEdges (edges : LogEdges) (s : State) : State :=
  s.setPolicy (Record.initial
    { PolicyRecord.initial with
      kinds := PolicyRecord.initial.kinds.map fun k => { k with edges := edges } })

/-- An arrival at a full FIFO, with a slip, under each log edge of an event. -/
theorem test_meets_ArrivalInPresentFeedsConverter_slip :
    let s := receiving.setConverter 0 (running 256)
    (s.receivers[(0 : Fin 8)].state = .present ∧ s.receivers[(0 : Fin 8)].inFrame = true ∧
      ((s.converters[(0 : Fin 8)].arrive 0 (Vector.ofFn fun y => slotSample 0#256 y)).2 =
        some { link := 0, direction := .delete, equivalent := 64 })) ∧
      (s.policy.kind .linkSlip).edges = .log ∧
      ((withEdges .never s).policy.kind .linkSlip).edges ≠ .log := by decide +kernel

theorem test_frameArrival_slip :
    (after (.frameArrival 0 0#256) (receiving.setConverter 0 (running 256))).log.entries.map LogEntry.entry =
      [{ kind := .linkSlip, subject := .link 0, edge := .event, severity := .note, stamp := 0#32,
         detail := .slip .delete 64 }] := by decide +kernel

/-- A converter that reads, at fade levels 480, 1 and 0, and one that collects. -/
theorem test_meets_AbsenceDeclaresLoss_fades :
    let s (c : Converter) : State :=
      (receiving.setReceiver 0 { Receiver.start with timer := some 4800000 }).setConverter 0 c
    (∀ level ∈ [0, 1, 480],
      (s { running 16 with fade := level }).receivers[(0 : Fin 8)].timer = some Config.absenceLimit ∧
      (s { running 16 with fade := level }).receivers[(0 : Fin 8)].state = .present ∧
      (s { running 16 with fade := level }).converters[(0 : Fin 8)].running = true ∧
      (s { running 16 with fade := level }).converters[(0 : Fin 8)].fade = level) ∧
      (s Converter.initial.enable).converters[(0 : Fin 8)].state = .acquire := by decide +kernel

/-! ### Further clauses of the statements about house frames -/

/-- A read position that leaves eight frames ahead, seven with a frame of history, and seven with none. -/
theorem test_meets_HouseFrameCounts_reads :
    let advanced (c : Converter) : Nat := c.position + c.used
    let ahead (c : Converter) : Nat := framesAhead (c.keptAt (advanced c)) (advanced c)
    let history (c : Converter) : List Frame := lastN 64 (c.history ++ c.passedAt (advanced c))
    let slow : Converter := { running 15 with used := 167772160 }
    ((running 17).running = true ∧ ahead (running 17) = 8) ∧
      (ahead (running 16) = 7 ∧ history (running 16) ≠ []) ∧
      slow.running = true ∧ ahead slow = 7 ∧ history slow = [] := by decide +kernel

/-- A LOST converter with eight frames ahead of its advance and with seven, at levels that fall to 1 and
to 0; and converters in IDLE and ACQUIRE. -/
theorem test_meets_HouseFrameCounts_lost :
    let lost (n level : Nat) : Converter :=
      { running n with state := .lost, fade := level, direction := .falling }
    let ahead (c : Converter) : Nat := framesAhead c.fifo (c.position + c.used)
    ((lost 17 2).state = .lost ∧ ahead (lost 17 2) = 8 ∧ ((lost 17 2).houseFrame 0 false).2.1.fade = 1) ∧
      (ahead (lost 16 2) = 7 ∧ ((lost 16 2).houseFrame 0 false).2.1.fade = 1) ∧
      ((lost 17 1).houseFrame 0 false).2.1.fade = 0 ∧
      Converter.initial.state = .idle ∧ Converter.initial.enable.state = .acquire := by decide +kernel

/-- Program 0 ACTIVE with a meter of its channel, on an enabled link. -/
def passing : State := (withProgram plain (enabled State.reset)).setMeter 0 (Meter.fresh 1)

/-- Program 0 in its closing fade, at a closing count. -/
def closing (count : Nat) : State :=
  (enabled State.reset).setGain 0
    { GainStage.initial with closing := count, closingContent := some plain }

/-- The input crosspoint gives a channel without an input, with a slot of a disabled link and with the
slot of an enabled one the sample zero where the converters deliver zeros. -/
theorem test_meets_HouseFrameCounts_gives (c : Channel) :
    passing.GivesChannel (Vector.replicate 8 silentSlots) c 0#24 := by
  refine ⟨fun _ => rfl, fun x _ => ⟨fun _ => ?_, fun _ => rfl⟩⟩
  simp [silentSlots]

theorem test_meets_HouseFrameCounts_programs :
    (passing.resetAsserted = false ∧ passing.clock.blockDue = false ∧
      (passing.program 0).active = true ∧ passing.meters[(0 : Fin 16)].channels[0]? = some ChannelMeter.zero ∧
      (passing.program 0).channels[0]? = some channel ∧
      (passing.link 0).enable = true ∧ 7 < (passing.link 0).slots ∧ (passing.link 7).enable = false) ∧
      ∀ count ∈ [1, 2, 480], (closing count).clock.blockDue = false ∧
        ((closing count).program 0).active = false ∧ (closing count).content 0 = some plain ∧
        (closing count).gains[(0 : Fin 16)].closing = count := by decide +kernel

/-- A slot's driving program is ACTIVE in BYPASS, or closing; and its channel carries the slot. -/
theorem test_meets_UnclaimedSlotSilent_driven :
    (∀ slot ∈ plain.outputs, passing.Drives 0 plain slot) ∧
      (∀ slot ∈ plain.outputs, (closing 1).Drives 0 plain slot) ∧
      plain.channels[0]? = some channel ∧ channel.output = some { link := 0, slot := 0 } := by
  have alone : ∀ (s : State), s.content 0 = some plain → (∀ q : Fin 16, q ≠ 0 → s.content q = none) →
      ∀ slot ∈ plain.outputs, s.Drives 0 plain slot := fun s h0 hn slot hm =>
    ⟨h0, hm, by decide, fun q u hq hu _ => by rw [hn q hq] at hu; cases hu⟩
  exact ⟨alone passing (by decide) (by decide), alone (closing 1) (by decide) (by decide), by decide⟩

/-- A closing program and an ACTIVE one that claim one slot: the ACTIVE one drives it. -/
theorem test_meets_UnclaimedSlotSilent_shared :
    let s := (closing 480).setProgram 15 (Record.initial plain)
    s.Drives 15 plain { link := 0, slot := 0 } := by
  refine ⟨by decide, by decide, by decide, fun q u hq _ _ => ⟨rfl, ?_⟩⟩
  have h : ∀ q : Fin 16, q ≠ 15 →
      (((closing 480).setProgram 15 (Record.initial plain)).program q).active = false := by decide
  exact h q hq

/-! ### Further clauses of the statements about block ends -/

theorem test_meets_BlockEndApplies_staged :
    (blockDue (changing plain)).tables.stagedOn (.program 0) = true ∧
      (blockDue (changing plain)).tables.stagedOn .policy = false ∧
      ((blockDue (changing plain)).policy.kind .programChanged).edges = .log ∧
      ((withEdges .never (blockDue (changing plain))).policy.kind .programChanged).edges ≠ .log := by
  decide +kernel

/-- Program 0 with all its sections, laid out, at a block end, its delay clamped. -/
def sampled : State :=
  ((blockDue (withProgram { content with alarm := some { kinds := 0x0FE0#16, silence := -600 } }
    State.reset)).setMeter 0 (Meter.fresh 1)).setDelay 0 { layOut 1 section4 with clamped := true }

/-- The places of the conditions of the first and the last link and program. -/
theorem test_meets_BlockEndDebounces_places :
    ((1 : Fin 129).val = 1 + 2 * (0 : Fin 8).val ∧ (16 : Fin 129).val = 2 + 2 * (7 : Fin 8).val) ∧
      ((17 : Fin 129).val = 17 + 7 * (0 : Fin 16).val ∧ (128 : Fin 129).val = 23 + 7 * (15 : Fin 16).val) ∧
      conditionKind 16 = .linkUnlocked ∧ conditionSubject 16 = .link 7 ∧
      conditionKind 17 = .silence ∧ conditionSubject 17 = .program 0 ∧
      conditionKind 128 = .syncLost ∧ conditionSubject 128 = .program 15 := by decide +kernel

/-- An ACTIVE program and one that is UNUSED, and a program that the block end removes. -/
theorem test_meets_BlockEndDebounces_programs :
    (sampled.resetAsserted = false ∧ sampled.clock.blockDue = true ∧ (sampled.program 0).active = true ∧
      (sampled.program 15).active = false ∧ sampled.tables.present 17 = true ∧
      sampled.tables.present 128 = false) ∧
      (let s := sampled.setProgram 0
        { applied := content, revision := 1#16,
          staged := some { content := ProgramRecord.unused, origin := .a }, waiting := [] }
      s.tables.present 17 = true ∧ (after .blockEnd s).tables.present 17 = false) := by decide +kernel

/-- LINK_UNLOCKED of a converter that collects, at the ends of the accepted range of the measured ratio, just
outside them, and with nothing measured. -/
theorem test_linkUnlocked_range :
    let c (measured : Nat) : Converter := { Converter.initial.enable with measured := measured }
    [0, 167772159, 167772160, 550292684, 550292685].map (fun x => linkTest (c x) .linkUnlocked) =
      [false, true, false, false, true] := by decide

/-- A program's conditions at a block end: DELAY_CLAMPED, which has no hold, is RAISED. -/
theorem test_blockEnd_program_conditions :
    (after .blockEnd sampled).conditions[(22 : Fin 129)] =
      { test := true, raised := true, counter := 0 } := by decide +kernel

/-- What the block end finds of a program that stays ACTIVE: the same channels and others, a usable window and
none, from BYPASS and from lanes, the same layout and another; and one that stays UNUSED. -/
theorem test_meets_BlockEndStartsAndClosesPrograms_stays :
    let stay (new : ProgramRecord) : State := sampled.setProgram 0
      { applied := content, revision := 1#16, staged := some { content := new, origin := .a }, waiting := [] }
    let retargeted : ProgramRecord := { content with delay := some { section4 with target := 200 } }
    let moved : ProgramRecord := { content with delay := some { section4 with base := 1 } }
    let muted : ProgramRecord := { content with channels := [{ channel with input := none }] }
    (((stay retargeted).program 0).active = true ∧
      ((after .blockEnd (stay retargeted)).program 0).active = true) ∧
      (content.channels.map (fun c => (c.input, c.weight)) =
          retargeted.channels.map (fun c => (c.input, c.weight)) ∧
        content.channels.map (fun c => (c.input, c.weight)) ≠
          muted.channels.map (fun c => (c.input, c.weight))) ∧
      (sameLayout content retargeted = true ∧ sameLayout content moved = false ∧ moved.usable.isSome = true ∧
        plain.usable = none) ∧
      ((stay plain).delays[(0 : Fin 16)].state ≠ .bypass ∧ State.reset.delays[(0 : Fin 16)].state = .bypass) ∧
      (sampled.program 15).active = false ∧ ((after .blockEnd sampled).program 15).active = false := by
  decide +kernel

/-- Applies that leave D_c in place and applies that set it anew, in FILLING and in STEADY. -/
theorem test_meets_GainMovesOneSlewStep_apply :
    let steady : DelayEngine := { layOut 1 section4 with state := .steady }
    let new : ProgramRecord := { content with delay := some { section4 with target := 200 } }
    (DelayEngine.initial.StaysPut plain plain ∧ (layOut 1 section4).StaysPut content content ∧
      steady.StaysPut content new) ∧
      ¬ (layOut 1 section4).StaysPut content new ∧ ¬ steady.StaysPut content plain := by
  refine ⟨⟨Or.inl ⟨by decide, rfl⟩, Or.inr ⟨section4, by decide, by decide, Or.inr (by decide)⟩,
    Or.inr ⟨{ section4 with target := 200 }, by decide, by decide, Or.inl (by decide)⟩⟩, ?_, ?_⟩
  · rintro (⟨h, _⟩ | ⟨x, hx, _, h⟩)
    · revert h; decide
    · have e : x = { section4 with target := 200 } := by
        have := hx.symm.trans (by decide : _ = some ({ section4 with target := 200 } : DelaySection))
        exact Option.some.inj this
      subst e
      revert h; decide
  · rintro (⟨_, h⟩ | ⟨x, hx, _⟩)
    · revert h; decide
    · revert hx
      rw [show plain.usable = none by decide]
      exact fun h => nomatch h

/-- A FADE_OUT whose level falls to 0 at the house frame, and one whose level falls to 1. -/
theorem test_meets_GainMovesOneSlewStep_houseFrame :
    let fading (level : Nat) : State :=
      (passing.setDelay 0 { layOut 1 section4 with state := .fadeOut }).setGain 0
        { GainStage.start .program with fade := level }
    (passing.resetAsserted = false ∧ passing.clock.blockDue = false) ∧
      ∀ level ∈ [1, 2], ((fading level).program 0).active = true ∧
        (fading level).gains[(0 : Fin 16)].closing = 0 ∧
        (fading level).delays[(0 : Fin 16)].state = .fadeOut ∧
        (fading level).gains[(0 : Fin 16)].fade - 1 = level - 1 := by decide +kernel

/-- A closing program at its first and at its last but one house frame; and read-side samples of which the
first lies outside the sample range at the greatest factor and the second inside it. -/
theorem test_meets_GainMovesOneSlewStep_closing :
    (∀ count ∈ [2, 480], ((closing count).content 0 = some plain ∧ ((closing count).program 0).active = false) ∧
      (closing count).gains[(0 : Fin 16)].closing ≠ 1) ∧
      (({ GainStage.start .mute with factor := 10485760 } : GainStage).finish [838861#24, 838860#24]).overloads =
        1 := by decide +kernel

/-- The first and last members of the first, a middle and the last subject group. -/
theorem test_meets_ConditionReadAnswers :
    let group (i : Fin 129) : Nat :=
      if i.val = 0 then 0 else if i.val < 17 then 1 + (i.val - 1) / 2 else 9 + (i.val - 17) / 7
    (group 0 = 0 ∧ group 1 = 1 ∧ group 2 = 1 ∧ group 16 = 8) ∧
      group 17 = 9 ∧ group 23 = 9 ∧ group 24 = 10 ∧ group 128 = 24 := by decide

/-- Windows that share their last and first page, and windows that adjoin. -/
theorem test_meets_ConflictCheckExact_pages :
    (withProgram content State.reset).tables.conflict 15
        { content with channels := [], delay := some { section4 with base := 3, limit := 5 } } =
        some (0, .pages) ∧
      (withProgram content State.reset).tables.conflict 15
        { content with channels := [], delay := some { section4 with base := 4, limit := 5 } } =
        none := by decide +kernel

/-! ### Further invariants -/

/-- Program 0 with a gain in its schedule ahead of the read reference, and its lanes laid out. -/
def scheduled : State :=
  (({ withProgram content State.reset with
      clock := { State.reset.clock with frames := 4801, blocks := 1#32 }
      tonePhase := 1 } : State).setGain 0
    { GainStage.initial with queue := [{ stamp := 4800, gain := 10 }] }).setDelay 0 (layOut 1 section4)

theorem test_meets_StepKeepsSchedulesOrdered_gains :
    scheduled.GainsBounded ∧ step scheduled = .next scheduled.tick := by
  refine ⟨fun p => ?_, rfl⟩
  by_cases hp : p = 0
  · subst hp
    refine ⟨fun h => absurd h (by decide), fun _ => ⟨by decide +kernel, fun h => absurd h (by decide), ?_⟩⟩
    intro x hx
    have e : x = loudness := Option.some.inj (hx.symm.trans (by decide))
    subst e
    decide
  · have hg : ∀ p : Fin 16, p ≠ 0 → (scheduled.program p).active = false ∧
        scheduled.gains[p].queue = [] ∧ scheduled.gains[p].applied = 0 := by decide
    exact ⟨fun _ => (hg p hp).2, fun h => absurd h (by rw [(hg p hp).1]; decide)⟩

theorem test_meets_StepKeepsSchedulesOrdered_delays :
    scheduled.DelaysBounded ∧ step scheduled = .next scheduled.tick := by
  refine ⟨(delaysBounded_iff _).mpr fun p => ?_, rfl⟩
  by_cases hp : p = 0
  · subst hp
    exact layOut_bounded 1 section4
  · have hd : ∀ p : Fin 16, p ≠ 0 → scheduled.delays[p] = DelayEngine.initial := by decide
    rw [hd p hp]
    exact DelayEngine.initial_bounded

/-! ### Lanes -/

theorem test_meets_StepKeepsClaimsDisjoint_ranges :
    scheduled.tables.ProgramsInRange ∧ scheduled.tables.ClaimsDisjoint := by
  refine ⟨?_, ?_, ?_⟩
  · have h : ∀ p : Fin 16, ∀ x ∈ scheduled.tables.programs[p].contents, x.inRange = true := by decide +kernel
    exact h
  · have h : ∀ p q : Fin 16, p ≠ q → ∀ x ∈ scheduled.tables.programs[p].contents,
        ∀ y ∈ scheduled.tables.programs[q].contents, slotsMeet x y = false ∧ pagesMeet x y = false := by
      decide +kernel
    exact fun p q hpq x hx y hy => h p q hpq x hx y hy
  · have h : ∀ p : Fin 16, ∀ x ∈ scheduled.tables.programs[p].contents, x.outputs.Nodup := by decide +kernel
    exact h

/-- An ACTIVE program whose lane is laid out. -/
theorem test_meets_StepKeepsSchedulesOrdered_lanes :
    (scheduled.HouseCounted ∧ scheduled.LanesLaidOut ∧ step scheduled = .next scheduled.tick) ∧
      scheduled.delays[(0 : Fin 16)].layout.isSome = true := by
  refine ⟨⟨⟨Or.inl (by decide), by decide⟩, ?_, rfl⟩, by decide⟩
  refine State.lanesLaidOut_of_active _ _ test_meets_StepKeepsClaimsDisjoint_ranges.2
    test_meets_StepKeepsClaimsDisjoint_ranges.1 (fun p => ?_) (by decide) fun p hp => ?_
  · rw [Record.mem_contents]
    exact Or.inl rfl
  · have h : ∀ p : Fin 16, p ≠ 0 → (scheduled.program p).active = false := by decide
    by_cases h0 : p = 0
    · subst h0
      exact layOut_laid content section4 (by decide)
    · rw [h p h0] at hp
      cases hp

/-- A program in BYPASS, and one at the last house frame of its closing fade. -/
theorem test_meets_UnclaimedSlotSilent_lanes :
    passing.LanesLaidOut ∧ (closing 1).LanesLaidOut := by
  have bypass : ∀ s : State, (∀ p : Fin 16, s.delays[p] = DelayEngine.initial) →
      (∀ p r, s.content p = some r → p = 0 ∧ r.inRange = true) →
      (∀ p : Fin 16, s.gains[p].closing = 0 ∨ s.gains[p].closing + s.clock.frames % 4800 ≤ 480 ∧
        s.gains[p].closingContent.isSome = true ∧ (s.program p).active = false) →
      s.clock.blockDue = false → s.LanesLaidOut := fun s hd hc hg hb =>
    ⟨fun p r h => (hc p r h).2, fun p r _ => by rw [hd]; exact DelayEngine.initial_laid r,
      fun p q r u hpq h k => absurd ((hc p r h).1.trans (hc q u k).1.symm) hpq, hg,
      fun h => by rw [hb] at h; cases h⟩
  have one : ∀ s : State, (∀ p : Fin 16, (s.content p).all (fun r => decide (p = 0) && r.inRange) = true) →
      ∀ p r, s.content p = some r → p = 0 ∧ r.inRange = true := by
    intro s h p r hc
    have := h p
    rw [hc] at this
    simpa using this
  exact ⟨bypass _ (by decide) (one _ (by decide +kernel)) (by decide) (by decide),
    bypass _ (by decide) (one _ (by decide +kernel)) (by decide) (by decide)⟩

/-- A lane of an ACTIVE program, with a canonical memory; and delay engines in each state, with no step of D_c,
with one at its last frame and with one that has ended. -/
theorem test_meets_HouseFrameCounts_lanes :
    (scheduled.resetAsserted = false ∧ scheduled.clock.blockDue = false ∧ scheduled.MemoryCanonical ∧
      scheduled.content 0 = some content ∧ content.channels[0]? = some channel ∧
      (scheduled.program 0).active = true ∧ scheduled.delays[(0 : Fin 16)].step = none) ∧
      (∀ state ∈ [DelayState.bypass, .filling, .steady, .slewing, .fadeOut, .fadeIn],
        (scheduled.setDelay 0 { layOut 1 section4 with state := state }).delays[(0 : Fin 16)].state = state) ∧
      ∀ i ∈ [0, 4799, 4800],
        (scheduled.setDelay 0 { layOut 1 section4 with
          step := some { amount := 65536, start := 0, frames := i } }).delays[(0 : Fin 16)].step =
            some { amount := 65536, start := 0, frames := i } := by
  refine ⟨⟨by decide, by decide, ?_, by decide, by decide, by decide, by decide⟩, by decide, by decide⟩
  show Memory.wf [] = true
  decide

/-- The ends of the delay states at a house frame: FILLING at a valid depth of the target and 16 and at one
less; FADE_OUT at level 0 and 1; and FADE_IN at level 479 and 480 and, at level 0, under MUTE. -/
theorem test_meets_HouseFrameCounts_leaves :
    let d (state : DelayState) (valid : Nat) : DelayEngine :=
      { layOut 1 section4 with state := state, lanes := [{ valid := valid, correction := 0 }] }
    let left (e : DelayEngine) (level : Nat) (source : Source) : DelayState :=
      (e.leaveStates level source GainStage.initial 0).1.state
    (left (d .filling 116) 0 .program = .fadeIn ∧ left (d .filling 115) 0 .program = .filling) ∧
      (left (d .fadeOut 116) 0 .program = .fadeIn ∧ left (d .fadeOut 115) 0 .program = .filling ∧
        left (d .fadeOut 116) 1 .program = .fadeOut) ∧
      left (d .fadeIn 116) 480 .program = .steady ∧ left (d .fadeIn 116) 0 .mute = .steady ∧
        left (d .fadeIn 116) 479 .program = .fadeIn := by decide +kernel

/-! ### Slips that wait for a block end (R57, R137, R196) -/

/-- A LOCKED converter that has advanced with some frames ahead, with a slip that waits. -/
def waiting (ahead : Nat) : Converter :=
  { running 0 with
    history := frames 0 64
    fifo := frames 64 (8 + ahead)
    position := 71 * 2 ^ 28
    nextIndex := 72 + ahead
    slipWaits := true }

/-- The step of a house frame that leaves seven frames ahead: the slip is made, or it waits. -/
theorem test_meets_HouseFrameCounts_waits :
    let c : Converter := { waiting 8 with position := 71 * 2 ^ 28, slipWaits := false }
    (c.houseFrame 0 false).2.1.repeats = 1 ∧ (c.houseFrame 0 false).2.2 ≠ none ∧
      (c.houseFrame 0 true).2.1 = { waiting 7 with
        history := frames 1 64, fifo := frames 65 15, position := 72 * 2 ^ 28, nextIndex := 80 } ∧
      (c.houseFrame 0 true).2.2 = none := by decide +kernel

/-- The slip that waited, after a block end whose apply starts a program on the link: the new lanes are
corrected (R196, the column "Apply taken first"). -/
theorem test_blockEnd_thenSlip :
    let t := after .blockEnd ((blockDue (changing content)).setConverter 0 (waiting 7))
    t.converters[(0 : Fin 8)].state = .freewheel ∧ t.converters[(0 : Fin 8)].repeats = 1 ∧
      t.converters[(0 : Fin 8)].slipWaits = false ∧ t.converters[(0 : Fin 8)].fifo = frames 0 79 ∧
      t.delays[(0 : Fin 16)].lanes = [{ valid := 0, correction := -64 }] := by decide +kernel

/-- A block end that disables the link leaves its converter no slip to make, and one that finds eight frames
ahead makes none. -/
theorem test_blockEnd_noSlip :
    let t := after .blockEnd (linkChanges.setConverter 1 (waiting 7))
    t.converters[(1 : Fin 8)].state = .idle ∧ t.converters[(1 : Fin 8)].repeats = 0 ∧
      ((waiting 8).makeWaiting 0).2 = none ∧ ((waiting 7).makeWaiting 0).2 ≠ none := by decide +kernel

/-- A loss that finds a slip waiting. -/
theorem test_meets_AbsenceDeclaresLoss_waits :
    let s := (receiving.setReceiver 0 { Receiver.start with timer := some 4800000 }).setConverter 0 (waiting 7)
    s.receivers[(0 : Fin 8)].state = .present ∧ s.converters[(0 : Fin 8)].slipWaits = true ∧
      (after (.receiverAbsenceExpiry 0) s).converters[(0 : Fin 8)].repeats = 1 ∧
      (after (.receiverAbsenceExpiry 0) s).converters[(0 : Fin 8)].state = .lost := by decide +kernel

/-- What calls a port: an unread entry of a kind outside its mask at its threshold; and no entry of a masked
kind, nor one that the port has read. -/
theorem test_callsPort :
    let at_ (place : LogPort) : Bool := (logged.setPlace .a place).settle.pins.atn.get .a
    (at_ { LogPort.initial with threshold := .major } = true ∧
      at_ { LogPort.initial with mask := 0xFFFF#16 } = false) ∧
      at_ { LogPort.initial with cursor := 1 } = false ∧
        at_ { LogPort.initial with cursor := 1, missed := 1 } = true := by decide +kernel

end Sys2Proof.Tests
end

section
/-! The debounce of R149: what one sample and a run of samples make of a condition, and that a block end takes
one sample of every condition whose subject stays present. -/

namespace Sys2Proof.Machine

/-! ## One sample (R149) -/

/-- The hold for the change away from a state: hold-clear from RAISED, hold-raise from CLEAR (R149). -/
def KindPolicy.holdFrom (policy : KindPolicy) (raised : Bool) : Nat :=
  if raised then policy.holdClear else policy.holdRaise

theorem Condition.debounce_agree (c : Condition) (policy : KindPolicy) (test : Bool)
    (h : test = c.raised) :
    c.debounce policy test = { test := test, raised := c.raised, counter := 0 } := if_pos h

theorem Condition.debounce_below (c : Condition) (policy : KindPolicy) (test : Bool)
    (h : test ≠ c.raised) (below : c.counter < policy.holdFrom c.raised) :
    c.debounce policy test = { test := test, raised := c.raised, counter := c.counter + 1 } :=
  (if_neg h).trans (if_pos below)

theorem Condition.debounce_held (c : Condition) (policy : KindPolicy) (test : Bool)
    (h : test ≠ c.raised) (held : policy.holdFrom c.raised ≤ c.counter) :
    c.debounce policy test = { test := test, raised := !c.raised, counter := 0 } :=
  (if_neg h).trans (if_neg (Nat.not_lt.mpr held))

/-- The three things that a sample can do, with what leads to each. -/
theorem Condition.debounce_cases (c : Condition) (policy : KindPolicy) (test : Bool) :
    (test = c.raised ∧ c.debounce policy test = { test := test, raised := c.raised, counter := 0 }) ∨
    (test ≠ c.raised ∧ c.counter < policy.holdFrom c.raised ∧
      c.debounce policy test = { test := test, raised := c.raised, counter := c.counter + 1 }) ∨
    (test ≠ c.raised ∧ policy.holdFrom c.raised ≤ c.counter ∧
      c.debounce policy test = { test := test, raised := !c.raised, counter := 0 }) := by
  by_cases agree : test = c.raised
  · exact .inl ⟨agree, c.debounce_agree policy test agree⟩
  · rcases Nat.lt_or_ge c.counter (policy.holdFrom c.raised) with below | held
    · exact .inr (.inl ⟨agree, below, c.debounce_below policy test agree below⟩)
    · exact .inr (.inr ⟨agree, held, c.debounce_held policy test agree held⟩)

/-- A sample leaves the test that it took. -/
@[simp] theorem Condition.debounce_test (c : Condition) (policy : KindPolicy) (test : Bool) :
    (c.debounce policy test).test = test := by
  rcases c.debounce_cases policy test with ⟨-, e⟩ | ⟨-, -, e⟩ | ⟨-, -, e⟩ <;> rw [e]

/-- A sample leaves no counter above the hold it was counted against, whatever the counter was. -/
theorem Condition.debounce_counter_le (c : Condition) (policy : KindPolicy) (test : Bool) :
    (c.debounce policy test).counter ≤ policy.holdFrom c.raised := by
  rcases c.debounce_cases policy test with ⟨-, e⟩ | ⟨-, below, e⟩ | ⟨-, -, e⟩ <;> rw [e]
  · exact Nat.zero_le _
  · exact below
  · exact Nat.zero_le _

/-! ## A run of samples that disagree (R149) -/

/-- A condition after as many samples of one test as `n` says. -/
def Condition.debounceRun (c : Condition) (policy : KindPolicy) (test : Bool) (n : Nat) : Condition :=
  (List.replicate n test).foldl (fun x sample => x.debounce policy sample) c

theorem Condition.debounceRun_succ (c : Condition) (policy : KindPolicy) (test : Bool) (n : Nat) :
    c.debounceRun policy test (n + 1) = (c.debounceRun policy test n).debounce policy test := by
  simp [Condition.debounceRun, List.replicate_succ', List.foldl_append]

/-- Up to the hold, a run from a counter of 0 keeps the state and counts its samples. -/
theorem Condition.debounceRun_counts (c : Condition) (policy : KindPolicy) (test : Bool)
    (h : test ≠ c.raised) (zero : c.counter = 0) (n : Nat) (hn : n ≤ policy.holdFrom c.raised) :
    (c.debounceRun policy test n).raised = c.raised ∧ (c.debounceRun policy test n).counter = n := by
  induction n with
  | zero => exact ⟨rfl, zero⟩
  | succ n ih =>
    obtain ⟨raised, counter⟩ := ih (Nat.le_of_succ_le hn)
    rw [Condition.debounceRun_succ, Condition.debounce_below _ policy test (by rwa [raised])
      (by rw [raised, counter]; exact hn)]
    exact ⟨raised, congrArg (· + 1) counter⟩

/-- The sample after a run as long as the hold changes the state. -/
theorem Condition.debounceRun_changes (c : Condition) (policy : KindPolicy) (test : Bool)
    (h : test ≠ c.raised) (zero : c.counter = 0) :
    (c.debounceRun policy test (policy.holdFrom c.raised + 1)).raised = !c.raised := by
  obtain ⟨raised, counter⟩ := c.debounceRun_counts policy test h zero _ le_rfl
  rw [Condition.debounceRun_succ, Condition.debounce_held _ policy test (by rwa [raised])
    (by rw [raised, counter])]
  exact congrArg (!·) raised

/-! ## The sample of a block end (R142, R143, R157) -/

/-- An apply leaves the condition of a subject that is present under the new records. -/
theorem appliedConditions_of_present (old new : Tables) (conditions : Vector Condition 129) (i : Fin 129)
    (h : new.present i = true) : (appliedConditions old new conditions)[i] = conditions[i] := by
  simp [appliedConditions, removedBy, h]

theorem State.blockEndThenSlips_tables (s : State) : s.blockEndThenSlips.tables = s.tables.take :=
  s.blockEndThenSlips_makes.keeps.1

theorem State.blockEndThenSlips_conditions (s : State) :
    s.blockEndThenSlips.conditions =
      appliedConditions s.tables s.tables.take (s.closeBlock.sampled s.appliedGains) := by
  obtain ⟨-, -, -, -, conditions, -⟩ := s.blockEndThenSlips_makes.keeps
  exact conditions

/-- A condition whose subject is present before and after a block end has taken one sample of its test, under
the policy of the ending block. -/
theorem State.blockEndThenSlips_debounces (s : State) (i : Fin 129) (before : s.tables.present i = true)
    (after : s.blockEndThenSlips.tables.present i = true) :
    s.blockEndThenSlips.conditions[i] =
      s.conditions[i].debounce (s.policy.kind (conditionKind i))
        (s.closeBlock.test s.appliedGains i) := by
  rw [State.blockEndThenSlips_tables] at after
  rw [State.blockEndThenSlips_conditions, appliedConditions_of_present _ _ _ i after,
    State.closeBlock_sampled, if_pos before]

/-- BLOCK_END where one is due and RESETn is released. -/
theorem exec_blockEnd_due (s : State) (released : s.resetAsserted = false)
    (due : s.clock.blockDue = true) : exec .blockEnd s = .next s.blockEndThenSlips := by
  show execBlockEnd s = _
  simp [execBlockEnd, released, due]

/-- Settles O20: the block end takes one sample of each condition (`blockEndThenSlips_debounces`), the
branches of the debounce say what a sample does, and a run of samples is counted by induction on its length. -/
theorem debounceFollowsHolds : Obligations.DebounceFollowsHolds := by
  unfold Obligations.DebounceFollowsHolds
  constructor
  · intro s released due
    refine ⟨s.blockEndThenSlips, exec_blockEnd_due s released due, ?_⟩
    intro i before after c d hold hc hd hhold
    rw [s.blockEndThenSlips_debounces i before after, ← hc] at hd
    generalize s.policy.kind (conditionKind i) = policy at hd hhold
    generalize s.closeBlock.test s.appliedGains i = test at hd
    obtain rfl : hold = policy.holdFrom c.raised := hhold
    subst hd
    rw [Condition.debounce_test]
    refine ⟨fun agree => ?_, fun differ below => ?_, fun differ held => ?_, fun bound _ => ?_⟩
    · rw [c.debounce_agree policy test agree]
      exact ⟨rfl, rfl⟩
    · rw [c.debounce_below policy test differ below]
      exact ⟨rfl, rfl⟩
    · rw [c.debounce_held policy test differ held]
      exact ⟨rfl, rfl⟩
    · exact (c.debounce_counter_le policy test).trans bound
  · intro c policy test hold hhold
    obtain rfl : hold = policy.holdFrom c.raised := hhold
    refine ⟨c.debounce_agree policy test, c.debounce_below policy test, c.debounce_held policy test,
      fun differ zero n hn => ?_⟩
    obtain ⟨kept, -⟩ := c.debounceRun_counts policy test differ zero n hn
    exact ⟨kept, c.debounceRun_changes policy test differ zero⟩

end Sys2Proof.Machine
end

section
/-! The summary lines (R158) and ATN (R170) follow their inputs: every command either ends with the outputs as
the rules say, by `State.settle` or by a reset, or changes neither the outputs nor any input of them. -/

namespace Sys2Proof.Machine

/-! ## What the outputs depend on -/

/-- The outputs of `t` stand as those of `s`, and so does all that R158 and R170 read. -/
structure LeavesOutputs (s t : State) : Prop where
  pins : t.pins = s.pins
  tables : t.tables = s.tables
  conditions : t.conditions = s.conditions
  calls : ∀ q : Port, t.log.CallsPort q ↔ s.log.CallsPort q

theorem LeavesOutputs.of_log {s t : State} (pins : t.pins = s.pins) (tables : t.tables = s.tables)
    (conditions : t.conditions = s.conditions) (log : t.log = s.log) : LeavesOutputs s t :=
  ⟨pins, tables, conditions, fun q => by rw [log]⟩

theorem LeavesOutputs.refl (s : State) : LeavesOutputs s s := .of_log rfl rfl rfl rfl

theorem LeavesOutputs.trans {s u t : State} (h : LeavesOutputs s u) (k : LeavesOutputs u t) :
    LeavesOutputs s t :=
  ⟨k.pins.trans h.pins, k.tables.trans h.tables, k.conditions.trans h.conditions,
    fun q => (k.calls q).trans (h.calls q)⟩

theorem LeavesOutputs.outputsExact {s t : State} (h : LeavesOutputs s t) (hs : s.OutputsExact) :
    t.OutputsExact := by
  obtain ⟨major, minor, atn⟩ := hs
  unfold State.OutputsExact
  rw [h.pins, h.tables, h.conditions]
  exact ⟨major, minor, fun q => (atn q).trans (h.calls q).symm⟩

/-- What a command does to the outputs: it ends with them exact, whatever they were before, or it leaves them
and all their inputs. -/
def OutputsFollow (s t : State) : Prop := t.OutputsExact ∨ LeavesOutputs s t

theorem OutputsFollow.settled (s u : State) : OutputsFollow s u.settle := .inl u.settle_exact

theorem OutputsFollow.refl (s : State) : OutputsFollow s s := .inr (.refl s)

theorem OutputsFollow.trans_leaves {s u t : State} (h : OutputsFollow s u) (k : LeavesOutputs u t) :
    OutputsFollow s t :=
  h.imp k.outputsExact fun leaves => leaves.trans k

theorem OutputsFollow.outputsExact {s t : State} (h : OutputsFollow s t) (hs : s.OutputsExact) :
    t.OutputsExact :=
  h.elim id fun leaves => leaves.outputsExact hs

/-! ## Time and the attendance timers (R164) -/

/-- ATN reads the entries and, of a port's place, the cursor, the missed count, the mask and the threshold. -/
theorem AlarmLog.callsPort_congr {x y : AlarmLog} {q : Port} (entries : y.entries = x.entries)
    (cursor : (y.ports.get q).cursor = (x.ports.get q).cursor)
    (missed : (y.ports.get q).missed = (x.ports.get q).missed)
    (mask : (y.ports.get q).mask = (x.ports.get q).mask)
    (threshold : (y.ports.get q).threshold = (x.ports.get q).threshold) :
    y.CallsPort q ↔ x.CallsPort q := by
  unfold AlarmLog.CallsPort
  rw [entries, cursor, missed, mask, threshold]

/-- One unit of time changes of a port's place the timer alone. -/
theorem LogPort.tick_eq (place : LogPort) : ∃ timer, place.tick = { place with timer := timer } := by
  unfold LogPort.tick
  split
  · exact ⟨_, rfl⟩
  · exact ⟨place.timer, rfl⟩

theorem State.tick_place (s : State) (q : Port) : s.tick.log.ports.get q = (s.log.ports.get q).tick := by
  cases q <;> rfl

theorem State.tick_leavesOutputs (s : State) : LeavesOutputs s s.tick := by
  refine ⟨rfl, rfl, rfl, fun q => ?_⟩
  obtain ⟨timer, ticked⟩ := (s.log.ports.get q).tick_eq
  have place := (s.tick_place q).trans ticked
  exact AlarmLog.callsPort_congr rfl (by rw [place]) (by rw [place]) (by rw [place]) (by rw [place])

/-! ## Resets (R141, R175) -/

theorem Tables.not_alarmsAt_initial (t : Tables) (severity : Severity) :
    ¬ t.AlarmsAt (Vector.replicate 129 Condition.initial) severity := by
  rintro ⟨i, raised, -⟩
  simp [Condition.initial] at raised

theorem AlarmLog.not_callsPort_initial (q : Port) : ¬ AlarmLog.initial.CallsPort q := by
  rintro (⟨e, member, -⟩ | missed | full)
  · cases member
  · cases q <;> cases missed
  · exact absurd full (by decide)

/-- Every output is released where no condition is RAISED and the log is empty, under any tables. -/
theorem State.outputsExact_of_initial (s : State) (pins : s.pins = Pins.initial)
    (conditions : s.conditions = Vector.replicate 129 Condition.initial)
    (log : s.log = AlarmLog.initial) : s.OutputsExact := by
  unfold State.OutputsExact
  rw [pins, conditions, log]
  refine ⟨iff_of_false Bool.false_ne_true (s.tables.not_alarmsAt_initial _),
    iff_of_false Bool.false_ne_true (s.tables.not_alarmsAt_initial _),
    fun q => iff_of_false ?_ (AlarmLog.not_callsPort_initial q)⟩
  cases q <;> exact Bool.false_ne_true

theorem State.warmReset_outputsExact (s : State) : s.warmReset.OutputsExact :=
  s.warmReset.outputsExact_of_initial rfl rfl rfl

theorem execPowerOnReset_outputsFollow {s t : State} (h : execPowerOnReset s = .next t) :
    OutputsFollow s t := by
  cases h
  exact .inl (State.outputsExact_of_initial _ rfl rfl rfl)

theorem execWarmResetAssert_outputsFollow {s t : State} (h : execWarmResetAssert s = .next t) :
    OutputsFollow s t := by
  unfold execWarmResetAssert at h
  split at h <;> cases h
  · exact .refl s
  · exact .inl s.warmReset_outputsExact

theorem execWarmResetRelease_outputsFollow {s t : State} (h : execWarmResetRelease s = .next t) :
    OutputsFollow s t := by
  unfold execWarmResetRelease at h
  split at h <;> cases h
  · exact .inr (.of_log rfl rfl rfl rfl)
  · exact .refl s

/-! ## Links and the reference (R26 to R29, R33 to R35) -/

theorem execFrameSyncMark_outputsFollow {l : Fin 8} {s t : State} (h : execFrameSyncMark l s = .next t) :
    OutputsFollow s t := by
  unfold execFrameSyncMark at h
  split at h <;> cases h
  · exact .refl s
  · exact .inr (.of_log rfl rfl rfl rfl)

theorem execFrameArrival_outputsFollow {l : Fin 8} {frame : BitVec 256} {s t : State}
    (h : execFrameArrival l frame s = .next t) : OutputsFollow s t := by
  unfold execFrameArrival at h
  dsimp only at h
  split at h
  · cases h
    exact .refl s
  · split at h
    case h_1 => cases h; exact .refl s
    case h_2 => cases h; exact .settled s _
    case h_3 =>
      split at h <;> cases h
      · exact .inr (.of_log rfl rfl rfl rfl)
      · exact .settled s _

/-- The slip that a loss finds waiting is an event of the log, so the outputs are settled after it. -/
theorem State.slipFirst_outputsFollow (s : State) (l : Fin 8) : OutputsFollow s (s.slipFirst l) := by
  unfold State.slipFirst
  split
  · exact .settled s _
  · exact .refl s

theorem execReceiverAbsenceExpiry_outputsFollow {l : Fin 8} {s t : State}
    (h : execReceiverAbsenceExpiry l s = .next t) : OutputsFollow s t := by
  unfold execReceiverAbsenceExpiry at h
  split at h
  · split at h <;> cases h
    · exact .refl s
    · exact (s.slipFirst_outputsFollow l).trans_leaves (.of_log rfl rfl rfl rfl)
    · exact .inr (.of_log rfl rfl rfl rfl)
  · cases h
    exact .refl s

theorem execRefPulse_outputsFollow {s t : State} (h : execRefPulse s = .next t) : OutputsFollow s t := by
  unfold execRefPulse at h
  split at h
  · cases h
    exact .refl s
  · split at h <;> cases h
    · exact .refl s
    · exact .inr (.of_log rfl rfl rfl rfl)

theorem execRefAbsenceExpiry_outputsFollow {s t : State} (h : execRefAbsenceExpiry s = .next t) :
    OutputsFollow s t := by
  unfold execRefAbsenceExpiry at h
  split at h
  · cases h
    exact .refl s
  · split at h <;> cases h
    · exact .inr (.of_log rfl rfl rfl rfl)
    · exact .refl s

/-! ## House time (R32) -/

theorem execHouseFrame_outputsFollow {s t : State} (h : execHouseFrame s = .next t) :
    OutputsFollow s t := by
  unfold execHouseFrame at h
  split at h
  · cases h
    exact .inr (.of_log rfl rfl rfl rfl)
  · split at h <;> cases h
    · exact .refl s
    · exact .settled s _

theorem execBlockEnd_outputsFollow {s t : State} (h : execBlockEnd s = .next t) : OutputsFollow s t := by
  unfold execBlockEnd at h
  split at h
  · cases h
    exact .refl s
  · split at h <;> cases h
    · exact .settled s _
    · exact .refl s

/-! ## Transactions and attendance (R164, R165, R178, R179, R181, R195) -/

theorem State.setPort_leavesOutputs (s : State) (q : Port) (v : ControlPort) :
    LeavesOutputs s (s.setPort q v) := .of_log rfl rfl rfl rfl

theorem execSelectAssert_outputsFollow {q : Port} {s t : State} (h : execSelectAssert q s = .next t) :
    OutputsFollow s t := by
  unfold execSelectAssert at h
  split at h
  · cases h
    exact .inr (s.setPort_leavesOutputs q _)
  · split at h <;> cases h
    case h_1 => exact .inr (s.setPort_leavesOutputs q _)
    all_goals exact .refl s

/-- A release that ends a transaction settles the outputs, whatever its input was taken for. -/
theorem State.finishTransaction_outputsFollow (s : State) (q : Port) (bytes : List Byte)
    (take : State → State) : OutputsFollow s (s.finishTransaction q bytes take) := by
  rw [State.finishTransaction_eq]
  exact .settled s _

theorem endTransaction_outputsFollow (q : Port) (sdi : List Bool) (s : State) :
    OutputsFollow s (endTransaction q sdi s) := by
  unfold endTransaction
  split
  · exact .inr (s.setPort_leavesOutputs q _)
  · split
    · exact .refl s
    · exact .inr (s.setPort_leavesOutputs q _)
    · exact s.finishTransaction_outputsFollow q _ _
    · exact s.finishTransaction_outputsFollow q _ _

theorem execAttendanceExpiry_outputsFollow {q : Port} {s t : State}
    (h : execAttendanceExpiry q s = .next t) : OutputsFollow s t := by
  unfold execAttendanceExpiry at h
  split at h <;> cases h
  · exact .settled s _
  · exact .refl s

theorem execSelectSeenReleased_outputsFollow {q : Port} {s t : State}
    (h : execSelectSeenReleased q s = .next t) : OutputsFollow s t := by
  unfold execSelectSeenReleased at h
  split at h
  · cases h
    exact .inr (s.setPort_leavesOutputs q _)
  · split at h <;> cases h
    case h_1 => exact .inr (s.setPort_leavesOutputs q _)
    all_goals exact .refl s

/-! ## Every command -/

theorem exec_outputsFollow (c : Instr) (s t : State) (h : exec c s = .next t) : OutputsFollow s t := by
  cases c with
  | powerOnReset => exact execPowerOnReset_outputsFollow h
  | warmResetAssert => exact execWarmResetAssert_outputsFollow h
  | warmResetRelease => exact execWarmResetRelease_outputsFollow h
  | frameArrival l frame => exact execFrameArrival_outputsFollow h
  | receiverAbsenceExpiry l => exact execReceiverAbsenceExpiry_outputsFollow h
  | refPulse => exact execRefPulse_outputsFollow h
  | refAbsenceExpiry => exact execRefAbsenceExpiry_outputsFollow h
  | houseFrame => exact execHouseFrame_outputsFollow h
  | blockEnd => exact execBlockEnd_outputsFollow h
  | selectAssert q => exact execSelectAssert_outputsFollow h
  | attendanceExpiry q => exact execAttendanceExpiry_outputsFollow h
  | frameSyncMark l => exact execFrameSyncMark_outputsFollow h
  | selectSeenReleased q => exact execSelectSeenReleased_outputsFollow h
  | null q | unknown q | length q | pendingTransactionEnd q | identify q | readProgram q
  | writeProgram q | setDelay q | setTarget q | readMeter q | resetMeter q | readLink q | writeLink q
  | readPolicy q | writePolicy q | readConditions q | fetchAlarms q | setAttention q | portReset q =>
    cases h
    exact endTransaction_outputsFollow q _ s

/-- Settles O58: an idle step changes no input of the outputs (`tick_leavesOutputs`), and a command settles
the outputs or leaves them with all their inputs (`exec_outputsFollow`). -/
theorem stepKeepsOutputsExact : Obligations.StepKeepsOutputsExact := by
  unfold Obligations.StepKeepsOutputsExact
  intro s t hs h
  unfold step at h
  split at h
  case h_1 c rest _ => exact (exec_outputsFollow c _ t h).outputsExact hs
  case h_2 =>
    cases h
    exact s.tick_leavesOutputs.outputsExact hs

end Sys2Proof.Machine
end

section
/-! What a command can do, said once: every command answers one of the states that `Effect` lists, and a step
is such a command or one unit of time. The invariants of sections below are derived from it. -/

namespace Sys2Proof.Machine

/-- The states that a command may answer, with what leads to each. -/
inductive Effect : Instr → State → State → Prop
  | kept (c : Instr) (s : State) : Effect c s s
  | poweredOn (s : State) :
      Effect .powerOnReset s { State.reset with pending := s.pending, choices := s.choices }
  | asserted (s : State) (released : s.resetAsserted = false) : Effect .warmResetAssert s s.warmReset
  | released (s : State) (asserted : s.resetAsserted = true) : Effect .warmResetRelease s s.warmStart
  | marked (l : Fin 8) (s : State) :
      Effect (.frameSyncMark l) s (s.setReceiver l { s.receivers[l] with inFrame := true })
  | arrived (l : Fin 8) (frame : BitVec 256) (s : State) :
      Effect (.frameArrival l frame) s ((s.setReceiver l Receiver.start).handFrame l frame).settle
  | counted (l : Fin 8) (frame : BitVec 256) (s : State) :
      Effect (.frameArrival l frame) s (s.setReceiver l s.receivers[l].counted)
  | returned (l : Fin 8) (frame : BitVec 256) (s : State) :
      Effect (.frameArrival l frame) s
        (((s.setReceiver l Receiver.start).setConverter l s.converters[l].regain).handFrame
          l frame).settle
  | lost (l : Fin 8) (s : State) : Effect (.receiverAbsenceExpiry l) s ((s.slipFirst l).loseLink l)
  | cleared (l : Fin 8) (s : State) :
      Effect (.receiverAbsenceExpiry l) s (s.setReceiver l s.receivers[l].expire)
  | pulsed (s : State) :
      Effect .refPulse s
        { s.draw.2 with ref := s.ref.accept s.clock.now (pulseOffset s.clock s.draw.1) }
  | heldOver (s : State) :
      Effect .refAbsenceExpiry s { s with ref := s.ref.expire, clock := s.clock.holdOver s.ref }
  | resetFrame (s : State) (asserted : s.resetAsserted = true) : Effect .houseFrame s s.resetFrame
  | framed (s : State) (released : s.resetAsserted = false) (early : s.clock.blockDue = false) :
      Effect .houseFrame s s.houseFrame
  | blocked (s : State) (released : s.resetAsserted = false) (due : s.clock.blockDue = true) :
      Effect .blockEnd s s.blockEndThenSlips
  | selected (q : Port) (s : State) (asserted : s.resetAsserted = true) :
      Effect (.selectAssert q) s (s.setPort q { s.port q with select := true })
  | begun (q : Port) (s : State) (released : s.resetAsserted = false)
      (idle : (s.port q).transaction = .idle) :
      Effect (.selectAssert q) s (s.setPort q (s.port q).begin)
  | ended (c : Instr) (q : Port) (s : State) : Effect c s (endTransaction q c.sdi s)
  | left (q : Port) (s : State) :
      Effect (.attendanceExpiry q) s { s with log := s.log.leave q }.settle
  | unselected (q : Port) (s : State) : Effect (.selectSeenReleased q) s (s.releaseSelect q)

/-! ## Each command -/

theorem execFrameArrival_effect {l : Fin 8} {frame : BitVec 256} {s t : State}
    (h : execFrameArrival l frame s = .next t) : Effect (.frameArrival l frame) s t := by
  unfold execFrameArrival at h
  dsimp only at h
  split at h
  · cases h
    exact .kept _ s
  · split at h
    case h_1 => cases h; exact .kept _ s
    case h_2 => cases h; exact .arrived l frame s
    case h_3 =>
      split at h <;> cases h
      · exact .counted l frame s
      · exact .returned l frame s

theorem execReceiverAbsenceExpiry_effect {l : Fin 8} {s t : State}
    (h : execReceiverAbsenceExpiry l s = .next t) : Effect (.receiverAbsenceExpiry l) s t := by
  unfold execReceiverAbsenceExpiry at h
  split at h
  · split at h <;> cases h
    · exact .kept _ s
    · exact .lost l s
    · exact .cleared l s
  · cases h
    exact .kept _ s

theorem execRefPulse_effect {s t : State} (h : execRefPulse s = .next t) : Effect .refPulse s t := by
  unfold execRefPulse at h
  split at h
  · cases h
    exact .kept _ s
  · split at h <;> cases h
    · exact .kept _ s
    · exact .pulsed s

theorem execRefAbsenceExpiry_effect {s t : State} (h : execRefAbsenceExpiry s = .next t) :
    Effect .refAbsenceExpiry s t := by
  unfold execRefAbsenceExpiry at h
  split at h
  · cases h
    exact .kept _ s
  · split at h <;> cases h
    · exact .heldOver s
    · exact .kept _ s

theorem execHouseFrame_effect {s t : State} (h : execHouseFrame s = .next t) : Effect .houseFrame s t := by
  unfold execHouseFrame at h
  split at h
  case isTrue asserted => cases h; exact .resetFrame s asserted
  case isFalse released =>
    split at h
    case isTrue => cases h; exact .kept _ s
    case isFalse early =>
      cases h
      exact .framed s (Bool.eq_false_of_not_eq_true released) (Bool.eq_false_of_not_eq_true early)

theorem execBlockEnd_effect {s t : State} (h : execBlockEnd s = .next t) : Effect .blockEnd s t := by
  unfold execBlockEnd at h
  split at h
  case isTrue => cases h; exact .kept _ s
  case isFalse released =>
    split at h
    case isTrue due => cases h; exact .blocked s (Bool.eq_false_of_not_eq_true released) due
    case isFalse => cases h; exact .kept _ s

theorem execSelectAssert_effect {q : Port} {s t : State} (h : execSelectAssert q s = .next t) :
    Effect (.selectAssert q) s t := by
  unfold execSelectAssert at h
  split at h
  case isTrue asserted => cases h; exact .selected q s asserted
  case isFalse released =>
    split at h <;> cases h
    case h_1 idle => exact .begun q s (Bool.eq_false_of_not_eq_true released) idle
    all_goals exact .kept _ s

theorem execSelectSeenReleased_effect {q : Port} {s t : State}
    (h : execSelectSeenReleased q s = .next t) : Effect (.selectSeenReleased q) s t := by
  unfold execSelectSeenReleased at h
  split at h
  · cases h
    exact .unselected q s
  · split at h <;> cases h
    case h_1 => exact .unselected q s
    all_goals exact .kept _ s

/-- Every command answers one of the states of `Effect`. -/
theorem exec_effect {c : Instr} {s t : State} (h : exec c s = .next t) : Effect c s t := by
  cases c with
  | powerOnReset => cases h; exact .poweredOn s
  | warmResetAssert =>
    change execWarmResetAssert s = _ at h
    unfold execWarmResetAssert at h
    split at h
    case isTrue => cases h; exact .kept _ s
    case isFalse released => cases h; exact .asserted s (Bool.eq_false_of_not_eq_true released)
  | warmResetRelease =>
    change execWarmResetRelease s = _ at h
    unfold execWarmResetRelease at h
    split at h
    case isTrue asserted => cases h; exact .released s asserted
    case isFalse => cases h; exact .kept _ s
  | frameArrival l frame => exact execFrameArrival_effect h
  | receiverAbsenceExpiry l => exact execReceiverAbsenceExpiry_effect h
  | refPulse => exact execRefPulse_effect h
  | refAbsenceExpiry => exact execRefAbsenceExpiry_effect h
  | houseFrame => exact execHouseFrame_effect h
  | blockEnd => exact execBlockEnd_effect h
  | selectAssert q => exact execSelectAssert_effect h
  | attendanceExpiry q =>
    change execAttendanceExpiry q s = _ at h
    unfold execAttendanceExpiry at h
    split at h <;> cases h
    · exact .left q s
    · exact .kept _ s
  | frameSyncMark l =>
    change execFrameSyncMark l s = _ at h
    unfold execFrameSyncMark at h
    split at h <;> cases h
    · exact .kept _ s
    · exact .marked l s
  | selectSeenReleased q => exact execSelectSeenReleased_effect h
  | null q | unknown q | length q | pendingTransactionEnd q | identify q | readProgram q
  | writeProgram q | setDelay q | setTarget q | readMeter q | resetMeter q | readLink q | writeLink q
  | readPolicy q | writePolicy q | readConditions q | fetchAlarms q | setAttention q | portReset q =>
    cases h
    exact .ended _ q s

/-! ## Steps -/

/-- A step is one unit of time on an empty queue, or the command at the queue's front. -/
theorem step_cases {s t : State} (h : step s = .next t) :
    t = s.tick ∨ ∃ c rest, exec c { s with pending := rest } = .next t := by
  unfold step at h
  split at h
  case h_1 c rest _ => exact .inr ⟨c, rest, h⟩
  case h_2 => cases h; exact .inl rfl

/-- A property that does not read the queue holds after every step, where one unit of time and every effect of
a command keep it. -/
theorem step_keeps {keep : State → Prop} (queue : ∀ s rest, keep s → keep { s with pending := rest })
    (tick : ∀ s, keep s → keep s.tick) (effect : ∀ c s t, Effect c s t → keep s → keep t) {s t : State}
    (h : step s = .next t) (hs : keep s) : keep t := by
  rcases step_cases h with rfl | ⟨c, rest, taken⟩
  · exact tick s hs
  · exact effect c _ t (exec_effect taken) (queue s rest hs)

end Sys2Proof.Machine
end

section
/-! The delay memory stays canonical (R104): only a house frame writes it, cell by cell, and power-on empties
it. -/

namespace Sys2Proof.Machine

/-! ## What a frame handed to a converter and a slip leave alone -/

theorem State.putConverter_keeps (s : State) (l : Fin 8) (work : Converter × Option SlipNotice) :
    s.putConverter l work =
      { s with
        converters := (s.putConverter l work).converters
        delays := (s.putConverter l work).delays
        log := (s.putConverter l work).log } := by
  rw [State.putConverter_eq, State.takeNotices_eq]
  rfl

theorem State.handFrame_keeps (s : State) (l : Fin 8) (frame : BitVec 256) :
    s.handFrame l frame =
      { s with
        converters := (s.handFrame l frame).converters
        delays := (s.handFrame l frame).delays
        log := (s.handFrame l frame).log } :=
  s.putConverter_keeps l _

theorem State.slipFirst_keeps (s : State) (l : Fin 8) :
    s.slipFirst l =
      { s with
        converters := (s.slipFirst l).converters
        delays := (s.slipFirst l).delays
        log := (s.slipFirst l).log
        pins := (s.slipFirst l).pins } := by
  unfold State.slipFirst
  split
  · rw [State.makeSlip, State.putConverter_keeps]
    rfl
  · rfl

theorem State.loseLink_memory (s : State) (l : Fin 8) : ((s.slipFirst l).loseLink l).memory = s.memory := by
  change (s.slipFirst l).memory = s.memory
  rw [s.slipFirst_keeps l]

theorem endTransaction_memory (q : Port) (sdi : List Bool) (s : State) :
    (endTransaction q sdi s).memory = s.memory := by
  obtain ⟨kept, -⟩ := endTransaction_keepsBlocks q sdi s
  rw [kept]

theorem State.handFrame_memory (s : State) (l : Fin 8) (frame : BitVec 256) :
    (s.handFrame l frame).memory = s.memory := by
  rw [s.handFrame_keeps l frame]

theorem State.blockEndThenSlips_memory (s : State) : s.blockEndThenSlips.memory = s.memory := by
  obtain ⟨-, -, -, memory, -⟩ := s.blockEndThenSlips_makes.keeps
  exact memory.trans s.blockEnd_memory

/-! ## The writes of a house frame (R111) -/

theorem State.houseFrame_canonical (s : State) (h : s.MemoryCanonical) : s.houseFrame.MemoryCanonical := by
  unfold State.MemoryCanonical
  rw [State.houseFrame_memory]
  refine State.runPrograms_keeps s.delivered State.MemoryCanonical
    (fun u p hu => u.runProgram_wf s.delivered p hu) _ _ ?_
  show Memory.wf (s.frameStarted.takeNotices s.frameNotices.1).memory = true
  rw [State.takeNotices_memory]
  exact h

theorem Effect.memoryCanonical {c : Instr} {s t : State} (h : Effect c s t) (hs : s.MemoryCanonical) :
    t.MemoryCanonical := by
  unfold State.MemoryCanonical at hs ⊢
  cases h with
  | poweredOn => exact Memory.wf_nil
  | arrived l frame => rwa [State.settle_memory, State.handFrame_memory]
  | returned l frame => rwa [State.settle_memory, State.handFrame_memory]
  | lost l => rwa [State.loseLink_memory]
  | framed => exact s.houseFrame_canonical hs
  | blocked => rwa [State.blockEndThenSlips_memory]
  | ended q => rwa [endTransaction_memory]
  | kept | asserted | released | marked | counted | cleared | pulsed | heldOver | resetFrame | selected
  | begun | left | unselected => exact hs

/-- Settles O52: the writes of a house frame keep the canonical form (`houseFrame_canonical`), and every other
effect leaves the memory or empties it. -/
theorem stepKeepsMemoryCanonical : Obligations.StepKeepsMemoryCanonical := by
  unfold Obligations.StepKeepsMemoryCanonical
  intro s t hs h
  exact step_keeps (keep := State.MemoryCanonical) (fun _ _ k => k) (fun _ k => k)
    (fun _ _ _ effect => effect.memoryCanonical) h hs

end Sys2Proof.Machine
end

section
/-! What a transaction can do, said once: what the taking of a request makes of the state (`Taken`), and what
the release of a port's select makes of it (`Ended`). -/

namespace Sys2Proof.Machine

/-! ## The taking of a request (R180) -/

/-- The states that the taking of a request may leave, with what leads to each. -/
inductive Taken (q : Port) : RequestCode → State → State → Prop
  | kept (code : RequestCode) (s : State) : Taken q code s s
  | answered (code : RequestCode) (s : State) (status : Status) (body : List Byte) :
      Taken q code s (s.answer q status body)
  | written (s : State) (p : Fin 16) (content : ProgramRecord) (ranged : content.inRange = true)
      (apart : s.tables.conflict p content = none) :
      Taken q .writeProgram s (s.acceptProgram q p content)
  | delayed (s : State) (p : Fin 16) (frames : Nat) (content : ProgramRecord) (small : frames ≤ 240000)
      (based : s.tables.programs[p].newest.withDelay frames = some content) :
      Taken q .setDelay s (s.acceptProgram q p content)
  | targeted (s : State) (p : Fin 16) (tenths : Int) (content : ProgramRecord) (low : -400 ≤ tenths)
      (high : tenths ≤ -50) (based : s.tables.programs[p].newest.withTarget tenths = some content) :
      Taken q .setTarget s (s.acceptProgram q p content)
  | linked (s : State) (l : Fin 8) (content : LinkRecord) :
      Taken q .writeLink s (s.acceptLink q l content)
  | ruled (s : State) (content : PolicyRecord) : Taken q .writePolicy s (s.acceptPolicy q content)
  | marked (s : State) (meters : Vector Meter 16) :
      Taken q .resetMeter s (State.answer { s with meters := meters } q .done [])
  | fetched (s : State) (n : Nat) :
      Taken q .fetchAlarms s
        (State.answer { s with log := s.log.advance q n } q .done (s.log.fetchBody q n))
  | attended (s : State) (mask : KindSet) (threshold : Severity) :
      Taken q .setAttention s
        ((s.setPlace q { s.place q with mask := mask, threshold := threshold }).answer q .done [])
  | reset (s : State) : Taken q .portReset s (takePortReset q s)

theorem takeWriteProgram_taken (q : Port) (program : Byte) (revision : BitVec 16) (record : List Byte)
    (s : State) : Taken q .writeProgram s (takeWriteProgram q program revision record s) := by
  unfold takeWriteProgram
  split
  · split
    case isTrue ranged =>
      unfold writeProgramChecked
      split
      · exact .answered _ _ _ _
      · split
        case h_1 => exact .answered _ _ _ _
        case h_2 apart => exact .written _ _ _ ranged apart
    case isFalse => exact .answered _ _ _ _
  · exact .answered _ _ _ _

theorem takeSetDelay_taken (q : Port) (program : Byte) (frames : BitVec 32) (s : State) :
    Taken q .setDelay s (takeSetDelay q program frames s) := by
  unfold takeSetDelay
  split
  · exact .answered _ _ _ _
  · split
    case isTrue => exact .answered _ _ _ _
    case isFalse small =>
      split
      case h_1 based => exact .delayed _ _ _ _ (Nat.le_of_not_lt small) based
      case h_2 => exact .answered _ _ _ _

theorem takeSetTarget_taken (q : Port) (program : Byte) (tenths : BitVec 16) (s : State) :
    Taken q .setTarget s (takeSetTarget q program tenths s) := by
  unfold takeSetTarget
  split
  · exact .answered _ _ _ _
  · split
    case isTrue => exact .answered _ _ _ _
    case isFalse inside =>
      obtain ⟨low, high⟩ := not_or.mp inside
      split
      case h_1 based => exact .targeted _ _ _ _ (Int.not_lt.mp low) (Int.not_lt.mp high) based
      case h_2 => exact .answered _ _ _ _

theorem takeResetMeter_taken (q : Port) (program : Byte) (s : State) :
    Taken q .resetMeter s (takeResetMeter q program s) := by
  unfold takeResetMeter
  split
  · exact .marked _ _
  · split
    · exact .answered _ _ _ _
    · exact .marked _ _

theorem takeWriteLink_taken (q : Port) (link : Byte) (revision : BitVec 16) (record : List Byte)
    (s : State) : Taken q .writeLink s (takeWriteLink q link revision record s) := by
  unfold takeWriteLink
  split
  · split
    · exact .answered _ _ _ _
    · split
      · exact .answered _ _ _ _
      · exact .linked _ _ _
  · exact .answered _ _ _ _

theorem takeWritePolicy_taken (q : Port) (revision : BitVec 16) (record : List Byte) (s : State) :
    Taken q .writePolicy s (takeWritePolicy q revision record s) := by
  unfold takeWritePolicy
  split
  · split
    · exact .answered _ _ _ _
    · split
      · exact .answered _ _ _ _
      · exact .ruled _ _
  · exact .answered _ _ _ _

theorem takeFetchAlarms_taken (q : Port) (n : Byte) (s : State) :
    Taken q .fetchAlarms s (takeFetchAlarms q n s) := by
  unfold takeFetchAlarms
  split
  · exact .fetched _ _
  · exact .answered _ _ _ _

theorem takeSetAttention_taken (q : Port) (mask : KindSet) (threshold : Byte) (s : State) :
    Taken q .setAttention s (takeSetAttention q mask threshold s) := by
  unfold takeSetAttention
  split
  · exact .attended _ _ _
  · exact .answered _ _ _ _

/-- The taking of a request leaves one of the states of `Taken`. -/
theorem takeRequest_taken (q : Port) (code : RequestCode) (body : List Byte) (s : State) :
    Taken q code s (takeRequest q code body s) := by
  unfold takeRequest
  split
  · exact .answered _ _ _ _
  · unfold takeReadProgram; split <;> exact .answered _ _ _ _
  · exact takeWriteProgram_taken q _ _ _ s
  · exact takeSetDelay_taken q _ _ s
  · exact takeSetTarget_taken q _ _ s
  · unfold takeReadMeter; split <;> exact .answered _ _ _ _
  · exact takeResetMeter_taken q _ s
  · unfold takeReadLink; split <;> exact .answered _ _ _ _
  · exact takeWriteLink_taken q _ _ _ s
  · exact .answered _ _ _ _
  · exact takeWritePolicy_taken q _ _ s
  · exact .answered _ _ _ _
  · exact takeFetchAlarms_taken q _ s
  · exact takeSetAttention_taken q _ _ s
  · exact .reset s
  · exact .kept _ s

/-! ## The release of select (R179, R181, R195) -/

/-- The end of every transaction: retirement is tested and the pins follow (R165, R170). -/
def State.concluded (v : State) : State := State.settle { v with log := v.log.retire }

theorem State.finishTransaction_concluded (s : State) (q : Port) (bytes : List Byte)
    (take : State → State) : s.finishTransaction q bytes take = (take (s.releasedAt q bytes)).concluded :=
  s.finishTransaction_eq q bytes take

/-- The states that the release of a port's select may leave, with what leads to each. -/
inductive Ended (q : Port) (bytes : List Byte) (s : State) : State → Prop
  | kept : Ended q bytes s s
  | unselected (waits : s.resetAsserted = true ∨ (s.port q).transaction = .waiting) :
      Ended q bytes s (s.releaseSelect q)
  | nulled (normal : (s.port q).transaction = .normal) (held : Option Response) :
      Ended q bytes s
        ((s.releasedAt q bytes).setPort q
          { (s.releasedAt q bytes).port q with held := held }).concluded
  | refused (normal : (s.port q).transaction = .normal) (status : Status) :
      Ended q bytes s ((s.releasedAt q bytes).answer q status []).concluded
  | taken (normal : (s.port q).transaction = .normal) (code : RequestCode) (body : List Byte) (v : State)
      (spelt : classify bytes = .request code body) (took : Taken q code (s.takenAt q bytes) v) :
      Ended q bytes s v.concluded
  | ignored (pending : (s.port q).transaction = .pending) :
      Ended q bytes s (s.releasedAt q bytes).concluded
  | reset (pending : (s.port q).transaction = .pending) :
      Ended q bytes s (takePortReset q (s.releasedAt q bytes)).concluded

/-- The release of a port's select leaves one of the states of `Ended`. -/
theorem endTransaction_ended (q : Port) (sdi : List Bool) (s : State) :
    Ended q (bytesOfBits sdi) s (endTransaction q sdi s) := by
  unfold endTransaction
  split
  case isTrue asserted => exact .unselected (.inl asserted)
  case isFalse =>
    split
    case h_1 => exact .kept
    case h_2 waiting => exact .unselected (.inr waiting)
    case h_3 normal =>
      rw [State.finishTransaction_concluded]
      cases spelt : classify (bytesOfBits sdi) with
      | null => exact .nulled normal _
      | unknown => exact .refused normal _
      | length => exact .refused normal _
      | request code body => exact .taken normal code body _ spelt (takeRequest_taken q code body _)
    case h_4 pending =>
      rw [State.finishTransaction_concluded]
      unfold takePending
      split
      · exact .reset pending
      · exact .ignored pending

end Sys2Proof.Machine
end

section
/-! The alarm log (R160 to R169): it stays well formed, and of each port the cursor less the missed count moves
by what a fetch delivers and reports and by nothing else but a reset. -/

namespace Sys2Proof.Machine

/-! ## Logs that account for their entries -/

/-- From a well-formed log, `after` is well formed and accounts at each port for what `log` does (R167). -/
def AlarmLog.Accounts (log after : AlarmLog) : Prop :=
  log.WellFormed → after.WellFormed ∧ ∀ q : Port, after.accounted q = log.accounted q

theorem AlarmLog.Accounts.refl (log : AlarmLog) : log.Accounts log := fun h => ⟨h, fun _ => rfl⟩

theorem AlarmLog.Accounts.trans {x y z : AlarmLog} (h : x.Accounts y) (k : y.Accounts z) :
    x.Accounts z := fun hx =>
  have ⟨hy, same⟩ := h hx
  have ⟨hz, same'⟩ := k hy
  ⟨hz, fun q => (same' q).trans (same q)⟩

theorem AlarmLog.retire_accounts (log : AlarmLog) : log.Accounts log.retire := log.retire_wellFormed

theorem AlarmLog.attend_accounts (log : AlarmLog) (q : Port) : log.Accounts (log.attend q) := fun h =>
  log.attend_wellFormed h q

theorem AlarmLog.leave_accounts (log : AlarmLog) (q : Port) : log.Accounts (log.leave q) := fun h =>
  log.leave_wellFormed h q

/-- A change of a port's attention settings or timer accounts for the same entries. -/
theorem AlarmLog.setPlace_accounts (log : AlarmLog) (q : Port) (v : LogPort)
    (cursor : v.cursor = (log.ports.get q).cursor) (missed : v.missed = (log.ports.get q).missed) :
    log.Accounts { log with ports := log.ports.set q v } := fun h =>
  log.setPlace_wellFormed h q v cursor missed

theorem AlarmLog.handAll_accounts (log : AlarmLog) (es : List Entry) : log.Accounts (log.handAll es) :=
  fun h =>
    have ⟨formed, _, same⟩ := log.handAll_wellFormed h es
    ⟨formed, same⟩

theorem State.slipsLogged_accounts (s : State) (ns : List SlipNotice) :
    s.log.Accounts (s.slipsLogged ns) := by
  unfold State.slipsLogged
  split
  · exact s.log.handAll_accounts _
  · exact .refl _

/-- The places of the ports may move their timers. -/
theorem AlarmLog.accounts_of_places (log : AlarmLog) (ports : Pair LogPort)
    (cursor : ∀ q, (ports.get q).cursor = (log.ports.get q).cursor)
    (missed : ∀ q, (ports.get q).missed = (log.ports.get q).missed) :
    log.Accounts { log with ports := ports } := by
  intro h
  unfold AlarmLog.WellFormed AlarmLog.accounted at *
  simp only [cursor, missed]
  exact ⟨h, fun _ => trivial⟩

theorem State.tick_accounts (s : State) : s.log.Accounts s.tick.log := by
  have places (q : Port) : ∃ timer, s.tick.log.ports.get q = { s.log.ports.get q with timer := timer } := by
    rw [State.tick_place]
    exact LogPort.tick_eq _
  refine s.log.accounts_of_places s.tick.log.ports (fun q => ?_) (fun q => ?_) <;>
    obtain ⟨timer, ticked⟩ := places q <;> rw [ticked]

/-! ## Slips, house frames and block ends -/

theorem State.putConverter_log (s : State) (l : Fin 8) (work : Converter × Option SlipNotice) :
    (s.putConverter l work).log = s.slipsLogged work.2.toList := by
  rw [State.putConverter_eq, State.takeNotices_log]
  rfl

theorem State.handFrame_accounts (s : State) (l : Fin 8) (frame : BitVec 256) :
    s.log.Accounts (s.handFrame l frame).log := by
  rw [State.handFrame, State.putConverter_log]
  exact s.slipsLogged_accounts _

theorem State.slipFirst_accounts (s : State) (l : Fin 8) : s.log.Accounts (s.slipFirst l).log := by
  unfold State.slipFirst
  split
  · rw [State.settle_log, State.makeSlip, State.putConverter_log]
    exact s.slipsLogged_accounts _
  · exact .refl _

theorem State.MakesSlips.accounts {s t : State} {links : List (Fin 8)} (h : s.MakesSlips links t) :
    s.log.Accounts t.log := by
  obtain ⟨-, -, -, -, notices, -, -, -, logged⟩ := h
  rw [logged]
  exact s.slipsLogged_accounts notices

theorem State.blockEnd_accounts (s : State) : s.log.Accounts s.blockEnd.log := fun h =>
  AlarmLog.takeBlock_wellFormed _ _ _ _ _ h

theorem State.blockEndThenSlips_accounts (s : State) : s.log.Accounts s.blockEndThenSlips.log :=
  s.blockEnd_accounts.trans s.blockEndThenSlips_makes.accounts

/-! ## Transactions -/

theorem State.leaveList_log (s : State) (q : Port) (name : RecordName) : (s.leaveList q name).log = s.log := by
  cases name <;> rfl

theorem State.dropExecuting_log (s : State) (q : Port) : (s.dropExecuting q).log = s.log := by
  unfold State.dropExecuting
  split
  · rfl
  · exact s.leaveList_log q _

/-- PORT RESET changes of the log its port's attention settings alone (R174). -/
theorem takePortReset_log (q : Port) (s : State) :
    (takePortReset q s).log =
      { s.log with
        ports := s.log.ports.set q { s.log.ports.get q with mask := 0#16, threshold := .note } } := by
  unfold takePortReset
  simp only [State.answer_log, State.setPlace_log, State.place, State.dropExecuting_log]

theorem takePortReset_accounts (q : Port) (s : State) : s.log.Accounts (takePortReset q s).log := by
  rw [takePortReset_log]
  exact s.log.setPlace_accounts q _ rfl rfl

/-- Of the requests, a fetch alone moves a cursor by anything but retirement. -/
theorem Taken.accounts {q : Port} {code : RequestCode} {s v : State} (h : Taken q code s v)
    (other : code ≠ .fetchAlarms) : s.log.Accounts v.log := by
  cases h with
  | fetched => exact absurd rfl other
  | attended => exact s.log.setPlace_accounts q _ rfl rfl
  | reset => exact takePortReset_accounts q s
  | kept | answered | written | delayed | targeted | linked | ruled | marked => exact .refl _

theorem Taken.wellFormed {q : Port} {code : RequestCode} {s v : State} (h : Taken q code s v)
    (hs : s.log.WellFormed) : v.log.WellFormed := by
  by_cases other : code = .fetchAlarms
  · subst other
    cases h with
    | fetched _ n =>
      obtain ⟨formed, -⟩ := s.log.advance_wellFormed hs q n
      exact formed
    | kept | answered => exact hs
  · exact (h.accounts other hs).1

theorem State.releasedAt_accounts (s : State) (q : Port) (bytes : List Byte) :
    s.log.Accounts (s.releasedAt q bytes).log := s.log.attend_accounts q

theorem State.concluded_accounts (v : State) : v.log.Accounts v.concluded.log := v.log.retire_accounts

theorem Ended.accounts {q : Port} {bytes : List Byte} {s t : State} (h : Ended q bytes s t)
    (other : ∀ body, classify bytes ≠ .request .fetchAlarms body) : s.log.Accounts t.log := by
  have released := s.releasedAt_accounts q bytes
  cases h with
  | kept | unselected => exact .refl _
  | nulled | refused | ignored => exact released.trans (State.concluded_accounts _)
  | taken normal code body v spelt took =>
    have code_ne : code ≠ .fetchAlarms := fun e => other body (e ▸ spelt)
    exact (released.trans (took.accounts code_ne)).trans (State.concluded_accounts _)
  | reset => exact (released.trans (takePortReset_accounts q _)).trans (State.concluded_accounts _)

theorem Ended.wellFormed {q : Port} {bytes : List Byte} {s t : State} (h : Ended q bytes s t)
    (hs : s.log.WellFormed) : t.log.WellFormed := by
  have ⟨released, _⟩ := s.releasedAt_accounts q bytes hs
  cases h with
  | kept | unselected => exact hs
  | nulled | refused | ignored => exact (State.concluded_accounts _ released).1
  | taken normal code body v spelt took => exact (v.concluded_accounts (took.wellFormed released)).1
  | reset => exact (State.concluded_accounts _ (takePortReset_accounts q _ released).1).1

/-! ## Every command and every step -/

theorem Effect.accounts {c : Instr} {s t : State} (h : Effect c s t) (power : c ≠ .powerOnReset)
    (warm : c ≠ .warmResetAssert)
    (other : ∀ body, classify (bytesOfBits c.sdi) ≠ .request .fetchAlarms body) :
    s.log.Accounts t.log := by
  cases h with
  | poweredOn => exact absurd rfl power
  | asserted => exact absurd rfl warm
  | arrived l frame => exact State.handFrame_accounts (s.setReceiver l Receiver.start) l frame
  | returned l frame =>
    exact State.handFrame_accounts
      ((s.setReceiver l Receiver.start).setConverter l s.converters[l].regain) l frame
  | lost l => exact s.slipFirst_accounts l
  | framed =>
    rw [State.houseFrame_log]
    exact s.slipsLogged_accounts _
  | blocked => exact s.blockEndThenSlips_accounts
  | ended _ q => exact (endTransaction_ended q _ s).accounts other
  | left q => exact s.log.leave_accounts q
  | kept | released | marked | counted | cleared | pulsed | heldOver | resetFrame | selected | begun
  | unselected => exact .refl _

theorem Effect.logWellFormed {c : Instr} {s t : State} (h : Effect c s t) (hs : s.log.WellFormed) :
    t.log.WellFormed := by
  by_cases power : c = .powerOnReset
  · subst power
    cases h with
    | kept => exact hs
    | poweredOn => exact AlarmLog.initial_wellFormed
    | ended _ q => exact (endTransaction_ended q _ s).wellFormed hs
  by_cases warm : c = .warmResetAssert
  · subst warm
    cases h with
    | kept => exact hs
    | asserted => exact AlarmLog.initial_wellFormed
    | ended _ q => exact (endTransaction_ended q _ s).wellFormed hs
  by_cases other : ∀ body, classify (bytesOfBits c.sdi) ≠ .request .fetchAlarms body
  · exact (h.accounts power warm other hs).1
  · cases h with
    | ended _ q => exact (endTransaction_ended q _ s).wellFormed hs
    | kept => exact hs
    | poweredOn => exact absurd rfl power
    | asserted => exact absurd rfl warm
    | _ => exact absurd (fun body => by simp [Instr.sdi, bytesOfBits, classify]) other

/-- Settles O53: one unit of time and every effect of a command keep the log well formed. -/
theorem stepKeepsLogWellFormed : Obligations.StepKeepsLogWellFormed := by
  unfold Obligations.StepKeepsLogWellFormed
  intro s t hs h
  exact step_keeps (keep := fun u => u.log.WellFormed) (fun _ _ k => k) (fun u k => (u.tick_accounts k).1)
    (fun _ _ _ effect => effect.logWellFormed) h hs

/-- Settles O54: no effect but those of a reset and a fetch moves the cursor less the missed count. -/
theorem entriesAreAccounted : Obligations.EntriesAreAccounted := by
  unfold Obligations.EntriesAreAccounted
  intro c s t hs h power warm other
  exact ((exec_effect h).accounts power warm other hs).2

/-! ## A fetch (R168, R169) -/

/-- The log in which a request of a transaction of port `q` is taken. -/
theorem State.takenAt_log (s : State) (q : Port) (bytes : List Byte) :
    (s.takenAt q bytes).log = s.log.attend q := rfl

/-- The attendance of a port moves no cursor and no missed count, so a fetch delivers the same. -/
theorem AlarmLog.attend_delivered (log : AlarmLog) (q : Port) (n : Nat) :
    (log.attend q).delivered q n = log.delivered q n := by
  simp [AlarmLog.delivered, AlarmLog.attend]

theorem AlarmLog.attend_overrun (log : AlarmLog) (q : Port) : (log.attend q).overrun q = log.overrun q := by
  simp [AlarmLog.overrun, AlarmLog.attend]

/-- FETCH_ALARMS of 1 to 8 in a normal transaction: the port attends, the fetch is taken, and retirement is
tested. -/
theorem exec_fetchAlarms_log (q : Port) (n : Byte) (surplus : List Bool) (s t : State) (h : s.InNormal q)
    (low : 1 ≤ n.toNat) (high : n.toNat ≤ 8) (taken : exec (.fetchAlarms q n surplus) s = .next t) :
    t.log = ((s.log.attend q).advance q n.toNat).retire := by
  cases taken
  obtain ⟨conclude, -⟩ := endTransaction_takes q .fetchAlarms [n] surplus s h (by simp) rfl _ rfl
  show (endTransaction q (requestBits .fetchAlarms [n] surplus) s).log = _
  rw [conclude]
  simp only [State.settle_log, takeRequest, takeFetchAlarms, low, high, and_self, if_true, State.answer_log,
    State.takenAt_log]

/-- Settles O55: the fetch advances its port's place by what it delivers and reports (`advance_wellFormed`),
and neither the attendance before it nor the retirement after it moves the account. -/
theorem fetchIsAccounted : Obligations.FetchIsAccounted := by
  unfold Obligations.FetchIsAccounted
  intro q n surplus s t hs normal low high taken
  have log := exec_fetchAlarms_log q n surplus s t normal low high taken
  obtain ⟨attended, same⟩ := s.log.attend_accounts q hs
  obtain ⟨advanced, mine, others⟩ := (s.log.attend q).advance_wellFormed attended q n.toNat
  obtain ⟨-, retired⟩ := AlarmLog.retire_accounts _ advanced
  have unread := s.log.unread_numbers hs q
  rw [log]
  refine ⟨?_, ?_, rfl, ?_, s.log.delivered_length hs q n.toNat, fun e member => ?_⟩
  · rw [retired, mine, same, AlarmLog.attend_delivered, AlarmLog.attend_overrun]
  · rw [retired, others _ (Port.other_ne q), same]
  · have length := s.log.delivered_length hs q n.toNat
    rw [length]
    unfold AlarmLog.delivered
    rw [List.map_take, unread]
    exact List.ext_getElem (by simp) (by simp [State.place])
  · exact List.mem_of_mem_filter (List.mem_of_mem_take member)

/-! ## Attendance (R164, R165) -/

theorem retireFrom_attending (entries : List LogEntry) (places : Pair LogPort) (q : Port) :
    ((retireFrom entries places).2.get q).attending = (places.get q).attending := by
  induction entries generalizing places with
  | nil => rfl
  | cons oldest rest ih =>
    unfold retireFrom
    split
    · rw [ih, departed_get, LogPort.depart_attending]
    · rfl

theorem AlarmLog.retire_attending (log : AlarmLog) (q : Port) :
    (log.retire.ports.get q).attending = (log.ports.get q).attending :=
  retireFrom_attending log.entries log.ports q

/-- Settles O34: the test for retirement is `retire_retires`, and an expiry makes its port ABSENT, tests
retirement and settles the pins. -/
theorem attendanceExpires : Obligations.AttendanceExpires := by
  unfold Obligations.AttendanceExpires
  refine ⟨AlarmLog.retire_retires, fun q s attending timeout passed => ?_⟩
  have out : (s.place q).timedOut s.policy.timeout = true := by
    simp [LogPort.timedOut, attending, timeout, passed]
  refine ⟨State.settle { s with log := s.log.leave q }, ?_, rfl, rfl, ?_, s.settle_follow _ rfl⟩
  · show execAttendanceExpiry q s = _
    rw [execAttendanceExpiry, if_pos out]
  · show (((s.log.leave q).ports.get q).attending) = false
    rw [AlarmLog.leave, AlarmLog.retire_attending]
    simp

end Sys2Proof.Machine
end

section
/-! The configuration tables through a step (R7, R10): they take in the staged copies, or a request accepts a
content for one record or leaves one waiting list; everything else leaves them. -/

namespace Sys2Proof.Machine

/-! ## What a step does to the tables -/

theorem Ended.tables_keep {keep : Tables → Prop}
    (request : ∀ (q : Port) (code : RequestCode) (u v : State), Taken q code u v → keep u.tables →
      keep v.tables)
    {q : Port} {bytes : List Byte} {s t : State} (h : Ended q bytes s t) (hs : keep s.tables) :
    keep t.tables := by
  cases h with
  | taken _ code _ v _ took => exact request q code _ v took hs
  | reset => exact request q .portReset _ (takePortReset q (s.releasedAt q bytes)) (.reset _) hs
  | kept | unselected | nulled | refused | ignored => exact hs

/-- A property of the tables holds after every effect, where power-on, the taking of staged copies and the
requests keep it. -/
theorem Effect.tables_keep {keep : Tables → Prop} (initial : keep Tables.initial)
    (take : ∀ t : Tables, keep t → keep t.take)
    (request : ∀ (q : Port) (code : RequestCode) (u v : State), Taken q code u v → keep u.tables →
      keep v.tables)
    {c : Instr} {s t : State} (h : Effect c s t) (hs : keep s.tables) : keep t.tables := by
  cases h with
  | poweredOn => exact initial
  | asserted => exact take _ hs
  | blocked =>
    rw [State.blockEndThenSlips_tables]
    exact take _ hs
  | arrived l frame => rwa [State.settle_tables, State.handFrame_keeps]
  | returned l frame => rwa [State.settle_tables, State.handFrame_keeps]
  | lost l =>
    change keep (s.slipFirst l).tables
    rwa [State.slipFirst_keeps]
  | framed => rwa [State.houseFrame_tables]
  | ended _ q => exact (endTransaction_ended q c.sdi s).tables_keep request hs
  | kept | released | marked | counted | cleared | pulsed | heldOver | resetFrame | selected | begun | left
  | unselected => exact hs

/-! ## Contents in range (R2, R7) -/

theorem ProgramRecord.unused_inRange : ProgramRecord.unused.inRange = true := by decide

theorem Tables.initial_contents (p : Fin 16) (x : ProgramRecord)
    (h : x ∈ Tables.initial.programs[p].contents) : x = ProgramRecord.unused := by
  simpa [Tables.initial, Record.initial, Record.contents] using h

theorem Tables.initial_inRange : Tables.initial.ProgramsInRange := fun p x h => by
  rw [Tables.initial_contents p x h]
  exact ProgramRecord.unused_inRange

theorem Taken.programsInRange {q : Port} {code : RequestCode} {s v : State} (h : Taken q code s v)
    (hs : s.tables.ProgramsInRange) : v.tables.ProgramsInRange := by
  have newest (p : Fin 16) := hs p _ (Record.newest_mem_contents _)
  cases h with
  | written _ p content ranged => exact s.acceptProgram_ranges q p content hs ranged
  | delayed _ p frames content small based =>
    exact s.acceptProgram_ranges q p content hs
      (ProgramRecord.withDelay_inRange _ _ _ (newest p) small based)
  | targeted _ p tenths content low high based =>
    exact s.acceptProgram_ranges q p content hs
      (ProgramRecord.withTarget_inRange _ _ _ (newest p) low high based)
  | reset => exact takePortReset_ranges q s hs
  | kept | answered | linked | ruled | marked | fetched | attended => exact hs

/-! ## Disjoint claims (R10) -/

theorem Tables.initial_disjoint : Tables.initial.ClaimsDisjoint := by
  refine ⟨fun p q _ x hx y hy => ?_, fun p x hx => ?_⟩
  · rw [Tables.initial_contents p x hx, Tables.initial_contents q y hy]
    exact ⟨rfl, rfl⟩
  · rw [Tables.initial_contents p x hx]
    exact List.nodup_nil

theorem ProgramRecord.outputs_nodup {r : ProgramRecord} (h : r.inRange = true) : r.outputs.Nodup := by
  simp only [ProgramRecord.inRange, Bool.and_eq_true, decide_eq_true_eq] at h
  exact h.2

/-- Two contents that claim the same slots and pages. -/
structure ProgramRecord.ClaimsAs (new old : ProgramRecord) : Prop where
  outputs : new.outputs = old.outputs
  pages : ∀ y : ProgramRecord, pagesMeet new y = pagesMeet old y

theorem ProgramRecord.withDelay_claims {old new : ProgramRecord} {frames : Nat}
    (h : old.withDelay frames = some new) : new.ClaimsAs old := by
  obtain ⟨x, section_, rfl⟩ := Option.map_eq_some_iff.mp h
  refine ⟨rfl, fun y => ?_⟩
  unfold pagesMeet
  rw [section_]
  cases y.delay with
  | none => rfl
  | some z => exact DelaySection.meets_congr x _ z rfl rfl

theorem ProgramRecord.withTarget_claims {old new : ProgramRecord} {tenths : Int}
    (h : old.withTarget tenths = some new) : new.ClaimsAs old := by
  obtain ⟨x, -, rfl⟩ := Option.map_eq_some_iff.mp h
  exact ⟨rfl, fun _ => rfl⟩

/-- The acceptance of a content that shares nothing with another program, and names no slot twice. -/
theorem State.acceptProgram_claims (s : State) (q : Port) (p : Fin 16) (content : ProgramRecord)
    (hs : s.tables.ClaimsDisjoint)
    (apart : ∀ k : Fin 16, k ≠ p → ∀ y ∈ s.tables.programs[k].contents,
      slotsMeet content y = false ∧ pagesMeet content y = false)
    (once : content.outputs.Nodup) : (s.acceptProgram q p content).tables.ClaimsDisjoint := by
  obtain ⟨disjoint, nodup⟩ := hs
  have applied := (Record.mem_contents s.tables.programs[p] _).mpr (.inl rfl)
  rw [State.acceptProgram_eq]
  refine Tables.claims_set _ ⟨disjoint, nodup⟩ p _ (fun x hx k hk y hy => ?_) (fun x hx => ?_) <;>
    rw [Record.contents_accept] at hx <;> rcases List.mem_pair.mp hx with rfl | rfl
  · exact disjoint p k hk.symm _ applied y hy
  · exact apart k hk y hy
  · exact nodup p _ applied
  · exact once

/-- The acceptance of a SET claims what the newest content claimed. -/
theorem State.acceptProgram_claimsAs (s : State) (q : Port) (p : Fin 16) (content : ProgramRecord)
    (hs : s.tables.ClaimsDisjoint) (same : content.ClaimsAs s.tables.programs[p].newest) :
    (s.acceptProgram q p content).tables.ClaimsDisjoint := by
  have newest := Record.newest_mem_contents s.tables.programs[p]
  refine s.acceptProgram_claims q p content hs (fun k hk y hy => ?_) ?_
  · rw [slotsMeet, same.outputs, ← slotsMeet, same.pages]
    exact hs.1 p k hk.symm _ newest y hy
  · rw [same.outputs]
    exact hs.2 p _ newest

theorem State.leaveList_claims (s : State) (q : Port) (name : RecordName) (hs : s.tables.ClaimsDisjoint) :
    (s.leaveList q name).tables.ClaimsDisjoint := by
  cases name with
  | program p =>
    refine Tables.claims_set _ hs p _ (fun x hx k hk y hy => ?_) (fun x hx => ?_) <;>
      rw [Record.contents_leave] at hx
    · exact hs.1 p k hk.symm x hx y hy
    · exact hs.2 p x hx
  | link l => exact hs
  | policy => exact hs

theorem takePortReset_claims (q : Port) (s : State) (hs : s.tables.ClaimsDisjoint) :
    (takePortReset q s).tables.ClaimsDisjoint := by
  show (s.dropExecuting q).tables.ClaimsDisjoint
  unfold State.dropExecuting
  split
  · exact hs
  · exact s.leaveList_claims q _ hs

theorem Taken.claimsDisjoint {q : Port} {code : RequestCode} {s v : State} (h : Taken q code s v)
    (hs : s.tables.ClaimsDisjoint) : v.tables.ClaimsDisjoint := by
  cases h with
  | written _ p content ranged apart =>
    exact s.acceptProgram_claims q p content hs
      (fun k hk y hy => s.tables.conflict_disjoint p content apart k hk y hy) (ProgramRecord.outputs_nodup ranged)
  | delayed _ p frames content _ based =>
    exact s.acceptProgram_claimsAs q p content hs (ProgramRecord.withDelay_claims based)
  | targeted _ p tenths content _ _ based =>
    exact s.acceptProgram_claimsAs q p content hs (ProgramRecord.withTarget_claims based)
  | reset => exact takePortReset_claims q s hs
  | kept | answered | linked | ruled | marked | fetched | attended => exact hs

/-- Settles O56: power-on and the taking of staged copies keep both laws, and so does every request: WRITE
PROGRAM passes the range and the conflict check, and a SET claims what its base content claims. -/
theorem stepKeepsClaimsDisjoint : Obligations.StepKeepsClaimsDisjoint := by
  unfold Obligations.StepKeepsClaimsDisjoint
  intro s t h
  constructor
  · exact step_keeps (keep := fun u => u.tables.ClaimsDisjoint) (fun _ _ k => k) (fun _ k => k)
      (fun _ _ _ effect => effect.tables_keep Tables.initial_disjoint (fun _ => Tables.claims_take _)
        fun _ _ _ _ took => took.claimsDisjoint) h
  · exact step_keeps (keep := fun u => u.tables.ProgramsInRange) (fun _ _ k => k) (fun _ k => k)
      (fun _ _ _ effect => effect.tables_keep Tables.initial_inRange (fun _ => Tables.ranges_take _)
        fun _ _ _ _ took => took.programsInRange) h

end Sys2Proof.Machine
end

section
/-! Waiting lists, executing requests and held responses stay consistent (R1, R22, R176, R182): an acceptance
makes its port wait, an apply or a PORT RESET ends the wait, and nothing else touches either side. -/

namespace Sys2Proof.Machine

/-! ## Consistency in terms of lists and ports -/

/-- A waiting entry of a port names the record that the port executes. -/
theorem State.ChangesConsistent.mem_iff {s : State} (h : s.ChangesConsistent) (name : RecordName)
    (w : Waiting) :
    w ∈ s.tables.waitingOn name ↔
      (s.port w.port).executing = some { record := name, revision := w.revision } :=
  h.1 name w.port w.revision

/-- A port in a normal transaction executes nothing. -/
theorem State.ChangesConsistent.idle_of_normal {s : State} (h : s.ChangesConsistent) {q : Port}
    (normal : (s.port q).transaction = .normal) : (s.port q).executing = none := by
  by_contra executing
  exact (h.2.2 q (Option.isSome_iff_ne_none.mpr executing)).2 normal

/-- The ports may change where the records are kept, so long as each executes what it did and one that executes
something holds nothing and is in no normal transaction. -/
theorem State.ChangesConsistent.of_ports {s t : State} (h : s.ChangesConsistent) (tables : t.tables = s.tables)
    (executing : ∀ q, (t.port q).executing = (s.port q).executing)
    (quiet : ∀ q, (s.port q).executing.isSome = true → (s.port q).held = none →
      (s.port q).transaction ≠ .normal → (t.port q).held = none ∧ (t.port q).transaction ≠ .normal) :
    t.ChangesConsistent := by
  obtain ⟨lists, staged, still⟩ := h
  refine ⟨fun name q revision => ?_, ?_, fun q runs => ?_⟩
  · rw [tables, executing]
    exact lists name q revision
  · rw [tables]
    exact staged
  · rw [executing] at runs
    obtain ⟨held, transaction⟩ := still q runs
    exact quiet q runs held transaction

theorem State.ChangesConsistent.congr {s t : State} (h : s.ChangesConsistent) (tables : t.tables = s.tables)
    (ports : t.ports = s.ports) : t.ChangesConsistent := by
  have port (q : Port) : t.port q = s.port q := congrArg (Pair.get · q) ports
  exact h.of_ports tables (fun q => by rw [port]) fun q _ held transaction => by
    rw [port]
    exact ⟨held, transaction⟩

/-- A change of one port. -/
theorem State.ChangesConsistent.of_port {s t : State} {q : Port} (h : s.ChangesConsistent)
    (tables : t.tables = s.tables) (other : t.port (Port.other q) = s.port (Port.other q))
    (executing : (t.port q).executing = (s.port q).executing)
    (quiet : (s.port q).executing.isSome = true → (s.port q).held = none →
      (s.port q).transaction ≠ .normal → (t.port q).held = none ∧ (t.port q).transaction ≠ .normal) :
    t.ChangesConsistent := by
  refine h.of_ports tables (fun r => ?_) (fun r runs held transaction => ?_) <;>
    rcases Port.eq_or_other q r with rfl | rfl
  · exact executing
  · rw [other]
  · exact quiet runs held transaction
  · rw [other]
    exact ⟨held, transaction⟩

/-- With nothing executing and nothing waiting, all is consistent. -/
theorem State.changesConsistent_of_none {s : State} (lists : ∀ name, s.tables.waitingOn name = [])
    (executing : ∀ q, (s.port q).executing = none) : s.ChangesConsistent := by
  refine ⟨fun name q revision => ?_, fun name waits => absurd (lists name) waits, fun q runs => ?_⟩
  · rw [lists, executing]
    exact iff_of_false List.not_mem_nil nofun
  · rw [executing] at runs
    cases runs

/-! ## Applies and resets (R14, R24) -/

theorem Tables.take_waitingOn (t : Tables) (name : RecordName) :
    (t.stagedOn name = true → t.take.waitingOn name = []) ∧
      (t.stagedOn name = false → t.take.waitingOn name = t.waitingOn name) := by
  cases name with
  | program p => simpa [Tables.take, Tables.waitingOn, Tables.stagedOn] using t.programs[p].take_waiting_staged
  | link l => simpa [Tables.take, Tables.waitingOn, Tables.stagedOn] using t.links[l].take_waiting_staged
  | policy => exact t.policy.take_waiting_staged

/-- Where a record that is waited on is staged, the taking of staged copies empties every list. -/
theorem State.ChangesConsistent.take_waitingOn {s : State} (h : s.ChangesConsistent) (name : RecordName) :
    s.tables.take.waitingOn name = [] := by
  obtain ⟨emptied, kept⟩ := s.tables.take_waitingOn name
  by_cases staged : s.tables.stagedOn name = true
  · exact emptied staged
  · rw [kept (Bool.eq_false_of_not_eq_true staged)]
    by_contra waits
    exact staged (h.2.1 name waits)

/-- The ports after the applies of a block end: one that executes a change holds its completion, another is
kept (R14, R182). -/
theorem State.ChangesConsistent.completePorts {s : State} (h : s.ChangesConsistent) (q : Port) :
    ((s.port q).executing = none → (s.tables.completePorts s.ports).get q = s.port q) ∧
      ∀ x, (s.port q).executing = some x →
        (s.tables.completePorts s.ports).get q =
          (s.port q).complete (s.tables.revisionOn x.record) x.revision := by
  constructor
  · intro idle
    refine s.tables.completePorts_other s.ports q fun name w member mine => ?_
    have runs := (h.mem_iff name w).mp member
    rw [mine, idle] at runs
    cases runs
  · intro x runs
    have member : { port := q, revision := x.revision } ∈ s.tables.waitingOn x.record :=
      (h.mem_iff x.record _).mpr runs
    have named (name : RecordName) (w : Waiting) (hw : w ∈ s.tables.waitingOn name) (mine : w.port = q) :
        name = x.record ∧ w.revision = x.revision := by
      have other := (h.mem_iff name w).mp hw
      rw [mine, runs] at other
      injection other with same
      rw [same]
      exact ⟨rfl, rfl⟩
    refine s.tables.completePorts_waiting s.ports q x.record x.revision
      (h.2.1 x.record (List.ne_nil_of_mem member)) (fun w hw mine => (named _ w hw mine).2)
      ⟨_, member, rfl⟩ (fun name other w hw mine => other (named name w hw mine).1)

theorem State.blockEndThenSlips_port (s : State) (q : Port) :
    s.blockEndThenSlips.port q = (s.tables.completePorts s.ports).get q := by
  obtain ⟨-, -, -, -, -, ports, -⟩ := s.blockEndThenSlips_makes.keeps
  rw [State.port, ports, State.blockEnd_ports]

theorem State.blockEndThenSlips_consistent (s : State) (h : s.ChangesConsistent) :
    s.blockEndThenSlips.ChangesConsistent := by
  refine State.changesConsistent_of_none (fun name => ?_) (fun q => ?_)
  · rw [State.blockEndThenSlips_tables]
    exact h.take_waitingOn name
  · obtain ⟨kept, completed⟩ := h.completePorts q
    rw [State.blockEndThenSlips_port]
    cases runs : (s.port q).executing with
    | none => rw [kept runs, runs]
    | some x => rw [completed x runs, ControlPort.complete]

theorem Tables.initial_waitingOn (name : RecordName) : Tables.initial.waitingOn name = [] := by
  cases name <;> simp [Tables.initial, Tables.waitingOn, Record.initial]

theorem ControlPort.resume_executing (port : ControlPort) :
    port.resume.executing = port.executing ∧ port.resume.held = port.held ∧
      (port.transaction ≠ .normal → port.resume.transaction ≠ .normal) := by
  unfold ControlPort.resume
  split
  · exact ⟨rfl, rfl, fun _ => nofun⟩
  · exact ⟨rfl, rfl, id⟩

theorem State.warmStart_port (s : State) (q : Port) : s.warmStart.port q = (s.port q).resume := by
  cases q <;> rfl

theorem State.warmStart_consistent (s : State) (h : s.ChangesConsistent) : s.warmStart.ChangesConsistent := by
  refine h.of_ports rfl (fun q => ?_) fun q _ held transaction => ?_ <;>
    obtain ⟨executing, kept, quiet⟩ := (s.port q).resume_executing <;> rw [State.warmStart_port]
  · exact executing
  · exact ⟨kept.trans held, quiet transaction⟩

/-! ## Requests (R11, R22) -/

/-- One record's waiting list and staged copy after an acceptance at a port that executed nothing: the port
waits on it, with the new revision. -/
theorem State.ChangesConsistent.accepted {u v : State} {q : Port} {name : RecordName}
    {revision : BitVec 16} (h : u.ChangesConsistent) (idle : (u.port q).executing = none)
    (quiet : (u.port q).transaction ≠ .normal)
    (list : ∀ other, v.tables.waitingOn other =
      if other = name then u.tables.waitingOn other ++ [{ port := q, revision := revision }]
      else u.tables.waitingOn other)
    (staged : ∀ other, v.tables.stagedOn other = if other = name then true else u.tables.stagedOn other)
    (mine : v.port q = { u.port q with
      held := none, executing := some { record := name, revision := revision } })
    (others : v.port (Port.other q) = u.port (Port.other q)) : v.ChangesConsistent := by
  have absent (other : RecordName) (r : BitVec 16) :
      { port := q, revision := r } ∉ u.tables.waitingOn other := fun member => by
    have runs := (h.mem_iff other _).mp member
    rw [idle] at runs
    cases runs
  refine ⟨fun other r own => ?_, fun other waits => ?_, fun r runs => ?_⟩
  · rcases Port.eq_or_other q r with rfl | rfl
    · rw [list, mine]
      by_cases same : other = name
      · simp only [same, if_true, List.mem_append, absent, false_or, List.mem_singleton, Waiting.mk.injEq,
          true_and, Option.some.injEq, Executing.mk.injEq]
        exact eq_comm
      · simp only [if_neg same, absent, false_iff, Option.some.injEq, Executing.mk.injEq, not_and]
        exact fun e => absurd e.symm same
    · rw [list, others, ← h.1 other (Port.other q) own]
      by_cases same : other = name <;> simp [same, Port.other_ne]
  · rw [staged]
    rw [list] at waits
    split
    · rfl
    case isFalse other_ne =>
      rw [if_neg other_ne] at waits
      exact h.2.1 other waits
  · rcases Port.eq_or_other q r with rfl | rfl
    · rw [mine]
      exact ⟨rfl, quiet⟩
    · rw [others] at runs ⊢
      exact h.2.2 _ runs

theorem State.acceptProgram_consistent (s : State) (q : Port) (p : Fin 16) (content : ProgramRecord)
    (h : s.ChangesConsistent) (idle : (s.port q).executing = none)
    (quiet : (s.port q).transaction ≠ .normal) : (s.acceptProgram q p content).ChangesConsistent := by
  refine h.accepted (name := .program p) idle quiet (fun other => ?_) (fun other => ?_)
    (State.port_setPort_same _ q _) (State.port_setPort_toOther _ q _) <;>
    rw [State.acceptProgram_eq]
  · cases other with
    | program k =>
      by_cases same : k = p
      · subst same
        simp [Tables.waitingOn, Record.accept]
      · simp [Tables.waitingOn, same, Fin.val_ne_of_ne (Ne.symm same)]
    | link l => rfl
    | policy => rfl
  · cases other with
    | program k =>
      by_cases same : k = p
      · subst same
        simp [Tables.stagedOn, Record.accept]
      · simp [Tables.stagedOn, same, Fin.val_ne_of_ne (Ne.symm same)]
    | link l => rfl
    | policy => rfl

theorem State.acceptLink_consistent (s : State) (q : Port) (l : Fin 8) (content : LinkRecord)
    (h : s.ChangesConsistent) (idle : (s.port q).executing = none)
    (quiet : (s.port q).transaction ≠ .normal) : (s.acceptLink q l content).ChangesConsistent := by
  refine h.accepted (name := .link l) idle quiet (fun other => ?_) (fun other => ?_)
    (State.port_setPort_same _ q _) (State.port_setPort_toOther _ q _) <;>
    rw [State.acceptLink_eq]
  · cases other with
    | link k =>
      by_cases same : k = l
      · subst same
        simp [Tables.waitingOn, Record.accept]
      · simp [Tables.waitingOn, same, Fin.val_ne_of_ne (Ne.symm same)]
    | program p => rfl
    | policy => rfl
  · cases other with
    | link k =>
      by_cases same : k = l
      · subst same
        simp [Tables.stagedOn, Record.accept]
      · simp [Tables.stagedOn, same, Fin.val_ne_of_ne (Ne.symm same)]
    | program p => rfl
    | policy => rfl

theorem State.acceptPolicy_consistent (s : State) (q : Port) (content : PolicyRecord)
    (h : s.ChangesConsistent) (idle : (s.port q).executing = none)
    (quiet : (s.port q).transaction ≠ .normal) : (s.acceptPolicy q content).ChangesConsistent := by
  refine h.accepted (name := .policy) idle quiet (fun other => ?_) (fun other => ?_)
    (State.port_setPort_same _ q _) (State.port_setPort_toOther _ q _) <;>
    cases other <;> rfl

/-- A port that leaves a record's list leaves it alone of all lists (R22). -/
theorem State.leaveList_waitingOn (s : State) (q : Port) (name other : RecordName) :
    (s.leaveList q name).tables.waitingOn other =
      if other = name then (s.tables.waitingOn other).filter fun w => w.port != q
      else s.tables.waitingOn other := by
  cases name with
  | program p =>
    cases other with
    | program k =>
      by_cases same : k = p
      · subst same
        simp [State.leaveList, Tables.waitingOn, Record.leave]
      · simp [State.leaveList, Tables.waitingOn, same, Fin.val_ne_of_ne (Ne.symm same)]
    | link l => rfl
    | policy => rfl
  | link l =>
    cases other with
    | link k =>
      by_cases same : k = l
      · subst same
        simp [State.leaveList, Tables.waitingOn, Record.leave]
      · simp [State.leaveList, Tables.waitingOn, same, Fin.val_ne_of_ne (Ne.symm same)]
    | program p => rfl
    | policy => rfl
  | policy => cases other <;> rfl

theorem State.leaveList_stagedOn (s : State) (q : Port) (name other : RecordName) :
    (s.leaveList q name).tables.stagedOn other = s.tables.stagedOn other := by
  cases name with
  | program p =>
    cases other with
    | program k =>
      by_cases same : k = p
      · subst same
        simp [State.leaveList, Tables.stagedOn, Record.leave]
      · simp [State.leaveList, Tables.stagedOn, Fin.val_ne_of_ne (Ne.symm same)]
    | link l => rfl
    | policy => rfl
  | link l =>
    cases other with
    | link k =>
      by_cases same : k = l
      · subst same
        simp [State.leaveList, Tables.stagedOn, Record.leave]
      · simp [State.leaveList, Tables.stagedOn, Fin.val_ne_of_ne (Ne.symm same)]
    | program p => rfl
    | policy => rfl
  | policy => cases other <;> rfl

theorem State.leaveList_port (s : State) (q r : Port) (name : RecordName) :
    (s.leaveList q name).port r = s.port r := by
  rw [State.port, (s.leaveList_ports q name).1, State.port]

/-- The port of a PORT RESET waits on nothing and executes nothing (R22, R193). -/
theorem State.dropExecuting_consistent (s : State) (q : Port) (h : s.ChangesConsistent) :
    (s.dropExecuting q).ChangesConsistent ∧ ((s.dropExecuting q).port q).executing = none := by
  unfold State.dropExecuting
  split
  case h_1 idle => exact ⟨h, idle⟩
  case h_2 x runs =>
    refine ⟨⟨fun name r own => ?_, fun name waits => ?_, fun r executes => ?_⟩, by simp⟩
    · rw [State.setPort_tables, State.leaveList_waitingOn]
      rcases Port.eq_or_other q r with rfl | rfl
      · simp only [State.port_setPort_same, reduceCtorEq, iff_false]
        split
        · simp
        case isFalse other_ne =>
          rw [h.mem_iff, runs]
          intro same
          injection same with same
          exact other_ne (by rw [same])
      · rw [State.port_setPort_toOther, State.leaveList_port, ← h.1 name (Port.other q) own]
        split <;> simp [Port.other_ne]
    · rw [State.setPort_tables, State.leaveList_waitingOn] at waits
      rw [State.setPort_tables, State.leaveList_stagedOn]
      refine h.2.1 name fun none => waits ?_
      rw [none]
      split <;> rfl
    · rcases Port.eq_or_other q r with rfl | rfl
      · simp at executes
      · rw [State.port_setPort_toOther, State.leaveList_port] at executes ⊢
        exact h.2.2 _ executes

theorem takePortReset_consistent (q : Port) (s : State) (h : s.ChangesConsistent) :
    (takePortReset q s).ChangesConsistent := by
  obtain ⟨consistent, idle⟩ := s.dropExecuting_consistent q h
  refine consistent.of_port (q := q) rfl (State.port_setPort_toOther _ q _) ?_ fun runs => ?_
  · show ((State.setPort _ q _).port q).executing = _
    rw [State.port_setPort_same]
    rfl
  · rw [idle] at runs
    cases runs

/-- An answer at a port that executes nothing. -/
theorem State.answer_consistent (s : State) (q : Port) (status : Status) (body : List Byte)
    (h : s.ChangesConsistent) (idle : (s.port q).executing = none) :
    (s.answer q status body).ChangesConsistent := by
  refine h.of_port (q := q) rfl (State.port_setPort_toOther _ q _) ?_ fun runs => ?_
  · rw [State.answer, State.port_setPort_same]
  · rw [idle] at runs
    cases runs

theorem Taken.changesConsistent {q : Port} {code : RequestCode} {s v : State} (h : Taken q code s v)
    (hs : s.ChangesConsistent) (idle : (s.port q).executing = none)
    (quiet : (s.port q).transaction ≠ .normal) : v.ChangesConsistent := by
  cases h with
  | kept => exact hs
  | answered => exact s.answer_consistent q _ _ hs idle
  | written _ p content | delayed _ p _ content | targeted _ p _ content =>
    exact s.acceptProgram_consistent q p content hs idle quiet
  | linked _ l content => exact s.acceptLink_consistent q l content hs idle quiet
  | ruled _ content => exact s.acceptPolicy_consistent q content hs idle quiet
  | marked | fetched | attended =>
    exact State.answer_consistent _ q _ _ (hs.congr rfl rfl) idle
  | reset => exact takePortReset_consistent q s hs

/-! ## Every command and every step -/

theorem State.releasedAt_port (s : State) (q : Port) (bytes : List Byte) :
    (s.releasedAt q bytes).port q = (s.port q).release bytes.length := State.port_setPort_same s q _

theorem State.releasedAt_consistent (s : State) (q : Port) (bytes : List Byte) (h : s.ChangesConsistent) :
    (s.releasedAt q bytes).ChangesConsistent := by
  refine h.of_port (q := q) rfl (State.port_setPort_toOther s q _) ?_ fun _ held _ => ?_ <;>
    rw [State.releasedAt_port]
  · rfl
  · exact ⟨held, nofun⟩

theorem State.takenAt_consistent (s : State) (q : Port) (bytes : List Byte) (h : s.ChangesConsistent) :
    (s.takenAt q bytes).ChangesConsistent := by
  refine (s.releasedAt_consistent q bytes h).of_port (q := q) rfl (State.port_setPort_toOther _ q _) ?_
    fun _ _ quiet => ?_ <;> rw [State.takenAt, State.port_setPort_same]
  exact ⟨rfl, quiet⟩

theorem State.concluded_consistent (v : State) (h : v.ChangesConsistent) : v.concluded.ChangesConsistent :=
  h.congr rfl rfl

theorem State.releaseSelect_consistent (s : State) (q : Port) (h : s.ChangesConsistent) :
    (s.releaseSelect q).ChangesConsistent := by
  refine h.of_port (q := q) rfl (State.port_setPort_toOther s q _) ?_ fun _ held _ => ?_ <;>
    rw [State.releaseSelect, State.port_setPort_same]
  exact ⟨held, nofun⟩

theorem Ended.changesConsistent {q : Port} {bytes : List Byte} {s t : State} (h : Ended q bytes s t)
    (hs : s.ChangesConsistent) : t.ChangesConsistent := by
  have released := s.releasedAt_consistent q bytes hs
  have idle (normal : (s.port q).transaction = .normal) :
      ((s.releasedAt q bytes).port q).executing = none := by
    rw [State.releasedAt_port]
    exact hs.idle_of_normal normal
  cases h with
  | kept => exact hs
  | unselected => exact s.releaseSelect_consistent q hs
  | nulled normal held =>
    refine State.concluded_consistent _ (released.of_port (q := q) rfl (State.port_setPort_toOther _ q _) ?_
      fun runs => ?_)
    · rw [State.port_setPort_same]
    · rw [idle normal] at runs
      cases runs
  | refused normal =>
    exact State.concluded_consistent _ (State.answer_consistent _ q _ _ released (idle normal))
  | taken normal code body v spelt took =>
    refine v.concluded_consistent (took.changesConsistent (s.takenAt_consistent q bytes hs) ?_ ?_) <;>
      rw [State.takenAt_port]
    · exact hs.idle_of_normal normal
    · nofun
  | ignored => exact State.concluded_consistent _ released
  | reset => exact State.concluded_consistent _ (takePortReset_consistent q _ released)

/-- A port that selects keeps what it executes; a pending one starts a pending transaction (R178). -/
theorem State.begin_consistent (s : State) (q : Port) (h : s.ChangesConsistent) :
    (s.setPort q (s.port q).begin).ChangesConsistent := by
  refine h.of_port (q := q) rfl (State.port_setPort_toOther s q _) ?_ fun runs held _ => ?_ <;>
    rw [State.port_setPort_same]
  · rfl
  · unfold ControlPort.begin
    rw [held, if_pos runs]
    exact ⟨rfl, nofun⟩

theorem State.warmReset_consistent (s : State) (h : s.ChangesConsistent) : s.warmReset.ChangesConsistent :=
  State.changesConsistent_of_none h.take_waitingOn fun q => by cases q <;> rfl

theorem State.reset_consistent : State.reset.ChangesConsistent :=
  State.changesConsistent_of_none Tables.initial_waitingOn fun q => by cases q <;> rfl

theorem Effect.changesConsistent {c : Instr} {s t : State} (h : Effect c s t) (hs : s.ChangesConsistent) :
    t.ChangesConsistent := by
  cases h with
  | poweredOn => exact State.reset_consistent
  | asserted => exact s.warmReset_consistent hs
  | released => exact s.warmStart_consistent hs
  | arrived l frame =>
    refine hs.congr ?_ ?_ <;> rw [State.handFrame_keeps] <;> rfl
  | returned l frame =>
    refine hs.congr ?_ ?_ <;> rw [State.handFrame_keeps] <;> rfl
  | lost l =>
    refine hs.congr ?_ ?_
    · show (s.slipFirst l).tables = s.tables
      rw [State.slipFirst_keeps]
    · show (s.slipFirst l).ports = s.ports
      rw [State.slipFirst_keeps]
  | framed => exact hs.congr s.houseFrame_tables s.houseFrame_ports
  | blocked => exact s.blockEndThenSlips_consistent hs
  | selected q =>
    refine hs.of_port (q := q) rfl (State.port_setPort_toOther s q _) ?_ fun _ held quiet => ?_ <;>
      rw [State.port_setPort_same]
    exact ⟨held, quiet⟩
  | begun q => exact s.begin_consistent q hs
  | ended _ q => exact (endTransaction_ended q c.sdi s).changesConsistent hs
  | unselected q => exact s.releaseSelect_consistent q hs
  | kept | marked | counted | cleared | pulsed | heldOver | resetFrame | left => exact hs.congr rfl rfl

/-- Settles O57: each effect keeps the lists and the ports, makes a port wait, or ends a wait on both sides. -/
theorem stepKeepsChangesConsistent : Obligations.StepKeepsChangesConsistent := by
  unfold Obligations.StepKeepsChangesConsistent
  intro s t hs h
  exact step_keeps (keep := State.ChangesConsistent) (fun _ _ k => k.congr rfl rfl) (fun _ k => k.congr rfl rfl)
    (fun _ _ _ effect => effect.changesConsistent) h hs

end Sys2Proof.Machine
end

section
/-! The converters stay ordered (R41, R44, R45): each event at a converter keeps its frames in order, and only a
house frame that is a block end leaves a slip waiting (log entry 36). -/

namespace Sys2Proof.Machine

/-! ## No event but a house frame starts a wait -/

theorem Converter.delete_waits (c : Converter) (l : Fin 8) : (c.delete l).1.slipWaits = c.slipWaits := by
  show (Converter.slipped _).slipWaits = _
  rw [Converter.slipped_fields]

theorem Converter.arrive_waits (c : Converter) (l : Fin 8) (samples : Vector Sample 8) :
    (c.arrive l samples).1.slipWaits = c.slipWaits := by
  have take : (c.take l samples).1.slipWaits = c.slipWaits := by
    unfold Converter.take
    split
    · rfl
    · exact c.delete_waits l
  unfold Converter.arrive
  split
  case h_1 | h_2 | h_3 => rfl
  all_goals exact take

theorem Converter.lose_waits (c : Converter) : c.lose.slipWaits = c.slipWaits := by
  unfold Converter.lose
  split
  case h_1 | h_2 | h_3 => rfl
  all_goals split <;> rfl

theorem Converter.regain_waits (c : Converter) (h : c.regain.slipWaits = true) : c.slipWaits = true := by
  unfold Converter.regain at h
  split at h
  · cases h
  · exact h

/-! ## One converter's change -/

/-- Converters that are in order, and wait only where they waited before, while the block end stays as it is. -/
theorem State.ConvertersOrdered.of_waits {s t : State} (h : s.ConvertersOrdered)
    (due : t.clock.blockDue = s.clock.blockDue) (ordered : ∀ l : Fin 8, t.converters[l].FramesOrdered)
    (waits : ∀ l : Fin 8, t.converters[l].slipWaits = true → s.converters[l].slipWaits = true) :
    t.ConvertersOrdered := fun l => ⟨ordered l, fun w => by rw [due]; exact (h l).2 (waits l w)⟩

theorem State.ConvertersOrdered.of_set {s t : State} {l : Fin 8} {c : Converter} (h : s.ConvertersOrdered)
    (due : t.clock.blockDue = s.clock.blockDue) (set : t.converters = s.converters.set l c)
    (ordered : c.FramesOrdered) (waits : c.slipWaits = true → s.converters[l].slipWaits = true) :
    t.ConvertersOrdered := by
  have get (k : Fin 8) : t.converters[k] = if k = l then c else s.converters[k] := by
    rw [set]
    by_cases same : k = l
    · subst same; simp
    · simp [same, Fin.val_ne_of_ne (Ne.symm same)]
  refine h.of_waits due (fun k => ?_) (fun k w => ?_) <;> by_cases same : k = l
  · rw [get, if_pos same]
    exact ordered
  · rw [get, if_neg same]
    exact (h k).1
  · subst same
    rw [get, if_pos rfl] at w
    exact waits w
  · rwa [get, if_neg same] at w

theorem State.ConvertersOrdered.congr {s t : State} (h : s.ConvertersOrdered)
    (due : t.clock.blockDue = s.clock.blockDue) (same : t.converters = s.converters) : t.ConvertersOrdered :=
  h.of_waits due (fun l => by rw [same]; exact (h l).1) (fun l w => by rwa [same] at w)

/-! ## Each event -/

theorem State.putConverter_converters (s : State) (l : Fin 8) (work : Converter × Option SlipNotice) :
    (s.putConverter l work).converters = s.converters.set l work.1 := by
  rw [State.putConverter_eq, State.takeNotices_converters, State.setConverter_converters]

theorem State.handFrame_ordered (s : State) (l : Fin 8) (frame : BitVec 256) (h : s.ConvertersOrdered) :
    (s.handFrame l frame).ConvertersOrdered := by
  refine h.of_set (l := l) ?_ (s.putConverter_converters l _) (Converter.arrive_ordered _ _ _ (h l).1)
    fun w => by rwa [Converter.arrive_waits] at w
  rw [State.handFrame_keeps]

theorem State.slipFirst_ordered (s : State) (l : Fin 8) (h : s.ConvertersOrdered) :
    (s.slipFirst l).ConvertersOrdered := by
  unfold State.slipFirst
  split
  · obtain ⟨ordered, quiet⟩ := Converter.makeWaiting_ordered _ l (h l).1
    refine h.of_set (l := l) ?_ (s.putConverter_converters l _) ordered
      fun w => absurd w (by rw [quiet]; decide)
    rw [State.settle_clock, State.makeSlip, State.putConverter_keeps]
  · exact h

theorem State.loseLink_ordered (s : State) (l : Fin 8) (h : s.ConvertersOrdered) :
    (s.loseLink l).ConvertersOrdered :=
  h.of_set (l := l) rfl rfl (Converter.lose_ordered _ (h l).1) fun w => by rwa [Converter.lose_waits] at w

theorem State.regain_ordered (s : State) (l : Fin 8) (h : s.ConvertersOrdered) :
    (s.setConverter l s.converters[l].regain).ConvertersOrdered :=
  h.of_set (l := l) rfl rfl (Converter.regain_ordered _ (h l).1) fun w => Converter.regain_waits _ w

theorem State.warmStart_converter (s : State) (l : Fin 8) :
    s.warmStart.converters[l] =
      if (s.link l).enable then s.converters[l].enable else s.converters[l] := by
  simp [State.warmStart]

theorem State.warmStart_ordered (s : State) (h : s.ConvertersOrdered) : s.warmStart.ConvertersOrdered := by
  refine h.of_waits rfl (fun l => ?_) (fun l w => ?_)
  · rw [State.warmStart_converter]
    split
    · exact Converter.enable_ordered _ (h l).1
    · exact (h l).1
  · rw [State.warmStart_converter] at w
    split at w
    · cases w
    · exact w

theorem State.ordered_of_initial {s : State} (h : s.converters = Vector.replicate 8 Converter.initial) :
    s.ConvertersOrdered := by
  have get (l : Fin 8) : s.converters[l] = Converter.initial := by simp [h]
  exact fun l => ⟨by rw [get]; exact Converter.initial_ordered, fun w => by rw [get] at w; cases w⟩

theorem Timebase.holdOver_blockDue (clock : Timebase) (r : RefMonitor) :
    (clock.holdOver r).blockDue = clock.blockDue := by
  unfold Timebase.holdOver
  split <;> rfl

theorem Effect.convertersOrdered {c : Instr} {s t : State} (h : Effect c s t) (hs : s.ConvertersOrdered) :
    t.ConvertersOrdered := by
  cases h with
  | poweredOn | asserted => exact State.ordered_of_initial rfl
  | released => exact s.warmStart_ordered hs
  | arrived l frame => exact State.handFrame_ordered (s.setReceiver l Receiver.start) l frame hs
  | returned l frame =>
    exact State.handFrame_ordered _ l frame
      (State.regain_ordered (s.setReceiver l Receiver.start) l hs)
  | lost l => exact State.loseLink_ordered _ l (s.slipFirst_ordered l hs)
  | heldOver => exact hs.congr (s.clock.holdOver_blockDue s.ref) rfl
  | framed _ _ early => exact s.houseFrame_ordered hs early
  | blocked =>
    intro l
    obtain ⟨ordered, quiet⟩ := s.blockEndThenSlips_ordered (fun k => (hs k).1) l
    exact ⟨ordered, fun w => absurd w (by rw [quiet]; decide)⟩
  | ended _ q =>
    obtain ⟨kept, -⟩ := endTransaction_keepsBlocks q c.sdi s
    rw [kept]
    exact hs
  | kept | marked | counted | cleared | pulsed | resetFrame | selected | begun | left | unselected => exact hs

/-- Settles O60: each event at a converter keeps its frames in order, and no effect but a house frame's starts
a wait. -/
theorem stepKeepsConvertersOrdered : Obligations.StepKeepsConvertersOrdered := by
  unfold Obligations.StepKeepsConvertersOrdered
  intro s t hs h
  exact step_keeps (keep := State.ConvertersOrdered) (fun _ _ k => k) (fun _ k => k)
    (fun _ _ _ effect => effect.convertersOrdered) h hs

end Sys2Proof.Machine
end

section
/-! House time, the gain schedules, the delays and the lanes (R32, R85, R88, R98, R99, R107, R117, R118, R136).
Most effects leave them alone, but for the lanes that a slip corrects; a reset, the release of RESETn, a house
frame and a block end do their own work. -/

namespace Sys2Proof.Machine

/-! ## Effects that leave the programs' work alone -/

/-- The two states have the same house time, programs and gain stages, and their delays differ by the
corrections of some slips (R134). -/
structure State.SameWork (s t : State) : Prop where
  gains : t.gains = s.gains
  frames : t.clock.frames = s.clock.frames
  blocks : t.clock.blocks = s.clock.blocks
  tone : t.tonePhase = s.tonePhase
  programs : ∀ p, t.program p = s.program p
  delays : ∀ p : Fin 16, ∃ ns : List SlipNotice,
    t.delays[p] = ns.foldl (fun d n => d.correct (s.program p) n) s.delays[p]

theorem State.SameWork.of_delays {s t : State} (gains : t.gains = s.gains)
    (frames : t.clock.frames = s.clock.frames) (blocks : t.clock.blocks = s.clock.blocks)
    (tone : t.tonePhase = s.tonePhase) (programs : ∀ p, t.program p = s.program p)
    (delays : t.delays = s.delays) : s.SameWork t :=
  ⟨gains, frames, blocks, tone, programs, fun p => ⟨[], by rw [delays]; rfl⟩⟩

theorem State.SameWork.refl (s : State) : s.SameWork s := .of_delays rfl rfl rfl rfl (fun _ => rfl) rfl

theorem State.SameWork.trans {s t u : State} (h : s.SameWork t) (k : t.SameWork u) : s.SameWork u where
  gains := k.gains.trans h.gains
  frames := k.frames.trans h.frames
  blocks := k.blocks.trans h.blocks
  tone := k.tone.trans h.tone
  programs p := (k.programs p).trans (h.programs p)
  delays p := by
    obtain ⟨ns, first⟩ := h.delays p
    obtain ⟨ms, second⟩ := k.delays p
    exact ⟨ns ++ ms, by rw [second, first, h.programs p, List.foldl_append]⟩

theorem State.putConverter_sameWork (s : State) (l : Fin 8) (work : Converter × Option SlipNotice) :
    s.SameWork (s.putConverter l work) := by
  have same := s.putConverter_keeps l work
  refine ⟨by rw [same], by rw [same], by rw [same], by rw [same], fun p => by rw [same]; rfl,
    fun p => ⟨work.2.toList, ?_⟩⟩
  rw [State.putConverter_eq, State.takeNotices_fold]
  rfl

theorem State.SameWork.handed {s u : State} (h : s.SameWork u) (l : Fin 8) (frame : BitVec 256) :
    s.SameWork (u.handFrame l frame).settle :=
  h.trans ((u.putConverter_sameWork l _).trans (.of_delays rfl rfl rfl rfl (fun _ => rfl) rfl))

theorem State.slipFirst_sameWork (s : State) (l : Fin 8) : s.SameWork (s.slipFirst l) := by
  unfold State.slipFirst
  split
  · exact (s.putConverter_sameWork l _).trans (.of_delays rfl rfl rfl rfl (fun _ => rfl) rfl)
  · exact .refl s

theorem State.MakesSlips.sameWork {s t : State} {links : List (Fin 8)} (h : s.MakesSlips links t) :
    s.SameWork t := by
  obtain ⟨tables, gains, clock, -, -, -, -, tone, -⟩ := h.keeps
  obtain ⟨-, -, -, made, notices, -, -, lanes, -⟩ := h
  exact ⟨gains, by rw [clock], by rw [clock], tone, fun p => by rw [State.program, tables, State.program],
    fun p => ⟨notices, lanes p⟩⟩

theorem Timebase.holdOver_counts (clock : Timebase) (r : RefMonitor) :
    (clock.holdOver r).frames = clock.frames ∧ (clock.holdOver r).blocks = clock.blocks := by
  unfold Timebase.holdOver
  split <;> exact ⟨rfl, rfl⟩

theorem endTransaction_sameWork (q : Port) (sdi : List Bool) (s : State) :
    s.SameWork (endTransaction q sdi s) := by
  obtain ⟨same, programs, -⟩ := endTransaction_keepsBlocks q sdi s
  generalize endTransaction q sdi s = t at same programs
  exact .of_delays (by rw [same]) (by rw [same]) (by rw [same]) (by rw [same]) programs (by rw [same])

/-- The work of an effect on house time, programs, gain stages and delays. -/
inductive Works (s t : State) : Prop
  | same (h : s.SameWork t)
  | fresh (gains : t.gains = Vector.replicate 16 GainStage.initial)
      (delays : t.delays = Vector.replicate 16 DelayEngine.initial) (frames : t.clock.frames = 0)
      (blocks : t.clock.blocks = 0#32) (tone : t.tonePhase = 0)
  | started (h : t = s.warmStart)
  | framed (early : s.clock.blockDue = false) (h : t = s.houseFrame)
  | blocked (due : s.clock.blockDue = true) (h : s.blockEnd.SameWork t)

theorem Effect.works {c : Instr} {s t : State} (h : Effect c s t) : Works s t := by
  cases h with
  | poweredOn | asserted => exact .fresh rfl rfl rfl rfl rfl
  | released => exact .started rfl
  | framed _ _ early => exact .framed early rfl
  | blocked _ _ due => exact .blocked due s.blockEndThenSlips_makes.sameWork
  | arrived l frame =>
    exact .same (State.SameWork.handed (s := s) (u := s.setReceiver l Receiver.start)
      (.of_delays rfl rfl rfl rfl (fun _ => rfl) rfl) l frame)
  | returned l frame =>
    exact .same (State.SameWork.handed
      (s := s) (u := (s.setReceiver l Receiver.start).setConverter l s.converters[l].regain)
      (.of_delays rfl rfl rfl rfl (fun _ => rfl) rfl) l frame)
  | lost l =>
    exact .same ((s.slipFirst_sameWork l).trans (.of_delays rfl rfl rfl rfl (fun _ => rfl) rfl))
  | heldOver =>
    obtain ⟨frames, blocks⟩ := s.clock.holdOver_counts s.ref
    exact .same (.of_delays rfl frames blocks rfl (fun _ => rfl) rfl)
  | ended _ q => exact .same (endTransaction_sameWork q c.sdi s)
  | kept | marked | counted | cleared | pulsed | resetFrame | selected | begun | left | unselected =>
    exact .same (.of_delays rfl rfl rfl rfl (fun _ => rfl) rfl)

/-! ## House time (R32, R99) -/

theorem State.HouseCounted.congr {s t : State} (h : s.HouseCounted) (frames : t.clock.frames = s.clock.frames)
    (blocks : t.clock.blocks = s.clock.blocks) (tone : t.tonePhase = s.tonePhase) : t.HouseCounted := by
  unfold State.HouseCounted
  rw [frames, blocks, tone]
  exact h

theorem Timebase.blockDue_iff (clock : Timebase) :
    clock.blockDue = true ↔
      clock.frames % 4800 = 0 ∧ clock.blocks ≠ BitVec.ofNat 32 (clock.frames / 4800) := by
  simp [Timebase.blockDue, Config.framesPerBlock]

/-- A house frame counts F and the line-up phase; B stays, and lags where the new F is that of a block end. -/
theorem State.houseFrame_counted (s : State) (h : s.HouseCounted) (early : s.clock.blockDue = false) :
    s.houseFrame.HouseCounted := by
  obtain ⟨counts, tone⟩ := h
  have frames : s.houseFrame.clock.frames = s.clock.frames + 1 := by rw [State.houseFrame_clock]; rfl
  have blocks : s.houseFrame.clock.blocks = s.clock.blocks := by rw [State.houseFrame_clock]; rfl
  have phase : s.houseFrame.tonePhase = (s.tonePhase + 1) % 48 := s.houseFrame_tonePhase
  have notDue : ¬ s.clock.blockDue = true := by rw [early]; decide
  rw [Timebase.blockDue_iff] at notDue
  have counted : s.clock.blocks = BitVec.ofNat 32 (s.clock.frames / 4800) := by
    rcases counts with counted | ⟨whole, lags⟩
    · exact counted
    · by_contra differs
      exact notDue ⟨whole, differs⟩
  unfold State.HouseCounted
  rw [frames, blocks, phase, tone]
  refine ⟨?_, by omega⟩
  by_cases whole : (s.clock.frames + 1) % 4800 = 0
  · refine .inr ⟨whole, ?_⟩
    have next : (s.clock.frames + 1) / 4800 = s.clock.frames / 4800 + 1 := by omega
    simp only [Config.framesPerBlock, next, counted]
    rw [BitVec.ofNat_add]
  · have stays : (s.clock.frames + 1) / 4800 = s.clock.frames / 4800 := by omega
    exact .inl (by simp only [Config.framesPerBlock, stays, counted])

/-- A block end counts B, which it finds lagging. -/
theorem State.blockEnd_counted (s : State) (h : s.HouseCounted) (due : s.clock.blockDue = true) :
    s.blockEnd.HouseCounted := by
  obtain ⟨counts, tone⟩ := h
  obtain ⟨-, lags⟩ := (s.clock.blockDue_iff).mp due
  unfold State.HouseCounted
  rw [State.blockEnd_clock, State.blockEnd_tonePhase]
  rcases counts with counted | ⟨-, counted⟩
  · exact absurd counted lags
  · exact ⟨.inl counted, tone⟩

theorem Works.houseCounted {s t : State} (h : Works s t) (hs : s.HouseCounted) : t.HouseCounted := by
  cases h with
  | same k => exact hs.congr k.frames k.blocks k.tone
  | fresh _ _ frames blocks tone =>
    unfold State.HouseCounted
    rw [frames, blocks, tone]
    exact ⟨.inl rfl, rfl⟩
  | started k => subst k; exact hs
  | framed early k => subst k; exact s.houseFrame_counted hs early
  | blocked due k => exact (s.blockEnd_counted hs due).congr k.frames k.blocks k.tone

/-! ## The gain schedules (R88) -/

/-- The stamps of a schedule lie behind F where a block end is due, and not ahead of F elsewhere. -/
def State.stampBound (s : State) : Nat := if s.clock.blockDue then s.clock.frames else s.clock.frames + 1

theorem State.schedulesOrdered_iff (s : State) :
    s.SchedulesOrdered ↔ ∀ p : Fin 16, s.gains[p].Scheduled s.stampBound := by
  have bound (n : Nat) : n < s.stampBound ↔
      n ≤ s.clock.frames ∧ (s.clock.blockDue = true → n < s.clock.frames) := by
    unfold State.stampBound
    split
    case isTrue due => exact ⟨fun h => ⟨h.le, fun _ => h⟩, fun h => h.2 due⟩
    case isFalse early =>
      exact ⟨fun h => ⟨Nat.lt_succ_iff.mp h, fun due => absurd due early⟩, fun h => Nat.lt_succ_of_le h.1⟩
  constructor
  · intro h p
    obtain ⟨short, rising, behind⟩ := h p
    exact ⟨short, rising, fun e he => (bound e.stamp).mpr (behind e he)⟩
  · intro h p
    exact ⟨(h p).short, (h p).rising, fun e he => (bound e.stamp).mp ((h p).behind e he)⟩

theorem State.stampBound_le (s : State) : s.stampBound ≤ s.clock.frames + 1 := by
  unfold State.stampBound
  split <;> omega

theorem Timebase.blockDue_congr {x y : Timebase} (frames : x.frames = y.frames) (blocks : x.blocks = y.blocks) :
    x.blockDue = y.blockDue := by
  rw [Timebase.blockDue, frames, blocks, Timebase.blockDue]

theorem State.SchedulesOrdered.congr {s t : State} (h : s.SchedulesOrdered) (gains : t.gains = s.gains)
    (frames : t.clock.frames = s.clock.frames) (blocks : t.clock.blocks = s.clock.blocks) :
    t.SchedulesOrdered := by
  unfold State.SchedulesOrdered
  rw [gains, frames, Timebase.blockDue_congr frames blocks]
  exact h

theorem State.warmStart_gain (s : State) (p : Fin 16) :
    s.warmStart.gains[p] =
      if (s.program p).active then GainStage.start (s.program p).source else s.gains[p] := by
  simp [State.warmStart]

theorem State.warmStart_delay (s : State) (p : Fin 16) :
    s.warmStart.delays[p] = if (s.program p).active then startDelay (s.program p) else s.delays[p] := by
  simp [State.warmStart]

theorem State.warmStart_schedules (s : State) (h : s.SchedulesOrdered) : s.warmStart.SchedulesOrdered := by
  rw [State.schedulesOrdered_iff] at h ⊢
  intro p
  rw [State.warmStart_gain]
  split
  · exact GainStage.scheduled_nil _ rfl
  · exact h p

/-- A house frame only takes entries from a schedule. -/
theorem State.houseFrame_scheduled (s : State) (p : Fin 16) (bound : Nat) (h : s.gains[p].Scheduled bound) :
    s.houseFrame.gains[p].Scheduled bound := by
  rw [State.houseFrame_gains]
  refine State.runPrograms_keeps s.delivered (fun u => u.gains[p].Scheduled bound)
    (fun u k hu => u.runProgram_scheduled s.delivered k p bound hu) _ _ ?_
  rw [State.takeNotices_gains]
  exact h

theorem State.houseFrame_schedules (s : State) (h : s.SchedulesOrdered) : s.houseFrame.SchedulesOrdered := by
  rw [State.schedulesOrdered_iff] at h ⊢
  intro p
  refine (s.houseFrame_scheduled p _ (h p)).mono (s.stampBound_le.trans ?_)
  have frames : s.houseFrame.clock.frames = s.clock.frames + 1 := by rw [State.houseFrame_clock]; rfl
  unfold State.stampBound
  rw [frames]
  split <;> omega

/-- The gain law stamps its entry with F; after the block end no other one is due at this F. -/
theorem State.blockGain_scheduled (s : State) (m : Meter) (p : Fin 16)
    (h : s.gains[p].Scheduled s.clock.frames) : (s.blockGain m p).Scheduled (s.clock.frames + 1) := by
  unfold State.blockGain
  split
  · exact GainStage.law_scheduled _ _ _ _ _ (h.of_eq rfl)
  · exact h.mono (Nat.le_succ _)

theorem State.blockEnd_schedules (s : State) (counts : s.HouseCounted) (due : s.clock.blockDue = true)
    (h : s.SchedulesOrdered) : s.blockEnd.SchedulesOrdered := by
  rw [State.schedulesOrdered_iff] at h ⊢
  obtain ⟨-, lags⟩ := (s.clock.blockDue_iff).mp due
  have done : ¬ s.blockEnd.clock.blockDue = true := by
    rw [Timebase.blockDue_iff, State.blockEnd_clock]
    rintro ⟨-, differs⟩
    rcases counts.1 with counted | ⟨-, counted⟩
    · exact lags counted
    · exact differs counted
  have bound : s.blockEnd.stampBound = s.clock.frames + 1 := by
    rw [State.stampBound, if_neg done, State.blockEnd_clock]
  have before : s.stampBound = s.clock.frames := if_pos due
  intro p
  obtain ⟨first, gain⟩ := s.blockEnd_gain p
  rw [gain, bound]
  exact GainStage.takeApply_scheduled _ _ _ _ _ _ _ _ (s.blockGain_scheduled _ p (before ▸ h p))

theorem Works.schedulesOrdered {s t : State} (h : Works s t) (counts : s.HouseCounted)
    (hs : s.SchedulesOrdered) : t.SchedulesOrdered := by
  cases h with
  | same k => exact hs.congr k.gains k.frames k.blocks
  | fresh gains =>
    rw [State.schedulesOrdered_iff]
    intro p
    exact GainStage.scheduled_nil _ (by rw [gains]; simp [GainStage.initial])
  | started k => subst k; exact s.warmStart_schedules hs
  | framed _ k => subst k; exact s.houseFrame_schedules hs
  | blocked due k => exact (s.blockEnd_schedules counts due hs).congr k.gains k.frames k.blocks

/-! ## The gains and the read reference (R85, R88, R98) -/

/-- The gains of one program, with its content and the read reference of its delay. -/
def GainStage.BoundedFor (g : GainStage) (r : ProgramRecord) (read : Int) : Prop :=
  (r.active = false → g.queue = [] ∧ g.applied = 0) ∧
    (r.active = true → g.Ahead read ∧ g.Within r.loudness)

theorem State.gainsBounded_boundedFor (s : State) :
    s.GainsBounded ↔ ∀ p : Fin 16,
      s.gains[p].BoundedFor (s.program p) (s.delays[p].readReference s.clock.frames) :=
  gainsBounded_iff s

theorem GainStage.within_none (g : GainStage) : g.Within none ↔ g.queue = [] ∧ g.applied = 0 := by
  simp [GainStage.Within]

theorem DelayEngine.correct_current (d : DelayEngine) (r : ProgramRecord) (n : SlipNotice) :
    (d.correct r n).current = d.current := by
  rw [DelayEngine.correct_eq]

theorem DelayEngine.corrects_current (d : DelayEngine) (r : ProgramRecord) (ns : List SlipNotice) :
    (ns.foldl (fun e n => e.correct r n) d).current = d.current := by
  induction ns generalizing d with
  | nil => rfl
  | cons n ns ih => rw [List.foldl_cons, ih, DelayEngine.correct_current]

theorem DelayEngine.readReference_congr {d e : DelayEngine} (current : d.current = e.current) (frames : Nat) :
    d.readReference frames = e.readReference frames := by
  rw [DelayEngine.readReference, current, DelayEngine.readReference]

theorem State.GainsBounded.of_sameWork {s t : State} (h : s.GainsBounded) (k : s.SameWork t) :
    t.GainsBounded := by
  rw [State.gainsBounded_boundedFor] at h ⊢
  intro p
  obtain ⟨ns, delay⟩ := k.delays p
  have current : t.delays[p].current = s.delays[p].current := by
    rw [delay]
    exact DelayEngine.corrects_current _ _ _
  rw [k.gains, k.programs, k.frames, DelayEngine.readReference_congr current]
  exact h p

theorem GainStage.initial_boundedFor (r : ProgramRecord) (read : Int) :
    GainStage.initial.BoundedFor r read :=
  ⟨fun _ => ⟨rfl, rfl⟩, fun _ => ⟨fun _ he => (List.not_mem_nil he).elim, GainStage.initial_within _⟩⟩

theorem State.warmStart_gains (s : State) (h : s.GainsBounded) : s.warmStart.GainsBounded := by
  rw [State.gainsBounded_boundedFor] at h ⊢
  intro p
  change s.warmStart.gains[p].BoundedFor (s.program p) (s.warmStart.delays[p].readReference s.clock.frames)
  rw [State.warmStart_gain, State.warmStart_delay]
  split
  case isTrue active =>
    exact ⟨fun idle => absurd active (by rw [idle]; decide),
      fun _ => ⟨fun _ he => (List.not_mem_nil he).elim, GainStage.start_within _ _⟩⟩
  case isFalse => exact h p

/-- The work of one program at a house frame keeps its gains bounded. -/
theorem State.runProgram_boundedFor (u : State) (delivered : Vector (Vector Sample 8) 8) (p : Fin 16)
    (h : (u.program p).active = false → u.gains[p].queue = [] ∧ u.gains[p].applied = 0)
    (k : (u.program p).active = true → u.gains[p].Within (u.program p).loudness) :
    (u.runProgram delivered p).1.gains[p].BoundedFor (u.program p)
      ((u.runProgram delivered p).1.delays[p].readReference u.clock.frames) := by
  cases active : (u.program p).active with
  | true =>
    obtain ⟨-, delay, gain, -⟩ := u.runProgram_of_active delivered p active
    refine ⟨fun idle => absurd active (by rw [idle]; decide), fun _ => ?_⟩
    rw [delay, gain]
    have left := GainStage.leaveStates_within (u.readingDelay p) (u.readyGain p).fade (u.readyGain p).selected
      ((u.readyGain p).finish (u.readSamples delivered p (u.program p))) u.clock.frames (u.program p).loudness
      (GainStage.finish_within _ _ _ (GainStage.prepare_within _ _ _ _ (k active)))
      ((GainStage.prepare_ahead _ _ _).of_sublist (GainStage.finish_queue _ _))
    exact ⟨left.2, left.1⟩
  | false =>
    refine ⟨fun _ => ?_, fun work => absurd work (by rw [active]; decide)⟩
    cases content : u.content p with
    | none =>
      rw [u.runProgram_none delivered p content]
      exact h active
    | some r =>
      obtain ⟨gain, -⟩ := u.runProgram_of_closing delivered p r active content
      rw [gain, ← GainStage.within_none]
      exact GainStage.finish_within _ _ _
        (GainStage.prepare_within _ _ _ _ ((GainStage.within_none _).mpr (h active)))

theorem State.frameStarted_program (s : State) (ns : List SlipNotice) (p : Fin 16) :
    (s.frameStarted.takeNotices ns).program p = s.program p := by
  rw [State.takeNotices_eq]
  rfl

theorem State.houseFrame_program (s : State) (p : Fin 16) : s.houseFrame.program p = s.program p := by
  rw [State.program, State.houseFrame_tables]
  rfl

theorem State.houseFrame_bounded (s : State) (h : s.GainsBounded) : s.houseFrame.GainsBounded := by
  rw [State.gainsBounded_boundedFor] at h ⊢
  intro p
  obtain ⟨u, -, -, others, -, gain, delay, -, -⟩ := s.houseFrame_at p
  have program : u.program p = s.program p := by rw [others.program, State.frameStarted_program]
  have clock : u.clock = s.frameStarted.clock := by rw [others.clock, State.takeNotices_clock]
  have before : u.gains[p] = s.gains[p] := by
    rw [others.gain, State.takeNotices_gains]
    rfl
  have current : s.houseFrame.delays[p].current = s.frameRun.1.delays[p].current := by
    rw [State.houseFrame_delay]
    exact DelayEngine.corrects_current _ _ _
  have bounded := u.runProgram_boundedFor s.delivered p
  rw [before, program, clock] at bounded
  rw [gain, State.houseFrame_program, DelayEngine.readReference_congr current, delay, State.houseFrame_clock]
  exact bounded (h p).1 fun active => ((h p).2 active).2

theorem DelayEngine.formSync_current (d : DelayEngine) : d.formSync.current = d.current := rfl

theorem DelayEngine.openBlock_current (d : DelayEngine) (r : ProgramRecord) :
    (d.openBlock r).current = d.current := by
  unfold DelayEngine.openBlock
  split
  · unfold DelayEngine.decideStep
    split
    · split
      · rfl
      · split <;> rfl
    · rfl
  · rfl

theorem State.blockGain_boundedFor (s : State) (m : Meter) (p : Fin 16)
    (h : s.gains[p].BoundedFor (s.program p) (s.delays[p].readReference s.clock.frames)) :
    (s.blockGain m p).BoundedFor (s.program p) (s.delays[p].readReference s.clock.frames) := by
  unfold State.blockGain
  split
  case isTrue active =>
    obtain ⟨ahead, within⟩ := h.2 active
    obtain ⟨within', ahead'⟩ := GainStage.law_within s.gains[p].testOverload (s.program p).loudness m
      (s.delays[p].readReference s.clock.frames) s.clock.frames within ahead
    exact ⟨fun idle => absurd active (by rw [idle]; decide), fun _ => ⟨ahead', within'⟩⟩
  case isFalse => exact h

/-- A program that an apply leaves without being ACTIVE has no schedule and gain 0. -/
theorem GainStage.takeApply_idle (g : GainStage) (first : Bool) (old new : ProgramRecord) (d : DelayEngine)
    (change : DelayChange) (frames : Nat) (idle : new.active = false)
    (h : old.active = false → g.queue = [] ∧ g.applied = 0) :
    (g.takeApply first old new d change frames).queue = [] ∧
      (g.takeApply first old new d change frames).applied = 0 := by
  have closes (k : GainStage) (hk : old.active = false → k.Within none) : (k.apply old new).Within none := by
    unfold GainStage.apply
    rw [idle]
    cases was : old.active with
    | true => exact (GainStage.within_none _).mpr ⟨rfl, rfl⟩
    | false => exact hk was
  have follows (k : GainStage) (hk : k.Within none) : (k.followDelay d frames change).Within none :=
    k.followDelay_within d frames change none hk
  have within (was : old.active = false) : g.Within none := (GainStage.within_none g).mpr (h was)
  rw [← GainStage.within_none]
  unfold GainStage.takeApply
  split
  · exact follows _ (closes g within)
  · exact closes _ fun was => follows g (within was)

theorem State.blockEnd_bounded (s : State) (h : s.GainsBounded) : s.blockEnd.GainsBounded := by
  rw [State.gainsBounded_boundedFor] at h ⊢
  intro p
  obtain ⟨first, gain⟩ := s.blockEnd_gain p
  obtain ⟨idle, active⟩ := s.blockGain_boundedFor (s.blockMeter p) p (h p)
  have current : s.blockEnd.delays[p].current =
      (s.delays[p].apply (s.program p) (s.blockEnd.program p)).1.current := by
    rw [State.blockEnd_delay, DelayEngine.formSync_current, DelayEngine.openBlock_current]
  have frames : s.blockEnd.clock.frames = s.clock.frames := by rw [State.blockEnd_clock]
  rw [gain, frames, DelayEngine.readReference_congr current]
  refine ⟨fun ended => GainStage.takeApply_idle _ _ _ _ _ _ _ ended idle, fun runs => ?_⟩
  obtain ⟨within, ahead⟩ := GainStage.takeApply_within (s.blockGain (s.blockMeter p) p) first (s.program p)
    (s.blockEnd.program p) s.delays[p] s.clock.frames runs (fun was => (active was).2) (fun was => (active was).1)
  exact ⟨ahead, within⟩

theorem Works.gainsBounded {s t : State} (h : Works s t) (hs : s.GainsBounded) : t.GainsBounded := by
  cases h with
  | same k => exact hs.of_sameWork k
  | fresh gains =>
    rw [State.gainsBounded_boundedFor, gains]
    intro p
    rw [Fin.getElem_fin, Vector.getElem_replicate]
    exact GainStage.initial_boundedFor _ _
  | started k => subst k; exact s.warmStart_gains hs
  | framed _ k => subst k; exact s.houseFrame_bounded hs
  | blocked _ k => exact (s.blockEnd_bounded hs).of_sameWork k

/-! ## The delays (R136) -/

theorem DelayEngine.corrects_bounded (d : DelayEngine) (r : ProgramRecord) (ns : List SlipNotice)
    (h : d.Bounded) : (ns.foldl (fun e n => e.correct r n) d).Bounded := by
  induction ns generalizing d with
  | nil => exact h
  | cons n ns ih => exact ih _ (d.correct_bounded r n h)

theorem State.readingDelay_bounded (s : State) (p : Fin 16) (h : s.delays[p].Bounded) :
    (s.readingDelay p).Bounded := by
  unfold State.readingDelay
  split
  · exact DelayEngine.formSync_bounded _ (DelayEngine.fill_bounded _ (DelayEngine.glide_bounded _ h))
  · exact DelayEngine.fill_bounded _ h

theorem State.runProgram_delayBounded (u : State) (delivered : Vector (Vector Sample 8) 8) (p : Fin 16)
    (h : u.delays[p].Bounded) : (u.runProgram delivered p).1.delays[p].Bounded := by
  have reading := u.readingDelay_bounded p h
  cases content : u.content p with
  | none => rw [u.runProgram_none delivered p content]; exact h
  | some r =>
    cases active : (u.program p).active with
    | true =>
      obtain ⟨-, delay, -⟩ := u.runProgram_of_active delivered p active
      rw [delay]
      exact DelayEngine.leaveStates_bounded _ _ _ _ _ reading
    | false =>
      obtain ⟨-, ended, goesOn, -⟩ := u.runProgram_of_closing delivered p r active content
      by_cases closing : ((u.readyGain p).finish (u.readSamples delivered p r)).closing = 0
      · rw [(ended closing).2]; exact DelayEngine.initial_bounded
      · rw [(goesOn closing).2]; exact reading

theorem State.houseFrame_delayBounded (s : State) (p : Fin 16) (h : s.delays[p].Bounded) :
    s.houseFrame.delays[p].Bounded := by
  obtain ⟨u, -, -, others, -, -, delay, -, -⟩ := s.houseFrame_at p
  rw [State.houseFrame_delay, delay]
  refine DelayEngine.corrects_bounded _ _ _ (u.runProgram_delayBounded s.delivered p ?_)
  rw [others.delay, State.takeNotices_fold]
  exact DelayEngine.corrects_bounded _ _ _ h

theorem Works.delaysBounded {s t : State} (h : Works s t) (hs : s.DelaysBounded) : t.DelaysBounded := by
  rw [delaysBounded_iff] at hs ⊢
  have corrected {u v : State} (k : u.SameWork v) (p : Fin 16) (hu : u.delays[p].Bounded) :
      v.delays[p].Bounded := by
    obtain ⟨ns, delay⟩ := k.delays p
    rw [delay]
    exact DelayEngine.corrects_bounded _ _ _ hu
  intro p
  cases h with
  | same k => exact corrected k p (hs p)
  | fresh _ delays =>
    rw [delays, Fin.getElem_fin, Vector.getElem_replicate]
    exact DelayEngine.initial_bounded
  | started k =>
    subst k
    rw [State.warmStart_delay]
    split
    · exact startDelay_bounded _
    · exact hs p
  | framed _ k => subst k; exact s.houseFrame_delayBounded p (hs p)
  | blocked _ k =>
    refine corrected k p ?_
    rw [State.blockEnd_delay]
    exact DelayEngine.formSync_bounded _
      (DelayEngine.openBlock_bounded _ _ (DelayEngine.apply_bounded _ _ _ (hs p)))

/-! ## The lanes (R98, R107, R117, R118) -/

theorem State.LanesLaidOut.of_sameWork {s t : State} (h : s.LanesLaidOut) (k : s.SameWork t) :
    t.LanesLaidOut := by
  refine h.of_shape k.gains k.frames k.blocks k.programs fun p => ?_
  obtain ⟨ns, delay⟩ := k.delays p
  rw [delay]
  exact DelayEngine.corrects_shape _ _ _

theorem State.warmStart_closing (s : State) (p : Fin 16) :
    s.warmStart.gains[p].closing = 0 ∨ s.warmStart.gains[p] = s.gains[p] := by
  rw [State.warmStart_gain]
  split
  · exact .inl rfl
  · exact .inr rfl

theorem State.warmStart_content (s : State) (p : Fin 16) : s.warmStart.content p = s.content p := by
  have program : s.warmStart.program p = s.program p := rfl
  unfold State.content
  rw [program, State.warmStart_gain]
  split <;> rfl

theorem State.warmStart_lanes (s : State) (h : s.LanesLaidOut) : s.warmStart.LanesLaidOut where
  ranged p r hr := h.ranged p r (s.warmStart_content p ▸ hr)
  laid p r hr := by
    rw [State.warmStart_content] at hr
    rw [State.warmStart_delay]
    split
    case isTrue active =>
      rw [State.content, if_pos active] at hr
      cases hr
      exact startDelay_laid _
    case isFalse => exact h.laid p r hr
  apart p q r u hpq hr hu :=
    h.apart p q r u hpq (s.warmStart_content p ▸ hr) (s.warmStart_content q ▸ hu)
  closing p := by
    rcases s.warmStart_closing p with ended | same
    · exact .inl ended
    · rw [same]
      exact h.closing p
  closed due p := by
    rcases s.warmStart_closing p with ended | same
    · exact ended
    · rw [same]
      exact h.closed due p

theorem Works.lanesLaidOut {s t : State} (h : Works s t) (claims : t.tables.ClaimsDisjoint)
    (ranges : t.tables.ProgramsInRange) (hs : s.HouseCounted) (disjoint : s.tables.ClaimsDisjoint)
    (ranged : s.tables.ProgramsInRange) (lanes : s.LanesLaidOut) : t.LanesLaidOut := by
  cases h with
  | same k => exact lanes.of_sameWork k
  | fresh gains delays =>
    refine State.lanesLaidOut_of_active t t.tables claims ranges
      (fun p => (Record.mem_contents t.tables.programs[p] _).mpr (.inl rfl)) (fun p => ?_) (fun p _ => ?_)
    · rw [gains, Fin.getElem_fin, Vector.getElem_replicate]
      rfl
    · rw [delays, Fin.getElem_fin, Vector.getElem_replicate]
      exact DelayEngine.initial_laid _
  | started k => subst k; exact s.warmStart_lanes lanes
  | framed _ k => subst k; exact s.houseFrame_lanes lanes
  | blocked due k => exact (s.blockEnd_lanes due hs disjoint ranged lanes).of_sameWork k

theorem Effect.claimsDisjoint {c : Instr} {s t : State} (h : Effect c s t) (hs : s.tables.ClaimsDisjoint) :
    t.tables.ClaimsDisjoint :=
  h.tables_keep Tables.initial_disjoint (fun _ => Tables.claims_take _) (fun _ _ _ _ took => took.claimsDisjoint) hs

theorem Effect.programsInRange {c : Instr} {s t : State} (h : Effect c s t) (hs : s.tables.ProgramsInRange) :
    t.tables.ProgramsInRange :=
  h.tables_keep Tables.initial_inRange (fun _ => Tables.ranges_take _) (fun _ _ _ _ took => took.programsInRange) hs

/-- Settles O59: of the effects only a reset, the release of RESETn, a house frame and a block end work on house
time, gains and delays, and each of them keeps every one of the laws. -/
theorem stepKeepsSchedulesOrdered : Obligations.StepKeepsSchedulesOrdered := by
  unfold Obligations.StepKeepsSchedulesOrdered
  intro s t h
  refine ⟨fun counted ordered => ?_, fun bounded => ?_, fun bounded => ?_, fun counted disjoint ranged laid => ?_⟩
  · exact step_keeps (keep := fun u => u.HouseCounted ∧ u.SchedulesOrdered) (fun _ _ k => k) (fun _ k => k)
      (fun _ _ _ effect k => ⟨effect.works.houseCounted k.1, effect.works.schedulesOrdered k.1 k.2⟩)
      h ⟨counted, ordered⟩
  · exact step_keeps (keep := State.GainsBounded) (fun _ _ k => k) (fun _ k => k)
      (fun _ _ _ effect => effect.works.gainsBounded) h bounded
  · exact step_keeps (keep := State.DelaysBounded) (fun _ _ k => k) (fun _ k => k)
      (fun _ _ _ effect => effect.works.delaysBounded) h bounded
  · rcases step_cases h with rfl | ⟨c, rest, taken⟩
    · exact laid.of_sameWork (.of_delays rfl rfl rfl rfl (fun _ => rfl) rfl)
    · have effect := exec_effect taken
      exact effect.works.lanesLaidOut (effect.claimsDisjoint disjoint) (effect.programsInRange ranged) counted
        disjoint ranged (laid.of_sameWork (.of_delays rfl rfl rfl rfl (fun _ => rfl) rfl))

end Sys2Proof.Machine
end

section
/-! The queue's front, power-on reset and the invariants it meets, and the commands whose whole effect is one
equation. -/

namespace Sys2Proof.Machine

/-! ## Power-on values (R23, R31, R62, R81, R103, R120, R141) -/

theorem State.reset_program (p : Fin 16) :
    State.reset.tables.programs[p] = Record.initial ProgramRecord.unused := by
  simp [State.reset, Tables.initial]

theorem State.reset_link (l : Fin 8) :
    State.reset.tables.links[l] = Record.initial LinkRecord.initial := by
  simp [State.reset, Tables.initial]

theorem State.reset_receiver (l : Fin 8) : State.reset.receivers[l] = Receiver.initial := by
  simp [State.reset]

theorem State.reset_converter (l : Fin 8) : State.reset.converters[l] = Converter.initial := by
  simp [State.reset]

theorem State.reset_meter (p : Fin 16) : State.reset.meters[p] = Meter.initial := by
  simp [State.reset]

theorem State.reset_gain (p : Fin 16) : State.reset.gains[p] = GainStage.initial := by
  simp [State.reset]

theorem State.reset_delay (p : Fin 16) : State.reset.delays[p] = DelayEngine.initial := by
  simp [State.reset]

theorem State.reset_condition (i : Fin 129) : State.reset.conditions[i] = Condition.initial := by
  simp [State.reset]

theorem State.reset_kind (k : Kind) : State.reset.policy.kind k = PolicyRecord.initial.kind k := rfl

theorem State.reset_place (q : Port) : State.reset.place q = LogPort.initial := by
  cases q <;> rfl

theorem State.reset_port (q : Port) : State.reset.port q = ControlPort.initial := by
  cases q <;> rfl

/-- Settles O3: the power-on state is written out in the model. -/
theorem powerOnResetRestores : Obligations.PowerOnResetRestores := by
  unfold Obligations.PowerOnResetRestores
  refine ⟨fun _ => rfl, fun p => State.reset_program p, fun l => State.reset_link l, rfl, rfl, rfl, rfl, rfl,
    fun k => ?_, rfl, rfl, rfl, rfl, rfl, rfl, rfl, rfl, fun l => ?_, fun l => ?_, fun p => ?_, fun p => ?_, rfl,
    fun p => ?_, rfl, fun i => State.reset_condition i, rfl, rfl, rfl, rfl, fun q => ?_⟩
  · rw [State.reset_kind]
    cases k <;> rfl
  · rw [State.reset_receiver]
    exact ⟨rfl, rfl, rfl⟩
  · rw [State.reset_converter]
    exact ⟨rfl, rfl, rfl, rfl, rfl, rfl, rfl, rfl, rfl, rfl, rfl, rfl, rfl, rfl⟩
  · rw [State.reset_meter]
    exact ⟨rfl, rfl, rfl, rfl, rfl, rfl, rfl⟩
  · rw [State.reset_gain]
    exact ⟨rfl, rfl, rfl, rfl, rfl, rfl, rfl, rfl, rfl, rfl, rfl⟩
  · rw [State.reset_delay]
    exact ⟨rfl, rfl, rfl, rfl, rfl, rfl, rfl, rfl, rfl, rfl⟩
  · rw [State.reset_place, State.reset_port]
    refine ⟨rfl, rfl, rfl, rfl, rfl, ?_, rfl, rfl, rfl⟩
    cases q <;> rfl

theorem State.reset_outputs : State.reset.OutputsExact :=
  State.reset.outputsExact_of_initial rfl rfl rfl

/-- Settles O51: every invariant is plain of the power-on values. -/
theorem resetMeetsInvariants : Obligations.ResetMeetsInvariants := by
  unfold Obligations.ResetMeetsInvariants
  have counted : State.reset.HouseCounted := ⟨.inl rfl, rfl⟩
  have ordered : State.reset.SchedulesOrdered := by
    rw [State.schedulesOrdered_iff]
    intro p
    exact GainStage.scheduled_nil _ (by rw [State.reset_gain]; rfl)
  have bounded : State.reset.GainsBounded := by
    rw [State.gainsBounded_boundedFor]
    intro p
    rw [State.reset_gain]
    exact GainStage.initial_boundedFor _ _
  have delays : State.reset.DelaysBounded := by
    rw [delaysBounded_iff]
    intro p
    rw [State.reset_delay]
    exact DelayEngine.initial_bounded
  have lanes : State.reset.LanesLaidOut := by
    refine State.lanesLaidOut_of_active _ Tables.initial Tables.initial_disjoint Tables.initial_inRange
      (fun p => (Record.mem_contents Tables.initial.programs[p] _).mpr (.inl rfl)) (fun p => ?_) (fun p _ => ?_)
    · rw [State.reset_gain]; rfl
    · rw [State.reset_delay]; exact DelayEngine.initial_laid _
  exact ⟨Memory.wf_nil, AlarmLog.initial_wellFormed, Tables.initial_disjoint, State.reset_consistent,
    State.reset_outputs, counted, ordered, bounded, delays, State.ordered_of_initial rfl,
    Tables.initial_inRange, lanes⟩

/-! ## Commands whose whole effect is one equation -/

/-- Settles O1: so `step` is written. -/
theorem stepTakesFront : Obligations.StepTakesFront := by
  unfold Obligations.StepTakesFront
  intro c rest s
  rfl

/-- Settles O6: the two branches of the row. -/
theorem syncMarkStartsFrame : Obligations.SyncMarkStartsFrame := by
  unfold Obligations.SyncMarkStartsFrame
  intro l s
  change (_ → execFrameSyncMark l s = _) ∧ (_ → execFrameSyncMark l s = _)
  unfold execFrameSyncMark
  exact ⟨fun on => if_neg on, fun off => if_pos off⟩

theorem RefMonitor.corrected_eq (r : RefMonitor) : r.corrected = { r with offset := r.corrected.offset } := by
  unfold RefMonitor.corrected
  split <;> rfl

/-- Settles O16: of the monitor the instant corrects the offset alone. -/
theorem houseFrameInReset : Obligations.HouseFrameInReset := by
  unfold Obligations.HouseFrameInReset
  intro s asserted
  refine ⟨s.resetFrame, if_pos asserted, rfl, fun x => ?_, ?_⟩
  · change silentFrames[x] = 0#256
    simp [silentFrames]
  · change s.resetFrame = { s with
      clock := s.resetFrame.clock, ref := { s.ref with offset := s.ref.corrected.offset }, out := silentFrames }
    rw [← RefMonitor.corrected_eq]
    rfl

/-- Settles O33: the row's branch for a port that waits. -/
theorem waitEndsWithoutTransaction : Obligations.WaitEndsWithoutTransaction := by
  unfold Obligations.WaitEndsWithoutTransaction
  intro q s released waiting
  change execSelectSeenReleased q s = _
  unfold execSelectSeenReleased
  rw [if_neg (by rw [released]; decide), waiting]
  rfl

/-- Settles O35: a request that only answers. -/
theorem identifyAnswers : Obligations.IdentifyAnswers := by
  unfold Obligations.IdentifyAnswers
  intro q surplus s normal
  obtain ⟨t, ended, rest⟩ := endTransaction_answers q .identify [] surplus s normal (by decide) rfl .done
    [0x5A#8, 0x43#8, 0x19#8, 0x10#8, 1#8, 16#8, 8#8, 128#8] rfl
  exact ⟨t, by rw [← ended]; rfl, rest⟩

end Sys2Proof.Machine
end

section
/-! One unit of time, and the two edges of RESETn (R24, R28, R31, R34, R164, R195, R197). -/

namespace Sys2Proof.Machine

/-! ## The events that fall due -/

theorem State.mem_dueReceivers (s : State) (c : Instr) :
    c ∈ s.dueReceivers ↔ ∃ l : Fin 8, s.receivers[l].expired = true ∧ c = .receiverAbsenceExpiry l := by
  simp only [State.dueReceivers, List.mem_filterMap, List.mem_finRange, true_and,
    Option.ite_none_right_eq_some, Option.some.injEq]
  exact exists_congr fun l => and_congr_right fun _ => eq_comm

theorem State.mem_dueRef (s : State) (c : Instr) :
    c ∈ s.dueRef ↔ c = .refAbsenceExpiry ∧ s.resetAsserted = false ∧ Config.absenceLimit ≤ s.ref.timer := by
  unfold State.dueRef RefMonitor.expired
  split
  case isTrue h => simpa using fun _ => h
  case isFalse h =>
    refine iff_of_false List.not_mem_nil ?_
    rintro ⟨-, due⟩
    exact h (by simpa using due)

theorem State.mem_dueAttendance (s : State) (c : Instr) :
    c ∈ s.dueAttendance ↔ ∃ q : Port, (s.place q).timedOut s.policy.timeout = true ∧ c = .attendanceExpiry q := by
  have every (q : Port) : q ∈ [Port.a, Port.b] := by cases q <;> decide
  simp only [State.dueAttendance, List.mem_filterMap, every, true_and, Option.ite_none_right_eq_some,
    Option.some.injEq]
  exact exists_congr fun q => and_congr_right fun _ => eq_comm

/-- A block end falls due only behind its house frame (R32). -/
theorem State.dueFrame_cases (s : State) :
    s.clock.now < s.clock.nextFrame ∧ s.dueFrame = [] ∨
      s.clock.nextFrame ≤ s.clock.now ∧
        ((s.resetAsserted = false ∧ (s.clock.frames + 1) % 4800 = 0) ∧ s.dueFrame = [.houseFrame, .blockEnd] ∨
          ¬ (s.resetAsserted = false ∧ (s.clock.frames + 1) % 4800 = 0) ∧ s.dueFrame = [.houseFrame]) := by
  unfold State.dueFrame
  split
  case isTrue early => exact .inl ⟨early, rfl⟩
  case isFalse late =>
    refine .inr ⟨Nat.le_of_not_lt late, ?_⟩
    split
    case isTrue h => exact .inl ⟨by simpa [Config.framesPerBlock] using h, rfl⟩
    case isFalse h => exact .inr ⟨by simpa [Config.framesPerBlock] using h, rfl⟩

theorem State.houseFrame_mem_dueFrame (s : State) :
    .houseFrame ∈ s.dueFrame ↔ s.clock.nextFrame ≤ s.clock.now := by
  rcases s.dueFrame_cases with ⟨early, due⟩ | ⟨late, ⟨-, due⟩ | ⟨-, due⟩⟩ <;> rw [due]
  · exact iff_of_false List.not_mem_nil (Nat.not_le_of_lt early)
  · exact iff_of_true (by decide) late
  · exact iff_of_true (by decide) late

theorem State.blockEnd_mem_dueFrame (s : State) :
    .blockEnd ∈ s.dueFrame ↔
      s.resetAsserted = false ∧ s.clock.nextFrame ≤ s.clock.now ∧ (s.clock.frames + 1) % 4800 = 0 := by
  rcases s.dueFrame_cases with ⟨early, due⟩ | ⟨late, ⟨⟨released, whole⟩, due⟩ | ⟨other, due⟩⟩ <;> rw [due]
  · exact iff_of_false List.not_mem_nil fun h => Nat.not_le_of_lt early h.2.1
  · exact iff_of_true (by decide) ⟨released, late, whole⟩
  · exact iff_of_false (by decide) fun h => other ⟨h.1, h.2.2⟩

theorem State.mem_dueFrame (s : State) (c : Instr) (h : c ∈ s.dueFrame) : c = .houseFrame ∨ c = .blockEnd := by
  rcases s.dueFrame_cases with ⟨-, due⟩ | ⟨-, ⟨-, due⟩ | ⟨-, due⟩⟩ <;> rw [due] at h
  · exact absurd h List.not_mem_nil
  · exact List.mem_pair.mp h
  · exact .inl (List.mem_singleton.mp h)

theorem State.dueFrame_nodup (s : State) : s.dueFrame.Nodup := by
  rcases s.dueFrame_cases with ⟨-, due⟩ | ⟨-, ⟨-, due⟩ | ⟨-, due⟩⟩ <;> rw [due]
  · exact List.nodup_nil
  · decide
  · exact List.nodup_singleton _

/-- The expiries that are due. -/
def State.dueExpiries (s : State) : List Instr := s.dueReceivers ++ s.dueRef ++ s.dueAttendance

theorem State.due_perm (s : State) : s.due.Perm (s.dueExpiries ++ s.dueFrame) :=
  (freeMerge_perm _ _ _).trans ((freeOrder_perm _ _).append_right _)

theorem State.mem_due (s : State) (c : Instr) :
    c ∈ s.due ↔ ((c ∈ s.dueReceivers ∨ c ∈ s.dueRef) ∨ c ∈ s.dueAttendance) ∨ c ∈ s.dueFrame := by
  rw [s.due_perm.mem_iff, State.dueExpiries, List.mem_append, List.mem_append, List.mem_append]

theorem State.dueReceivers_nodup (s : State) : s.dueReceivers.Nodup := by
  refine List.Nodup.filterMap (fun l k c hl hk => ?_) (List.nodup_finRange 8)
  simp only [Option.mem_def, Option.ite_none_right_eq_some, Option.some.injEq] at hl hk
  exact Instr.receiverAbsenceExpiry.inj (hl.2.trans hk.2.symm)

theorem State.dueRef_nodup (s : State) : s.dueRef.Nodup := by
  unfold State.dueRef
  split
  · exact List.nodup_singleton _
  · exact List.nodup_nil

theorem State.dueAttendance_nodup (s : State) : s.dueAttendance.Nodup := by
  refine List.Nodup.filterMap (fun q r c hq hr => ?_) (by decide)
  simp only [Option.mem_def, Option.ite_none_right_eq_some, Option.some.injEq] at hq hr
  exact Instr.attendanceExpiry.inj (hq.2.trans hr.2.symm)

theorem State.due_nodup (s : State) : s.due.Nodup := by
  refine s.due_perm.nodup_iff.mpr ?_
  unfold State.dueExpiries
  refine List.Nodup.append (List.Nodup.append (List.Nodup.append s.dueReceivers_nodup s.dueRef_nodup ?_)
    s.dueAttendance_nodup ?_) s.dueFrame_nodup ?_
  · intro c receiver reference
    obtain ⟨l, -, rfl⟩ := (s.mem_dueReceivers c).mp receiver
    cases ((s.mem_dueRef _).mp reference).1
  · intro c expiry attendance
    obtain ⟨q, -, rfl⟩ := (s.mem_dueAttendance c).mp attendance
    rcases List.mem_append.mp expiry with receiver | reference
    · obtain ⟨l, -, same⟩ := (s.mem_dueReceivers _).mp receiver
      cases same
    · cases ((s.mem_dueRef _).mp reference).1
  · intro c expiry frame
    rcases s.mem_dueFrame c frame with rfl | rfl
    all_goals
      rcases List.mem_append.mp expiry with first | attendance
      · rcases List.mem_append.mp first with receiver | reference
        · obtain ⟨l, -, same⟩ := (s.mem_dueReceivers _).mp receiver
          cases same
        · cases ((s.mem_dueRef _).mp reference).1
      · obtain ⟨q, -, same⟩ := (s.mem_dueAttendance _).mp attendance
        cases same

/-- In a list without repetition that holds `a` and then `b`, `a` stands in front of `b`. -/
theorem mem_front_of_sublist {α : Type} {a b : α} {before after : List α} (different : a ≠ b)
    (distinct : (before ++ b :: after).Nodup) (order : [a, b].Sublist (before ++ b :: after)) : a ∈ before := by
  obtain ⟨xs, ys, split, front, back⟩ := List.sublist_append_iff.mp order
  cases xs with
  | cons x xs =>
    obtain ⟨rfl, -⟩ := List.cons.inj split
    exact front.subset List.mem_cons_self
  | nil =>
    have rest : [a, b].Sublist after := by
      rw [List.nil_append] at split
      rw [← split] at back
      exact (List.sublist_cons_iff.mp back).resolve_right fun ⟨_, same, _⟩ => different (List.cons.inj same).1
    have again : b ∈ after := rest.subset (by simp)
    exact absurd again (List.nodup_cons.mp (List.nodup_append.mp distinct).2.1).1

theorem State.houseFrame_before_blockEnd (s : State) (before after : List Instr)
    (h : s.due = before ++ .blockEnd :: after) : .houseFrame ∈ before := by
  have due : Instr.blockEnd ∈ s.due := by rw [h]; simp
  have inFrame : Instr.blockEnd ∈ s.dueFrame := by
    rcases (s.mem_due _).mp due with ((receiver | reference) | attendance) | frame
    · obtain ⟨l, -, same⟩ := (s.mem_dueReceivers _).mp receiver
      cases same
    · cases ((s.mem_dueRef _).mp reference).1
    · obtain ⟨q, -, same⟩ := (s.mem_dueAttendance _).mp attendance
      cases same
    · exact frame
  have order : s.dueFrame.Sublist s.due := freeMergeWith_right _ _ _ _
  obtain ⟨released, late, whole⟩ := s.blockEnd_mem_dueFrame.mp inFrame
  rcases s.dueFrame_cases with ⟨early, -⟩ | ⟨-, ⟨-, pair⟩ | ⟨other, -⟩⟩
  · exact absurd late (Nat.not_le_of_lt early)
  · rw [pair, h] at order
    exact mem_front_of_sublist (by decide) (h ▸ s.due_nodup) order
  · exact absurd ⟨released, whole⟩ other

/-! ## The timers (R28, R34, R164) -/

theorem State.tick_receiver (s : State) (l : Fin 8) : s.tick.receivers[l] = s.receivers[l].tick := by
  simp [State.tick, State.pass]

theorem State.tick_ref (s : State) : s.tick.ref = if s.resetAsserted then s.ref else s.ref.tick := rfl

theorem RefMonitor.ticked_eq (s : State) : s.tick.ref = { s.ref with timer := s.tick.ref.timer } := by
  rw [State.tick_ref]
  split <;> rfl

theorem State.tick_mem (s : State) (c : Instr) :
    c ∈ s.tick.pending ↔ ((c ∈ s.pass.dueReceivers ∨ c ∈ s.pass.dueRef) ∨ c ∈ s.pass.dueAttendance) ∨
      c ∈ s.pass.dueFrame :=
  s.pass.mem_due c

/-- A kind of event is due where its own list says so. -/
theorem State.tick_receiverExpiry (s : State) (l : Fin 8) :
    .receiverAbsenceExpiry l ∈ s.tick.pending ↔ s.tick.receivers[l].expired = true := by
  rw [State.tick_mem, State.mem_dueReceivers, State.mem_dueRef, State.mem_dueAttendance]
  have frame : Instr.receiverAbsenceExpiry l ∉ s.pass.dueFrame := fun h => by
    rcases s.pass.mem_dueFrame _ h with same | same <;> cases same
  simp only [frame, or_false, reduceCtorEq, false_and, and_false, exists_false,
    Instr.receiverAbsenceExpiry.injEq, exists_eq_right']
  rfl

theorem State.tick_refExpiry (s : State) :
    .refAbsenceExpiry ∈ s.tick.pending ↔
      s.resetAsserted = false ∧ Config.absenceLimit ≤ s.tick.ref.timer := by
  rw [State.tick_mem, State.mem_dueReceivers, State.mem_dueRef, State.mem_dueAttendance]
  have frame : Instr.refAbsenceExpiry ∉ s.pass.dueFrame := fun h => by
    rcases s.pass.mem_dueFrame _ h with same | same <;> cases same
  simp only [frame, or_false, reduceCtorEq, and_false, exists_false, true_and, false_or]
  rfl

theorem State.tick_attendanceExpiry (s : State) (q : Port) :
    .attendanceExpiry q ∈ s.tick.pending ↔ (s.tick.place q).timedOut s.tick.policy.timeout = true := by
  rw [State.tick_mem, State.mem_dueReceivers, State.mem_dueRef, State.mem_dueAttendance]
  have frame : Instr.attendanceExpiry q ∉ s.pass.dueFrame := fun h => by
    rcases s.pass.mem_dueFrame _ h with same | same <;> cases same
  simp only [frame, or_false, reduceCtorEq, false_and, and_false, exists_false, false_or,
    Instr.attendanceExpiry.injEq, exists_eq_right']
  rfl

theorem State.tick_houseFrame (s : State) :
    .houseFrame ∈ s.tick.pending ↔ s.tick.clock.nextFrame ≤ s.tick.clock.now := by
  rw [State.tick_mem, State.mem_dueReceivers, State.mem_dueRef, State.mem_dueAttendance,
    State.houseFrame_mem_dueFrame]
  simp only [reduceCtorEq, false_and, and_false, exists_false, false_or]
  rfl

theorem State.tick_blockEnd (s : State) :
    .blockEnd ∈ s.tick.pending ↔
      s.resetAsserted = false ∧ s.tick.clock.nextFrame ≤ s.tick.clock.now ∧ (s.clock.frames + 1) % 4800 = 0 := by
  rw [State.tick_mem, State.mem_dueReceivers, State.mem_dueRef, State.mem_dueAttendance,
    State.blockEnd_mem_dueFrame]
  simp only [reduceCtorEq, false_and, and_false, exists_false, false_or]
  rfl

theorem State.tick_kinds (s : State) (c : Instr) (h : c ∈ s.tick.pending) :
    c = .houseFrame ∨ c = .blockEnd ∨ c = .refAbsenceExpiry ∨
      (∃ l : Fin 8, c = .receiverAbsenceExpiry l) ∨ ∃ q : Port, c = .attendanceExpiry q := by
  rcases (s.tick_mem c).mp h with ((receiver | reference) | attendance) | frame
  · obtain ⟨l, -, same⟩ := (State.mem_dueReceivers _ c).mp receiver
    exact .inr (.inr (.inr (.inl ⟨l, same⟩)))
  · exact .inr (.inr (.inl ((State.mem_dueRef _ c).mp reference).1))
  · obtain ⟨q, -, same⟩ := (State.mem_dueAttendance _ c).mp attendance
    exact .inr (.inr (.inr (.inr ⟨q, same⟩)))
  · exact (State.mem_dueFrame _ c frame).imp_right .inl

/-- Settles O2: the fields of `tick`, and the queue as the merge of what falls due. -/
theorem idleStepPassesTime : Obligations.IdleStepPassesTime := by
  unfold Obligations.IdleStepPassesTime
  intro s empty
  have ticks : step s = .next s.tick := by
    unfold step
    rw [empty]
  refine ⟨s.tick, ticks, rfl, ?_, fun l => ?_, fun asserted => ?_, fun released => ?_, fun q => ?_,
    s.tick_receiverExpiry, s.tick_refExpiry, s.tick_houseFrame, s.tick_attendanceExpiry, s.tick_blockEnd,
    s.pass.houseFrame_before_blockEnd, s.pass.due_nodup, s.tick_kinds⟩
  · rw [← RefMonitor.ticked_eq]
    rfl
  · rw [State.tick_receiver]
    refine ⟨rfl, fun off => ?_, fun x running => ?_⟩
    · rw [Receiver.tick, off]; rfl
    · rw [Receiver.tick, running]; rfl
  · rw [State.tick_ref, if_pos asserted]
  · rw [State.tick_ref, if_neg (by rw [released]; decide)]
    rfl
  · have place : s.tick.place q = (s.place q).tick := s.tick_place q
    rw [place]
    unfold LogPort.tick
    split
    case isTrue on => exact ⟨rfl, fun off => absurd on (by rw [off]; decide), fun _ => rfl⟩
    case isFalse off => exact ⟨rfl, fun _ => rfl, fun on => absurd on off⟩

/-! ## The edges of RESETn -/

theorem State.warmReset_port (s : State) (q : Port) : s.warmReset.port q = (s.port q).abandoned := by
  cases q <;> rfl

theorem Tables.take_program (t : Tables) (p : Fin 16) : t.take.programs[p] = t.programs[p].take := by
  simp [Tables.take]

theorem Tables.take_link (t : Tables) (l : Fin 8) : t.take.links[l] = t.links[l].take := by
  simp [Tables.take]

theorem Record.take_takes {α : Type} (r : Record α) :
    r.take.applied = r.newest ∧ r.take.revision = r.revision ∧ r.take.staged = none :=
  ⟨r.take_applied, r.take_revision, r.take_staged⟩

/-- Settles O4: the records take in their staged copies, and the rest of the state is the power-on state's. -/
theorem warmResetAsserts : Obligations.WarmResetAsserts := by
  unfold Obligations.WarmResetAsserts
  intro s released
  obtain ⟨policyApplied, policyRevision, policyStaged⟩ := s.tables.policy.take_takes
  refine ⟨s.warmReset, if_neg (by rw [released]; decide), rfl, fun p => ?_, fun l => ?_, policyApplied,
    policyRevision, policyStaged, fun consistent name => ?_, rfl, rfl, fun q => ?_⟩
  · change s.tables.take.programs[p].applied = _ ∧ s.tables.take.programs[p].revision = _ ∧
      s.tables.take.programs[p].staged = _
    rw [Tables.take_program]
    exact s.tables.programs[p].take_takes
  · change s.tables.take.links[l].applied = _ ∧ s.tables.take.links[l].revision = _ ∧
      s.tables.take.links[l].staged = _
    rw [Tables.take_link]
    exact s.tables.links[l].take_takes
  · exact consistent.take_waitingOn name
  · rw [State.warmReset_port]
    exact ⟨rfl, rfl, rfl, rfl, rfl⟩

theorem ControlPort.resume_eq (port : ControlPort) :
    port.resume = { port with transaction := if port.select then .waiting else port.transaction } := by
  unfold ControlPort.resume
  split <;> rfl

theorem State.warmStart_receiver (s : State) (l : Fin 8) :
    s.warmStart.receivers[l] = if (s.link l).enable then Receiver.start else s.receivers[l] := by
  simp [State.warmStart]

theorem State.warmStart_meter (s : State) (p : Fin 16) :
    s.warmStart.meters[p] =
      if (s.program p).active then Meter.fresh (s.program p).channels.length else s.meters[p] := by
  simp [State.warmStart]

/-- Settles O5: the entries of `warmStart`, link by link, program by program and port by port. -/
theorem warmResetReleases : Obligations.WarmResetReleases := by
  unfold Obligations.WarmResetReleases
  intro s asserted
  refine ⟨s.warmStart, if_pos asserted, rfl, fun l on => ?_, fun l off => ?_, fun p active => ?_,
    fun p idle => ?_, fun q => ?_⟩
  · rw [State.warmStart_receiver, State.warmStart_converter, if_pos on, if_pos on]
    exact ⟨rfl, rfl, rfl, rfl, rfl, rfl, rfl, rfl, rfl, rfl, rfl, rfl⟩
  · rw [State.warmStart_receiver, State.warmStart_converter, if_neg (by rw [off]; decide),
      if_neg (by rw [off]; decide)]
    exact ⟨rfl, rfl⟩
  · rw [State.warmStart_gain, State.warmStart_delay, State.warmStart_meter, if_pos active, if_pos active,
      if_pos active]
    exact ⟨rfl, rfl, rfl⟩
  · rw [State.warmStart_gain, State.warmStart_delay, State.warmStart_meter, if_neg (by rw [idle]; decide),
      if_neg (by rw [idle]; decide), if_neg (by rw [idle]; decide)]
    exact ⟨rfl, rfl, rfl⟩
  · rw [← ControlPort.resume_eq]
    cases q <;> rfl

end Sys2Proof.Machine
end

section
/-! The input links (R26 to R29, R43, R55, R57 to R59) and the house reference (R33 to R36). -/

namespace Sys2Proof.Machine

/-! ## A frame handed to a converter (R43, R57) -/

theorem State.putConverter_none (s : State) (l : Fin 8) (work : Converter × Option SlipNotice)
    (quiet : work.2 = none) : s.putConverter l work = s.setConverter l work.1 := by
  rw [State.putConverter, quiet]

theorem State.putConverter_converters_eq (s : State) (l : Fin 8) (work : Converter × Option SlipNotice) :
    (s.putConverter l work).converters = s.converters.set l work.1 := by
  rw [State.putConverter_eq, State.takeNotices_eq]
  rfl

theorem State.putConverter_some_delay (s : State) (l : Fin 8) (work : Converter × Option SlipNotice)
    {n : SlipNotice} (slip : work.2 = some n) (p : Fin 16) :
    (s.putConverter l work).delays[p] = s.delays[p].correct (s.program p) n := by
  rw [State.putConverter_eq, State.takeNotices_fold, slip]
  rfl

theorem State.putConverter_some_log (s : State) (l : Fin 8) (work : Converter × Option SlipNotice)
    {n : SlipNotice} (slip : work.2 = some n) : (s.putConverter l work).log = s.slipsLogged [n] := by
  rw [State.putConverter_log, slip]
  rfl

theorem State.slipsLogged_log (s : State) (n : SlipNotice) (on : (s.policy.kind .linkSlip).edges = .log) :
    s.slipsLogged [n] = s.log.hand (s.slipEntry n) := by
  rw [State.slipsLogged, if_pos on]
  rfl

theorem State.slipsLogged_off (s : State) (ns : List SlipNotice)
    (off : (s.policy.kind .linkSlip).edges ≠ .log) : s.slipsLogged ns = s.log := by
  rw [State.slipsLogged, if_neg off]

theorem exec_frameArrival_present {l : Fin 8} {s : State} (frame : BitVec 256)
    (present : s.receivers[l].state = .present) (marked : s.receivers[l].inFrame = true) :
    exec (.frameArrival l frame) s = .next ((s.setReceiver l Receiver.start).handFrame l frame).settle := by
  change execFrameArrival l frame s = _
  unfold execFrameArrival
  simp only [marked, present, Bool.not_true, Bool.false_eq_true, if_false]

/-- Settles O7: an arrival hands the frame to the converter, whose slip, where it makes one, is taken. -/
theorem arrivalInPresentFeedsConverter : Obligations.ArrivalInPresentFeedsConverter := by
  unfold Obligations.ArrivalInPresentFeedsConverter
  intro l frame s
  constructor
  · intro takes
    change execFrameArrival l frame s = _
    unfold execFrameArrival
    rcases takes with off | unmarked
    · simp only [off, ite_self]
    · simp only [unmarked, Bool.not_false, if_true]
  · intro present marked
    let u := s.setReceiver l Receiver.start
    have fields := u.handFrame_keeps l frame
    refine ⟨(u.handFrame l frame).settle, exec_frameArrival_present frame present marked, ?_, ?_, ?_, ?_,
      fun quiet => ?_, fun n slip => ⟨fun p => ?_, ?_, fun on => ?_, fun off => ?_⟩⟩
    · rw [State.settle_receivers, fields]
      rfl
    · exact u.putConverter_converters_eq l _
    · rw [fields]
      rfl
    · refine State.settle_follow s _ ?_
      rw [fields]
      rfl
    · have same : u.handFrame l frame = u.setConverter l _ := u.putConverter_none l _ quiet
      rw [same]
      exact ⟨rfl, rfl⟩
    · exact u.putConverter_some_delay l _ slip p
    · exact u.putConverter_some_log l _ slip
    · have logged : (u.handFrame l frame).log = s.slipsLogged [n] := u.putConverter_some_log l _ slip
      rw [State.settle_log, logged, s.slipsLogged_log n on]
      exact s.log.hand_joins (s.slipEntry n)
    · have logged : (u.handFrame l frame).log = s.slipsLogged [n] := u.putConverter_some_log l _ slip
      rw [State.settle_log, logged, s.slipsLogged_off _ off]

/-! ## Arrivals at a converter (R43, R47, R55) -/

theorem Converter.arrive_running {c : Converter} (l : Fin 8) (samples : Vector Sample 8)
    (running : c.running = true) : c.arrive l samples = c.take l samples := by
  rcases (c.running_iff).mp running with state | state | state <;> simp only [Converter.arrive, state]

/-- Settles O8: the cases of `arrive`; the DELETE slip is `Converter.delete_slips`. -/
theorem fullFifoDeletes : Obligations.FullFifoDeletes := by
  unfold Obligations.FullFifoDeletes
  intro c l samples
  refine ⟨fun still => ?_, fun acquire => ?_, fun running room => ?_, c.delete_slips l samples⟩
  · rcases still with idle | lost
    · simp only [Converter.arrive, idle]
    · simp only [Converter.arrive, lost]
  · simp only [Converter.arrive, acquire, Converter.collect, Converter.join, Converter.fill,
      Config.fifoFrames, List.drop_one]
  · rw [Converter.arrive_running l samples running, Converter.take]
    exact if_pos room

/-! ## Return (R29, R59) -/

theorem Converter.regain_lost {c : Converter} (lost : c.state = .lost) : c.regain = c.acquire false := by
  rw [Converter.regain, if_pos lost]

/-- The first frame after a return notice collects in an empty FIFO. -/
theorem Converter.arrive_acquired (c : Converter) (counting : Bool) (l : Fin 8) (samples : Vector Sample 8) :
    (c.acquire counting).arrive l samples =
      ({ c.acquire counting with
        fifo := [{ index := 0, samples := samples }], nextIndex := 1, arrivals := 1 }, none) := rfl

theorem exec_frameArrival_lost {l : Fin 8} {s : State} (frame : BitVec 256)
    (lost : s.receivers[l].state = .lost) (marked : s.receivers[l].inFrame = true) :
    exec (.frameArrival l frame) s =
      if s.receivers[l].run + 1 < 32 then .next (s.setReceiver l s.receivers[l].counted)
      else
        .next (((s.setReceiver l Receiver.start).setConverter l s.converters[l].regain).handFrame
          l frame).settle := by
  change execFrameArrival l frame s = _
  unfold execFrameArrival
  simp only [marked, lost, Bool.not_true, Bool.false_eq_true, if_false]

theorem State.setConverter_converter (s : State) (l : Fin 8) (c : Converter) :
    (s.setConverter l c).converters[l] = c := by
  simp [State.setConverter]

/-- Settles O9: the frame that completes the return run is the first that the acquiring converter takes. -/
theorem arrivalInLostCountsReturn : Obligations.ArrivalInLostCountsReturn := by
  unfold Obligations.ArrivalInLostCountsReturn
  intro l frame s lost marked idle
  rw [exec_frameArrival_lost frame lost marked]
  constructor
  · intro early
    rw [if_pos (by omega)]
    rfl
  · intro last
    let u := (s.setReceiver l Receiver.start).setConverter l s.converters[l].regain
    let c : Converter := { s.converters[l].acquire false with
      fifo := [{ index := 0, samples := frameSamples frame }], nextIndex := 1, arrivals := 1 }
    have regained : u.converters[l] = s.converters[l].acquire false := by
      rw [← Converter.regain_lost idle]
      exact State.setConverter_converter _ l _
    have handed : u.handFrame l frame = u.setConverter l c := by
      unfold State.handFrame
      rw [regained, Converter.arrive_acquired]
      rfl
    have converters : (u.handFrame l frame).settle.converters = s.converters.set l c := by
      rw [handed]
      change (s.converters.set l s.converters[l].regain).set l c = _
      rw [Vector.set_set]
    have same : (u.handFrame l frame).settle.converters[l] = c := by
      rw [converters]
      exact Vector.getElem_set_self _
    refine ⟨(u.handFrame l frame).settle, if_neg (by omega), ?_, ?_⟩
    · rw [handed]
      rfl
    rw [same]
    refine ⟨rfl, rfl, rfl, rfl, rfl, rfl, rfl, rfl, rfl, rfl, rfl, fun k other => ?_, ?_⟩
    · rw [converters]
      exact Vector.getElem_set_ne _ _ fun h => other (Fin.ext h.symm)
    · rw [handed]
      rfl

/-! ## Loss (R28, R58) -/

theorem Receiver.expired_of_limit {r : Receiver} (h : r.timer = some Config.absenceLimit) : r.expired = true := by
  rw [Receiver.expired, h]
  exact decide_eq_true (Nat.le_refl _)

theorem exec_absence_present {l : Fin 8} {s : State} (limit : s.receivers[l].timer = some Config.absenceLimit)
    (present : s.receivers[l].state = .present) :
    exec (.receiverAbsenceExpiry l) s = .next ((s.slipFirst l).loseLink l) := by
  change execReceiverAbsenceExpiry l s = _
  unfold execReceiverAbsenceExpiry
  rw [if_pos (Receiver.expired_of_limit limit), present]

theorem Converter.lose_running {c : Converter} (running : c.running = true) :
    c.lose =
      if c.fade = 0 then { c with state := .lost, direction := .steady }.emptied
      else { c with state := .lost, direction := .falling } := by
  rcases (c.running_iff).mp running with state | state | state <;> simp only [Converter.lose, state]

theorem Converter.lose_acquire {c : Converter} (acquire : c.state = .acquire) :
    c.lose = { c with state := .lost, fade := 0, direction := .steady }.emptied := by
  simp only [Converter.lose, acquire]

theorem Converter.lose_fields {c : Converter} (on : c.state ≠ .idle) :
    c.lose = { c with
      state := .lost, fifo := c.lose.fifo, history := c.lose.history, fade := c.lose.fade
      direction := c.lose.direction } := by
  cases state : c.state with
  | idle => exact absurd state on
  | lost => simp only [Converter.lose, state]; rw [← state]
  | acquire => rw [Converter.lose_acquire state]; rfl
  | locked | freewheel | relock =>
    rw [Converter.lose_running ((c.running_iff).mpr (by simp [state]))]
    split <;> rfl

/-- Settles O10: a slip that waits is made first, and the loss acts on the state without one. -/
theorem absenceDeclaresLoss : Obligations.AbsenceDeclaresLoss := by
  unfold Obligations.AbsenceDeclaresLoss
  intro l s limit
  refine ⟨fun present waits => ?_, fun present quiet on => ?_, fun lost => ?_⟩
  · have receivers : (s.slipFirst l).receivers = s.receivers := by rw [s.slipFirst_keeps l]
    refine ⟨s.slipFirst l, s.slipFirst_makes l waits, s.slipFirst_waits l, ?_⟩
    rw [exec_absence_present limit present,
      exec_absence_present (s := s.slipFirst l) (by rw [receivers]; exact limit) (by rw [receivers]; exact present),
      State.slipFirst_none _ l (s.slipFirst_waits l)]
  · have loses : exec (.receiverAbsenceExpiry l) s = .next (s.loseLink l) := by
      rw [exec_absence_present limit present, s.slipFirst_none l quiet]
    have same : (s.loseLink l).converters[l] = s.converters[l].lose := State.setConverter_converter _ l _
    refine ⟨s.loseLink l, loses, rfl, ?_⟩
    rw [same]
    refine ⟨Converter.lose_fields on, fun running fades => ?_, fun running level => ?_, fun acquire => ?_,
      fun k other => ?_, rfl⟩
    · rw [Converter.lose_running running, if_neg (Nat.ne_of_gt fades)]
      exact ⟨rfl, rfl, rfl, rfl⟩
    · rw [Converter.lose_running running, if_pos level]
      exact ⟨level, rfl, rfl, rfl⟩
    · rw [Converter.lose_acquire acquire]
      exact ⟨rfl, rfl, rfl, rfl⟩
    · change (s.converters.set l s.converters[l].lose)[k] = s.converters[k]
      exact Vector.getElem_set_ne _ _ fun h => other (Fin.ext h.symm)
  · change execReceiverAbsenceExpiry l s = _
    unfold execReceiverAbsenceExpiry
    rw [if_pos (Receiver.expired_of_limit limit), lost]
    change Host.Outcome.next (s.setReceiver l s.receivers[l].expire) = _
    rw [Receiver.expire, ← lost]

/-! ## The reference monitor (R33 to R36) -/

theorem pulseOffset_later (clock : Timebase) (later : Bool)
    (h : clock.nextFrame - clock.now < clock.now - clock.lastFrame) :
    pulseOffset clock later = (clock.nextFrame - clock.now : Nat) := if_pos (.inl h)

theorem pulseOffset_earlier (clock : Timebase) (later : Bool)
    (h : clock.now - clock.lastFrame < clock.nextFrame - clock.now) :
    pulseOffset clock later = -((clock.now - clock.lastFrame : Nat) : Int) := by
  refine if_neg ?_
  rintro (ahead | ⟨tie, -⟩) <;> omega

theorem RefMonitor.interval_near {r : RefMonitor} {now previous : Nat} (last : r.lastPulse = some previous)
    (near : now - previous ≤ Config.absenceLimit) : r.interval now = some (now - previous) := by
  rw [RefMonitor.interval, last]
  exact if_pos near

theorem RefMonitor.interval_far {r : RefMonitor} {now : Nat}
    (far : ∀ previous : Nat, r.lastPulse = some previous → Config.absenceLimit < now - previous) :
    r.interval now = none := by
  unfold RefMonitor.interval
  split
  case h_1 previous last => exact if_neg (Nat.not_le_of_lt (far previous last))
  case h_2 => rfl

theorem meanInterval_of_ne_nil (held : Nat) {xs : List Nat} (h : xs ≠ []) :
    meanInterval held xs = xs.sum / xs.length := by
  unfold meanInterval
  rw [if_neg (by simpa using h)]

theorem lastN_snoc_ne_nil {α : Type} (n : Nat) (xs : List α) (x : α) : lastN (n + 1) (xs ++ [x]) ≠ [] := by
  have length := lastN_length (n + 1) (xs ++ [x])
  intro empty
  rw [empty] at length
  simp at length

theorem RefMonitor.accept_tracking {r : RefMonitor} (now : Nat) (offset : Int) (h : r.state = .tracking) :
    r.accept now offset = r.track now offset := by
  simp only [RefMonitor.accept, h]

/-- In HOLDOVER a pulse counts only in a run that goes on. -/
theorem RefMonitor.accept_starts {r : RefMonitor} (now : Nat) (offset : Int) (h : r.state = .holdover)
    (anew : r.run = 0 ∨ r.interval now = none) : r.accept now offset = r.startRun now := by
  simp only [RefMonitor.accept, h]
  split
  case h_1 x some =>
    refine if_pos (anew.resolve_right fun none => ?_)
    rw [some] at none
    cases none
  case h_2 => rfl

theorem RefMonitor.accept_counts {r : RefMonitor} {now x : Nat} (offset : Int) (h : r.state = .holdover)
    (running : 0 < r.run) (near : r.interval now = some x) : r.accept now offset = r.countRun now x offset := by
  simp only [RefMonitor.accept, h, near]
  exact if_neg (Nat.ne_of_gt running)

theorem RefMonitor.accept_goesOn {r : RefMonitor} {now x : Nat} (offset : Int) (h : r.state = .holdover)
    (running : 0 < r.run) (run : r.run < 31) (near : r.interval now = some x) :
    (r.accept now offset).state = .holdover ∧ (r.accept now offset).run = r.run + 1 ∧
      (r.accept now offset).period = r.period ∧ (r.accept now offset).intervals = r.intervals ++ [x] := by
  rw [RefMonitor.accept_counts offset h running near, RefMonitor.countRun, if_neg (by omega)]
  exact ⟨h, rfl, rfl, rfl⟩

theorem RefMonitor.accept_returns {r : RefMonitor} {now x : Nat} (offset : Int) (h : r.state = .holdover)
    (run : r.run = 31) (near : r.interval now = some x) :
    (r.accept now offset).state = .tracking ∧ (r.accept now offset).run = 0 ∧
      (r.accept now offset).intervals = r.intervals ++ [x] ∧
      (r.accept now offset).period =
        (r.accept now offset).intervals.sum / (r.accept now offset).intervals.length ∧
      (r.accept now offset).offset = offset := by
  rw [RefMonitor.accept_counts offset h (by omega) near, RefMonitor.countRun, if_pos (by omega)]
  exact ⟨rfl, rfl, rfl, meanInterval_of_ne_nil _ (by simp), rfl⟩

theorem RefMonitor.accept_begins {r : RefMonitor} (now : Nat) (offset : Int) (h : r.state = .holdover)
    (anew : r.run = 0 ∨ r.interval now = none) :
    (r.accept now offset).state = .holdover ∧ (r.accept now offset).run = 1 ∧
      (r.accept now offset).intervals = [] ∧ (r.accept now offset).period = r.period := by
  rw [RefMonitor.accept_starts now offset h anew]
  exact ⟨h, rfl, rfl, rfl⟩

theorem RefMonitor.accept_tracks {r : RefMonitor} (now : Nat) (offset : Int) (h : r.state = .tracking) :
    (r.accept now offset).state = .tracking ∧ (r.accept now offset).run = r.run ∧
      (r.accept now offset).offset = offset ∧
      (∀ x, r.interval now = some x →
        (r.accept now offset).intervals = lastN 32 (r.intervals ++ [x]) ∧
        (r.accept now offset).period =
          (r.accept now offset).intervals.sum / (r.accept now offset).intervals.length) ∧
      (r.interval now = none → (r.accept now offset).intervals = r.intervals) := by
  rw [RefMonitor.accept_tracking now offset h]
  refine ⟨h, rfl, rfl, fun x near => ?_, fun far => ?_⟩
  · unfold RefMonitor.track
    rw [near]
    exact ⟨rfl, meanInterval_of_ne_nil _ (lastN_snoc_ne_nil 31 _ _)⟩
  · unfold RefMonitor.track
    rw [far]

theorem RefMonitor.accept_restarts (r : RefMonitor) (now : Nat) (offset : Int) :
    (r.accept now offset).timer = 0 ∧ (r.accept now offset).lastPulse = some now := by
  cases state : r.state with
  | tracking =>
    rw [RefMonitor.accept_tracking now offset state]
    exact ⟨rfl, rfl⟩
  | holdover =>
    by_cases anew : r.run = 0 ∨ r.interval now = none
    · rw [RefMonitor.accept_starts now offset state anew]
      exact ⟨rfl, rfl⟩
    · rw [not_or] at anew
      obtain ⟨x, near⟩ := Option.ne_none_iff_exists'.mp anew.2
      rw [RefMonitor.accept_counts offset state (Nat.pos_of_ne_zero anew.1) near]
      unfold RefMonitor.countRun
      split <;> exact ⟨rfl, rfl⟩

theorem RefMonitor.ignores_iff (r : RefMonitor) (now : Nat) :
    r.ignores now = true ↔ ∃ previous, r.lastPulse = some previous ∧ now - previous < Config.refDeadTime := by
  unfold RefMonitor.ignores
  split
  case h_1 previous last => simp [last]
  case h_2 last => simp [last]

/-- Settles O11: an accepted pulse in TRACKING, one that goes on with a run, and one that starts a run. -/
theorem refPulseMeasures : Obligations.RefPulseMeasures := by
  unfold Obligations.RefPulseMeasures
  intro s
  refine ⟨fun asserted => if_pos asserted, fun previous last early => ?_, fun released accepted => ?_⟩
  · change execRefPulse s = _
    unfold execRefPulse
    split
    · rfl
    · exact if_pos ((s.ref.ignores_iff _).mpr ⟨previous, last, early⟩)
  · let offset := pulseOffset s.clock s.draw.1
    let r := s.ref.accept s.clock.now offset
    have takes : exec .refPulse s = .next { s.draw.2 with ref := r } := by
      change execRefPulse s = _
      unfold execRefPulse
      rw [if_neg (by rw [released]; decide), if_neg]
      rw [RefMonitor.ignores_iff]
      rintro ⟨previous, last, early⟩
      exact Nat.not_le_of_lt early (accepted previous last)
    have later := pulseOffset_later s.clock s.draw.1
    have earlier := pulseOffset_earlier s.clock s.draw.1
    obtain ⟨timer, pulse⟩ := s.ref.accept_restarts s.clock.now offset
    refine ⟨{ s.draw.2 with ref := r }, takes, rfl, timer, pulse, fun state => ?_, fun previous last near => ?_,
      fun far state => ?_, fun state anew => ?_⟩
    · obtain ⟨tracking, run, measured, -⟩ := RefMonitor.accept_tracks s.clock.now offset state
      exact ⟨tracking, run, fun h => measured.trans (later h), fun h => measured.trans (earlier h)⟩
    · have interval := RefMonitor.interval_near last near
      refine ⟨fun state => ?_, fun state running run => ?_, fun state run => ?_⟩
      · obtain ⟨-, -, -, joins, -⟩ := RefMonitor.accept_tracks s.clock.now offset state
        exact joins _ interval
      · exact RefMonitor.accept_goesOn offset state running run interval
      · obtain ⟨tracking, zero, joins, period, measured⟩ := RefMonitor.accept_returns offset state run interval
        exact ⟨tracking, zero, joins, period, fun h => measured.trans (later h),
          fun h => measured.trans (earlier h)⟩
    · obtain ⟨-, -, -, -, keeps⟩ := RefMonitor.accept_tracks s.clock.now offset state
      exact keeps (RefMonitor.interval_far far)
    · exact RefMonitor.accept_begins s.clock.now offset state
        (anew.imp_right fun far => RefMonitor.interval_far far)

theorem RefMonitor.expire_eq (r : RefMonitor) :
    r.expire.state = .holdover ∧ r.expire.period = r.period ∧ r.expire.intervals = [] ∧ r.expire.run = 0 ∧
      r.expire.timer = 0 ∧ r.expire.lastPulse = r.lastPulse := by
  unfold RefMonitor.expire
  split
  · exact ⟨rfl, rfl, rfl, rfl, rfl, rfl⟩
  case h_2 state => exact ⟨state, rfl, rfl, rfl, rfl, rfl⟩

/-- Settles O12: the expiry and, from TRACKING, the instant that was due. -/
theorem refAbsenceHoldsOver : Obligations.RefAbsenceHoldsOver := by
  unfold Obligations.RefAbsenceHoldsOver
  intro s released limit
  have takes : exec .refAbsenceExpiry s =
      .next { s with ref := s.ref.expire, clock := s.clock.holdOver s.ref } := by
    change execRefAbsenceExpiry s = _
    unfold execRefAbsenceExpiry
    rw [if_neg (by rw [released]; decide), if_pos]
    exact decide_eq_true (Nat.le_of_eq limit.symm)
  obtain ⟨state, period, intervals, run, timer, pulse⟩ := s.ref.expire_eq
  refine ⟨_, takes, rfl, state, period, intervals, run, timer, pulse, fun tracking => ?_, fun holdover => ?_⟩
  · simp only [Timebase.holdOver, tracking]
  · simp only [Timebase.holdOver, holdover]

/-- Settles O13: the correction is the offset, held within 20 ppm of the period. -/
theorem framePeriodBounded : Obligations.FramePeriodBounded := by
  unfold Obligations.FramePeriodBounded
  intro r
  have correction : r.correction = max (-((r.period * 20 / 1000000 : Nat) : Int))
      (min ((r.period * 20 / 1000000 : Nat) : Int) r.offset) := rfl
  refine ⟨fun holdover => by simp only [RefMonitor.framePeriod, holdover], fun tracking => ?_⟩
  have period : r.framePeriod = ((r.period : Int) - r.correction).toNat := by
    simp only [RefMonitor.framePeriod, tracking]
  rw [period]
  omega

end Sys2Proof.Machine
end

section
/-! Lanes and delays: a lane's write and read at a house frame (R107, R108, R111, R114), the layout of a window
(R106 to R110), the glide and the jump of D_c (R127, R129), a slip's corrections (R132 to R136), and the ramp
of a gain (R92). -/

namespace Sys2Proof.Machine

/-! ## Lanes in the delay memory (R107, R108, R111, R114) -/

theorem interpolate_zero (place : Fin 16 → Int) : interpolate 0#28 place = saturate (place 7) := rfl

/-- The place of the frame that the lane has stored for a whole-frame delay. -/
theorem DelayEngine.placeSample_stored (d : DelayEngine) (layout : Layout) (m : Memory) {frame l k : Nat}
    {lane : Lane} (past : k ≤ frame) (held : k < lane.valid) :
    d.placeSample layout m frame l lane ((frame : Int) - k) = (m.read (d.cell layout l (frame - k))).toInt := by
  unfold DelayEngine.placeSample
  rw [if_neg (by omega), if_neg (by omega), show ((frame : Int) - k).toNat = frame - k by omega]

/-- Settles O17: a whole-frame delay has fraction 0, at which the interpolation is place 0 itself. -/
theorem wholeDelayReadsStoredFrame : Obligations.WholeDelayReadsStoredFrame := by
  unfold Obligations.WholeDelayReadsStoredFrame
  intro d layout m frame l k lane delay past held
  have fraction : ((inUnits frame : Int) - d.effective lane) % 65536 = 0 := by
    rw [delay, inUnits]
    omega
  have place : ((inUnits frame : Int) - d.effective lane) / 65536 + ((7 : Fin 16).val : Int) - 7 =
      (frame : Int) - k := by
    rw [delay, inUnits]
    change ((frame * 65536 : Nat) - (k * 65536 : Nat) : Int) / 65536 + 7 - 7 = (frame : Int) - k
    omega
  unfold DelayEngine.readLane
  simp only [fraction, Int.zero_mul]
  rw [show BitVec.ofInt 28 0 = 0#28 from rfl, interpolate_zero, place, d.placeSample_stored layout m past held,
    saturate_toInt]

/-- The cell of a lane that lies within the memory. -/
theorem DelayEngine.cell_eq (d : DelayEngine) {layout : Layout} {l n : Nat} (frame : Nat) (pages : 0 < layout.pages)
    (capacity : d.capacity = layout.pages * 1024)
    (within : (layout.base + n * layout.pages) * 1024 ≤ Config.memoryCells) (inside : l < n) :
    d.cell layout l frame = (layout.base + l * layout.pages) * 1024 + frame % (layout.pages * 1024) := by
  have column : frame % (layout.pages * 1024) < layout.pages * 1024 := Nat.mod_lt _ (by omega)
  have rows : (l + 1) * layout.pages ≤ n * layout.pages := Nat.mul_le_mul_right _ inside
  rw [Nat.succ_mul] at rows
  rw [DelayEngine.cell, Layout.cell, capacity]
  exact Nat.mod_eq_of_lt (by unfold Config.cellsPerPage; omega)

/-- Settles O18: two lanes within the memory have different cells, so each keeps what is written to it. -/
theorem lanesHoldWhatIsWritten : Obligations.LanesHoldWhatIsWritten := by
  unfold Obligations.LanesHoldWhatIsWritten
  intro d layout m frame l samples canonical pages capacity within inside
  have reads := d.writeLanes_read layout frame 0 l samples samples[l] m canonical
    (List.getElem?_eq_getElem inside) fun k hk same => by
      rw [Nat.zero_add, Nat.zero_add, d.cell_eq frame pages capacity within hk,
        d.cell_eq frame pages capacity within inside] at same
      exact Nat.eq_of_mul_eq_mul_right pages (by omega)
  rwa [Nat.zero_add] at reads

/-! ## The layout of a window (R107, R109, R110, R117) -/

/-- Settles O26: the fields of `layOut`. -/
theorem layoutDividesWindow : Obligations.LayoutDividesWindow := by
  unfold Obligations.LayoutDividesWindow
  intro n x some claims fits
  have pages : 1 ≤ (x.limit + 1 - x.base) / n := Nat.div_pos fits some
  have window : n * ((x.limit + 1 - x.base) / n) ≤ x.limit + 1 - x.base := Nat.mul_div_le _ _
  have least : 896 ≤ (x.limit + 1 - x.base) / n * 1024 - 128 := by omega
  refine ⟨layOut n x, rfl, rfl, rfl, rfl, rfl, least, rfl, rfl, rfl, rfl, decide_eq_true_iff, ?_⟩
  omega

/-! ## The glide and the jump of D_c (R127, R129) -/

theorem DelayEngine.glide_step {d : DelayEngine} {x : DelayStep} (step : d.step = some x) (room : x.frames < 4800) :
    d.glide = { d with
      current := ((x.start : Int) + x.amount * ((x.frames + 1 : Nat) : Int) / 4800).toNat
      step := some { x with frames := x.frames + 1 } } := by
  unfold DelayEngine.glide
  rw [step]
  exact if_pos room

/-- A place between a number and its sum with an amount, in either direction. -/
theorem between_sum (start amount : Int) {i : Nat} (h : i ≤ 4800) :
    min start (start + amount) ≤ start + amount * i / 4800 ∧
      start + amount * i / 4800 ≤ max start (start + amount) := by
  have shifted := between_ends (start - min start (start + amount)) amount i
    (max start (start + amount) - min start (start + amount)) h (by omega) (by omega) (by omega) (by omega)
  omega

/-- Settles O27: at step 4,800 the whole step has been made. -/
theorem delayGlidesByItsStep : Obligations.DelayGlidesByItsStep := by
  unfold Obligations.DelayGlidesByItsStep
  intro d x step room nonneg
  have lies := between_sum x.start x.amount (i := x.frames + 1) room
  have current : (d.glide.current : Int) =
      (x.start : Int) + x.amount * ((x.frames + 1 : Nat) : Int) / 4800 := by
    rw [DelayEngine.glide_step step room]
    exact Int.toNat_of_nonneg (by omega)
  refine ⟨current, by rw [DelayEngine.glide_step step room], fun last => ?_⟩
  rw [current, last]
  omega

/-- A lane without a correction has the delay D_c. -/
theorem DelayEngine.effective_uncorrected {d : DelayEngine} (valid : Nat) (h : d.current ≤ d.usable * 65536) :
    d.effective { valid := valid, correction := 0 } = d.current := by
  unfold DelayEngine.effective DelayEngine.unclamped inUnits
  dsimp only
  omega

theorem DelayEngine.uncorrected_valid {d : DelayEngine} (valid : Nat) (target : d.current = d.target * 65536)
    (h : d.target ≤ d.usable) : d.laneValid { valid := valid, correction := 0 } = true ↔ d.target + 16 ≤ valid := by
  rw [DelayEngine.laneValid, DelayEngine.effective_uncorrected valid (by omega), decide_eq_true_iff]
  unfold inUnits
  dsimp only
  omega

theorem DelayEngine.uncorrected_clamped {d : DelayEngine} (valid : Nat) (h : d.current ≤ d.usable * 65536) :
    d.laneClamped { valid := valid, correction := 0 } = false := by
  rw [Bool.eq_false_iff, Ne, DelayEngine.laneClamped_iff]
  dsimp only
  omega

theorem DelayEngine.setCurrent_current (d : DelayEngine) : d.setCurrent.current = d.target * 65536 := rfl

theorem DelayEngine.setCurrent_bounds (d : DelayEngine) :
    d.setCurrent.target = d.target ∧ d.setCurrent.usable = d.usable := ⟨rfl, rfl⟩

theorem DelayEngine.setCurrent_lanes (d : DelayEngine) :
    d.setCurrent.lanes = d.lanes.map fun x => { valid := x.valid, correction := 0 } := rfl

theorem DelayEngine.jump_state (d : DelayEngine) (h : d.target ≤ d.usable) :
    d.jump.state = if ∀ x ∈ d.lanes, d.target + 16 ≤ x.valid then .fadeIn else .filling := by
  obtain ⟨target, usable⟩ := d.setCurrent_bounds
  have valid (x : Lane) : d.setCurrent.laneValid { valid := x.valid, correction := 0 } = true ↔
      d.target + 16 ≤ x.valid := by
    rw [DelayEngine.uncorrected_valid x.valid (by rw [d.setCurrent_current, target]) (by rwa [target, usable]),
      target]
  have lanes : (d.setCurrent.lanes.all d.setCurrent.laneValid = true) ↔
      ∀ x ∈ d.lanes, d.target + 16 ≤ x.valid := by
    rw [DelayEngine.setCurrent_lanes, List.all_eq_true, List.forall_mem_map]
    exact forall₂_congr fun x _ => valid x
  exact if_congr lanes rfl rfl

/-- Settles O29: after the jump every lane has the delay D_t, which lies within 0 to U. -/
theorem jumpTakesTarget : Obligations.JumpTakesTarget := by
  unfold Obligations.JumpTakesTarget
  intro d bounded
  refine ⟨rfl, rfl, rfl, fun deep => ?_, fun ⟨x, lane, shallow⟩ => ?_, ?_⟩
  · rw [d.jump_state bounded, if_pos deep]
  · rw [d.jump_state bounded, if_neg fun deep => Nat.not_le_of_lt shallow (deep x lane)]
  · change d.setCurrent.lanes.any d.setCurrent.laneClamped = false
    obtain ⟨-, usable⟩ := d.setCurrent_bounds
    rw [DelayEngine.setCurrent_lanes, List.any_eq_false]
    intro x lane
    obtain ⟨y, -, rfl⟩ := List.mem_map.mp lane
    rw [DelayEngine.uncorrected_clamped y.valid (by rw [d.setCurrent_current, usable]; omega)]
    decide

/-! ## A slip's corrections (R132, R133, R136) -/

theorem DelayEngine.correct_active {d : DelayEngine} {r : ProgramRecord} (n : SlipNotice)
    (active : r.active = true) (laid : d.layout.isSome = true) :
    d.correct r n = DelayEngine.formSync { d with
      lanes := d.lanes.mapIdx fun l lane =>
        match r.channels[l]? with
        | some c => if c.feedsFrom n.link then Lane.correct lane n else lane
        | none => lane } := by
  rw [DelayEngine.correct, active, laid]
  rfl

theorem Lane.correct_eq (x : Lane) (n : SlipNotice) :
    (x.correct n).valid = x.valid ∧
      (x.correct n).correction = max (-2147483648) (min 2147483647
        (match n.direction with
         | .delete => x.correction + n.equivalent
         | .repeat => x.correction - n.equivalent)) := by
  unfold Lane.correct
  cases n.direction <;> exact ⟨rfl, rfl⟩

/-- Settles O28: the lanes are mapped one by one, and the sync flag is formed from them. -/
theorem slipCorrectsLanesOfItsLink : Obligations.SlipCorrectsLanesOfItsLink := by
  unfold Obligations.SlipCorrectsLanesOfItsLink
  intro d r n active laid
  refine ⟨d.correct r n, rfl, d.correct_eq r n, ?_, fun l before after old new => ?_, ?_⟩
  · rw [DelayEngine.correct_active n active laid]
    exact List.length_mapIdx
  · rw [DelayEngine.correct_active n active laid] at new
    change (d.lanes.mapIdx _)[l]? = some after at new
    rw [List.getElem?_mapIdx, old] at new
    have mapped := Option.some.inj new
    obtain ⟨valid, correction⟩ := before.correct_eq n
    split at mapped
    case h_1 c channel =>
      split at mapped
      case isTrue feeds =>
        rw [← mapped]
        exact ⟨valid, fun _ => correction, fun none => absurd feeds (by rw [none c channel]; decide)⟩
      case isFalse starves =>
        rw [← mapped]
        refine ⟨rfl, fun ⟨y, found, feeds⟩ => ?_, fun _ => rfl⟩
        rw [channel] at found
        cases found
        exact absurd feeds starves
    case h_2 none =>
      rw [← mapped]
      refine ⟨rfl, fun ⟨y, found, _⟩ => ?_, fun _ => rfl⟩
      rw [none] at found
      cases found
  · rw [DelayEngine.correct_active n active laid]
    exact DelayEngine.formSync_formed _

/-! ## The ramp of a gain (R91, R92, R99) -/

theorem Ramp.factor_eq (r : Ramp) {i : Nat} (h : i ≤ 4800) :
    (r.factor i : Int) = (r.start : Int) + ((r.stop : Int) - r.start) * i / 4800 := by
  have lies := between_sum r.start ((r.stop : Int) - r.start) h
  refine Int.toNat_of_nonneg ?_
  change 0 ≤ (r.start : Int) + ((r.stop : Int) - r.start) * i / 4800
  omega

/-- Settles O25: a step of the ramp lies between its ends. -/
theorem rampRunsToItsEnd : Obligations.RampRunsToItsEnd := by
  unfold Obligations.RampRunsToItsEnd
  refine ⟨gainFactor_rounded, gainFactor_least, gainFactor_most, tone_rounded, fun r i h => ?_⟩
  have factor := r.factor_eq h
  have lies := between_sum r.start ((r.stop : Int) - r.start) h
  have last := r.factor_eq (Nat.le_refl 4800)
  refine ⟨factor, ?_, ?_, ?_⟩ <;> omega

end Sys2Proof.Machine
end

section
/-! Transactions and the requests that read (R178, R179, R181, R184, R185, R188). -/

namespace Sys2Proof.Machine

/-! ## Select (R178) -/

theorem exec_selectAssert_idle {q : Port} {s : State} (released : s.resetAsserted = false)
    (idle : (s.port q).transaction = .idle) :
    exec (.selectAssert q) s = .next (s.setPort q (s.port q).begin) := by
  change execSelectAssert q s = _
  unfold execSelectAssert
  rw [if_neg (by rw [released]; decide), idle]

/-- Settles O30: the output that `begin` fixes is the pending frame, the held response's frame, or none. -/
theorem selectAssertFixesOutput : Obligations.SelectAssertFixesOutput := by
  unfold Obligations.SelectAssertFixesOutput
  intro q s
  refine ⟨fun asserted => if_pos asserted, fun released waiting => ?_, fun released idle => ?_⟩
  · change execSelectAssert q s = _
    unfold execSelectAssert
    rw [if_neg (by rw [released]; decide), waiting]
  · refine ⟨_, exec_selectAssert_idle released idle, ?_, ?_⟩
    · rw [State.port_setPort_same]
    rw [State.port_setPort_same]
    unfold ControlPort.begin ControlPort.fixedOutput
    refine ⟨rfl, rfl, rfl, fun pending => ?_, fun free => ?_⟩
    · obtain ⟨x, executing⟩ := Option.isSome_iff_exists.mp pending
      rw [executing]
      exact ⟨rfl, rfl⟩
    · rw [free]
      refine ⟨rfl, fun none => ?_, fun r held => ?_⟩
      · rw [none]
        rfl
      · rw [held]
        exact ⟨rfl, rfl⟩

/-! ## Transactions that carry no request (R179, R181) -/

/-- What the bits of a well-formed row spell is its outcome. -/
theorem Instr.classify_of_spells {i : Instr} {c : InputClass} (h : i.spells = true) (outcome : i.outcome = some c) :
    classify (bytesOfBits i.sdi) = c := by
  unfold Instr.spells at h
  rw [outcome] at h
  exact eq_of_beq h

/-- A normal transaction whose taking only changes what its port holds. -/
theorem endTransaction_holds (q : Port) (sdi : List Bool) (s : State) (h : s.InNormal q) (held : Option Response)
    (taken : takeClass q (bytesOfBits sdi).length (classify (bytesOfBits sdi)) (s.releasedAt q (bytesOfBits sdi)) =
      (s.releasedAt q (bytesOfBits sdi)).setPort q
        { (s.releasedAt q (bytesOfBits sdi)).port q with held := held }) :
    ∃ t, endTransaction q sdi s = t ∧ OnlyPortsDiffer s t ∧ TransactionEnds q (bytesOfBits sdi).length s t ∧
      (t.port q).executing = (s.port q).executing ∧ (t.port q).held = held := by
  have ends := s.finishTransaction_ends q (bytesOfBits sdi)
    (takeClass q (bytesOfBits sdi).length (classify (bytesOfBits sdi)))
    (by rw [taken]; exact State.setPort_answers _ q held _) (by rw [taken]; rfl)
  refine ⟨_, endTransaction_normal q sdi s h, ?_, ends, ?_⟩
  · rw [State.finishTransaction_concluded, taken]
    rfl
  · rw [State.finishTransaction_concluded, taken]
    cases q <;> exact ⟨rfl, rfl⟩

theorem heldAfterNull_kept (r : Response) (n : Nat) :
    (3 + r.body.length ≤ n → heldAfterNull (some r) n = none) ∧
      (n < 3 + r.body.length → heldAfterNull (some r) n = some { r with clocked := n }) := by
  have length : r.frame.length = 3 + r.body.length := by
    simp only [Response.frame, outputFrame, List.cons_append, List.length_cons, List.length_append, bytes16_length]
    omega
  refine ⟨fun whole => if_pos (by rwa [length]), fun part => ?_⟩
  change (if r.frame.length ≤ n then none else some (r.clockOut n)) = _
  rw [if_neg (by omega), Response.clockOut, Nat.min_eq_left (by omega)]

/-- Settles O31: of the three the port's held response alone tells them apart. -/
theorem framesWithoutRequestAnswered : Obligations.FramesWithoutRequestAnswered := by
  unfold Obligations.FramesWithoutRequestAnswered
  intro q sdi s normal
  refine ⟨fun formed => ?_, fun formed => ?_, fun formed => ?_⟩
  · have spelt : classify (bytesOfBits sdi) = .null := Instr.classify_of_spells (i := .null q sdi) formed rfl
    obtain ⟨t, ended, only, ends, executing, held⟩ := endTransaction_holds q sdi s normal
      (heldAfterNull (s.port q).held (bytesOfBits sdi).length)
      (by rw [spelt]; cases q <;> rfl)
    refine ⟨t, by rw [← ended]; rfl, only, ends, executing, fun none => ?_, fun r some => ?_⟩
    · rw [held, none]
      rfl
    · rw [held, some]
      exact heldAfterNull_kept r _
  · have spelt : classify (bytesOfBits sdi) = .unknown :=
      Instr.classify_of_spells (i := .unknown q sdi) formed rfl
    obtain ⟨t, ended, rest⟩ := endTransaction_holds q sdi s normal (some (respond .unknown [])) (by rw [spelt]; rfl)
    exact ⟨t, by rw [← ended]; rfl, rest⟩
  · have spelt : classify (bytesOfBits sdi) = .length :=
      Instr.classify_of_spells (i := .length q sdi) formed rfl
    obtain ⟨t, ended, rest⟩ := endTransaction_holds q sdi s normal (some (respond .length [])) (by rw [spelt]; rfl)
    exact ⟨t, by rw [← ended]; rfl, rest⟩

theorem takePending_ignored {q : Port} {bytes : List Byte} (s : State) (h : completesPortReset bytes = false) :
    takePending q bytes s = s := by
  rw [takePending, h]
  rfl

/-- Settles O32: the input is not taken, and the release itself keeps what the port holds and executes. -/
theorem pendingTransactionIgnoresInput : Obligations.PendingTransactionIgnoresInput := by
  unfold Obligations.PendingTransactionIgnoresInput
  intro q sdi s released pending incomplete
  have ignored := takePending_ignored (q := q) (s.releasedAt q (bytesOfBits sdi)) incomplete
  have ends := s.finishTransaction_ends q (bytesOfBits sdi) (takePending q (bytesOfBits sdi))
    (by rw [ignored]; exact .refl q _) (by rw [ignored])
  have takes : exec (.pendingTransactionEnd q sdi) s =
      .next (s.finishTransaction q (bytesOfBits sdi) (takePending q (bytesOfBits sdi))) :=
    congrArg Host.Outcome.next (endTransaction_pending q sdi s released pending)
  refine ⟨_, takes, ?_, ends, ?_⟩
  · rw [State.finishTransaction_concluded, ignored]
    rfl
  · rw [State.finishTransaction_concluded, ignored]
    cases q <;> exact ⟨rfl, rfl⟩

/-! ## Requests that read one of a table (R185, R188) -/

/-- The taking of a read of entry `x` of a table of `n`. -/
def State.answerIndexed (u : State) (q : Port) (n : Nat) (x : Byte) (body : Fin n → List Byte) : State :=
  match indexOf n x with
  | none => u.answer q .range []
  | some k => u.answer q .done (body k)

/-- A read of an entry of a table: RANGE outside the table, else DONE with the entry's bytes. -/
theorem endTransaction_indexed {n : Nat} (q : Port) (code : RequestCode) (x : Byte) (surplus : List Bool)
    (s : State)
    (h : s.InNormal q) (required : requiredLength code [x] = some 1) (body : Fin n → List Byte)
    (taken : takeRequest q code [x] (s.takenAt q (bytesOfBits (requestBits code [x] surplus))) =
      (s.takenAt q (bytesOfBits (requestBits code [x] surplus))).answerIndexed q n x body) :
    ∃ t, endTransaction q (requestBits code [x] surplus) s = t ∧ OnlyPortsDiffer s t ∧
      TransactionEnds q (bytesOfBits (requestBits code [x] surplus)).length s t ∧
      (t.port q).executing = (s.port q).executing ∧
      (n ≤ x.toNat → (t.port q).held = some { status := .range, body := [], clocked := 0 }) ∧
      ∀ k : Fin n, k.val = x.toNat →
        (t.port q).held = some { status := .done, body := body k, clocked := 0 } := by
  unfold State.answerIndexed at taken
  cases index : indexOf n x with
  | none =>
    rw [index] at taken
    obtain ⟨t, ended, only, ends, executing, held⟩ :=
      endTransaction_answers q code [x] surplus s h (by simp) required .range [] taken
    refine ⟨t, ended, only, ends, executing, fun _ => held, fun k value => ?_⟩
    rw [indexOf_val n x k value] at index
    cases index
  | some k =>
    rw [index] at taken
    obtain ⟨t, ended, only, ends, executing, held⟩ :=
      endTransaction_answers q code [x] surplus s h (by simp) required .done (body k) taken
    refine ⟨t, ended, only, ends, executing, fun outside => ?_, fun j value => ?_⟩
    · rw [indexOf_none n x outside] at index
      cases index
    · rw [indexOf_val n x j value] at index
      cases index
      exact held

theorem takeReadProgram_indexed (q : Port) (p : Byte) (u : State) :
    takeReadProgram q p u = u.answerIndexed q 16 p fun k =>
      readHead u.tables.programs[k] ++ programBytes u.tables.programs[k].newest := by
  unfold takeReadProgram State.answerIndexed
  cases indexOf 16 p <;> rfl

theorem takeReadLink_indexed (q : Port) (l : Byte) (u : State) :
    takeReadLink q l u = u.answerIndexed q 8 l fun k =>
      readHead u.tables.links[k] ++ linkBytes u.tables.links[k].newest ++ statusBytes u.converters[k] := by
  unfold takeReadLink State.answerIndexed
  cases indexOf 8 l <;> rfl

theorem takeReadMeter_indexed (q : Port) (p : Byte) (u : State) :
    takeReadMeter q p u = u.answerIndexed q 16 p fun k => meterBytes u.meters[k] u.gains[k] u.delays[k] := by
  unfold takeReadMeter State.answerIndexed
  cases indexOf 16 p <;> rfl

/-- Settles O36: two reads of a table and the read of the one policy record. -/
theorem recordReadsAnswer : Obligations.RecordReadsAnswer := by
  unfold Obligations.RecordReadsAnswer
  refine ⟨fun q p surplus s normal => ?_, fun q l surplus s normal => ?_, fun q surplus s normal => ?_⟩
  · obtain ⟨t, ended, rest⟩ := endTransaction_indexed (n := 16) q .readProgram p surplus s normal rfl
      (fun k => readHead s.tables.programs[k] ++ programBytes s.tables.programs[k].newest)
      (takeReadProgram_indexed q p _)
    exact ⟨t, by rw [← ended]; rfl, rest⟩
  · obtain ⟨t, ended, rest⟩ := endTransaction_indexed (n := 8) q .readLink l surplus s normal rfl
      (fun k => readHead s.tables.links[k] ++ linkBytes s.tables.links[k].newest ++ statusBytes s.converters[k])
      (takeReadLink_indexed q l _)
    exact ⟨t, by rw [← ended]; rfl, rest⟩
  · obtain ⟨t, ended, rest⟩ := endTransaction_answers q .readPolicy [] surplus s normal (by decide) rfl .done
      (readHead s.tables.policy ++ policyBytes s.tables.policy.newest) rfl
    exact ⟨t, by rw [← ended]; rfl, rest⟩

/-- The fields of READ METER in front of the lanes, 28 bytes (R188). -/
def meterHead (m : Meter) (g : GainStage) (d : DelayEngine) : List Byte :=
  bytes16 (BitVec.ofInt 16 m.momentary.tenths) ++ bytes16 (BitVec.ofInt 16 m.shortTerm.tenths) ++
    bytes16 (BitVec.ofInt 16 m.integrated.tenths) ++
    bytes32 (BitVec.ofNat 32 ((m.histogram.toList.map Bin.count).sum)) ++ bytes16 (BitVec.ofInt 16 g.applied) ++
    [BitVec.ofNat 8 g.queue.length, d.state.code] ++ bytes48 (BitVec.ofNat 48 d.current) ++
    bytes32 (BitVec.ofNat 32 d.target) ++ bytes32 (BitVec.ofNat 32 d.usable)

/-- The lanes of READ METER, eight bytes each (R188). -/
def laneBytes (d : DelayEngine) : List Byte :=
  d.lanes.flatMap (fun x => bytes32 (BitVec.ofInt 32 x.correction)) ++
    d.lanes.flatMap fun x => bytes32 (BitVec.ofNat 32 x.valid)

theorem meterHead_length (m : Meter) (g : GainStage) (d : DelayEngine) : (meterHead m g d).length = 28 := rfl

theorem laneBytes_length (d : DelayEngine) : (laneBytes d).length = 8 * d.lanes.length := by
  simp only [laneBytes, List.length_append, List.length_flatMap, bytes32_length, List.map_const',
    List.sum_replicate,
    smul_eq_mul]
  omega

theorem meterBytes_eq (m : Meter) (g : GainStage) (d : DelayEngine) :
    meterBytes m g d = meterHead m g d ++ BitVec.ofNat 8 d.lanes.length :: laneBytes d := by
  unfold meterBytes meterHead laneBytes countFrom
  simp only [List.append_assoc, List.drop_zero, List.cons_append, List.nil_append]

/-- Settles O37: the body is the 28 bytes of the head, the number of lanes, and the lanes. -/
theorem meterReadAnswers : Obligations.MeterReadAnswers := by
  unfold Obligations.MeterReadAnswers
  intro q p surplus s normal
  obtain ⟨t, ended, only, ends, executing, outside, inside⟩ := endTransaction_indexed (n := 16) q .readMeter p
    surplus s normal rfl (fun k => meterBytes s.meters[k] s.gains[k] s.delays[k])
    (takeReadMeter_indexed q p _)
  refine ⟨t, by rw [← ended]; rfl, only, ends, executing, outside, fun k value => ⟨_, inside k value, ?_⟩⟩
  have head := meterHead_length s.meters[k] s.gains[k] s.delays[k]
  rw [meterBytes_eq]
  refine ⟨?_, List.take_left' head, ?_, ?_⟩
  · rw [List.length_append, head, List.length_cons, laneBytes_length]
    omega
  · rw [List.getElem?_append_right (by omega), head]
    rfl
  · rw [List.drop_append, head]
    rfl

/-! ## What the rows spell (R177, R179, R194) -/

theorem Instr.spells_of_wellFormed (i : Instr) : Laws.ReleaseSpells.Statement i := by
  cases i with
  | powerOnReset => exact Laws.ReleaseSpells.powerOnReset
  | warmResetAssert => exact Laws.ReleaseSpells.warmResetAssert
  | warmResetRelease => exact Laws.ReleaseSpells.warmResetRelease
  | frameArrival link frame => exact Laws.ReleaseSpells.frameArrival link frame
  | receiverAbsenceExpiry link => exact Laws.ReleaseSpells.receiverAbsenceExpiry link
  | refPulse => exact Laws.ReleaseSpells.refPulse
  | refAbsenceExpiry => exact Laws.ReleaseSpells.refAbsenceExpiry
  | houseFrame => exact Laws.ReleaseSpells.houseFrame
  | blockEnd => exact Laws.ReleaseSpells.blockEnd
  | selectAssert q => exact Laws.ReleaseSpells.selectAssert q
  | null q sdi => exact Laws.ReleaseSpells.null q sdi
  | unknown q sdi => exact Laws.ReleaseSpells.unknown q sdi
  | length q sdi => exact Laws.ReleaseSpells.length q sdi
  | pendingTransactionEnd q sdi => exact Laws.ReleaseSpells.pendingTransactionEnd q sdi
  | identify q surplus => exact Laws.ReleaseSpells.identify q surplus
  | readProgram q p surplus => exact Laws.ReleaseSpells.readProgram q p surplus
  | writeProgram q p revision record surplus => exact Laws.ReleaseSpells.writeProgram q p revision record surplus
  | setDelay q p frames surplus => exact Laws.ReleaseSpells.setDelay q p frames surplus
  | setTarget q p tenths surplus => exact Laws.ReleaseSpells.setTarget q p tenths surplus
  | readMeter q p surplus => exact Laws.ReleaseSpells.readMeter q p surplus
  | resetMeter q p surplus => exact Laws.ReleaseSpells.resetMeter q p surplus
  | readLink q l surplus => exact Laws.ReleaseSpells.readLink q l surplus
  | writeLink q l revision e n b k surplus => exact Laws.ReleaseSpells.writeLink q l revision e n b k surplus
  | readPolicy q surplus => exact Laws.ReleaseSpells.readPolicy q surplus
  | writePolicy q revision record surplus => exact Laws.ReleaseSpells.writePolicy q revision record surplus
  | readConditions q surplus => exact Laws.ReleaseSpells.readConditions q surplus
  | fetchAlarms q n surplus => exact Laws.ReleaseSpells.fetchAlarms q n surplus
  | setAttention q mask threshold surplus => exact Laws.ReleaseSpells.setAttention q mask threshold surplus
  | portReset q surplus => exact Laws.ReleaseSpells.portReset q surplus
  | attendanceExpiry q => exact Laws.ReleaseSpells.attendanceExpiry q
  | frameSyncMark link => exact Laws.ReleaseSpells.frameSyncMark link
  | selectSeenReleased q => exact Laws.ReleaseSpells.selectSeenReleased q

/-- Settles O49: row by row in the family `ReleaseSpells`. -/
theorem wellFormedCommandsSpellTheirRow : Obligations.WellFormedCommandsSpellTheirRow := by
  unfold Obligations.WellFormedCommandsSpellTheirRow
  intro i c formed outcome
  exact Instr.classify_of_spells (Instr.spells_of_wellFormed i formed) outcome

end Sys2Proof.Machine
end

section
/-! The requests that change a record (R6 to R13, R186, R187): the checks that refuse, and the acceptance. -/

namespace Sys2Proof.Machine

/-! ## The end of a change request -/

/-- The requests that change a record. -/
def RequestCode.changesRecord : RequestCode → Bool
  | .writeProgram | .setDelay | .setTarget | .writeLink | .writePolicy => true
  | _ => false

theorem Taken.changes {q : Port} {code : RequestCode} {s v : State} (h : Taken q code s v)
    (change : RequestCode.changesRecord code = true) : v = { s with tables := v.tables, ports := v.ports } := by
  cases h with
  | kept | answered | written | delayed | targeted | linked | ruled => rfl
  | marked | fetched | attended | reset => cases change

/-- A change request ends its transaction as every other does, whether it is accepted or refused. -/
theorem endTransaction_change (q : Port) (code : RequestCode) (body : List Byte) (surplus : List Bool) (s : State)
    (h : s.InNormal q) (fits : body.length < 65536) (required : requiredLength code body = some body.length)
    (change : RequestCode.changesRecord code = true) {v : State}
    (taken : takeRequest q code body (s.takenAt q (bytesOfBits (requestBits code body surplus))) = v) :
    endTransaction q (requestBits code body surplus) s = v.concluded ∧
      v.concluded = { s with
        tables := v.concluded.tables, ports := v.concluded.ports, log := v.concluded.log,
          pins := v.concluded.pins } ∧
      TransactionEnds q (bytesOfBits (requestBits code body surplus)).length s v.concluded := by
  have changes := (takeRequest_taken q code body (s.takenAt q (bytesOfBits (requestBits code body surplus)))).changes
    change
  rw [taken] at changes
  obtain ⟨ended, released, follow⟩ := endTransaction_takes q code body surplus s h fits required v taken
  refine ⟨ended, ?_, released, ?_, follow⟩
  · generalize v.tables = tables at changes
    generalize v.ports = ports at changes
    rw [changes]
    rfl
  · change v.log.retire = _
    rw [changes]
    rfl

/-- What a refused change request leaves. -/
def Refused (q : Port) (s t : State) (status : Status) (body : List Byte) : Prop :=
  t.tables = s.tables ∧ (t.port q).executing = (s.port q).executing ∧
    (t.port q).held = some { status := status, body := body, clocked := 0 }

theorem refused_of_answer {q : Port} {bytes : List Byte} {s v : State} {status : Status} {body : List Byte}
    (h : v = (s.takenAt q bytes).answer q status body) : Refused q s v.concluded status body := by
  subst h
  refine ⟨State.answer_tables _ q status body, ?_, ?_⟩
  · change (State.port (State.answer _ q status body) q).executing = _
    rw [State.answer, State.port_setPort_same, State.takenAt_port]
    rfl
  · change (State.port (State.answer _ q status body) q).held = _
    rw [State.answer, State.port_setPort_same]
    rfl

/-- What an accepted change request leaves at its port. -/
def Pends (q : Port) (t : State) (name : RecordName) (revision : BitVec 16) : Prop :=
  (t.port q).held = none ∧ (t.port q).executing = some { record := name, revision := revision }

theorem pends_of_acceptProgram {q : Port} {bytes : List Byte} {s v : State} {p : Fin 16} {content : ProgramRecord}
    (h : v = (s.takenAt q bytes).acceptProgram q p content) :
    v.concluded.tables =
        { s.tables with programs := s.tables.programs.set p (s.tables.programs[p].accept q content) } ∧
      Pends q v.concluded (.program p) (s.tables.programs[p].revision + 1#16) := by
  subst h
  refine ⟨rfl, ?_⟩
  cases q <;> exact ⟨rfl, rfl⟩

theorem pends_of_acceptLink {q : Port} {bytes : List Byte} {s v : State} {l : Fin 8} {content : LinkRecord}
    (h : v = (s.takenAt q bytes).acceptLink q l content) :
    v.concluded.tables =
        { s.tables with links := s.tables.links.set l (s.tables.links[l].accept q content) } ∧
      Pends q v.concluded (.link l) (s.tables.links[l].revision + 1#16) := by
  subst h
  refine ⟨rfl, ?_⟩
  cases q <;> exact ⟨rfl, rfl⟩

theorem pends_of_acceptPolicy {q : Port} {bytes : List Byte} {s v : State} {content : PolicyRecord}
    (h : v = (s.takenAt q bytes).acceptPolicy q content) :
    v.concluded.tables = { s.tables with policy := s.tables.policy.accept q content } ∧
      Pends q v.concluded .policy (s.tables.policy.revision + 1#16) := by
  subst h
  refine ⟨rfl, ?_⟩
  cases q <;> exact ⟨rfl, rfl⟩

/-! ## WRITE PROGRAM (R6, R9, R10, R186) -/

theorem takeRequest_writeProgram (q : Port) (p : Byte) (rev : BitVec 16) (record : List Byte) (u : State) :
    takeRequest q .writeProgram (p :: bytes16 rev ++ record) u = takeWriteProgram q p rev record u := by
  change takeWriteProgram q p (word16 _ _) record u = _
  rw [word16_bytes16]

theorem takeWriteProgram_outside {p : Byte} {record : List Byte} (q : Port) (rev : BitVec 16) (u : State)
    (h : 16 ≤ p.toNat ∨ (programOfBytes record).all (fun r => !r.inRange) = true) :
    takeWriteProgram q p rev record u = u.answer q .range [] := by
  unfold takeWriteProgram
  split
  case h_1 k content index parsed =>
    rcases h with outside | bad
    · rw [indexOf_none 16 p outside] at index
      cases index
    · rw [parsed] at bad
      exact if_neg (by simpa using bad)
  case h_2 => rfl

theorem takeWriteProgram_inside {p : Byte} {record : List Byte} {k : Fin 16} {content : ProgramRecord} (q : Port)
    (rev : BitVec 16) (u : State) (value : k.val = p.toNat) (parsed : programOfBytes record = some content)
    (ranged : content.inRange = true) :
    takeWriteProgram q p rev record u = writeProgramChecked q k rev content u := by
  unfold takeWriteProgram
  rw [indexOf_val 16 p k value, parsed]
  exact if_pos ranged

theorem writeProgramChecked_stale {k : Fin 16} {rev : BitVec 16} {u : State} (q : Port) (content : ProgramRecord)
    (h : rev ≠ u.tables.programs[k].revision) :
    writeProgramChecked q k rev content u = u.answer q .stale (bytes16 u.tables.programs[k].revision) :=
  if_pos h

theorem writeProgramChecked_conflict {k other : Fin 16} {rev : BitVec 16} {content : ProgramRecord}
    {kind : ConflictKind} {u : State} (q : Port) (h : rev = u.tables.programs[k].revision)
    (conflict : u.tables.conflict k content = some (other, kind)) :
    writeProgramChecked q k rev content u = u.answer q .conflict [BitVec.ofNat 8 other.val, kind.byte] := by
  unfold writeProgramChecked
  rw [if_neg (not_not.mpr h), conflict]

theorem writeProgramChecked_accepts {k : Fin 16} {rev : BitVec 16} {content : ProgramRecord} {u : State} (q : Port)
    (h : rev = u.tables.programs[k].revision) (conflict : u.tables.conflict k content = none) :
    writeProgramChecked q k rev content u = u.acceptProgram q k content := by
  unfold writeProgramChecked
  rw [if_neg (not_not.mpr h), conflict]

/-- Settles O39: past the three checks the record is accepted. -/
theorem writeProgramAccepted : Obligations.WriteProgramAccepted := by
  unfold Obligations.WriteProgramAccepted
  intro q p rev record surplus s k content normal formed value parsed ranged current apart
  obtain ⟨fits, required⟩ := requiredLength_writeProgram p rev record formed
  obtain ⟨ended, fields, ends⟩ :=
    endTransaction_change q .writeProgram _ surplus s normal fits required rfl
      (takeRequest_writeProgram q p rev record _)
  obtain ⟨tables, held, executing⟩ := pends_of_acceptProgram (s := s)
    ((takeWriteProgram_inside q rev _ value parsed ranged).trans (writeProgramChecked_accepts q current apart))
  refine ⟨_, congrArg Host.Outcome.next ended, fields, ends, ?_, held, ?_⟩
  · rw [tables, current]
    rfl
  · rw [executing, current]

theorem onlyPorts_of_refused {q : Port} {s t : State} {status : Status} {body : List Byte}
    (fields : t = { s with tables := t.tables, ports := t.ports, log := t.log, pins := t.pins })
    (h : Refused q s t status body) :
    OnlyPortsDiffer s t ∧ (t.port q).executing = (s.port q).executing ∧
      (t.port q).held = some { status := status, body := body, clocked := 0 } := by
  obtain ⟨tables, rest⟩ := h
  refine ⟨?_, rest⟩
  rw [tables] at fields
  exact fields

/-- Settles O40: each check that fails answers its status. -/
theorem writeProgramRefused : Obligations.WriteProgramRefused := by
  unfold Obligations.WriteProgramRefused
  intro q p rev record surplus s normal formed
  obtain ⟨fits, required⟩ := requiredLength_writeProgram p rev record formed
  obtain ⟨ended, fields, ends⟩ :=
    endTransaction_change q .writeProgram _ surplus s normal fits required rfl
      (takeRequest_writeProgram q p rev record _)
  refine ⟨_, congrArg Host.Outcome.next ended, ends, fun outside => ?_, fun k content value parsed ranged => ?_⟩
  · exact onlyPorts_of_refused fields (refused_of_answer (takeWriteProgram_outside q rev _ outside))
  · have inside := fun u => takeWriteProgram_inside q rev u value parsed ranged
    refine ⟨fun stale => ?_, fun current other kind conflict => ?_⟩
    · exact onlyPorts_of_refused fields
        (refused_of_answer ((inside _).trans (writeProgramChecked_stale q content stale)))
    · have refused := onlyPorts_of_refused fields
        (refused_of_answer ((inside _).trans (writeProgramChecked_conflict q current conflict)))
      cases kind <;> exact refused

/-! ## The conflict check (R10, R183) -/

theorem Record.conflict_cases (r : Record ProgramRecord) (new : ProgramRecord) :
    (r.conflict new = some .slot ∧ r.contents.any (slotsMeet new) = true) ∨
      (r.contents.any (slotsMeet new) = false ∧
        (r.conflict new = some .pages ∧ r.contents.any (pagesMeet new) = true ∨ r.conflict new = none)) := by
  unfold Record.conflict
  split
  case isTrue slots => exact .inl ⟨rfl, slots⟩
  case isFalse slots =>
    refine .inr ⟨Bool.eq_false_of_not_eq_true slots, ?_⟩
    split
    case isTrue pages => exact .inl ⟨rfl, pages⟩
    case isFalse => exact .inr rfl

theorem slotsMeet_eq_true (x y : ProgramRecord) : slotsMeet x y = true ↔ ∃ slot ∈ x.outputs, slot ∈ y.outputs := by
  simp [slotsMeet]

theorem pagesMeet_eq_true (x y : ProgramRecord) :
    pagesMeet x y = true ↔ ∃ a b, x.delay = some a ∧ y.delay = some b ∧ ∃ page,
      (a.base ≤ page ∧ page ≤ a.limit) ∧ b.base ≤ page ∧ page ≤ b.limit := by
  unfold pagesMeet
  split
  case h_1 a b first second =>
    rw [DelaySection.meets_iff]
    constructor
    · exact fun pages => ⟨a, b, first, second, pages⟩
    · rintro ⟨a', b', firsts, seconds, pages⟩
      rw [first] at firsts
      rw [second] at seconds
      cases firsts
      cases seconds
      exact pages
  case h_2 lacks =>
    refine iff_of_false Bool.false_ne_true ?_
    rintro ⟨a, b, first, second, -⟩
    exact lacks a b first second

/-- The first of the other programs that conflicts. -/
theorem Tables.conflict_some {t : Tables} {k other : Fin 16} {content : ProgramRecord} {kind : ConflictKind}
    (h : t.conflict k content = some (other, kind)) :
    other ≠ k ∧ t.programs[other].conflict content = some kind ∧
      ∀ q : Fin 16, q ≠ k → q < other → t.programs[q].conflict content = none := by
  unfold Tables.conflict at h
  obtain ⟨before, q, after, order, found, earlier⟩ := List.findSome?_eq_some_iff.mp h
  split at found
  · cases found
  case isFalse different =>
    obtain ⟨kind', conflict, same⟩ := Option.map_eq_some_iff.mp found
    cases same
    refine ⟨different, conflict, fun j own less => ?_⟩
    have sorted : (before ++ other :: after).Pairwise (· < ·) := by
      rw [← order]
      exact List.pairwise_lt_finRange 16
    have place : j ∈ before ++ other :: after := by
      rw [← order]
      exact List.mem_finRange j
    rcases List.mem_append.mp place with front | back
    · have none := earlier j front
      rw [if_neg own] at none
      simpa using none
    · exfalso
      have rest := (List.pairwise_append.mp sorted).2.1
      rcases List.mem_cons.mp back with rfl | later
      · exact lt_irrefl _ less
      · exact lt_asymm less ((List.pairwise_cons.mp rest).1 j later)

theorem Record.conflict_slot (r : Record ProgramRecord) (new : ProgramRecord) (kind : ConflictKind)
    (h : r.conflict new = some kind) :
    (kind = .slot ↔ ∃ y ∈ r.contents, ∃ slot ∈ new.outputs, slot ∈ y.outputs) ∧
      (kind = .pages → ∃ y ∈ r.contents, ∃ a b, new.delay = some a ∧ y.delay = some b ∧ ∃ page,
        (a.base ≤ page ∧ page ≤ a.limit) ∧ b.base ≤ page ∧ page ≤ b.limit) := by
  have slots : r.contents.any (slotsMeet new) = true ↔
      ∃ y ∈ r.contents, ∃ slot ∈ new.outputs, slot ∈ y.outputs := by
    simp only [List.any_eq_true, slotsMeet_eq_true]
  rw [← slots]
  rcases r.conflict_cases new with ⟨slot, meets⟩ | ⟨apart, ⟨pages, meets⟩ | none⟩
  · rw [slot] at h
    cases h
    exact ⟨iff_of_true rfl meets, fun other => by cases other⟩
  · rw [pages] at h
    cases h
    obtain ⟨y, member, meet⟩ := List.any_eq_true.mp meets
    exact ⟨iff_of_false (by decide) (by rw [apart]; decide), fun _ => ⟨y, member,
      (pagesMeet_eq_true new y).mp meet⟩⟩
  · rw [none] at h
    cases h

/-- Settles O41: the check is a search in program order for the first that meets. -/
theorem conflictCheckExact : Obligations.ConflictCheckExact := by
  unfold Obligations.ConflictCheckExact
  intro t k content
  constructor
  · rw [Tables.conflict_eq_none]
    refine forall₂_congr fun q own => ?_
    rw [Record.conflict_eq_none]
    refine forall₂_congr fun y member => ?_
    rw [slotsMeet_eq_false, Bool.eq_false_iff, Ne, pagesMeet_eq_true]
    refine and_congr_right fun _ => ?_
    push Not
    exact Iff.rfl
  · intro other kind conflict
    obtain ⟨different, found, first⟩ := Tables.conflict_some conflict
    exact ⟨different, first, Record.conflict_slot _ _ _ found⟩

/-! ## WRITE LINK and WRITE POLICY (R8, R9, R186) -/

theorem takeRequest_writeLink (q : Port) (l : Byte) (rev : BitVec 16) (record : List Byte) (u : State) :
    takeRequest q .writeLink (l :: bytes16 rev ++ record) u = takeWriteLink q l rev record u := by
  change takeWriteLink q l (word16 _ _) record u = _
  rw [word16_bytes16]

theorem flagOf_none {x : Byte} (h : 1 < x.toNat) : flagOf x = none := by
  unfold flagOf
  rw [if_neg (by rintro rfl; simp at h), if_neg (by rintro rfl; simp at h)]

theorem bandwidthOf_none {x : Byte} (h : 2 < x.toNat) : bandwidthOf x = none := by
  unfold bandwidthOf
  rw [if_neg (by rintro rfl; simp at h), if_neg (by rintro rfl; simp at h), if_neg (by rintro rfl; simp at h)]

theorem linkOfBytes_some {e n b : Byte} {kinds : KindSet} {content : LinkRecord}
    (h : linkOfBytes ([e, n, b] ++ bytes16 kinds) = some content) :
    e.toNat ≤ 1 ∧ b.toNat ≤ 2 ∧ content.slots = n.toNat ∧ content.kinds = kinds := by
  unfold bytes16 at h
  simp only [List.cons_append, List.nil_append, linkOfBytes, word16_bytes16] at h
  split at h
  case h_1 enable bandwidth flag band =>
    cases h
    refine ⟨?_, ?_, rfl, rfl⟩
    · by_contra large
      rw [flagOf_none (by omega)] at flag
      cases flag
    · by_contra large
      rw [bandwidthOf_none (by omega)] at band
      cases band
  case h_2 => cases h

theorem takeWriteLink_outside {l e n b : Byte} {kinds : KindSet} (q : Port) (rev : BitVec 16) (u : State)
    (h : 8 ≤ l.toNat ∨ 1 < e.toNat ∨ n.toNat < 2 ∨ 8 < n.toNat ∨ 2 < b.toNat ∨ kinds &&& ~~~0x0006#16 ≠ 0#16) :
    takeWriteLink q l rev ([e, n, b] ++ bytes16 kinds) u = u.answer q .range [] := by
  unfold takeWriteLink
  split
  case h_1 k content index parsed =>
    obtain ⟨enable, bandwidth, slots, set⟩ := linkOfBytes_some parsed
    have inside : l.toNat < 8 := by
      by_contra outside
      rw [indexOf_none 8 l (by omega)] at index
      cases index
    refine if_pos ?_
    rw [Bool.not_eq_true', Bool.eq_false_iff]
    intro ranged
    unfold LinkRecord.inRange subset at ranged
    simp only [Bool.and_eq_true, decide_eq_true_eq, beq_iff_eq, slots, set] at ranged
    obtain ⟨⟨low, high⟩, allowed⟩ := ranged
    rcases h with h | h | h | h | h | h
    case inr.inr.inr.inr.inr => exact h allowed
    all_goals omega
  case h_2 => rfl

theorem takeWriteLink_inside {l : Byte} {record : List Byte} {k : Fin 8} {content : LinkRecord} (q : Port)
    (rev : BitVec 16) (u : State) (value : k.val = l.toNat) (parsed : linkOfBytes record = some content)
    (ranged : content.inRange = true) :
    takeWriteLink q l rev record u =
      if rev ≠ u.tables.links[k].revision then u.answer q .stale (bytes16 u.tables.links[k].revision)
      else u.acceptLink q k content := by
  unfold takeWriteLink
  rw [indexOf_val 8 l k value, parsed]
  exact if_neg (by rw [ranged]; decide)

/-- Settles O42: the fields' ranges, then the revision. -/
theorem writeLinkChecked : Obligations.WriteLinkChecked := by
  unfold Obligations.WriteLinkChecked
  intro q l rev e n b kinds surplus s normal
  let body := l :: bytes16 rev ++ ([e, n, b] ++ bytes16 kinds)
  let u := s.takenAt q (bytesOfBits (requestBits .writeLink body surplus))
  obtain ⟨ended, fields, ends⟩ := endTransaction_change q .writeLink body surplus s normal (by simp [body]) rfl rfl
    (takeRequest_writeLink q l rev _ u)
  refine ⟨_, congrArg Host.Outcome.next ended, fields, ends, fun outside => ?_,
    fun k content value parsed ranged => ?_⟩
  · exact refused_of_answer (takeWriteLink_outside q rev u outside)
  · have inside := takeWriteLink_inside q rev u value parsed ranged
    refine ⟨fun stale => refused_of_answer (inside.trans (if_pos stale)), fun current => ?_⟩
    obtain ⟨tables, held, executing⟩ := pends_of_acceptLink (s := s) (inside.trans (if_neg (not_not.mpr current)))
    refine ⟨?_, held, ?_⟩
    · rw [tables, current]
      rfl
    · rw [executing, current]

theorem takeRequest_writePolicy (q : Port) (rev : BitVec 16) (record : List Byte) (u : State) :
    takeRequest q .writePolicy (bytes16 rev ++ record) u = takeWritePolicy q rev record u := by
  change takeWritePolicy q (word16 _ _) record u = _
  rw [word16_bytes16]

theorem takeWritePolicy_outside {record : List Byte} (q : Port) (rev : BitVec 16) (u : State)
    (h : (policyOfBytes record).all (fun r => !r.inRange) = true) :
    takeWritePolicy q rev record u = u.answer q .range [] := by
  unfold takeWritePolicy
  split
  case h_1 content parsed =>
    rw [parsed] at h
    exact if_pos h
  case h_2 => rfl

theorem takeWritePolicy_inside {record : List Byte} {content : PolicyRecord} (q : Port) (rev : BitVec 16)
    (u : State)
    (parsed : policyOfBytes record = some content) (ranged : content.inRange = true) :
    takeWritePolicy q rev record u =
      if rev ≠ u.tables.policy.revision then u.answer q .stale (bytes16 u.tables.policy.revision)
      else u.acceptPolicy q content := by
  unfold takeWritePolicy
  rw [parsed]
  exact if_neg (by rw [ranged]; decide)

/-- Settles O43: the record's ranges, then the revision. -/
theorem writePolicyChecked : Obligations.WritePolicyChecked := by
  unfold Obligations.WritePolicyChecked
  intro q rev record surplus s normal formed
  have length : record.length = 74 := by simpa [Instr.wellFormed] using formed
  let u := s.takenAt q (bytesOfBits (requestBits .writePolicy (bytes16 rev ++ record) surplus))
  obtain ⟨ended, fields, ends⟩ := endTransaction_change q .writePolicy (bytes16 rev ++ record) surplus s normal
    (by simp [length]) (by simp [requiredLength, length]) rfl (takeRequest_writePolicy q rev record u)
  refine ⟨_, congrArg Host.Outcome.next ended, fields, ends, fun outside => ?_, fun content parsed ranged => ?_⟩
  · exact refused_of_answer (takeWritePolicy_outside q rev u outside)
  · have inside := takeWritePolicy_inside q rev u parsed ranged
    refine ⟨fun stale => refused_of_answer (inside.trans (if_pos stale)), fun current => ?_⟩
    obtain ⟨tables, held, executing⟩ := pends_of_acceptPolicy (s := s) (inside.trans (if_neg (not_not.mpr current)))
    refine ⟨?_, held, ?_⟩
    · rw [tables, current]
      rfl
    · rw [executing, current]

/-! ## SET DELAY and SET TARGET (R187) -/

theorem takeRequest_setDelay (q : Port) (p : Byte) (frames : BitVec 32) (u : State) :
    takeRequest q .setDelay (p :: bytes32 frames) u = takeSetDelay q p frames u := by
  change takeSetDelay q p (word32 _ _ _ _) u = _
  rw [word32_bytes32]

theorem takeRequest_setTarget (q : Port) (p : Byte) (tenths : BitVec 16) (u : State) :
    takeRequest q .setTarget (p :: bytes16 tenths) u = takeSetTarget q p tenths u := by
  change takeSetTarget q p (word16 _ _) u = _
  rw [word16_bytes16]

theorem takeSetDelay_outside {p : Byte} {frames : BitVec 32} {u : State} (q : Port)
    (h : 16 ≤ p.toNat ∨ 240000 < frames.toNat ∨
      ∃ k : Fin 16, k.val = p.toNat ∧ u.tables.programs[k].newest.delay = none) :
    takeSetDelay q p frames u = u.answer q .range [] := by
  unfold takeSetDelay
  split
  case h_1 => rfl
  case h_2 k index =>
    rcases h with outside | large | ⟨j, value, lacks⟩
    · rw [indexOf_none 16 p outside] at index
      cases index
    · exact if_pos large
    · rw [indexOf_val 16 p j value] at index
      cases index
      split
      · rfl
      · rw [ProgramRecord.withDelay, lacks]
        rfl

theorem takeSetDelay_inside {p : Byte} {frames : BitVec 32} {u : State} {k : Fin 16} {x : DelaySection} (q : Port)
    (value : k.val = p.toNat) (small : frames.toNat ≤ 240000)
    (section_ : u.tables.programs[k].newest.delay = some x) :
    takeSetDelay q p frames u = u.acceptProgram q k
      { u.tables.programs[k].newest with delay := some { x with target := frames.toNat } } := by
  unfold takeSetDelay
  rw [indexOf_val 16 p k value]
  change (if 240000 < frames.toNat then _ else _) = _
  rw [if_neg (Nat.not_lt.mpr small), ProgramRecord.withDelay, section_]
  rfl

theorem takeSetTarget_outside {p : Byte} {tenths : BitVec 16} {u : State} (q : Port)
    (h : 16 ≤ p.toNat ∨ tenths.toInt < -400 ∨ -50 < tenths.toInt ∨
      ∃ k : Fin 16, k.val = p.toNat ∧ u.tables.programs[k].newest.loudness = none) :
    takeSetTarget q p tenths u = u.answer q .range [] := by
  unfold takeSetTarget
  split
  case h_1 => rfl
  case h_2 k index =>
    rcases h with outside | low | high | ⟨j, value, lacks⟩
    · rw [indexOf_none 16 p outside] at index
      cases index
    · exact if_pos (.inl low)
    · exact if_pos (.inr high)
    · rw [indexOf_val 16 p j value] at index
      cases index
      split
      · rfl
      · rw [ProgramRecord.withTarget, lacks]
        rfl

theorem takeSetTarget_inside {p : Byte} {tenths : BitVec 16} {u : State} {k : Fin 16} {x : Loudness} (q : Port)
    (value : k.val = p.toNat) (low : -400 ≤ tenths.toInt) (high : tenths.toInt ≤ -50)
    (section_ : u.tables.programs[k].newest.loudness = some x) :
    takeSetTarget q p tenths u = u.acceptProgram q k
      { u.tables.programs[k].newest with loudness := some { x with target := tenths.toInt } } := by
  unfold takeSetTarget
  rw [indexOf_val 16 p k value]
  change (if tenths.toInt < -400 ∨ -50 < tenths.toInt then _ else _) = _
  rw [if_neg (by omega), ProgramRecord.withTarget, section_]
  rfl

/-- Settles O44: a SET is the acceptance of the base content with one field replaced. -/
theorem setsLandOnBaseContent : Obligations.SetsLandOnBaseContent := by
  unfold Obligations.SetsLandOnBaseContent
  refine ⟨fun q p frames surplus s normal => ?_, fun q p tenths surplus s normal => ?_⟩
  · obtain ⟨ended, fields, ends⟩ := endTransaction_change q .setDelay (p :: bytes32 frames) surplus s normal
      (by simp) rfl rfl (takeRequest_setDelay q p frames _)
    refine ⟨_, congrArg Host.Outcome.next ended, fields, ends, fun outside => ?_, fun k x value small some => ?_⟩
    · exact refused_of_answer (takeSetDelay_outside q outside)
    · exact pends_of_acceptProgram (s := s) (takeSetDelay_inside q value small some)
  · obtain ⟨ended, fields, ends⟩ := endTransaction_change q .setTarget (p :: bytes16 tenths) surplus s normal
      (by simp) rfl rfl (takeRequest_setTarget q p tenths _)
    refine ⟨_, congrArg Host.Outcome.next ended, fields, ends, fun outside => ?_, fun k x value low high some => ?_⟩
    · exact refused_of_answer (takeSetTarget_outside q outside)
    · exact pends_of_acceptProgram (s := s) (takeSetTarget_inside q value low high some)

end Sys2Proof.Machine
end

section
/-! The requests on meters, the log and attention, and PORT RESET (R77, R168 to R174, R189, R191 to R193). -/

namespace Sys2Proof.Machine

/-- A request that changes a part of the state and then answers: its port is released, and retirement is tested
on the log that it leaves. -/
theorem endTransaction_answersFrom (q : Port) (code : RequestCode) (body : List Byte) (surplus : List Bool)
    (s w : State) (h : s.InNormal q) (fits : body.length < 65536)
    (required : requiredLength code body = some body.length)
    (ports : w.ports = (s.takenAt q (bytesOfBits (requestBits code body surplus))).ports) (status : Status)
    (answer : List Byte)
    (taken : takeRequest q code body (s.takenAt q (bytesOfBits (requestBits code body surplus))) =
      w.answer q status answer) :
    ∃ t, endTransaction q (requestBits code body surplus) s = t ∧
      t = { w with ports := t.ports, log := w.log.retire, pins := t.pins } ∧
      PortReleased q (bytesOfBits (requestBits code body surplus)).length s t ∧ PinsFollow s t ∧
      (t.port q).executing = (s.port q).executing ∧
      (t.port q).held = some { status := status, body := answer, clocked := 0 } := by
  obtain ⟨ended, released, follow⟩ := endTransaction_takes q code body surplus s h fits required _ taken
  refine ⟨(w.answer q status answer).concluded, ended, rfl, released, follow, ?_, ?_⟩
  · change (State.port (State.answer _ q status answer) q).executing = _
    rw [State.answer, State.port_setPort_same, State.port, ports, ← State.port, State.takenAt_port]
    rfl
  · change (State.port (State.answer _ q status answer) q).held = _
    rw [State.answer, State.port_setPort_same]
    rfl

/-! ## RESET METER (R77, R189) -/

/-- The meters after a RESET METER of a number, 255 for all (R189). -/
def resetMeters (p : Byte) (meters : Vector Meter 16) : Vector Meter 16 :=
  Vector.ofFn fun k : Fin 16 => if k.val = p.toNat ∨ p = 255#8 then meters[k].markClear else meters[k]

theorem resetMeters_get (p : Byte) (meters : Vector Meter 16) (k : Fin 16) :
    (resetMeters p meters)[k] = if k.val = p.toNat ∨ p = 255#8 then meters[k].markClear else meters[k] := by
  simp [resetMeters]

theorem takeResetMeter_eq (q : Port) (p : Byte) (u : State) :
    takeResetMeter q p u =
      State.answer { u with meters := resetMeters p u.meters } q
        (if p.toNat < 16 ∨ p = 255#8 then .done else .range) [] := by
  unfold takeResetMeter
  by_cases every : p = 255#8
  · have all : resetMeters p u.meters = u.markAll.meters := by
      simp only [resetMeters, every, or_true, if_true]
      rfl
    rw [if_pos every, all, if_pos (.inr every)]
    rfl
  rw [if_neg every]
  by_cases inside : p.toNat < 16
  · have one : resetMeters p u.meters = u.meters.set (⟨p.toNat, inside⟩ : Fin 16) u.meters[p.toNat].markClear := by
      ext1 k hk
      rw [Vector.getElem_set]
      have entry := resetMeters_get p u.meters ⟨k, hk⟩
      simp only [Fin.getElem_fin, every, or_false] at entry
      rw [entry]
      by_cases same : k = p.toNat
      · subst same; simp
      · simp [same, Ne.symm same]
    rw [indexOf_val 16 p ⟨p.toNat, inside⟩ rfl, one, if_pos (.inl inside)]
    rfl
  · have same : resetMeters p u.meters = u.meters := by
      ext1 k hk
      have entry := resetMeters_get p u.meters ⟨k, hk⟩
      rwa [if_neg (by simp only [every, or_false]; omega)] at entry
    rw [indexOf_none 16 p (by omega), same, if_neg (by simp only [every, or_false]; exact inside)]

/-- Settles O45: the meters that the number names are marked, and no other. -/
theorem resetMeterMarksClear : Obligations.ResetMeterMarksClear := by
  unfold Obligations.ResetMeterMarksClear
  intro q p surplus s normal
  let u := s.takenAt q (bytesOfBits (requestBits .resetMeter [p] surplus))
  obtain ⟨t, ended, fields, released, follow, executing, held⟩ := endTransaction_answersFrom q .resetMeter [p]
    surplus s { u with meters := resetMeters p u.meters } normal (by simp) rfl rfl _ [] (takeResetMeter_eq q p u)
  have meters : t.meters = resetMeters p s.meters := by rw [fields]; rfl
  have log : LogAttended q s t := by
    unfold LogAttended
    rw [fields]
    rfl
  refine ⟨t, congrArg Host.Outcome.next ended, ?_, ⟨released, log, follow⟩, executing, fun k named => ?_,
    fun k other single => ?_, fun named => ?_, fun outside single => ?_⟩
  · rw [fields]
    rfl
  · rw [meters, resetMeters_get, if_pos named]
    rfl
  · rw [meters, resetMeters_get, if_neg (by simp only [other, single, or_self, not_false_eq_true])]
  · rw [held, if_pos named]
  · rw [held, if_neg (by simp only [single, or_false]; omega)]

/-! ## FETCH ALARMS and SET ATTENTION (R168, R169, R171, R191, R192) -/

theorem AlarmLog.fetchBody_eq (log : AlarmLog) (q : Port) (n : Nat) :
    log.fetchBody q n =
      BitVec.ofNat 8 ((log.delivered q n).length + if 0 < (log.ports.get q).missed then 1 else 0) ::
        BitVec.ofNat 8 (log.unread q - (log.delivered q n).length) ::
          ((if 0 < (log.ports.get q).missed then overrunBytes (log.overrun q) else []) ++
            (log.delivered q n).flatMap fun e => e.entry.bytes) := by
  have unread : (log.advance q n).unread q = log.unread q - (log.delivered q n).length := by
    simp only [AlarmLog.unread, AlarmLog.advance, Pair.get_set_same, Nat.sub_sub]
  unfold AlarmLog.fetchBody
  rw [unread]
  split
  · simp only [List.singleton_append, List.length_cons, List.length_map, List.flatten_cons, List.flatMap_def]
  · simp only [List.nil_append, List.length_map, List.flatMap_def, Nat.add_zero]

theorem AlarmLog.attend_fetchBody (log : AlarmLog) (q : Port) (n : Nat) :
    (log.attend q).fetchBody q n = log.fetchBody q n := by
  have place : ((log.attend q).ports.get q).missed = (log.ports.get q).missed := by simp [AlarmLog.attend]
  have unread : (log.attend q).unread q = log.unread q := by simp [AlarmLog.unread, AlarmLog.attend]
  rw [AlarmLog.fetchBody_eq, AlarmLog.fetchBody_eq, AlarmLog.attend_delivered, AlarmLog.attend_overrun,
    place, unread]

theorem AlarmLog.attend_advance (log : AlarmLog) (q : Port) (n : Nat) :
    (log.attend q).advance q n =
      { log with
        ports := log.ports.set q
          { log.ports.get q with
            attending := true
            timer := 0
            cursor := (log.ports.get q).cursor + (log.delivered q n).length
            missed := (log.ports.get q).missed - log.overrun q } } := by
  rw [AlarmLog.advance, AlarmLog.attend_delivered, AlarmLog.attend_overrun]
  simp only [AlarmLog.attend, Pair.get_set_same, Pair.set_set]

/-- Settles O46: the fetch is taken on the log that its port attends. -/
theorem fetchDelivers : Obligations.FetchDelivers := by
  unfold Obligations.FetchDelivers
  intro q n surplus s normal
  let u := s.takenAt q (bytesOfBits (requestBits .fetchAlarms [n] surplus))
  by_cases inside : 1 ≤ n.toNat ∧ n.toNat ≤ 8
  · have taken : takeRequest q .fetchAlarms [n] u =
        State.answer ({ u with log := u.log.advance q n.toNat } : State) q .done (u.log.fetchBody q n.toNat) :=
      if_pos inside
    obtain ⟨t, ended, fields, released, follow, executing, held⟩ := endTransaction_answersFrom q .fetchAlarms [n]
      surplus s { u with log := u.log.advance q n.toNat } normal (by simp) rfl rfl _ _ taken
    refine ⟨t, congrArg Host.Outcome.next ended, ?_, released, follow, executing, fun outside => ?_,
      fun _ _ => ⟨_, _, rfl, rfl, ?_, ?_⟩⟩
    · unfold OnlyPortsDiffer
      rw [fields]
      rfl
    · omega
    · have log : t.log = ((s.log.attend q).advance q n.toNat).retire := by rw [fields]; rfl
      rw [log, AlarmLog.attend_advance]
      rfl
    · rw [held]
      change some ({ status := .done, body := (s.log.attend q).fetchBody q n.toNat, clocked := 0 } : Response) = _
      rw [AlarmLog.attend_fetchBody, AlarmLog.fetchBody_eq]
      rfl
  · have taken : takeRequest q .fetchAlarms [n] u = u.answer q .range [] := if_neg inside
    obtain ⟨t, ended, only, ⟨released, log, follow⟩, executing, held⟩ := endTransaction_answers q .fetchAlarms [n]
      surplus s normal (by simp) rfl .range [] taken
    exact ⟨t, congrArg Host.Outcome.next ended, only, released, follow, executing, fun _ => ⟨log, held⟩,
      fun low high => absurd ⟨low, high⟩ inside⟩

theorem severityOf_rank {x : Byte} {severity : Severity} (h : severity.rank = x.toNat) :
    severityOf x = some severity := by
  have value : x = BitVec.ofNat 8 severity.rank := by rw [h, BitVec.ofNat_toNat, BitVec.setWidth_eq]
  subst value
  cases severity <;> rfl

theorem severityOf_large {x : Byte} (h : 2 < x.toNat) : severityOf x = none := by
  unfold severityOf
  rw [if_neg (by rintro rfl; simp at h), if_neg (by rintro rfl; simp at h), if_neg (by rintro rfl; simp at h)]

theorem takeRequest_setAttention (q : Port) (mask : KindSet) (threshold : Byte) (u : State) :
    takeRequest q .setAttention (bytes16 mask ++ [threshold]) u = takeSetAttention q mask threshold u := by
  change takeSetAttention q (word16 _ _) threshold u = _
  rw [word16_bytes16]

theorem retireFrom_settings (entries : List LogEntry) (places : Pair LogPort) (q : Port) :
    ((retireFrom entries places).2.get q).mask = (places.get q).mask ∧
      ((retireFrom entries places).2.get q).threshold = (places.get q).threshold := by
  induction entries generalizing places with
  | nil => exact ⟨rfl, rfl⟩
  | cons oldest rest ih =>
    unfold retireFrom
    split
    · obtain ⟨mask, threshold⟩ := ih (departed places oldest.number)
      rw [mask, threshold, departed_get]
      unfold LogPort.depart
      split <;> exact ⟨rfl, rfl⟩
    · exact ⟨rfl, rfl⟩

theorem AlarmLog.retire_settings (log : AlarmLog) (q : Port) :
    (log.retire.ports.get q).mask = (log.ports.get q).mask ∧
      (log.retire.ports.get q).threshold = (log.ports.get q).threshold :=
  retireFrom_settings log.entries log.ports q

/-- Settles O47: the mask and the threshold are checked first, and the one entry of the log's places changes. -/
theorem setAttentionReplaces : Obligations.SetAttentionReplaces := by
  unfold Obligations.SetAttentionReplaces
  intro q mask threshold surplus s normal
  let body := bytes16 mask ++ [threshold]
  let u := s.takenAt q (bytesOfBits (requestBits .setAttention body surplus))
  have request := takeRequest_setAttention q mask threshold u
  unfold takeSetAttention at request
  split at request
  case h_1 severity allowed value =>
    have kinds : mask &&& ~~~0x1FFE#16 = 0#16 := eq_of_beq allowed
    obtain ⟨t, ended, fields, released, follow, executing, held⟩ := endTransaction_answersFrom q .setAttention body
      surplus s (u.setPlace q { u.place q with mask := mask, threshold := severity }) normal
      (by simp [body]) rfl rfl
      _ _ request
    have log : t.log = AlarmLog.retire
        { s.log with
          ports := s.log.ports.set q
            { s.place q with attending := true, timer := 0, mask := mask, threshold := severity } } := by
      have left : t.log =
          AlarmLog.retire (u.setPlace q { u.place q with mask := mask, threshold := severity }).log := by
        rw [fields]
      rw [left, State.setPlace_log, State.place, State.takenAt_log, AlarmLog.attend]
      simp only [Pair.get_set_same, Pair.set_set]
      rfl
    have place (v : LogPort) : (((AlarmLog.retire { s.log with ports := s.log.ports.set q v }).ports.get q).mask =
        v.mask) ∧ ((AlarmLog.retire { s.log with ports := s.log.ports.set q v }).ports.get q).threshold =
          v.threshold := by
      obtain ⟨mask, threshold⟩ := AlarmLog.retire_settings { s.log with ports := s.log.ports.set q v } q
      rw [mask, threshold, Pair.get_set_same]
      exact ⟨rfl, rfl⟩
    refine ⟨t, congrArg Host.Outcome.next ended, ?_, released, follow, executing, fun outside => ?_,
      fun _ x rank => ?_⟩
    · unfold OnlyPortsDiffer
      rw [fields]
      rfl
    · rcases outside with other | large
      · exact absurd kinds other
      · rw [severityOf_large large] at value
        cases value
    · rw [severityOf_rank rank] at value
      cases value
      refine ⟨held, ?_, ?_, log⟩
      · rw [State.place, log]
        exact (place _).1
      · rw [State.place, log]
        exact (place _).2
  case h_2 fails =>
    obtain ⟨t, ended, only, ⟨released, log, follow⟩, executing, held⟩ := endTransaction_answers q .setAttention body
      surplus s normal (by simp [body]) rfl .range [] request
    refine ⟨t, congrArg Host.Outcome.next ended, only, released, follow, executing, fun _ => ⟨log, held⟩,
      fun kinds x rank => ?_⟩
    exact (fails x (beq_iff_eq.mpr kinds) (severityOf_rank rank)).elim

end Sys2Proof.Machine
end

section
/-! PORT RESET (R22, R174, R181, R193). -/

namespace Sys2Proof.Machine

/-! ## What the port's departure from its list leaves -/

/-- The tables but for the waiting ports of their records are those of the tables before. -/
structure Tables.OnlyWaiting (before after : Tables) : Prop where
  programs : ∀ p : Fin 16, after.programs[p] = { before.programs[p] with waiting := after.programs[p].waiting }
  links : ∀ l : Fin 8, after.links[l] = { before.links[l] with waiting := after.links[l].waiting }
  policy : after.policy = { before.policy with waiting := after.policy.waiting }

theorem Tables.OnlyWaiting.refl (tables : Tables) : tables.OnlyWaiting tables := ⟨fun _ => rfl, fun _ => rfl, rfl⟩

theorem State.leaveList_onlyWaiting (u : State) (q : Port) (name : RecordName) :
    u.tables.OnlyWaiting (u.leaveList q name).tables := by
  cases name with
  | program p =>
    refine ⟨fun k => ?_, fun _ => rfl, rfl⟩
    change (u.tables.programs.set p (u.tables.programs[p].leave q))[k] = { u.tables.programs[k] with
      waiting := (u.tables.programs.set p (u.tables.programs[p].leave q))[k].waiting }
    simp only [Fin.getElem_fin, Vector.getElem_set]
    split
    · rename_i same
      rw [Fin.ext same]
      rfl
    · rfl
  | link l =>
    refine ⟨fun _ => rfl, fun k => ?_, rfl⟩
    change (u.tables.links.set l (u.tables.links[l].leave q))[k] = { u.tables.links[k] with
      waiting := (u.tables.links.set l (u.tables.links[l].leave q))[k].waiting }
    simp only [Fin.getElem_fin, Vector.getElem_set]
    split
    · rename_i same
      rw [Fin.ext same]
      rfl
    · rfl
  | policy => exact ⟨fun _ => rfl, fun _ => rfl, rfl⟩

theorem State.dropExecuting_onlyWaiting (u : State) (q : Port) :
    u.tables.OnlyWaiting (u.dropExecuting q).tables := by
  unfold State.dropExecuting
  split
  · exact .refl _
  · exact u.leaveList_onlyWaiting q _

theorem State.dropExecuting_waitingOn (u : State) (q : Port) (name : RecordName) :
    (u.dropExecuting q).tables.waitingOn name =
      if (u.port q).executing.any (fun x => x.record == name) = true then
        (u.tables.waitingOn name).filter fun w => w.port != q
      else u.tables.waitingOn name := by
  unfold State.dropExecuting
  split
  case h_1 idle => rw [idle]; rfl
  case h_2 x runs =>
    rw [State.setPort_tables, State.leaveList_waitingOn, runs]
    simp only [Option.any_some, beq_iff_eq]
    exact if_congr eq_comm rfl rfl

theorem State.leaveList_fields (u : State) (q : Port) (name : RecordName) :
    u.leaveList q name = { u with tables := (u.leaveList q name).tables } := by
  cases name <;> rfl

theorem State.dropExecuting_fields (u : State) (q : Port) :
    u.dropExecuting q = { u with tables := (u.dropExecuting q).tables, ports := (u.dropExecuting q).ports } := by
  unfold State.dropExecuting
  cases (u.port q).executing with
  | none => rfl
  | some x =>
    dsimp only
    rw [State.setPort, u.leaveList_fields q x.record]

/-! ## PORT RESET -/

theorem takePortReset_fields (q : Port) (u : State) :
    takePortReset q u =
      { u with
        tables := (u.dropExecuting q).tables
        ports := (takePortReset q u).ports
        log := (takePortReset q u).log } := by
  have dropped := u.dropExecuting_fields q
  unfold takePortReset
  generalize u.dropExecuting q = d at dropped ⊢
  rw [dropped]
  rfl

theorem takePortReset_port (q : Port) (u : State) (idle : ((u.dropExecuting q).port q).executing = none) :
    ((takePortReset q u).port q).executing = none ∧
      ((takePortReset q u).port q).held = some { status := .done, body := [], clocked := 0 } := by
  unfold takePortReset State.answer
  rw [State.port_setPort_same]
  exact ⟨idle, rfl⟩

theorem State.dropExecuting_idle (u : State) (q : Port) : ((u.dropExecuting q).port q).executing = none := by
  unfold State.dropExecuting
  split
  case h_1 idle => exact idle
  case h_2 => rw [State.port_setPort_same]

theorem completesPortReset_requestBits (surplus : List Bool) :
    completesPortReset (bytesOfBits (requestBits .portReset [] surplus)) = true := by
  rw [bytesOfBits_requestBits]
  rfl

/-- The release of select after a PORT RESET takes it, on a port without a pending change and on a pending one
alike (R181); `u` is the released state without or with the held response. -/
theorem endTransaction_portReset (q : Port) (surplus : List Bool) (s : State) (released : s.resetAsserted = false)
    (awaits : (s.port q).transaction = .normal ∧ (s.port q).executing = none ∨
      (s.port q).transaction = .pending) :
    ∃ u held, u = (s.releasedAt q (bytesOfBits (requestBits .portReset [] surplus))).setPort q
        { (s.port q).release (bytesOfBits (requestBits .portReset [] surplus)).length with held := held } ∧
      endTransaction q (requestBits .portReset [] surplus) s = (takePortReset q u).concluded ∧
      PortReleased q (bytesOfBits (requestBits .portReset [] surplus)).length s (takePortReset q u).concluded ∧
      PinsFollow s (takePortReset q u).concluded := by
  rcases awaits with ⟨normal, -⟩ | pending
  · obtain ⟨ended, follows⟩ := endTransaction_takes q .portReset [] surplus s ⟨released, normal⟩ (by simp)
      rfl _ rfl
    refine ⟨s.takenAt q _, none, ?_, ended, follows⟩
    rw [State.takenAt, State.releasedAt_port]
  · have taken (u : State) :
      takePending q (bytesOfBits (requestBits .portReset [] surplus)) u = takePortReset q u := by
      rw [takePending, completesPortReset_requestBits]
      rfl
    have ended := endTransaction_pending q (requestBits .portReset [] surplus) s released pending
    have follows := s.finishTransaction_released q (bytesOfBits (requestBits .portReset [] surplus))
      (takePending q (bytesOfBits (requestBits .portReset [] surplus)))
        (by rw [taken]; exact takePortReset_answers q _)
    rw [State.finishTransaction_concluded, taken] at ended follows
    refine ⟨s.releasedAt q _, (s.port q).held, ?_, ended, follows⟩
    cases q <;> rfl

/-- Settles O48: whatever the port held and executed, its input is taken as a PORT RESET of the released state. -/
theorem portResetTaken : Obligations.PortResetTaken := by
  unfold Obligations.PortResetTaken
  intro q surplus s released awaits
  obtain ⟨u, held, start, ended, port, follow⟩ := endTransaction_portReset q surplus s released awaits
  have tables : u.tables = s.tables := by rw [start]; rfl
  have executing : (u.port q).executing = (s.port q).executing := by
    rw [start, State.port_setPort_same]
    rfl
  have log : u.log = s.log.attend q := by rw [start]; rfl
  obtain ⟨idle, answered⟩ := takePortReset_port q u (u.dropExecuting_idle q)
  obtain ⟨programs, links, policy⟩ := u.dropExecuting_onlyWaiting q
  rw [tables] at programs links policy
  refine ⟨(takePortReset q u).concluded, congrArg Host.Outcome.next ended, ?_, port, follow, idle, answered, ?_,
    fun name => ?_, programs, links, policy⟩
  · rw [takePortReset_fields, start]
    rfl
  · change (takePortReset q u).log.retire = _
    rw [takePortReset_log, log, AlarmLog.attend]
    simp only [Pair.get_set_same, Pair.set_set]
    rfl
  · change (u.dropExecuting q).tables.waitingOn name = _
    rw [u.dropExecuting_waitingOn, executing, tables]

end Sys2Proof.Machine
end

section
/-! READ CONDITIONS (R159, R190). -/

namespace Sys2Proof.Machine

/-- The place of the subject group of a condition among the twenty-five (R140, R159). -/
def groupIndex (i : Fin 129) : Nat :=
  if i.val = 0 then 0 else if i.val < 17 then 1 + (i.val - 1) / 2 else 9 + (i.val - 17) / 7

theorem subjectGroups_nodup : subjectGroups.Nodup := by decide

theorem subjectGroups_length : subjectGroups.length = 25 := by decide

theorem subjectGroups_groupIndex :
    ∀ i : Fin 129, subjectGroups[groupIndex i]? = some (conditionSubject i) := by decide +kernel

theorem conditionSubject_eq_iff (j : Fin 25) (i : Fin 129) :
    conditionSubject i = subjectGroups[j.val]'(by rw [subjectGroups_length]; exact j.isLt) ↔
      j.val = groupIndex i := by
  have inside : j.val < subjectGroups.length := by rw [subjectGroups_length]; exact j.isLt
  have entry := subjectGroups_groupIndex i
  refine ⟨fun same => ?_, fun same => ?_⟩
  · rw [same, ← List.getElem?_eq_getElem inside] at entry
    exact (List.getElem?_inj inside subjectGroups_nodup).mp entry.symm
  · rw [← same, List.getElem?_eq_getElem inside] at entry
    exact (Option.some.inj entry).symm

theorem groupPlaces_eq_filter (j : Fin 25) (group : Fin 129 → Bool)
    (members : ∀ i : Fin 129, group i = true ↔ j.val = groupIndex i) :
    groupPlaces (subjectGroups[j.val]'(by rw [subjectGroups_length]; exact j.isLt)) =
      (List.finRange 129).filter group := by
  refine List.filter_congr fun i _ => ?_
  rw [Bool.eq_iff_iff, beq_iff_eq, conditionSubject_eq_iff, members]

/-- The entries of a list of pairs laid end to end. -/
theorem getElem?_flatMap_pair {α β : Type} (first second : α → β) (xs : List α) (j : Nat) :
    (xs.flatMap fun x => [first x, second x])[2 * j]? = xs[j]?.map first ∧
      (xs.flatMap fun x => [first x, second x])[2 * j + 1]? = xs[j]?.map second := by
  induction xs generalizing j with
  | nil => exact ⟨rfl, rfl⟩
  | cons x xs ih =>
    cases j with
    | zero => exact ⟨rfl, rfl⟩
    | succ j => exact ih j

theorem State.highestByte_of (s : State) (places : List (Fin 129)) (raised : Severity → Prop)
    (counted : ∀ x, raised x ↔ (places.any (s.counts · x)) = true) :
    (raised .major → s.highestByte places = 2#8) ∧
      (¬ raised .major → raised .minor → s.highestByte places = 1#8) ∧
      (¬ raised .major → ¬ raised .minor → raised .note → s.highestByte places = 0#8) ∧
      ((∀ x, ¬ raised x) → s.highestByte places = 255#8) := by
  unfold State.highestByte
  have absent (x : Severity) (quiet : ¬ raised x) : ¬ places.any (s.counts · x) = true := by rwa [← counted]
  refine ⟨fun major => ?_, fun quiet minor => ?_, fun quiet still note => ?_, fun none => ?_⟩
  · rw [if_pos ((counted _).mp major)]; rfl
  · rw [if_neg (absent _ quiet), if_pos ((counted _).mp minor)]; rfl
  · rw [if_neg (absent _ quiet), if_neg (absent _ still), if_pos ((counted _).mp note)]; rfl
  · rw [if_neg (absent _ (none _)), if_neg (absent _ (none _)), if_neg (absent _ (none _))]

theorem State.any_counts (s : State) (group : Fin 129 → Bool) (x : Severity) :
    ((List.finRange 129).filter group).any (s.counts · x) = true ↔
      ∃ i, group i = true ∧ s.conditions[i].raised = true ∧ s.tables.monitored i = true ∧
        (s.policy.kind (conditionKind i)).severity = x := by
  simp only [List.any_eq_true, List.mem_filter, List.mem_finRange, true_and, State.counts, Bool.and_eq_true,
    beq_iff_eq, and_assoc]
  rfl

theorem State.summaries_length (s : State) : (subjectGroups.flatMap s.groupBytes).length = 50 := by
  rw [List.length_flatMap]
  change (subjectGroups.map fun _ => 2).sum = 50
  rw [List.map_const', List.sum_replicate, subjectGroups_length]
  rfl

/-- The two bytes of the group in place `j`. -/
theorem State.conditionBytes_group (s : State) (j : Fin 25) :
    s.conditionBytes[2 * j.val]? = some (BitVec.ofNat 8
        ((groupPlaces (subjectGroups[j.val]'(by rw [subjectGroups_length]; exact j.isLt))).countP
          fun i => s.conditions[i].raised)) ∧
      s.conditionBytes[2 * j.val + 1]? =
        some (s.highestByte (groupPlaces (subjectGroups[j.val]'(by rw [subjectGroups_length]; exact j.isLt)))) := by
  have inside : j.val < subjectGroups.length := by rw [subjectGroups_length]; exact j.isLt
  have length := s.summaries_length
  obtain ⟨count, highest⟩ := getElem?_flatMap_pair
    (fun subject => BitVec.ofNat 8 ((groupPlaces subject).countP fun i => s.conditions[i].raised))
    (fun subject => s.highestByte (groupPlaces subject)) subjectGroups j.val
  rw [List.getElem?_eq_getElem inside] at count highest
  rw [State.conditionBytes, List.getElem?_append_left (by omega), List.getElem?_append_left (by omega)]
  exact ⟨count, highest⟩

theorem State.conditionBytes_place (s : State) (i : Fin 129) :
    s.conditionBytes[50 + i.val]? = some (s.conditionByte i) := by
  rw [State.conditionBytes, List.getElem?_append_right (by rw [s.summaries_length]; omega), s.summaries_length,
    Nat.add_sub_cancel_left]
  simp

theorem State.conditionBytes_length (s : State) : s.conditionBytes.length = 179 := by
  rw [State.conditionBytes, List.length_append, s.summaries_length, List.length_map, List.length_finRange]

/-- Settles O38: a group's two bytes stand at its place among the groups, which `groupIndex` gives. -/
theorem conditionReadAnswers : Obligations.ConditionReadAnswers := by
  unfold Obligations.ConditionReadAnswers
  intro q surplus s normal
  obtain ⟨t, ended, only, ends, executing, held⟩ := endTransaction_answers q .readConditions [] surplus s normal
    (by simp) rfl .done s.conditionBytes rfl
  refine ⟨t, congrArg Host.Outcome.next ended, only, ends, executing, s.conditionBytes, held,
    s.conditionBytes_length, fun j group members => ?_, s.conditionBytes_place⟩
  obtain ⟨count, highest⟩ := s.conditionBytes_group j
  rw [groupPlaces_eq_filter j group members] at count highest
  refine ⟨?_, fun raised counted => ?_⟩
  · rw [count, List.countP_eq_length_filter, List.filter_filter]
    simp only [Bool.and_comm]
  · rw [highest]
    simp only [Option.some.injEq]
    exact s.highestByte_of _ raised fun x => (counted x).trans (s.any_counts group x).symm

end Sys2Proof.Machine
end

section
/-! The records survive their encodings (R185, R186, section 10.6). -/

namespace Sys2Proof.Machine

/-! ## Numbers and fields of one byte -/

theorem toNat_ofNat_of_lt {w n : Nat} (fits : n < 2 ^ w) : (BitVec.ofNat w n).toNat = n := by
  rw [BitVec.toNat_ofNat, Nat.mod_eq_of_lt fits]

theorem toInt_ofInt_word {x : Int} (low : -32768 ≤ x) (high : x < 32768) : (BitVec.ofInt 16 x).toInt = x := by
  rw [BitVec.toInt_ofInt]
  exact Int.bmod_eq_of_le (by omega) (by omega)

theorem toInt_ofInt_byte {x : Int} (low : -128 ≤ x) (high : x < 128) : (BitVec.ofInt 8 x).toInt = x := by
  rw [BitVec.toInt_ofInt]
  exact Int.bmod_eq_of_le (by omega) (by omega)

theorem flagOf_flagByte (x : Bool) : flagOf (flagByte x) = some x := by
  cases x <;> rfl

theorem sourceOf_sourceByte (x : Source) : sourceOf (sourceByte x) = some x := by
  cases x <;> rfl

theorem loudnessModeOf_loudnessModeByte (x : LoudnessMode) : loudnessModeOf (loudnessModeByte x) = some x := by
  cases x <;> rfl

theorem changeModeOf_changeModeByte (x : ChangeMode) : changeModeOf (changeModeByte x) = some x := by
  cases x <;> rfl

theorem bandwidthOf_bandwidthByte (x : Bandwidth) : bandwidthOf (bandwidthByte x) = some x := by
  cases x <;> rfl

theorem severityOf_code (x : Severity) : severityOf x.code = some x := by
  cases x <;> rfl

theorem logEdgesOf_code (x : LogEdges) : logEdgesOf x.code = some x := by
  cases x <;> rfl

theorem slotOf_slotByte (x : Option Slot) : slotOf (slotByte x) = some x := by
  cases x with
  | none => rfl
  | some x =>
    obtain ⟨link, slot⟩ := x
    revert link slot
    decide

theorem weightOf_weightByte (x : Weight) (ranged : x.inRange = true) : weightOf (weightByte x) = some x := by
  cases x with
  | excluded => rfl
  | steps j =>
    have bounds : -12 ≤ j ∧ j ≤ 12 := by simpa [Weight.inRange] using ranged
    have value : (BitVec.ofInt 8 j).toInt = j := toInt_ofInt_byte (by omega) (by omega)
    have counted : BitVec.ofInt 8 j ≠ 0x80#8 := fun same => by
      rw [same] at value
      have : j = -128 := value.symm
      omega
    unfold weightOf weightByte
    rw [if_neg counted, value, if_pos bounds]

/-! ## The sections of a program record -/

theorem channelsOf_flatMap (channels : List Channel) (rest : List Byte)
    (ranged : ∀ c ∈ channels, c.weight.inRange = true) :
    channelsOf channels.length (channels.flatMap channelBytes ++ rest) = some (channels, rest) := by
  induction channels with
  | nil => rfl
  | cons c channels ih =>
    have others := ih fun x member => ranged x (List.mem_cons_of_mem c member)
    have weight := weightOf_weightByte c.weight (ranged c List.mem_cons_self)
    simp only [List.flatMap_cons, channelBytes, List.cons_append, List.nil_append, List.length_cons, channelsOf,
      slotOf_slotByte, weight, others]

theorem loudnessOf_bytes (x : Option Loudness) (rest : List Byte) (ranged : x.all Loudness.inRange = true) :
    loudnessOf x.isSome (x.elim [] loudnessBytes ++ rest) = some (x, rest) := by
  cases x with
  | none => rfl
  | some x =>
    simp only [Option.all_some, Loudness.inRange, Bool.and_eq_true, decide_eq_true_eq] at ranged
    obtain ⟨⟨⟨⟨⟨⟨⟨⟨⟨targetLow, targetHigh⟩, boost⟩, cut⟩, -⟩, slew⟩, gateLow⟩, gateHigh⟩, -⟩, range⟩ := ranged
    simp only [Option.elim_some, loudnessOf, loudnessBytes, bytes16, Option.isSome_some, if_true,
      List.cons_append, List.nil_append,
      loudnessModeOf_loudnessModeByte, word16_bytes16]
    rw [toInt_ofInt_word (by omega) (by omega), toInt_ofInt_word (by omega) (by omega),
      toNat_ofNat_of_lt (by omega), toNat_ofNat_of_lt (by omega), toNat_ofNat_of_lt (by omega),
      toNat_ofNat_of_lt (by omega)]

theorem delaySectionOf_bytes (x : Option DelaySection) (rest : List Byte)
    (ranged : x.all DelaySection.inRange = true) :
    delaySectionOf x.isSome (x.elim [] delaySectionBytes ++ rest) =
      some (x, rest) := by
  cases x with
  | none => rfl
  | some x =>
    simp only [Option.all_some, DelaySection.inRange, Bool.and_eq_true, decide_eq_true_eq] at ranged
    obtain ⟨⟨⟨⟨base, limit⟩, target⟩, -⟩, rate⟩ := ranged
    simp only [Option.elim_some, delaySectionOf, delaySectionBytes, bytes16, bytes32, Option.isSome_some,
      if_true, List.cons_append,
      List.nil_append, changeModeOf_changeModeByte, word16_bytes16, word32_bytes32]
    rw [toNat_ofNat_of_lt (by omega), toNat_ofNat_of_lt (by omega), toNat_ofNat_of_lt (by omega),
      toNat_ofNat_of_lt (by omega)]

theorem alarmSectionOf_bytes (x : Option AlarmSection) (rest : List Byte)
    (ranged : x.all AlarmSection.inRange = true) :
    alarmSectionOf x.isSome (x.elim [] alarmSectionBytes ++ rest) =
      some (x, rest) := by
  cases x with
  | none => rfl
  | some x =>
    simp only [Option.all_some, AlarmSection.inRange, Bool.and_eq_true, decide_eq_true_eq] at ranged
    obtain ⟨⟨-, low⟩, high⟩ := ranged
    simp only [Option.elim_some, alarmSectionOf, alarmSectionBytes, bytes16, Option.isSome_some, if_true,
      List.cons_append,
      List.nil_append, word16_bytes16]
    rw [toInt_ofInt_word (by omega) (by omega)]

theorem sectionFlags_bits (r : ProgramRecord) :
    (sectionFlags r).toNat < 8 ∧ (sectionFlags r).getLsbD 0 = r.loudness.isSome ∧
      (sectionFlags r).getLsbD 1 = r.delay.isSome ∧ (sectionFlags r).getLsbD 2 = r.alarm.isSome := by
  unfold sectionFlags
  generalize r.loudness.isSome = loudness
  generalize r.delay.isSome = delay
  generalize r.alarm.isSome = alarm
  revert loudness delay alarm
  decide

/-! ## The three records -/

theorem ProgramRecord.inRange_parts {r : ProgramRecord} (ranged : r.inRange = true) :
    r.channels.length ≤ 8 ∧ (∀ c ∈ r.channels, c.weight.inRange = true) ∧
      r.loudness.all Loudness.inRange = true ∧ r.delay.all DelaySection.inRange = true ∧
      r.alarm.all AlarmSection.inRange = true := by
  simp only [ProgramRecord.inRange, Bool.and_eq_true, List.all_eq_true] at ranged
  obtain ⟨⟨⟨⟨⟨counts, weights⟩, loudness⟩, delay⟩, alarm⟩, -⟩ := ranged
  refine ⟨?_, weights, loudness, delay, alarm⟩
  split at counts
  · simp only [Bool.and_eq_true, decide_eq_true_eq] at counts
    exact counts.1.2
  · simp only [Bool.and_eq_true, List.isEmpty_iff] at counts
    rw [counts.1.1.1]
    exact Nat.zero_le 8

theorem programBytes_eq (r : ProgramRecord) :
    programBytes r =
      [flagByte r.active, sourceByte r.source, BitVec.ofNat 8 r.channels.length, sectionFlags r] ++
        r.channels.flatMap channelBytes ++ r.loudness.elim [] loudnessBytes ++ r.delay.elim [] delaySectionBytes ++
        r.alarm.elim [] alarmSectionBytes := by
  obtain ⟨active, source, channels, loudness, delay, alarm⟩ := r
  cases loudness <;> cases delay <;> cases alarm <;> rfl

theorem programOfBytes_programBytes (r : ProgramRecord) (ranged : r.inRange = true) :
    programOfBytes (programBytes r) = some r := by
  obtain ⟨few, weights, loudness, delay, alarm⟩ := ProgramRecord.inRange_parts ranged
  obtain ⟨small, bit0, bit1, bit2⟩ := sectionFlags_bits r
  have count : (BitVec.ofNat 8 r.channels.length).toNat = r.channels.length := toNat_ofNat_of_lt (by omega)
  have last := alarmSectionOf_bytes r.alarm [] alarm
  rw [List.append_nil] at last
  simp only [programBytes_eq, List.append_assoc, List.cons_append, List.nil_append, programOfBytes, small, if_true,
    flagOf_flagByte, sourceOf_sourceByte, count, channelsOf_flatMap _ _ weights, bit0, bit1, bit2,
    loudnessOf_bytes _ _ loudness, delaySectionOf_bytes _ _ delay, last]

theorem linkOfBytes_linkBytes (r : LinkRecord) (ranged : r.inRange = true) :
    linkOfBytes (linkBytes r) = some r := by
  simp only [LinkRecord.inRange, Bool.and_eq_true, decide_eq_true_eq] at ranged
  obtain ⟨⟨-, slots⟩, -⟩ := ranged
  simp only [linkOfBytes, linkBytes, bytes16, List.cons_append, List.nil_append, flagOf_flagByte,
    bandwidthOf_bandwidthByte, word16_bytes16]
  rw [toNat_ofNat_of_lt (by omega)]

theorem kindPolicyOf_bytes (k : Fin 12) (x : KindPolicy) (rest : List Byte) (ranged : x.inRange k = true) :
    kindPolicyOf (kindPolicyBytes x ++ rest) = some x := by
  have holds : x.holdRaise ≤ 3000 ∧ x.holdClear ≤ 3000 := by
    unfold KindPolicy.inRange at ranged
    split at ranged <;>
      simp only [Bool.and_eq_true, beq_iff_eq, decide_eq_true_eq] at ranged <;>
      omega
  simp only [kindPolicyOf, kindPolicyBytes, bytes16, List.cons_append, List.nil_append, severityOf_code,
    logEdgesOf_code, word16_bytes16]
  rw [toNat_ofNat_of_lt (by omega), toNat_ofNat_of_lt (by omega)]

/-- Blocks of one length laid end to end, from the block in place `k` on. -/
theorem drop_flatMap_blocks {α β : Type} (f : α → List β) (n : Nat) (xs : List α)
    (blocks : ∀ x ∈ xs, (f x).length = n) (k : Nat) : (xs.flatMap f).drop (n * k) = (xs.drop k).flatMap f := by
  induction xs generalizing k with
  | nil => simp
  | cons x xs ih =>
    have head : (f x).length = n := blocks x List.mem_cons_self
    cases k with
    | zero => rfl
    | succ k =>
      rw [List.flatMap_cons, Nat.mul_succ, Nat.add_comm, ← List.drop_drop, ← head, List.drop_left, head,
        List.drop_succ_cons, ih fun y member => blocks y (List.mem_cons_of_mem x member)]

theorem kinds_length (r : PolicyRecord) :
    ((List.finRange 12).flatMap fun k => kindPolicyBytes r.kinds[k]).length = 72 := rfl

theorem kindPolicyOf_policyBytes (r : PolicyRecord) (k : Fin 12) (ranged : r.kinds[k].inRange k = true) :
    kindPolicyOf ((policyBytes r).drop (6 * k.val)) = some r.kinds[k] := by
  have length := kinds_length r
  rw [policyBytes, List.drop_append_of_le_length (by omega),
    drop_flatMap_blocks (fun k : Fin 12 => kindPolicyBytes r.kinds[k]) 6 _ (fun _ _ => rfl),
    List.drop_eq_getElem_cons (by rw [List.length_finRange]; exact k.isLt), List.getElem_finRange,
      List.flatMap_cons,
    List.append_assoc]
  exact kindPolicyOf_bytes k _ _ ranged

theorem policyBytes_drop_kinds (r : PolicyRecord) :
    (policyBytes r).drop 72 = [flagByte r.refLostMonitored, BitVec.ofNat 8 r.timeout] :=
  List.drop_left' (kinds_length r)

theorem policyOfBytes_policyBytes (r : PolicyRecord) (ranged : r.inRange = true) :
    policyOfBytes (policyBytes r) = some r := by
  simp only [PolicyRecord.inRange, Bool.and_eq_true, List.all_eq_true, List.mem_finRange, true_implies,
    decide_eq_true_eq] at ranged
  obtain ⟨kinds, timeout⟩ := ranged
  have entry (k : Fin 12) := kindPolicyOf_policyBytes r k (kinds k)
  have copies : (Vector.ofFn fun k : Fin 12 => r.kinds[k]) = r.kinds := by
    ext1 k hk
    rw [Vector.getElem_ofFn]
    rfl
  simp only [policyOfBytes, entry, Option.isSome_some, List.all_eq_true, implies_true, if_true,
    policyBytes_drop_kinds,
    flagOf_flagByte, Option.getD_some, copies, toNat_ofNat_of_lt (show r.timeout < 2 ^ 8 by omega)]

/-- Settles O50: each field's byte gives the field again, within the ranges that its record's check asks. -/
theorem recordsRoundTrip : Obligations.RecordsRoundTrip := by
  unfold Obligations.RecordsRoundTrip
  exact ⟨programOfBytes_programBytes, linkOfBytes_linkBytes, policyOfBytes_policyBytes⟩

end Sys2Proof.Machine
end

section
/-! A house frame: what it counts, and what its output crosspoint carries (R32, R38, R39, R42 to R46, R64, R93,
R111 to R116). -/

namespace Sys2Proof.Machine

/-! ## What a house frame moves on before the programs' work -/

theorem exec_houseFrame_running (s : State) (released : s.resetAsserted = false) (due : s.clock.blockDue = false) :
    exec .houseFrame s = .next s.houseFrame := by
  change execHouseFrame s = _
  rw [execHouseFrame, released, due]
  rfl

theorem State.houseFrame_converter (s : State) (l : Fin 8) :
    s.houseFrame.converters[l] = (s.converters[l].houseFrame l (s.slipLater l)).2.1 := by
  rw [State.houseFrame_converters]
  simp [State.frameStarted, State.readConverters]

theorem State.delivered_get (s : State) (l : Fin 8) :
    s.delivered[l] = (s.converters[l].houseFrame l (s.slipLater l)).1 := by
  simp [State.delivered, State.readConverters]

/-- What the converters deliver at a house frame, at the fade levels that it leaves (R42, R46). -/
theorem State.houseFrame_delivers (s : State) (l : Fin 8) :
    s.converters[l].Delivers s.houseFrame.converters[l].fade s.delivered[l] := by
  rw [State.houseFrame_converter, State.delivered_get]
  exact Converter.houseFrame_delivers _ l _

theorem State.slipLater_block (s : State) (l : Fin 8) (later : s.slipLater l = true) :
    (s.clock.frames + 1) % 4800 = 0 := by
  unfold State.slipLater at later
  rw [Bool.and_eq_true] at later
  exact (Timebase.blockDue_iff _).mp later.1 |>.1

theorem State.houseFrame_pinsFollow (s : State) : PinsFollow s s.houseFrame := by
  have pins : s.frameRun.1.pins = s.pins := by
    rw [State.frameRun, State.runPrograms_pins, State.takeNotices_pins]
    rfl
  refine State.settle_follow _ _ ?_
  rw [State.takeNotices_pins]
  generalize s.frameRun = run at pins ⊢
  exact congrArg Pins.sampled pins

/-! ## The state that the programs' work starts from -/

/-- The state in which the programs start their work at a house frame. -/
def State.frameReady (s : State) : State := s.frameStarted.takeNotices s.frameNotices.1

theorem State.frameRun_eq (s : State) :
    s.frameRun = s.frameReady.runPrograms s.delivered (List.finRange 16) := rfl

theorem State.frameReady_content (s : State) (p : Fin 16) : s.frameReady.content p = s.content p := by
  rw [State.frameReady, State.takeNotices_content, State.frameStarted_content]

theorem State.frameReady_frames (s : State) : s.frameReady.clock.frames = s.clock.frames + 1 := by
  rw [State.frameReady, State.takeNotices_clock]
  rfl

theorem State.frameReady_layout (s : State) (p : Fin 16) : s.frameReady.delays[p].layout = s.delays[p].layout := by
  rw [State.frameReady, State.takeNotices_delay]
  rfl

theorem State.frameReady_cell (s : State) (p : Fin 16) (layout : Layout) (l frame : Nat) :
    s.frameReady.delays[p].cell layout l frame = s.delays[p].cell layout l frame := by
  rw [State.frameReady, State.takeNotices_delay]
  rfl

theorem State.frameReady_memory (s : State) : s.frameReady.memory = s.memory := by
  rw [State.frameReady, State.takeNotices_memory]
  rfl

theorem State.frameReady_inactive (s : State) (p : Fin 16) (idle : (s.program p).active = false) :
    s.frameReady.delays[p] = s.delays[p] :=
  s.frameStarted.takeNotices_inactive s.frameNotices.1 p idle

/-- What the work of others before it leaves of a program's own state at a house frame. -/
theorem State.OthersRun.ready {s u : State} {ps : List (Fin 16)} {p : Fin 16} (h : s.frameReady.OthersRun ps p u) :
    u.content p = s.content p ∧ u.program p = s.program p ∧ u.tables = s.tables ∧ u.meters[p] = s.meters[p] ∧
      u.gains[p] = s.gains[p] ∧ u.clock.frames = s.clock.frames + 1 ∧ u.tonePhase = (s.tonePhase + 1) % 48 := by
  refine ⟨?_, ?_, ?_, ?_, ?_, ?_, ?_⟩
  · rw [h.content, s.frameReady_content]
  · rw [h.program]
    exact s.frameStarted_program _ p
  · rw [h.fields]
    exact State.takeNotices_tables _ _
  · rw [h.meter]
    exact congrArg (·[p]) (State.takeNotices_meters s.frameStarted s.frameNotices.1)
  · rw [h.gain]
    exact congrArg (·[p]) (State.takeNotices_gains s.frameStarted s.frameNotices.1)
  · rw [h.clock, s.frameReady_frames]
  · rw [h.fields]
    exact State.takeNotices_tonePhase _ _

theorem State.inactive_of_content_none {s : State} {p : Fin 16} (none : s.content p = none) :
    (s.program p).active = false := by
  by_contra active
  rw [State.content, if_pos (by simpa using active)] at none
  cases none

theorem State.content_of_active {s : State} {p : Fin 16} (active : (s.program p).active = true) :
    s.content p = some (s.program p) := if_pos active

theorem DelayEngine.corrects_inactive (d : DelayEngine) (r : ProgramRecord) (ns : List SlipNotice)
    (idle : r.active = false) : ns.foldl (fun e n => e.correct r n) d = d := by
  induction ns with
  | nil => rfl
  | cons n ns ih =>
    have same : d.correct r n = d := by
      rw [DelayEngine.correct, idle]
      rfl
    rw [List.foldl_cons, same, ih]

/-! ## One program's share of a house frame -/

/-- An ACTIVE program: its meter takes its channels' samples, and its delay engine does a house frame's work. -/
theorem State.houseFrame_active (s : State) (p : Fin 16) (active : (s.program p).active = true) :
    (∃ u : State, u.tables = s.tables ∧
      s.houseFrame.meters[p] =
        s.meters[p].houseFrame ((s.program p).channels.map (u.writeSample s.delivered))) ∧
      ∃ (written samples : List Sample) (m : Memory) (d e : DelayEngine) (g : GainStage),
        s.WorksFrame s.delivered s.frameNotices.1 p (s.program p) written samples m d g ∧
          d.LeavesFrame g.fade g.selected e ∧
          s.houseFrame.delays[p] = s.frameNotices.2.foldl (fun x n => x.correct (s.program p) n) e := by
  obtain ⟨u, _, _, others, meter, _, delay, _, _⟩ := s.houseFrame_at p
  obtain ⟨-, program, tables, before, -⟩ := State.OthersRun.ready others
  obtain ⟨takes, leaves, -⟩ := u.runProgram_of_active s.delivered p (by rw [program]; exact active)
  refine ⟨⟨u, tables, ?_⟩, _, _, _, _, _, _, others.works _ (State.content_of_active active),
    DelayEngine.leaveStates_leaves _ _ _ ((u.readyGain p).finish (u.readSamples s.delivered p (u.program p)))
      u.clock.frames, ?_⟩
  · rw [meter, takes, before, program]
  · rw [s.houseFrame_delay p, delay, leaves]

/-- A program with no content in force keeps its meter, gain stage and delay engine. -/
theorem State.houseFrame_unused (s : State) (p : Fin 16) (none : s.content p = none) :
    s.houseFrame.meters[p] = s.meters[p] ∧ s.houseFrame.gains[p] = s.gains[p] ∧
      s.houseFrame.delays[p] = s.delays[p] := by
  have idle := State.inactive_of_content_none none
  obtain ⟨meter, gain, delay⟩ := s.frameReady.runPrograms_none s.delivered (List.finRange 16) p
    (by rw [s.frameReady_content]; exact none)
  refine ⟨?_, ?_, ?_⟩
  · rw [State.houseFrame_meters, State.frameRun_eq]
    refine meter.trans ?_
    rw [State.frameReady, State.takeNotices_meters]
    rfl
  · rw [State.houseFrame_gains, State.frameRun_eq]
    refine gain.trans ?_
    rw [State.frameReady, State.takeNotices_gains]
    rfl
  · rw [s.houseFrame_delay p, DelayEngine.corrects_inactive _ _ _ idle, State.frameRun_eq, delay,
      s.frameReady_inactive p idle]

/-- A closing program: its count goes on, and its end gives its parts their power-on values. -/
theorem State.houseFrame_closes (s : State) (p : Fin 16) (r : ProgramRecord) (idle : (s.program p).active = false)
    (content : s.content p = some r) :
    (s.gains[p].closing = 1 →
      s.houseFrame.meters[p] = Meter.initial ∧ s.houseFrame.gains[p] = GainStage.initial ∧
        s.houseFrame.delays[p] = DelayEngine.initial) ∧
    (s.gains[p].closing ≠ 1 →
      s.houseFrame.meters[p] = s.meters[p] ∧ s.houseFrame.gains[p].closing = s.gains[p].closing - 1 ∧
        s.houseFrame.delays[p] = { s.delays[p] with
          lanes := s.delays[p].lanes.map fun x =>
            { x with valid := min s.delays[p].capacity (x.valid + 1) } }) := by
  obtain ⟨u, _, _, others, meter, gain, delay, _, _⟩ := s.houseFrame_at p
  obtain ⟨held, program, -, before, ready, -⟩ := State.OthersRun.ready others
  have works := others.works r content
  obtain ⟨finish, ends, runs, -⟩ := u.runProgram_of_closing s.delivered p r (by rw [program]; exact idle)
    (held.trans content)
  have closing : (u.readyGain p).closing = s.gains[p].closing := by rw [works.gain.1]
  obtain ⟨finished, -⟩ := (u.readyGain p).finish_closing (u.readSamples s.delivered p r)
  obtain ⟨-, last, -⟩ := (u.readyGain p).finish_counted (u.readSamples s.delivered p r)
  rw [closing] at finished last
  rw [s.houseFrame_delay p, DelayEngine.corrects_inactive _ _ _ idle, meter, gain, delay]
  have counting : 0 < s.gains[p].closing := by
    by_contra stopped
    rw [State.content, if_neg (by rw [idle]; decide), if_neg stopped] at content
    cases content
  refine ⟨fun one => ?_, fun more => ?_⟩
  · obtain ⟨meters, delays⟩ := ends (by omega)
    exact ⟨meters, finish.trans (last one), delays⟩
  · obtain ⟨meters, delays⟩ := runs (by omega)
    rw [finish, finished, meters, before, delays]
    exact ⟨rfl, rfl, works.closing idle⟩

theorem State.houseFrame_memory_other (s : State) (a : Nat)
    (apart : ∀ (p : Fin 16) (r : ProgramRecord) (layout : Layout) (l : Nat),
      s.content p = some r → s.delays[p].layout = some layout → l < r.channels.length →
        s.delays[p].cell layout l (s.clock.frames + 1) ≠ a) :
    Memory.read s.houseFrame.memory a = Memory.read s.memory a := by
  rw [State.houseFrame_memory, State.frameRun_eq, ← s.frameReady_memory]
  refine s.frameReady.runPrograms_memory s.delivered (List.finRange 16) (List.nodup_finRange 16) a
    fun p _ r layout l content laid lane => ?_
  rw [s.frameReady_content] at content
  rw [s.frameReady_layout] at laid
  rw [s.frameReady_frames, s.frameReady_cell]
  exact apart p r layout l content laid lane

/-! ## A meter at a house frame (R64) -/

theorem Meter.houseFrame_length (m : Meter) (samples : List Sample) :
    (m.houseFrame samples).channels.length = min m.channels.length samples.length :=
  List.length_zipWith

theorem Meter.houseFrame_channel (m : Meter) (samples : List Sample) {k : Nat} {c : ChannelMeter} {w : Sample}
    (meter : m.channels[k]? = some c) (given : samples[k]? = some w) :
    (m.houseFrame samples).channels[k]? = some (c.take w) := by
  change (List.zipWith ChannelMeter.take m.channels samples)[k]? = _
  rw [List.getElem?_zipWith, meter, given]

/-- Settles O14: the frame's start moves on clock and converters, and each program's share is that of its case:
ACTIVE, without a content, or closing. -/
theorem houseFrameCounts : Obligations.HouseFrameCounts := by
  unfold Obligations.HouseFrameCounts
  intro s released due
  refine ⟨s.houseFrame, exec_houseFrame_running s released due, s.houseFrame_clock, s.houseFrame_tonePhase,
    s.houseFrame_pending,
    s.houseFrame_resetAsserted.trans released, ?_, s.houseFrame_tables, s.houseFrame_receivers,
      s.houseFrame_conditions,
    s.houseFrame_ports, s.houseFrame_pinsFollow, fun l => ⟨?_, s.slipLater_block l⟩,
    ⟨s.delivered, s.frameNotices.1, s.frameNotices.2, s.houseFrame_delivers, s.frameNotices_perm, s.houseFrame_log,
      fun p active => ?_, fun p r layout l c w canonical laid content lanes channel given => ?_⟩,
    s.houseFrame_unused, fun p r idle content => s.houseFrame_closes p r idle content, s.houseFrame_memory_other⟩
  · rw [s.houseFrame_ref]
    exact s.ref.corrected_eq
  · rw [s.houseFrame_converter]
    exact s.converters[l].houseFrame_runs l _
  · obtain ⟨⟨u, tables, meter⟩, work⟩ := s.houseFrame_active p active
    rw [meter]
    refine ⟨rfl, ?_, fun k m c w old channel given => ⟨_, ?_, m.take_takes w⟩, work⟩
    · rw [Meter.houseFrame_length, List.length_map]
    · refine Meter.houseFrame_channel _ _ old ?_
      rw [List.getElem?_map, channel]
      exact congrArg some ((s.writeSample_gives u tables s.delivered c).eq given)
  · have inside : l < r.channels.length := (List.getElem?_eq_some_iff.mp channel).1
    obtain ⟨u, others, cell⟩ := s.houseFrame_cell p r layout l c canonical content lanes channel
      fun q v other k held laidOut lane same =>
        laid.alone (s.clock.frames + 1) content lanes inside held laidOut lane same
    obtain ⟨-, -, tables, -⟩ := State.OthersRun.ready others
    exact cell.trans ((s.writeSample_gives u tables s.delivered c).eq given)

end Sys2Proof.Machine
end

section
/-! The output crosspoint of a house frame (R38, R39, R93 to R96, R114). -/

namespace Sys2Proof.Machine

/-! ## The slot that one program drives among those of all -/

theorem find?_between {α : Type} (before own after : List α) (test : α → Bool) (none : ∀ x ∈ before, test x = false)
    {x : α} (found : own.find? test = some x) : (before ++ own ++ after).find? test = some x := by
  have quiet : before.find? test = Option.none := List.find?_eq_none.mpr fun y member => by simp [none y member]
  rw [List.find?_append, List.find?_append, quiet, found]
  rfl

theorem find?_nowhere {α : Type} (before own after : List α) (test : α → Bool)
    (outside : ∀ x ∈ before ++ after, test x = false) (inside : ∀ x ∈ own, test x = false) :
    (before ++ own ++ after).find? test = none := by
  refine List.find?_eq_none.mpr fun x member => ?_
  rw [List.mem_append, List.mem_append] at member
  rcases member with (member | member) | member
  · simp [outside x (List.mem_append_left _ member)]
  · simp [inside x member]
  · simp [outside x (List.mem_append_right _ member)]

/-- The crosspoint gives a slot the sample of the program that drives it (R39): others on the slot are inactive,
and there is none where the program itself is not ACTIVE. -/
theorem slotOutput_own (before own after : List Driven) (slot : Slot) (active : Bool) (v : Sample)
    (same : ∀ x ∈ own, x.active = active)
    (found : own.find? (fun x => x.slot == slot) = some { active := active, slot := slot, sample := v })
    (others : ∀ x ∈ before ++ after, x.slot = slot → active = true ∧ x.active = false) :
    slotOutput (before ++ own ++ after) slot = v := by
  have apart (x : Driven) (member : x ∈ before ++ after) : (x.active && x.slot == slot) = false := by
    by_cases on_slot : x.slot = slot
    · rw [(others x member on_slot).2]; rfl
    · simp [on_slot]
  cases active with
  | true =>
    have agree : own.find? (fun x => x.active && x.slot == slot) = own.find? fun x => x.slot == slot :=
      List.find?_congr fun x member => by rw [same x member]; rfl
    rw [slotOutput, find?_between before own after _ (fun x member => apart x (List.mem_append_left _ member))
      (agree.trans found)]
  | false =>
    have none := find?_nowhere before own after (fun x => x.active && x.slot == slot) apart
      fun x member => by rw [same x member]; rfl
    have quiet (x : Driven) (member : x ∈ before) : (x.slot == slot) = false := by
      by_contra on_slot
      obtain ⟨impossible, -⟩ := others x (List.mem_append_left _ member) (by simpa using on_slot)
      cases impossible
    rw [slotOutput, none, find?_between before own after _ quiet found]

/-! ## A program's read-side samples -/

theorem DelayEngine.readSide_length (d : DelayEngine) (m : Memory) (frame : Nat) (written : List Sample)
    (lanes : ∀ layout, d.layout = some layout → d.lanes.length = written.length) :
    (d.readSide m frame written).length = written.length := by
  unfold DelayEngine.readSide
  split
  case h_1 => rfl
  case h_2 layout laid =>
    split
    · exact List.length_map ..
    · rw [List.length_mapIdx, lanes layout laid]

theorem State.readingDelay_shape (s : State) (p : Fin 16) : s.delays[p].SameShape (s.readingDelay p) := by
  unfold State.readingDelay
  split
  · exact (s.delays[p].glide_shape.trans (DelayEngine.fill_shape _)).trans (DelayEngine.formSync_shape _)
  · exact s.delays[p].fill_shape

theorem State.frameReady_shape (s : State) (p : Fin 16) : s.delays[p].SameShape s.frameReady.delays[p] := by
  rw [State.frameReady, State.takeNotices_fold]
  exact DelayEngine.corrects_shape _ _ _

/-- Every channel of a program at work has its read-side sample. -/
theorem State.readSamples_length {s u : State} {ps : List (Fin 16)} {p : Fin 16}
    (others : s.frameReady.OthersRun ps p u) (laid : s.LanesLaidOut) {r : ProgramRecord}
    (content : s.content p = some r) : (u.readSamples s.delivered p r).length = r.channels.length := by
  unfold State.readSamples
  rw [DelayEngine.readSide_length, List.length_map]
  intro layout stands
  obtain ⟨-, lanes⟩ := (laid.laid p r content).of_shape
    ((s.frameReady_shape p).trans (others.delay ▸ u.readingDelay_shape p))
  obtain ⟨x, -, -, -, count⟩ := lanes layout stands
  rw [count, List.length_map]

/-! ## What a program drives at a house frame -/

/-- What a program with content in force drives, among what the others drive. -/
theorem State.houseFrame_drives (s : State) (p : Fin 16) (r : ProgramRecord) (content : s.content p = some r) :
    ∃ (u : State) (before after : List Driven), s.frameReady.OthersRun (List.finRange 16) p u ∧
      s.frameRun.2 = before ++ driven (s.program p).active r.channels
        ((u.readyGain p).outputs (s.clock.frames + 1) ((s.tonePhase + 1) % 48) (u.readSamples s.delivered p r)) ++
          after ∧
      s.frameReady.DrivenBy ((List.finRange 16).filter (· != p)) (before ++ after) := by
  obtain ⟨u, before, after, others, -, -, -, drives, elsewhere⟩ := s.houseFrame_at p
  obtain ⟨held, program, -, -, -, frames, phase⟩ := State.OthersRun.ready others
  refine ⟨u, before, after, others, ?_, elsewhere⟩
  rw [drives]
  cases active : (s.program p).active with
  | true =>
    obtain ⟨-, -, -, own⟩ := u.runProgram_of_active s.delivered p (by rw [program]; exact active)
    rw [State.content_of_active active] at content
    cases content
    rw [own, program, frames, phase]
  | false =>
    obtain ⟨-, -, -, own⟩ := u.runProgram_of_closing s.delivered p r (by rw [program]; exact active)
      (held.trans content)
    rw [own, frames, phase]

theorem State.frameReady_program (s : State) (p : Fin 16) : s.frameReady.program p = s.program p :=
  s.frameStarted_program _ p

/-- A slot that no content in force claims carries zero. -/
theorem State.houseFrame_silent (s : State) (slot : Slot)
    (unclaimed : ∀ (p : Fin 16) (r : ProgramRecord), s.content p = some r → slot ∉ r.outputs) :
    slotOutput s.frameRun.2 slot = 0#24 := by
  have nowhere (x : Driven) (member : x ∈ s.frameRun.2) : (x.slot == slot) = false := by
    by_contra on_slot
    have same : x.slot = slot := by simpa using on_slot
    obtain ⟨p, -, r, content, claims⟩ :=
      s.frameReady.runPrograms_drives s.delivered (List.finRange 16) (List.nodup_finRange 16) x member
    rw [s.frameReady_content] at content
    exact unclaimed p r content (same ▸ claims)
  have first : s.frameRun.2.find? (fun x => x.active && x.slot == slot) = none :=
    List.find?_eq_none.mpr fun x member => by simp [nowhere x member]
  have second : s.frameRun.2.find? (fun x => x.slot == slot) = none :=
    List.find?_eq_none.mpr fun x member => by simp [nowhere x member]
  rw [slotOutput, first, second]

/-- Settles O15: a driven slot finds its own program's sample, since those of others on it are inactive. -/
theorem unclaimedSlotSilent : Obligations.UnclaimedSlotSilent := by
  unfold Obligations.UnclaimedSlotSilent
  intro s released due
  refine ⟨s.houseFrame, exec_houseFrame_running s released due, fun x y unclaimed => ?_, s.delivered,
    s.frameNotices.1, s.frameNotices.2,
    s.houseFrame_delivers, s.frameNotices_perm, fun p r k c slot laid drives channel output => ?_⟩
  · rw [s.houseFrame_slot]
    exact s.houseFrame_silent _ unclaimed
  · obtain ⟨content, claims, once, alone⟩ := drives
    obtain ⟨u, before, after, others, run, elsewhere⟩ := s.houseFrame_drives p r content
    have inside : k < (u.readSamples s.delivered p r).length := by
      rw [State.readSamples_length others laid content]
      exact (List.getElem?_eq_some_iff.mp channel).1
    have sample := List.getElem?_eq_getElem inside
    obtain ⟨out, sent, sends⟩ := (u.readyGain p).outputs_sends (s.clock.frames + 1)
      ((s.tonePhase + 1) % 48) k _ _ sample
    refine ⟨_, _, _, _, _, _, State.OthersRun.works others r content, sample, ?_⟩
    rw [s.houseFrame_slot, run]
    rw [slotOutput_own before _ after slot _ out (driven_active _ _ _)
      (driven_find _ r.channels _ slot k c out once channel output sent) ?_]
    · exact sends
    intro x member same
    obtain ⟨q, listed, v, held, claim, active⟩ := elsewhere x member
    rw [s.frameReady_content] at held
    rw [s.frameReady_program] at active
    obtain ⟨own, other⟩ := alone q v (by simpa using (List.mem_filter.mp listed).2) held (same ▸ claim)
    exact ⟨own, active.trans other⟩

end Sys2Proof.Machine
end

section
/-! A block end: the applies and their entries (R14, R21, R32, R152, R153, R182), and the link applies (R20, R30,
R47 to R54, R60). -/

namespace Sys2Proof.Machine

/-! ## The PROGRAM_CHANGED entries (R14 step 3, R153) -/

theorem LogEdges.includes_event_iff (edges : LogEdges) : edges.includes .event = true ↔ edges = .log := by
  cases edges <;> decide

/-- An apply of a program is entered where the new policy's log edges say LOG. -/
theorem changedEntries_eq (old new : Tables) (blocks : BitVec 32) :
    changedEntries old new blocks =
      if (new.policy.applied.kind .programChanged).edges = .log then
        (List.finRange 16).filterMap fun p : Fin 16 =>
          old.programs[p].staged.map fun x =>
            { kind := .programChanged
              subject := .program p
              edge := .event
              severity := (new.policy.applied.kind .programChanged).severity
              stamp := blocks
              detail := .changed p old.programs[p].revision x.origin }
      else [] := by
  unfold changedEntries
  split
  case isTrue logged =>
    refine filterMap_same fun p _ => ?_
    unfold changedEntry
    cases old.programs[p].staged with
    | none => rfl
    | some x => exact if_pos ((LogEdges.includes_event_iff _).mpr logged)
  case isFalse quiet =>
    refine List.filterMap_eq_nil_iff.mpr fun p _ => ?_
    unfold changedEntry
    cases old.programs[p].staged with
    | none => rfl
    | some x => exact if_neg fun included => quiet ((LogEdges.includes_event_iff _).mp included)

/-- The entries of a block end, as they are handed to the log. -/
def State.blockEndEntries (s : State) : List Entry :=
  blockEntries (s.choices + 16)
    (sampledEntries s.tables (s.clock.blocks + 1#32) s.conditions (s.closeBlock.sampled s.appliedGains) ++
      appliedEntries s.tables s.tables.take (s.clock.blocks + 1#32) (s.closeBlock.sampled s.appliedGains))
    (changedEntries s.tables s.tables.take (s.clock.blocks + 1#32))

/-- Of the entries of a block end, PROGRAM_CHANGED come from the applies, and the others in table order from the
sampling and then from the applies. -/
theorem State.blockEndEntries_filter (s : State) :
    (s.blockEndEntries.filter fun e => e.kind != .programChanged) =
        sampledEntries s.tables (s.clock.blocks + 1#32) s.conditions (s.closeBlock.sampled s.appliedGains) ++
          appliedEntries s.tables s.tables.take (s.clock.blocks + 1#32) (s.closeBlock.sampled s.appliedGains) ∧
      (s.blockEndEntries.filter fun e => e.kind == .programChanged).Perm
        (changedEntries s.tables s.tables.take (s.clock.blocks + 1#32)) := by
  refine blockEntries_filter _ _ _ (fun e member => ?_) (changedEntries_kind _ _ _)
  rcases List.mem_append.mp member with member | member
  · exact sampledEntries_kind _ _ _ _ e member
  · exact appliedEntries_kind _ _ _ _ e member

/-! ## The applies -/

theorem State.blockEndThenSlips_exact (s : State) : s.blockEndThenSlips.OutputsExact := State.settle_exact _

theorem State.blockEndThenSlips_program (s : State) (p : Fin 16) :
    s.blockEndThenSlips.program p = s.blockEnd.program p := by
  rw [State.program, State.blockEndThenSlips_tables]
  rfl

theorem State.blockEndThenSlips_link (s : State) (l : Fin 8) : s.blockEndThenSlips.link l = s.blockEnd.link l := by
  rw [State.link, State.blockEndThenSlips_tables]
  rfl

/-- The ports after a block end: one that executes a change holds its completion (R14 step 2, R182). -/
theorem State.blockEndThenSlips_completes (s : State) (consistent : s.ChangesConsistent) (q : Port) :
    match (s.port q).executing with
    | none => s.blockEndThenSlips.port q = s.port q
    | some x =>
      s.blockEndThenSlips.port q =
        { s.port q with
          executing := none
          held := some (respond
            (if x.revision = s.tables.revisionOn x.record then .done else .superseded)
            (bytes16 x.revision)) } := by
  obtain ⟨kept, completed⟩ := consistent.completePorts q
  rw [State.blockEndThenSlips_port]
  cases runs : (s.port q).executing with
  | none => exact kept runs
  | some x => exact completed x runs

/-- Settles O19: the parts of the state that the slips after it keep stand as the block end's work leaves them. -/
theorem blockEndApplies : Obligations.BlockEndApplies := by
  unfold Obligations.BlockEndApplies
  intro s released due
  obtain ⟨tables, -, clock, memory, -, -, -, tone, -, out, ref, reset, pending, -⟩ :=
    s.blockEndThenSlips_makes.keeps
  obtain ⟨policyApplied, policyRevision, policyStaged⟩ := s.tables.policy.take_takes
  obtain ⟨-, changed⟩ := s.blockEndEntries_filter
  refine ⟨s.blockEnd, s.blockEndThenSlips, exec_blockEnd_due s released due, s.blockEndThenSlips_makes,
    clock.trans s.blockEnd_clock, fun p => ?_, fun l => ?_, ?_, ?_, ?_, fun name => ?_,
    s.blockEndThenSlips_completes, ⟨s.blockEndEntries, s.blockEnd_logged, ?_⟩, pending.trans s.blockEnd_pending, ?_,
    ref.trans s.blockEnd_ref, tone.trans s.blockEnd_tonePhase, memory.trans s.blockEnd_memory,
    out.trans s.blockEnd_out, s.blockEndThenSlips_exact⟩
  · rw [State.program, State.blockEndThenSlips_tables, Tables.take_program]
    exact s.tables.programs[p].take_takes
  · rw [State.link, State.blockEndThenSlips_tables, Tables.take_link]
    exact s.tables.links[l].take_takes
  · rw [State.policy, State.blockEndThenSlips_tables]
    exact policyApplied
  · rw [State.blockEndThenSlips_tables]
    exact policyRevision
  · rw [State.blockEndThenSlips_tables]
    exact policyStaged
  · rw [State.blockEndThenSlips_tables]
    exact s.tables.take_waitingOn name
  · rw [changedEntries_eq] at changed
    rw [State.policy, State.blockEndThenSlips_tables]
    exact changed
  · rw [reset, s.blockEnd_resetAsserted, released]

/-! ## Link applies (R20, R30, R60) -/

theorem Receiver.apply_cases (r : Receiver) (old new : LinkRecord) :
    (old.enable = false → new.enable = true → r.apply old new = Receiver.start) ∧
      (old.enable = true → new.enable = false → r.apply old new = Receiver.initial) ∧
      (old.enable = new.enable → r.apply old new = r) := by
  unfold Receiver.apply
  cases old.enable <;> cases new.enable <;> simp

theorem Converter.apply_cases (c : Converter) (old new : LinkRecord) :
    (old.enable = false → new.enable = true → c.apply old new = c.enable) ∧
      (old.enable = true → new.enable = false → c.apply old new = c.disable) ∧
      (old.enable = new.enable → c.apply old new = c) := by
  unfold Converter.apply
  cases old.enable <;> cases new.enable <;> simp

/-- A block end counts no slip. -/
theorem Converter.blockEnd_totals (c : Converter) (bandwidth : Bandwidth) :
    (c.blockEnd bandwidth).deletes = c.deletes ∧ (c.blockEnd bandwidth).repeats = c.repeats := by
  obtain ⟨still, counts, -⟩ := c.blockEnd_tracks bandwidth
  by_cases stopped : c.state = .idle ∨ c.state = .lost
  · rw [still stopped]
    exact ⟨rfl, rfl⟩
  · rw [not_or] at stopped
    obtain ⟨-, -, deletes, repeats, -⟩ := counts stopped.1 stopped.2
    exact ⟨deletes, repeats⟩

/-- A converter with no waiting slip is left by the slips made after a block end as it is. -/
theorem State.MakesSlips.converter_kept {s t : State} {links : List (Fin 8)} (h : s.MakesSlips links t) {l : Fin 8}
    (none : s.converters[l].slipWaits = false) : t.converters[l] = s.converters[l] := by
  obtain ⟨-, -, others, made, -, makes, -⟩ := h
  by_cases listed : l ∈ links
  · exact ((makes l listed).1 none).1
  · exact others l listed

/-- Settles O22: a link apply starts or stops the receiver, and the converter after its block-end work. -/
theorem blockEndAppliesLinks : Obligations.BlockEndAppliesLinks := by
  unfold Obligations.BlockEndAppliesLinks
  refine ⟨Converter.blockEnd_tracks, fun s released due => ⟨s.blockEnd, s.blockEndThenSlips,
    exec_blockEnd_due s released due, s.blockEndThenSlips_makes, fun l => ?_⟩⟩
  obtain ⟨-, -, -, -, -, -, -, -, receivers, -⟩ := s.blockEndThenSlips_makes.keeps
  obtain ⟨starts, stops, keeps⟩ := s.receivers[l].apply_cases (s.link l) (s.blockEnd.link l)
  obtain ⟨enables, disables, tracks⟩ := (s.converters[l].blockEnd (s.link l).bandwidth).apply_cases (s.link l)
    (s.blockEnd.link l)
  obtain ⟨deletes, repeats⟩ := s.converters[l].blockEnd_totals (s.link l).bandwidth
  rw [receivers, s.blockEnd_receiver l, State.blockEndThenSlips_link]
  refine ⟨fun off turned => ?_, fun running turned => ?_, fun same => ?_⟩
  · rw [starts off turned, s.blockEnd_converter l, enables off turned]
    exact ⟨rfl, rfl, rfl, rfl, rfl, rfl, rfl, rfl, rfl, rfl, rfl, rfl⟩
  · have stopped : s.blockEnd.converters[l] = (s.converters[l].blockEnd (s.link l).bandwidth).disable :=
      (s.blockEnd_converter l).trans (disables running turned)
    have kept := s.blockEndThenSlips_makes.converter_kept (l := l) (by rw [stopped]; rfl)
    rw [kept, stops running turned, stopped]
    exact ⟨rfl, rfl, rfl, rfl, rfl, rfl, rfl, rfl, rfl, rfl, rfl, deletes, repeats, rfl, rfl⟩
  · exact ⟨keeps same, (s.blockEnd_converter l).trans (tracks same)⟩

end Sys2Proof.Machine
end

section
/-! A block end: the tests, the sampling and the entries of the condition monitor (R142 to R158). -/

namespace Sys2Proof.Machine

/-! ## The tests (R85, R95, R144 to R148) -/

theorem bool_eq_of_iff {a b : Bool} {claim : Prop} (first : a = true ↔ claim) (second : b = true ↔ claim) : a = b :=
  Bool.eq_iff_iff.mpr (first.trans second.symm)

theorem GainStage.join_fields (g : GainStage) (read : Int) (e : GainEntry) :
    g.join read e = { g with
      applied := (g.join read e).applied, ramp := (g.join read e).ramp, queue := (g.join read e).queue } := by
  unfold GainStage.join
  split
  · rfl
  · split <;> rfl

theorem GainStage.steer_fields (g : GainStage) (x : Loudness) (level read : Int) (frames : Nat) :
    g.steer x level read frames = { g with
      applied := (g.steer x level read frames).applied, ramp := (g.steer x level read frames).ramp
      queue := (g.steer x level read frames).queue,
        limitTest := x.clamp (x.desired level) != x.desired level } := by
  unfold GainStage.steer
  dsimp only
  split
  · rfl
  · rw [GainStage.join_fields]

/-- The gain law leaves factor, output and counts of the gain stage. -/
theorem GainStage.law_fields (g : GainStage) (loudness : Option Loudness) (m : Meter) (read : Int) (frames : Nat) :
    g.law loudness m read frames = { g with
      applied := (g.law loudness m read frames).applied, ramp := (g.law loudness m read frames).ramp
      queue := (g.law loudness m read frames).queue, limitTest := (g.law loudness m read frames).limitTest } := by
  unfold GainStage.law
  split
  case h_1 => rfl
  case h_2 x =>
    split
    case h_1 => rfl
    case h_2 level _ =>
      split
      · rfl
      · rw [GainStage.steer_fields]

theorem GainStage.law_overloadTest (g : GainStage) (loudness : Option Loudness) (m : Meter) (read : Int)
    (frames : Nat) : (g.law loudness m read frames).overloadTest = g.overloadTest := by
  rw [GainStage.law_fields]

/-- The level that a loudness section reads (R83). -/
theorem Loudness.level_eq_some_iff (x : Loudness) (m : Meter) (level : Level) :
    x.level m = some level ↔
      x.mode = .integrated ∧ level = m.integrated ∨ x.mode = .shortTerm ∧ level = m.shortTerm := by
  unfold Loudness.level
  cases x.mode <;> simp [eq_comm]

/-- The clamp moves a desired gain that lies outside the limits (R85). -/
theorem Loudness.clamp_moves_iff (x : Loudness) (gain : Int) :
    (x.clamp gain != gain) = true ↔ gain < -10 * (x.maxCut : Int) ∨ 10 * (x.maxBoost : Int) < gain := by
  unfold Loudness.clamp
  rw [bne_iff_ne]
  omega

/-- The limit test of R85 and R148. -/
theorem GainStage.law_limitTest (g : GainStage) (loudness : Option Loudness) (m : Meter) (read : Int)
    (frames : Nat) :
    (g.law loudness m read frames).limitTest = true ↔
      ∃ (x : Loudness) (level : Level), loudness = some x ∧
        (x.mode = .integrated ∧ level = m.integrated ∨ x.mode = .shortTerm ∧ level = m.shortTerm) ∧
        level.measured = true ∧ x.gate ≤ level.tenths ∧
        ((x.target - level.tenths) * 10 < -10 * (x.maxCut : Int) ∨
          10 * (x.maxBoost : Int) < (x.target - level.tenths) * 10) := by
  simp only [← Loudness.level_eq_some_iff]
  unfold GainStage.law
  split
  case h_1 => simp
  case h_2 x =>
    split
    case h_1 unread => simp [unread]
    case h_2 level reads =>
      have only (y : Loudness) (other : Level) : some x = some y → y.level m = some other → y = x ∧
        other = level := by
        rintro same read
        cases same
        rw [reads] at read
        exact ⟨rfl, (Option.some.inj read).symm⟩
      split
      case isTrue holds =>
        refine iff_of_false Bool.false_ne_true ?_
        rintro ⟨y, other, same, read, measured, gate, -⟩
        obtain ⟨rfl, rfl⟩ := only y other same read
        rw [measured, decide_eq_false (by omega)] at holds
        cases holds
      case isFalse steers =>
        rw [GainStage.steer_fields, Loudness.clamp_moves_iff]
        simp only [Bool.or_eq_true, Bool.not_eq_true', decide_eq_true_eq, not_or, Bool.not_eq_false,
          Int.not_lt] at steers
        refine ⟨fun limited => ⟨x, level, rfl, reads, steers.1, steers.2, limited⟩, ?_⟩
        rintro ⟨y, other, same, read, -, -, limited⟩
        obtain ⟨rfl, rfl⟩ := only y other same read
        exact limited

theorem State.blockGain_active (s : State) (m : Meter) (p : Fin 16) (active : (s.program p).active = true) :
    s.blockGain m p = (s.gains[p].testOverload).law (s.program p).loudness m
      (s.delays[p].readReference s.clock.frames) s.clock.frames := if_pos active

theorem State.blockMeter_active (s : State) (p : Fin 16) (active : (s.program p).active = true) :
    s.blockMeter p = s.meters[p].blockEnd (s.program p).channels := if_pos active

theorem silenceTest_iff (r : ProgramRecord) (m : Meter) :
    silenceTest r m = true ↔ ∃ x, r.alarm = some x ∧ m.momentary.tenths < x.silence := by
  unfold silenceTest
  cases r.alarm <;> simp

theorem loudHighTest_iff (r : ProgramRecord) (m : Meter) (applied : Int) :
    loudHighTest r m applied = true ↔ ∃ x, r.loudness = some x ∧ m.shortTerm.measured = true ∧
      x.target + x.range < m.shortTerm.tenths + roundDiv applied 10 := by
  unfold loudHighTest correctedLevel
  cases r.loudness <;> simp

theorem loudLowTest_iff (r : ProgramRecord) (m : Meter) (applied : Int) :
    loudLowTest r m applied = true ↔ ∃ x, r.loudness = some x ∧ m.shortTerm.measured = true ∧
      m.shortTerm.tenths + roundDiv applied 10 < x.target - x.range ∧ x.gate ≤ m.shortTerm.tenths := by
  unfold loudLowTest correctedLevel
  cases r.loudness <;> simp [and_assoc]

theorem linkTest_lost_iff (c : Converter) : linkTest c .linkLost = true ↔ c.state = .lost := beq_iff_eq

theorem linkTest_unlocked_iff (c : Converter) :
    linkTest c .linkUnlocked = true ↔ c.state = .freewheel ∨ c.state = .relock ∨
      c.state = .acquire ∧ c.measured ≠ 0 ∧ (c.measured < 167772160 ∨ 550292684 < c.measured) := by
  have ranged : (!inRatioRange c.measured) = true ↔ c.measured < 167772160 ∨ 550292684 < c.measured := by
    unfold inRatioRange
    rw [Bool.not_eq_true', Bool.and_eq_false_iff, decide_eq_false_iff_not, decide_eq_false_iff_not, Nat.not_le,
      Nat.not_le]
    rfl
  change (c.state == .freewheel || c.state == .relock ||
    (c.state == .acquire && c.measured != 0 && !inRatioRange c.measured)) = true ↔ _
  rw [Bool.or_eq_true, Bool.or_eq_true, Bool.and_eq_true, Bool.and_eq_true, ranged, beq_iff_eq, beq_iff_eq,
    beq_iff_eq,
    bne_iff_ne, or_assoc, and_assoc]

/-! ## The sampling (R142, R143) -/

/-- The conditions after the sampling of a block end. -/
def State.blockSampled (s : State) : Vector Condition 129 := s.closeBlock.sampled s.appliedGains

theorem State.blockSampled_device (s : State) :
    s.blockSampled[(0 : Fin 129)] =
      s.conditions[(0 : Fin 129)].debounce (s.policy.kind .refLost) (s.ref.state == .holdover) :=
  s.closeBlock_sampled 0

theorem State.blockSampled_absent (s : State) (i : Fin 129) (absent : s.tables.present i = false) :
    s.blockSampled[i] = s.conditions[i] := by
  rw [State.blockSampled, State.closeBlock_sampled, absent]
  rfl

/-- A place of a link that is on, by its converter after the tracking of this block end. -/
theorem State.blockSampled_link (s : State) (l : Fin 8) (i : Fin 129) (kind : Kind) (test : Bool)
    (on_link : (s.link l).enable = true) (subject : conditionSubject i = .link l) (named : conditionKind i = kind)
    (same : test = linkTest (s.converters[l].blockEnd (s.link l).bandwidth) kind) :
    s.blockSampled[i] = s.conditions[i].debounce (s.policy.kind kind) test := by
  have present : s.tables.present i = true := by
    rw [Tables.present, subject]
    exact on_link
  have tracked : s.closeBlock.converters[l] = s.converters[l].blockEnd (s.link l).bandwidth := by
    simp [State.closeBlock]
  rw [State.blockSampled, State.closeBlock_sampled, if_pos present, State.test, subject, named, same, ← tracked]

/-- A place of an ACTIVE program, by its number among the program's seven. -/
theorem State.blockSampled_program (s : State) (p : Fin 16) (k : Nat) (i : Fin 129) (kind : Kind) (test : Bool)
    (active : (s.program p).active = true) (place : i.val = 17 + k + 7 * p.val) (few : k < 7)
    (named : conditionKind i = kind)
    (same : test = programTest (s.program p) (s.meters[p].blockEnd (s.program p).channels)
      (s.blockGain (s.blockMeter p) p) s.delays[p] s.gains[p].applied kind) :
    s.blockSampled[i] = s.conditions[i].debounce (s.policy.kind kind) test := by
  rw [State.blockSampled, s.closeBlock_sampled_program p i active (by omega) (by omega), named, same]

theorem conditionKind_linkLost (l : Fin 8) (i : Fin 129) (place : i.val = 1 + 2 * l.val) :
    conditionKind i = .linkLost := by
  have := l.isLt
  rw [conditionKind, if_neg (by omega), if_pos (by omega), if_pos (by omega)]

theorem conditionKind_linkUnlocked (l : Fin 8) (i : Fin 129) (place : i.val = 2 + 2 * l.val) :
    conditionKind i = .linkUnlocked := by
  have := l.isLt
  rw [conditionKind, if_neg (by omega), if_pos (by omega), if_neg (by omega)]

/-! ## The entries of the sampling and of the applies (R143, R152, R155 to R157) -/

theorem filterMap_eq_map_filter {α β : Type} (xs : List α) (entry : α → Option β) (keep : α → Bool) (f : α → β)
    (each : ∀ x, entry x = if keep x = true then some (f x) else none) :
      xs.filterMap entry = (xs.filter keep).map f := by
  induction xs with
  | nil => rfl
  | cons x xs ih =>
    rw [List.filterMap_cons, List.filter_cons, each, ih]
    cases keep x <;> rfl

theorem sampledEntries_eq (t : Tables) (blocks : BitVec 32) (before after : Vector Condition 129)
    (edged : Fin 129 → Bool)
    (members : ∀ i, edged i = true ↔ before[i].raised ≠ after[i].raised ∧ t.monitored i = true ∧
      (t.policy.applied.kind (conditionKind i)).edges.includes
        (if after[i].raised then .raised else .cleared) = true) :
    sampledEntries t blocks before after =
      ((List.finRange 129).filter edged).map fun i =>
        { kind := conditionKind i
          subject := conditionSubject i
          edge := if after[i].raised then .raised else .cleared
          severity := (t.policy.applied.kind (conditionKind i)).severity
          stamp := blocks
          detail := .cause .sampled } := by
  refine filterMap_eq_map_filter _ _ edged _ fun i => ?_
  have test : (before[i].raised != after[i].raised && t.monitored i && t.logs i (edgeTo after[i].raised)) =
      edged i := by
    rw [Bool.eq_iff_iff, members, Bool.and_eq_true, Bool.and_eq_true, bne_iff_ne, and_assoc]
    rfl
  rw [sampledEntry, test]
  rfl

/-- The test of a WITHDRAWN entry (R155, R157). -/
def withdrawnBy (old new : Tables) (conditions : Vector Condition 129) (i : Fin 129) : Bool :=
  conditions[i].raised && old.monitored i && (removedBy old new i || !new.monitored i) && new.logs i .cleared

/-- The test of an ADMITTED entry (R156). -/
def admittedBy (old new : Tables) (conditions : Vector Condition 129) (i : Fin 129) : Bool :=
  conditions[i].raised && !old.monitored i && new.monitored i && !removedBy old new i

theorem appliedEntry_eq (old new : Tables) (blocks : BitVec 32) (conditions : Vector Condition 129) (i : Fin 129) :
    appliedEntry old new blocks conditions i =
      if (withdrawnBy old new conditions i || admittedBy old new conditions i) = true then
        some (conditionEntry new blocks i (if admittedBy old new conditions i then .raised else .cleared)
          (if admittedBy old new conditions i then .admitted else .withdrawn))
      else none := by
  unfold appliedEntry withdrawnBy admittedBy
  by_cases raised : conditions[i].raised = true
  · by_cases lost : (removedBy old new i || !new.monitored i) = true
    · have unadmitted : (conditions[i].raised && !old.monitored i && new.monitored i &&
          !removedBy old new i) = false := by
        rcases Bool.or_eq_true_iff.mp lost with removed | dropped
        · rw [removed, Bool.not_true, Bool.and_false]
        · rw [(Bool.not_eq_true' _).mp dropped, Bool.and_false, Bool.false_and]
      rw [unadmitted, raised, lost]
      simp
    · obtain ⟨kept, stays⟩ : removedBy old new i = false ∧ new.monitored i = true := by
        simpa using lost
      rw [raised, kept, stays]
      cases old.monitored i <;> rfl
  · rw [Bool.eq_false_of_not_eq_true raised]
    rfl

theorem appliedEntries_eq (old new : Tables) (blocks : BitVec 32) (conditions : Vector Condition 129)
    (withdrawn admitted : Fin 129 → Bool)
    (withdraws : ∀ i, withdrawn i = true ↔ conditions[i].raised = true ∧ old.monitored i = true ∧
      (old.present i = true ∧ new.present i = false ∨ new.monitored i = false) ∧
      (new.policy.applied.kind (conditionKind i)).edges.includes .cleared = true)
    (admits : ∀ i, admitted i = true ↔ conditions[i].raised = true ∧ old.monitored i = false ∧
      new.monitored i = true ∧ (old.present i = false ∨ new.present i = true)) :
    appliedEntries old new blocks conditions =
      ((List.finRange 129).filter fun i => withdrawn i || admitted i).map fun i =>
        { kind := conditionKind i
          subject := conditionSubject i
          edge := if admitted i then .raised else .cleared
          severity := (new.policy.applied.kind (conditionKind i)).severity
          stamp := blocks
          detail := .cause (if admitted i then .admitted else .withdrawn) } := by
  refine filterMap_eq_map_filter _ _ _ _ fun i => ?_
  have first : withdrawnBy old new conditions i = withdrawn i := by
    rw [Bool.eq_iff_iff, withdraws]
    simp only [withdrawnBy, removedBy, Tables.logs, Bool.and_eq_true, Bool.or_eq_true, Bool.not_eq_true', and_assoc]
  have second : admittedBy old new conditions i = admitted i := by
    rw [Bool.eq_iff_iff, admits]
    simp only [admittedBy, removedBy, Bool.and_eq_true, Bool.not_eq_true', Bool.and_eq_false_iff,
      Bool.not_eq_false',
      and_assoc]
  rw [appliedEntry_eq, first, second]
  rfl

/-! ## The conditions and summary lines that a block end leaves (R157, R158) -/

theorem appliedConditions_get (old new : Tables) (conditions : Vector Condition 129) (i : Fin 129) :
    (old.present i = true → new.present i = false →
        (appliedConditions old new conditions)[i] = { test := false, raised := false, counter := 0 }) ∧
      (old.present i = false ∨ new.present i = true →
        (appliedConditions old new conditions)[i] = conditions[i]) := by
  have entry : (appliedConditions old new conditions)[i] =
      if removedBy old new i then Condition.initial else conditions[i] := by simp [appliedConditions]
  rw [entry, removedBy]
  refine ⟨fun before after => ?_, fun stays => ?_⟩
  · rw [before, after]
    rfl
  · refine if_neg fun removed => ?_
    rw [Bool.and_eq_true, Bool.not_eq_true'] at removed
    rcases stays with absent | present
    · rw [absent] at removed
      cases removed.1
    · rw [present] at removed
      cases removed.2

theorem State.blockEndThenSlips_sampledPins (s : State) :
    s.blockEndThenSlips.pins.sampled = s.tables.summary s.blockSampled := by
  obtain ⟨-, ⟨-, follow⟩, -⟩ := s.blockEndThenSlips_makes
  exact follow.trans s.blockEnd_sampledPins

theorem State.program_present (s : State) (p : Fin 16) (i : Fin 129) (low : 17 + 7 * p.val ≤ i.val)
    (high : i.val ≤ 23 + 7 * p.val) : s.tables.present i = (s.program p).active := by
  rw [Tables.present, conditionSubject_program p i low high]
  rfl

theorem State.link_present (s : State) (l : Fin 8) (i : Fin 129)
    (place : i.val = 1 + 2 * l.val ∨ i.val = 2 + 2 * l.val) :
    s.tables.present i = (s.link l).enable := by
  rw [Tables.present, conditionSubject_link l i place]
  rfl

/-- Settles O21: each place is sampled by the test of its kind, and the entries other than PROGRAM_CHANGED are
those of `sampledEntries_eq` and then those of `appliedEntries_eq`. -/
theorem blockEndDebounces : Obligations.BlockEndDebounces := by
  unfold Obligations.BlockEndDebounces
  intro s released due
  refine ⟨s.blockEnd, s.blockEndThenSlips, s.blockSampled, exec_blockEnd_due s released due,
    s.blockEndThenSlips_makes,
    s.blockSampled_device, fun l i test on_link => ⟨fun place claim => ?_, fun place claim => ?_⟩,
    fun l i off place => s.blockSampled_absent i ((s.link_present l i place).trans off),
    fun p i test m active measured => ?_,
    fun p i idle low high => s.blockSampled_absent i ((s.program_present p i low high).trans idle),
      fun i => ?_, ?_, ?_,
    s.blockEndEntries, s.blockEnd_logged, fun edged withdrawn admitted edges withdraws admits => ?_⟩
  · exact s.blockSampled_link l i _ test on_link (conditionSubject_link l i (.inl place))
      (conditionKind_linkLost l i place) (bool_eq_of_iff claim (linkTest_lost_iff _))
  · refine s.blockSampled_link l i _ test on_link (conditionSubject_link l i (.inr place))
      (conditionKind_linkUnlocked l i place) (bool_eq_of_iff claim ((linkTest_unlocked_iff _).trans ?_))
    exact ⟨fun holds c same => same ▸ holds, fun holds => holds _ rfl⟩
  · subst measured
    have gain := s.blockGain_active (s.blockMeter p) p active
    rw [s.blockMeter_active p active] at gain
    have overload : (s.blockGain (s.blockMeter p) p).overloadTest = true ↔ 1 ≤ s.gains[p].overloads := by
      rw [s.blockMeter_active p active, gain, GainStage.law_overloadTest]
      exact decide_eq_true_iff
    refine ⟨fun place claim => ?_, fun place claim => ?_, fun place claim => ?_, fun place claim => ?_,
      fun place claim => ?_, fun place claim => ?_, fun place claim => ?_⟩
    · exact s.blockSampled_program p 0 i _ test active place (by omega)
        (conditionKind_program p 0 i place (by omega)) (bool_eq_of_iff claim (silenceTest_iff _ _))
    · exact s.blockSampled_program p 1 i _ test active place (by omega)
        (conditionKind_program p 1 i place (by omega)) (bool_eq_of_iff claim overload)
    · exact s.blockSampled_program p 2 i _ test active place (by omega)
        (conditionKind_program p 2 i place (by omega)) (bool_eq_of_iff claim (loudHighTest_iff _ _ _))
    · exact s.blockSampled_program p 3 i _ test active place (by omega)
        (conditionKind_program p 3 i place (by omega)) (bool_eq_of_iff claim (loudLowTest_iff _ _ _))
    · refine s.blockSampled_program p 4 i _ test active place (by omega)
        (conditionKind_program p 4 i place (by omega)) (bool_eq_of_iff claim ?_)
      change (s.blockGain (s.blockMeter p) p).limitTest = true ↔ _
      rw [s.blockMeter_active p active, gain]
      exact GainStage.law_limitTest _ _ _ _ _
    · exact s.blockSampled_program p 5 i _ test active place (by omega)
        (conditionKind_program p 5 i place (by omega)) claim
    · exact s.blockSampled_program p 6 i _ test active place (by omega)
        (conditionKind_program p 6 i place (by omega)) claim
  · rw [State.blockEndThenSlips_tables, State.blockEndThenSlips_conditions]
    exact appliedConditions_get _ _ _ i
  · rw [State.blockEndThenSlips_sampledPins]
    exact Tables.summary_major _ _
  · rw [State.blockEndThenSlips_sampledPins]
    exact Tables.summary_minor _ _
  · simp only [State.policy, State.blockEndThenSlips_tables] at withdraws admits ⊢
    rw [s.blockEndEntries_filter.1, ← State.blockSampled, sampledEntries_eq _ _ _ _ edged edges,
      appliedEntries_eq _ _ _ _ withdrawn admitted withdraws admits]

end Sys2Proof.Machine
end

section
/-! A block end's program applies at meter, gain stage and delay engine (R15 to R19, R64 to R79, R98, R110, R117,
R118, R123 to R126, R136). -/

namespace Sys2Proof.Machine

/-! ## The meter (R15, R16, R77, R78) -/

theorem Meter.apply_started (m : Meter) {old new : ProgramRecord} (idle : old.active = false)
    (active : new.active = true) : m.apply old new = Meter.fresh new.channels.length := by
  rw [Meter.apply, idle, active]

theorem Meter.apply_unused (m : Meter) {old new : ProgramRecord} (idle : new.active = false) :
    m.apply old new = m := by
  rw [Meter.apply, idle]
  cases old.active <;> rfl

theorem Meter.apply_active (m : Meter) {old new : ProgramRecord} (before : old.active = true)
    (after : new.active = true) :
    (old.channels.map (fun c => (c.input, c.weight)) = new.channels.map (fun c => (c.input, c.weight)) →
        m.apply old new = m) ∧
      (old.channels.map (fun c => (c.input, c.weight)) ≠ new.channels.map (fun c => (c.input, c.weight)) →
        m.apply old new = m.emptied old.channels new.channels) := by
  rw [Meter.apply, before, after]
  exact ⟨fun same => if_neg (by simp [remetered, same]), fun differ => if_pos (by simp [remetered, differ])⟩

/-- A channel that was there keeps its filters where its input slot is unchanged (R16). -/
theorem rechannel_kept (old new : List Channel) (ms : List ChannelMeter) {k : Nat}
    {a b : Channel} {x : ChannelMeter}
    (first : old[k]? = some a) (meter : ms[k]? = some x) (second : new[k]? = some b) :
    (rechannel old new ms)[k]? = some (if a.input = b.input then { x with energy := 0 }
      else ChannelMeter.zero) := by
  induction new generalizing old ms k with
  | nil => cases second
  | cons c new ih =>
    cases old with
    | nil => cases first
    | cons o old =>
      cases ms with
      | nil => cases meter
      | cons m ms =>
        cases k with
        | zero =>
          cases first
          cases meter
          cases second
          rfl
        | succ k => exact ih old ms first meter second

/-- A channel that was not there starts clear (R16). -/
theorem rechannel_new (old new : List Channel) (ms : List ChannelMeter) {k : Nat} {b : Channel}
    (first : old[k]? = none) (second : new[k]? = some b) : (rechannel old new ms)[k]? = some ChannelMeter.zero := by
  induction new generalizing old ms k with
  | nil => cases second
  | cons c new ih =>
    cases old with
    | nil =>
      have clear : rechannel [] (c :: new) ms = ChannelMeter.zero :: rechannel [] new [] := by
        cases ms <;> rfl
      rw [clear]
      cases k with
      | zero => rfl
      | succ k => exact ih [] [] rfl second
    | cons o old =>
      cases k with
      | zero => cases first
      | succ k =>
        cases ms with
        | nil => exact ih [] [] rfl second
        | cons m ms => exact ih old ms first second

theorem Meter.blockEnd_channel (m : Meter) (channels : List Channel) {k : Nat} {x : ChannelMeter}
    (meter : (m.blockEnd channels).channels[k]? = some x) : { x with energy := 0 } = x := by
  change (m.channels.map fun c => { c with energy := 0 })[k]? = some x at meter
  rw [List.getElem?_map, Option.map_eq_some_iff] at meter
  obtain ⟨y, -, rfl⟩ := meter
  rfl

/-! ## The gain stage (R15, R98) -/

theorem GainStage.takeApply_kept (g : GainStage) (first : Bool) (old new : ProgramRecord) (d : DelayEngine)
    (frames : Nat) : g.takeApply first old new d .kept frames = g.apply old new := by
  cases first <;> rfl

/-- A program that is not ACTIVE before and after takes its apply with D_c kept. -/
theorem State.blockEnd_gain_kept (s : State) (p : Fin 16)
    (kept : (s.delays[p].apply (s.program p) (s.blockEnd.program p)).2 = .kept) :
    s.blockEnd.gains[p] = (s.blockGain (s.blockMeter p) p).apply (s.program p) (s.blockEnd.program p) := by
  obtain ⟨first, gain⟩ := s.blockEnd_gain p
  rw [gain, kept, GainStage.takeApply_kept]

theorem State.blockGain_inactive (s : State) (m : Meter) (p : Fin 16) (idle : (s.program p).active = false) :
    s.blockGain m p = s.gains[p] := by
  rw [State.blockGain, idle]
  rfl

theorem State.blockMeter_inactive (s : State) (p : Fin 16) (idle : (s.program p).active = false) :
    s.blockMeter p = { s.meters[p] with clearPending := false } := by
  rw [State.blockMeter, idle]
  rfl

/-- The gain law leaves what the output carries: factor, source and fade level. -/
theorem State.blockGain_output (s : State) (m : Meter) (p : Fin 16) (active : (s.program p).active = true) :
    (s.blockGain m p).selected = s.gains[p].selected ∧ (s.blockGain m p).fade = s.gains[p].fade := by
  rw [s.blockGain_active m p active, GainStage.law_fields]
  exact ⟨rfl, rfl⟩

/-! ## The delay engine (R15, R17, R110, R117, R118, R123 to R126) -/

theorem DelayEngine.formSync_eq (d : DelayEngine) : d.formSync = { d with syncLost := d.formSync.syncLost } := rfl

theorem DelayEngine.openBlock_none (d : DelayEngine) {r : ProgramRecord}
    (none : r.active = false ∨ r.usable = none) :
    d.openBlock r = d := by
  unfold DelayEngine.openBlock
  rcases none with idle | unusable
  · rw [idle]
  · rw [unusable]
    cases r.active <;> rfl

theorem DelayEngine.openBlock_some (d : DelayEngine) {r : ProgramRecord} {x : DelaySection}
    (active : r.active = true)
    (usable : r.usable = some x) : d.openBlock r = d.decideStep x := by
  rw [DelayEngine.openBlock, active, usable]

theorem layOut_fields (n : Nat) (x : DelaySection) :
    (layOut n x).state = .filling ∧
      (layOut n x).layout = some { base := x.base, pages := (x.limit + 1 - x.base) / n, lanes := n } ∧
      (layOut n x).target = min x.target (layOut n x).usable ∧
      (layOut n x).current = (layOut n x).target * 65536 ∧
      (layOut n x).lanes = List.replicate n { valid := 0, correction := 0 } :=
  ⟨rfl, rfl, rfl, rfl, rfl⟩

theorem layOut_decideStep (n : Nat) (x y : DelaySection) : (layOut n x).decideStep y = layOut n x :=
  (layOut n x).decideStep_other y (.inr (.inl rfl))

/-- Lanes laid out anew carry no correction, and so lose no sync (R110, R136). -/
theorem layOut_formSync (n : Nat) (x : DelaySection) : (layOut n x).formSync = layOut n x := by
  have steady : (layOut n x).formSync.syncLost = false := by
    rw [Bool.eq_false_iff]
    intro lost
    obtain ⟨lane, member, outside⟩ := (layOut n x).formSync_formed.mp lost
    have level : lane.correction = 0 := by
      rw [List.eq_of_mem_replicate member]
    have bound : (layOut n x).formSync.current ≤ (layOut n x).formSync.usable * 65536 :=
      Nat.mul_le_mul_right 65536 (Nat.min_le_right x.target _)
    rw [level] at outside
    omega
  rw [DelayEngine.formSync_eq, steady]
  rfl

theorem DelayEngine.apply_started (d : DelayEngine) {old new : ProgramRecord} (idle : old.active = false)
    (active : new.active = true) : d.apply old new = (startDelay new, .kept) := by
  rw [DelayEngine.apply, idle, active]

theorem DelayEngine.apply_closed (d : DelayEngine) {old new : ProgramRecord} (active : old.active = true)
    (idle : new.active = false) : d.apply old new = ({ d with step := none }, .kept) := by
  rw [DelayEngine.apply, active, idle]

theorem DelayEngine.apply_unused (d : DelayEngine) {old new : ProgramRecord} (before : old.active = false)
    (after : new.active = false) : d.apply old new = (d, .kept) := by
  rw [DelayEngine.apply, before, after]

/-- The apply of a program that stays ACTIVE without a usable window: BYPASS is kept, or entered. -/
theorem DelayEngine.apply_bypass (d : DelayEngine) {old new : ProgramRecord} (before : old.active = true)
    (after : new.active = true) (unusable : new.usable = none) :
    d.apply old new = if d.state = .bypass then (d, .kept) else (DelayEngine.initial, .released) := by
  rw [DelayEngine.apply, before, after, unusable]

/-- The apply of a program that stays ACTIVE with a usable window: the lanes stay, or are laid out anew. -/
theorem DelayEngine.apply_window (d : DelayEngine) {old new : ProgramRecord} {x : DelaySection}
    (before : old.active = true) (after : new.active = true) (usable : new.usable = some x) :
    d.apply old new =
      if sameLayout old new = true then
        ((d.takeTarget x).1, if (d.takeTarget x).2 then .setAnew else .kept)
      else (layOut new.channels.length x, .setAnew) := by
  rw [DelayEngine.apply, before, after, usable]

/-- The delay engine after the block end of a program that stays ACTIVE. -/
theorem DelayEngine.apply_opens (d : DelayEngine) {old new : ProgramRecord} (before : old.active = true)
    (after : new.active = true) (e : DelayEngine)
    (opened : e = (DelayEngine.openBlock (d.apply old new).1 new).formSync) :
    (new.usable = none →
      (d.state = .bypass → e = { d with syncLost := e.syncLost }) ∧ (d.state ≠ .bypass → e = DelayEngine.initial)) ∧
    ∀ x, new.usable = some x →
      (sameLayout old new = false → e = layOut new.channels.length x) ∧
      (sameLayout old new = true →
        ∃ f g : DelayEngine, d.Retargets x f ∧ f.Decides x g ∧ e = { g with syncLost := e.syncLost }) := by
  refine ⟨fun unusable => ?_, fun x usable => ?_⟩
  · rw [d.apply_bypass before after unusable, DelayEngine.openBlock_none _ (.inr unusable)] at opened
    refine ⟨fun bypassed => ?_, fun delayed => ?_⟩
    · rw [if_pos bypassed] at opened
      rw [opened]
      rfl
    · rw [if_neg delayed] at opened
      exact opened
  · rw [d.apply_window before after usable, DelayEngine.openBlock_some _ after usable] at opened
    refine ⟨fun anew => ?_, fun same => ?_⟩
    · rw [if_neg (by rw [anew]; decide), layOut_decideStep, layOut_formSync] at opened
      exact opened
    · rw [if_pos same] at opened
      obtain ⟨flag, decided⟩ := d.takeTarget_decideStep x
      refine ⟨d.retargeted x, _, d.retargeted_retargets x, (d.retargeted x).decideStep_decides x, ?_⟩
      rw [opened, decided]
      rfl

/-! ## The four cases of a program at a block end -/

theorem State.blockEnd_starts (s : State) (p : Fin 16) (idle : (s.program p).active = false)
    (active : (s.blockEnd.program p).active = true) :
    s.blockEnd.meters[p] = Meter.fresh (s.blockEnd.program p).channels.length ∧
      s.blockEnd.gains[p] = { GainStage.initial with selected := (s.blockEnd.program p).source } ∧
      ((s.blockEnd.program p).usable = none → s.blockEnd.delays[p] = DelayEngine.initial) ∧
      ∀ x, (s.blockEnd.program p).usable = some x →
        s.blockEnd.delays[p] = layOut (s.blockEnd.program p).channels.length x := by
  have starts := s.delays[p].apply_started idle active
  refine ⟨?_, ?_, fun unusable => ?_, fun x usable => ?_⟩
  · rw [s.blockEnd_meter p, Meter.apply_started _ idle active]
  · rw [s.blockEnd_gain_kept p (by rw [starts]), GainStage.apply, idle, active]
    rfl
  · rw [s.blockEnd_delay p, starts, DelayEngine.openBlock_none _ (.inr unusable), startDelay, unusable]
    rfl
  · rw [s.blockEnd_delay p, starts, DelayEngine.openBlock_some _ active usable, startDelay, usable]
    dsimp only
    rw [layOut_decideStep, layOut_formSync]

theorem GainStage.close_fields (g : GainStage) (old : ProgramRecord) :
    (g.close old).applied = 0 ∧ (g.close old).queue = [] ∧ (g.close old).ramp = none ∧
      (g.close old).factor = g.factor ∧ (g.close old).closing = 480 ∧ (g.close old).closingContent = some old ∧
      (g.close old).selected = g.selected ∧ (g.close old).fade = g.fade :=
  ⟨rfl, rfl, rfl, rfl, rfl, rfl, rfl, rfl⟩

theorem DelayEngine.stopStep_fields (d : DelayEngine) :
    (DelayEngine.formSync { d with step := none }).state = d.state ∧
      (DelayEngine.formSync { d with step := none }).layout = d.layout ∧
      (DelayEngine.formSync { d with step := none }).lanes = d.lanes ∧
      (DelayEngine.formSync { d with step := none }).current = d.current :=
  ⟨rfl, rfl, rfl, rfl⟩

theorem State.blockEnd_closes (s : State) (p : Fin 16) (active : (s.program p).active = true)
    (idle : (s.blockEnd.program p).active = false) :
    s.blockEnd.gains[p] = (s.closeBlock.gains[p]).close (s.program p) ∧
      s.closeBlock.gains[p] = s.blockGain (s.blockMeter p) p ∧
      s.blockEnd.meters[p] = s.meters[p].blockEnd (s.program p).channels ∧
      s.blockEnd.delays[p] = DelayEngine.formSync { s.delays[p] with step := none } := by
  have closes := s.delays[p].apply_closed active idle
  have worked : s.closeBlock.gains[p] = s.blockGain (s.blockMeter p) p := by simp [State.closeBlock]
  refine ⟨?_, worked, ?_, ?_⟩
  · rw [s.blockEnd_gain_kept p (by rw [closes]), GainStage.apply, active, idle, worked]
  · rw [s.blockEnd_meter p, Meter.apply_unused _ idle, s.blockMeter_active p active]
  · rw [s.blockEnd_delay p, closes, DelayEngine.openBlock_none _ (.inl idle)]

theorem State.blockEnd_rests (s : State) (p : Fin 16) (before : (s.program p).active = false)
    (after : (s.blockEnd.program p).active = false) :
    s.blockEnd.meters[p] = { s.meters[p] with clearPending := false } ∧ s.blockEnd.gains[p] = s.gains[p] ∧
      s.blockEnd.delays[p] = s.delays[p].formSync := by
  have rests := s.delays[p].apply_unused before after
  refine ⟨?_, ?_, ?_⟩
  · rw [s.blockEnd_meter p, Meter.apply_unused _ after, s.blockMeter_inactive p before]
  · rw [s.blockEnd_gain_kept p (by rw [rests]), GainStage.apply, before, after, s.blockGain_inactive _ p before]
  · rw [s.blockEnd_delay p, rests, DelayEngine.openBlock_none _ (.inl after)]

/-- The meter of a program that stays ACTIVE (R16, R78). -/
theorem State.blockEnd_remeters (s : State) (p : Fin 16) (before : (s.program p).active = true)
    (after : (s.blockEnd.program p).active = true) (m : Meter)
    (worked : m = s.meters[p].blockEnd (s.program p).channels) :
    ((s.program p).channels.map (fun c => (c.input, c.weight)) =
        (s.blockEnd.program p).channels.map (fun c => (c.input, c.weight)) → s.blockEnd.meters[p] = m) ∧
    ((s.program p).channels.map (fun c => (c.input, c.weight)) ≠
        (s.blockEnd.program p).channels.map (fun c => (c.input, c.weight)) →
      s.blockEnd.meters[p] = m.emptied (s.program p).channels (s.blockEnd.program p).channels) := by
  have applied := m.apply_active before after
  rw [worked, ← s.blockMeter_active p before, ← s.blockEnd_meter p] at applied
  rwa [worked, ← s.blockMeter_active p before]

theorem Meter.emptied_fields (m : Meter) (old new : List Channel) :
    m.emptied old new =
      { channels := (m.emptied old new).channels
        ring := []
        momentary := { tenths := -1000, measured := false }
        shortTerm := { tenths := -1000, measured := false }
        integrated := { tenths := -1000, measured := false }
        histogram := Vector.replicate 170 { count := 0, energy := 0 }
        clearPending := false } := rfl

/-- The channel meters of an emptied meter (R16). -/
theorem Meter.emptied_channels (m : Meter) (before : List Channel) (old new : List Channel) :
    ((m.blockEnd before).emptied old new).channels.length = new.length ∧
      ∀ (k : Nat) (b : Channel), new[k]? = some b →
        (∀ (a : Channel) (x : ChannelMeter), old[k]? = some a → (m.blockEnd before).channels[k]? = some x →
          ((m.blockEnd before).emptied old new).channels[k]? =
            some (if a.input = b.input then x else ChannelMeter.zero)) ∧
        (old[k]? = none →
          ((m.blockEnd before).emptied old new).channels[k]? = some ChannelMeter.zero) := by
  refine ⟨rechannel_length _ _ _, fun k b second => ⟨fun a x first meter => ?_, fun first => ?_⟩⟩
  · have clear := m.blockEnd_channel before meter
    have kept := rechannel_kept old new _ first meter second
    rw [clear] at kept
    exact kept
  · exact rechannel_new old new _ first second

/-- Settles O23: the four cases of a program's activity before and after the block end. -/
theorem blockEndStartsAndClosesPrograms : Obligations.BlockEndStartsAndClosesPrograms := by
  unfold Obligations.BlockEndStartsAndClosesPrograms
  refine ⟨powerFactor_rounded, levelOf_floored, Meter.blockEnd_closes, fun s released due =>
    ⟨s.blockEnd, s.blockEndThenSlips, exec_blockEnd_due s released due, s.blockEndThenSlips_makes, fun p => ?_⟩⟩
  obtain ⟨-, gains, -, -, -, -, meters, -⟩ := s.blockEndThenSlips_makes.keeps
  rw [gains, meters, State.blockEndThenSlips_program]
  refine ⟨fun idle active => ?_, fun active idle => ?_, fun before after m worked => ?_, fun before after => ?_, ?_⟩
  · obtain ⟨meter, gain, bypass, lanes⟩ := s.blockEnd_starts p idle active
    refine ⟨meter, gain, bypass, fun x usable => ?_⟩
    rw [lanes x usable]
    exact layOut_fields _ x
  · obtain ⟨gain, worked, meter, delay⟩ := s.blockEnd_closes p active idle
    obtain ⟨selected, fade⟩ := s.blockGain_output (s.blockMeter p) p active
    obtain ⟨applied, queue, ramp, factor, closing, content, source, level⟩ :=
      (s.closeBlock.gains[p]).close_fields (s.program p)
    rw [gain, delay]
    rw [← worked] at selected fade
    exact ⟨applied, queue, ramp, factor, closing, content, source.trans selected, level.trans fade, meter,
      s.delays[p].stopStep_fields⟩
  · obtain ⟨same, differs⟩ := s.blockEnd_remeters p before after m worked
    obtain ⟨bypass, window⟩ := s.delays[p].apply_opens before after _ (s.blockEnd_delay p)
    refine ⟨same, fun changed => ?_, bypass, window⟩
    rw [differs changed, worked]
    exact ⟨Meter.emptied_fields _ _ _, s.meters[p].emptied_channels _ _ _⟩
  · obtain ⟨meter, gain, delay⟩ := s.blockEnd_rests p before after
    refine ⟨meter, gain, ?_⟩
    rw [delay]
    exact DelayEngine.formSync_eq _
  · rw [s.blockEnd_delay p]
    exact DelayEngine.formSync_formed _

end Sys2Proof.Machine
end

section
/-! The gain stage at a block end and at a house frame (R17 to R19, R83 to R98, R129). -/

namespace Sys2Proof.Machine

/-! ## The scheduled gain (R85, R86) -/

theorem towards_near {last desired : Int} {slew : Nat} (near : (desired - last).natAbs ≤ slew) :
    towards last desired slew = desired := if_pos near

theorem towards_up {last desired : Int} {slew : Nat} (far : slew < (desired - last).natAbs) (up : last < desired) :
    towards last desired slew = last + slew := by
  rw [towards, if_neg (by omega), if_pos up]

theorem towards_down {last desired : Int} {slew : Nat} (far : slew < (desired - last).natAbs)
    (down : desired < last) :
    towards last desired slew = last - slew := by
  rw [towards, if_neg (by omega), if_neg (by omega)]

/-! ## An apply's change of D_c (R17, R90, R98, R125) -/

/-- What the apply of a program that stays ACTIVE does to D_c: nothing where it stays put, a release where the window
goes, and else a new value. -/
theorem DelayEngine.apply_change (d : DelayEngine) {old new : ProgramRecord} (before : old.active = true)
    (after : new.active = true) :
    (d.StaysPut old new → (d.apply old new).2 = .kept) ∧
      (¬ d.StaysPut old new →
        (new.usable = none → (d.apply old new).2 = .released) ∧
          (new.usable ≠ none → (d.apply old new).2 = .setAnew)) := by
  cases usable : new.usable with
  | none =>
    rw [d.apply_bypass before after usable]
    refine ⟨fun stays => ?_, fun moves => ⟨fun _ => ?_, fun some => absurd rfl some⟩⟩
    · rcases stays with ⟨-, bypassed⟩ | ⟨x, some, -⟩
      · rw [if_pos bypassed]
      · rw [usable] at some
        cases some
    · rw [if_neg fun bypassed => moves (.inl ⟨usable, bypassed⟩)]
  | some x =>
    have anew := d.takeTarget_new x
    rw [d.apply_window before after usable]
    refine ⟨fun stays => ?_, fun moves => ⟨fun none => (nomatch none), fun _ => ?_⟩⟩
    · rcases stays with ⟨none, -⟩ | ⟨y, same, layout, put⟩
      · rw [usable] at none
        cases none
      · rw [usable] at same
        cases same
        have quiet : (d.takeTarget x).2 = false := by
          rw [anew, Bool.and_eq_false_iff, decide_eq_false_iff_not, decide_eq_false_iff_not, not_ne_iff]
          exact put
        rw [if_pos layout, quiet]
        rfl
    · by_cases layout : sameLayout old new = true
      · have taken : (d.takeTarget x).2 = true := by
          by_contra quiet
          rw [anew, Bool.not_eq_true, Bool.and_eq_false_iff, decide_eq_false_iff_not, decide_eq_false_iff_not,
            not_ne_iff] at quiet
          exact moves (.inr ⟨x, usable, layout, quiet⟩)
        rw [if_pos layout, taken]
        rfl
      · rw [if_neg layout]

theorem GainStage.changeSource_fade (g : GainStage) (old new : Source) (fade : Nat) :
    ({ g with fade := fade } : GainStage).changeSource old new = { g.changeSource old new with fade := fade } := by
  unfold GainStage.changeSource
  split
  · rfl
  · split
    · rfl
    · split <;> rfl

theorem GainStage.changeLoudness_fade (g : GainStage) (old new : Option Loudness) (fade : Nat) :
    ({ g with fade := fade } : GainStage).changeLoudness old new =
      { g.changeLoudness old new with fade := fade } := by
  unfold GainStage.changeLoudness
  cases old with
  | none => rfl
  | some x =>
    cases new with
    | none => rfl
    | some y =>
      dsimp only
      split
      · rfl
      · unfold GainStage.clampTo
        dsimp only
        split <;> rfl

/-- The gain stage's own part of an apply does not look at the fade level. -/
theorem GainStage.apply_fade (g : GainStage) {old new : ProgramRecord} (before : old.active = true)
    (after : new.active = true) (fade : Nat) :
    ({ g with fade := fade } : GainStage).apply old new = { g.apply old new with fade := fade } := by
  simp only [GainStage.apply, before, after]
  rw [GainStage.changeSource_fade, GainStage.changeLoudness_fade]

/-- The gain stage of a program that stays ACTIVE takes the content and meets the jump of Q, in either order; a
release sets the fade level to 0 as well (R18, R90, R98). -/
theorem GainStage.takeApply_jumps (g : GainStage) (first : Bool) {old new : ProgramRecord} (d : DelayEngine)
    (frames : Nat) (before : old.active = true) (after : new.active = true) :
    ∃ h k : GainStage,
      (g.TakesContent old new h ∧ h.Jumps (d.readReference frames) k ∨
        g.Jumps (d.readReference frames) h ∧ h.TakesContent old new k) ∧
      g.takeApply first old new d .setAnew frames = k ∧
      g.takeApply first old new d .released frames = { k with fade := 0 } := by
  cases first with
  | true =>
    exact ⟨g.apply old new, (g.apply old new).jump (d.readReference frames),
      .inl ⟨g.apply_takes old new before after, GainStage.jump_jumps _ _⟩, rfl, rfl⟩
  | false =>
    exact ⟨g.jump (d.readReference frames), (g.jump (d.readReference frames)).apply old new,
      .inr ⟨GainStage.jump_jumps _ _, GainStage.apply_takes _ old new before after⟩, rfl,
      GainStage.apply_fade _ before after 0⟩

/-- Where an apply moves D_c, the jump meets the D_c that the block end leaves. -/
theorem State.blockEnd_readReference (s : State) (p : Fin 16) :
    (s.delays[p].apply (s.program p) (s.blockEnd.program p)).1.readReference s.clock.frames =
      (s.clock.frames : Int) - (s.blockEnd.delays[p].current / 65536 : Nat) := by
  have current : s.blockEnd.delays[p].current =
      (s.delays[p].apply (s.program p) (s.blockEnd.program p)).1.current := by
    rw [s.blockEnd_delay p, DelayEngine.formSync_current, DelayEngine.openBlock_current]
  rw [DelayEngine.readReference, current]

/-- The gain stage of a program that stays ACTIVE, through the law and the apply of a block end. -/
theorem State.blockEnd_regains (s : State) (p : Fin 16) (before : (s.program p).active = true)
    (after : (s.blockEnd.program p).active = true) (g : GainStage) (worked : g = s.blockGain (s.blockMeter p) p) :
    (s.delays[p].StaysPut (s.program p) (s.blockEnd.program p) →
      g.TakesContent (s.program p) (s.blockEnd.program p) s.blockEnd.gains[p]) ∧
    (¬ s.delays[p].StaysPut (s.program p) (s.blockEnd.program p) →
      ∃ h k : GainStage,
        (g.TakesContent (s.program p) (s.blockEnd.program p) h ∧
            h.Jumps ((s.clock.frames : Int) - (s.blockEnd.delays[p].current / 65536 : Nat)) k ∨
          g.Jumps ((s.clock.frames : Int) - (s.blockEnd.delays[p].current / 65536 : Nat)) h ∧
            h.TakesContent (s.program p) (s.blockEnd.program p) k) ∧
        s.blockEnd.gains[p] = { k with fade := s.blockEnd.gains[p].fade } ∧
        ((s.blockEnd.program p).usable = none → s.blockEnd.gains[p].fade = 0) ∧
        ((s.blockEnd.program p).usable ≠ none → s.blockEnd.gains[p].fade = k.fade)) := by
  obtain ⟨first, gain⟩ := s.blockEnd_gain p
  obtain ⟨kept, moved⟩ := s.delays[p].apply_change before after
  rw [← worked] at gain
  refine ⟨fun stays => ?_, fun moves => ?_⟩
  · rw [gain, kept stays, GainStage.takeApply_kept]
    exact g.apply_takes _ _ before after
  · obtain ⟨released, anew⟩ := moved moves
    obtain ⟨h, k, order, sets, releases⟩ := g.takeApply_jumps first
      (s.delays[p].apply (s.program p) (s.blockEnd.program p)).1 s.clock.frames before after
    rw [s.blockEnd_readReference p] at order
    refine ⟨h, k, order, ?_⟩
    by_cases unusable : (s.blockEnd.program p).usable = none
    · rw [released unusable, releases] at gain
      rw [gain]
      exact ⟨rfl, fun _ => rfl, fun usable => absurd unusable usable⟩
    · rw [anew unusable, sets] at gain
      rw [gain]
      exact ⟨rfl, fun none => absurd none unusable, fun _ => rfl⟩

/-! ## The gain stage at a house frame (R89 to R98, R129) -/

theorem DelayEngine.correct_target (d : DelayEngine) (r : ProgramRecord) (n : SlipNotice) :
    (d.correct r n).target = d.target := by
  rw [DelayEngine.correct_eq]

theorem DelayEngine.corrects_target (d : DelayEngine) (r : ProgramRecord) (ns : List SlipNotice) :
    (ns.foldl (fun e n => e.correct r n) d).target = d.target := by
  induction ns generalizing d with
  | nil => rfl
  | cons n ns ih => rw [List.foldl_cons, ih, DelayEngine.correct_target]

/-- The read reference after the jump that ends a FADE_OUT (R129). -/
theorem DelayEngine.jump_readReference (d : DelayEngine) (frames : Nat) :
    d.jump.readReference frames = (frames : Int) - d.target := by
  have current : d.jump.current = d.target * 65536 := rfl
  rw [DelayEngine.readReference, current, Nat.mul_div_cancel _ (by omega)]

/-- The end of an ACTIVE program's work changes its gain stage where a FADE_OUT has reached level 0 (R129). -/
theorem DelayEngine.leaveStates_gain (d : DelayEngine) (level : Nat) (selected : Source) (g : GainStage)
    (frames : Nat) :
    (d.state ≠ .fadeOut ∨ level ≠ 0 → (d.leaveStates level selected g frames).2 = g) ∧
      (d.state = .fadeOut → level = 0 →
        (d.leaveStates level selected g frames).2 = g.jump ((frames : Int) - d.target)) := by
  unfold DelayEngine.leaveStates
  refine ⟨fun other => ?_, fun fading ended => ?_⟩
  · cases state : d.state with
    | fadeOut =>
      dsimp only
      rw [if_neg (other.resolve_left fun running => running state)]
    | bypass | steady | slewing | filling | fadeIn => rfl
  · rw [fading]
    dsimp only
    rw [if_pos ended, DelayEngine.jump_readReference]

/-- What a house frame leaves of the gain stage of a program at work: its count, its source step, the jump at
the end of a FADE_OUT and the closing count. -/
theorem State.houseFrame_gains_at (s : State) (p : Fin 16) (r : ProgramRecord) (content : s.content p = some r) :
    ∃ (written samples : List Sample) (m : Memory) (d : DelayEngine) (g h : GainStage),
      s.WorksFrame s.delivered s.frameNotices.1 p r written samples m d g ∧ g.Finishes samples h ∧
        ((s.program p).active = true → s.gains[p].closing = 0 →
          (d.state ≠ .fadeOut ∨ g.fade ≠ 0 → s.houseFrame.gains[p] = h) ∧
          (d.state = .fadeOut → g.fade = 0 →
            h.Jumps ((s.clock.frames + 1 : Int) - s.delays[p].target) s.houseFrame.gains[p])) ∧
        ((s.program p).active = false → s.gains[p].closing ≠ 1 →
          s.houseFrame.gains[p] = { h with closing := s.gains[p].closing - 1 }) := by
  obtain ⟨u, _, _, others, -, gain, -⟩ := s.houseFrame_at p
  obtain ⟨held, program, -, -, -, frames, -⟩ := State.OthersRun.ready others
  have works := others.works r content
  have closing : (u.readyGain p).closing = s.gains[p].closing := by rw [works.gain.1]
  obtain ⟨runs, -, closes⟩ := (u.readyGain p).finish_counted (u.readSamples s.delivered p r)
  rw [closing] at runs closes
  refine ⟨_, _, _, _, _, _, works, (u.readyGain p).counted_finishes _, fun active open_count => ?_,
    fun idle counts => ?_⟩
  · have same : r = s.program p := by
      rw [State.content_of_active active] at content
      exact (Option.some.inj content).symm
    have target : (u.readingDelay p).target = s.delays[p].target := by
      rw [(works.active active).1]
      exact DelayEngine.corrects_target _ _ _
    obtain ⟨-, -, leaves, -⟩ := u.runProgram_of_active s.delivered p (by rw [program]; exact active)
    rw [program, ← same, runs open_count, frames] at leaves
    obtain ⟨keeps, jumps⟩ := (u.readingDelay p).leaveStates_gain (u.readyGain p).fade (u.readyGain p).selected
      ((u.readyGain p).counted (u.readSamples s.delivered p r)) (s.clock.frames + 1)
    rw [gain, leaves]
    refine ⟨keeps, fun fading ended => ?_⟩
    rw [jumps fading ended, target]
    exact GainStage.jump_jumps _ _
  · obtain ⟨finish, -⟩ := u.runProgram_of_closing s.delivered p r (by rw [program]; exact idle) (held.trans content)
    rw [gain, finish, closes counts]

/-- Settles O24: the law by its arithmetic, the block end by `blockEnd_regains`, the house frame by
`houseFrame_gains_at`. -/
theorem gainMovesOneSlewStep : Obligations.GainMovesOneSlewStep := by
  unfold Obligations.GainMovesOneSlewStep
  refine ⟨fun last desired slew => ⟨towards_near, fun far => ⟨towards_up far, towards_down far⟩,
    fun x level low high => ?_⟩, fun s released due => ?_, fun s released due => ?_⟩
  · obtain ⟨least, most⟩ := x.clamp_within (x.desired level)
    exact towards_within last _ _ _ slew low high least most
  · refine ⟨s.blockEnd, s.blockEndThenSlips, exec_blockEnd_due s released due, s.blockEndThenSlips_makes,
      fun p before after => ?_⟩
    obtain ⟨-, gains, -⟩ := s.blockEndThenSlips_makes.keeps
    rw [State.blockEndThenSlips_program] at after
    rw [gains, State.blockEndThenSlips_program]
    refine ⟨s.blockGain (s.blockMeter p) p, ?_, s.blockEnd_regains p before after _ rfl⟩
    rw [s.blockGain_active _ p before, s.blockMeter_active p before]
    exact GainStage.law_follows _ _ _ _ _
  · exact ⟨s.houseFrame, s.delivered, s.frameNotices.1, s.frameNotices.2, exec_houseFrame_running s released due,
      s.houseFrame_delivers, s.frameNotices_perm, s.houseFrame_gains_at⟩

end Sys2Proof.Machine
end
